-- ==== Sys2Proof/Word.lean ====
section
/-! DEFINITION. The words of the block (spec/00_scope R9): a value of N bits is a `BitVec N`. -/

namespace Sys2Proof

/-- The addressable unit of every space (20_memory R80). -/
abbrev Byte := BitVec 8

/-- A command argument, a result register, an identifier (10_state R21, R22). -/
abbrev Word32 := BitVec 32

/-- A pen, a colour group, a pixel coordinate. -/
abbrev Word16 := BitVec 16

/-- The scheduler's clock (10_state R35). -/
abbrev Word64 := BitVec 64

/-- A command word: 33 bytes (30_encoding R120). -/
abbrev CmdWord := BitVec 264

/-- An RGB triple, red in bits 23 to 16 (10_state R45). -/
abbrev Rgb := BitVec 24

end Sys2Proof
end

