-- ==== Sys2Proof/Syntax.lean ====
section
/-! DEFINITION. The commands of the block: one constructor per row of spec/opcode_table.json
(30_encoding R122). An operand has the width of the field that carries it; a two-bit or wider
enumeration keeps its raw code, because a reserved code is a legal encoding whose effect the command's
own rule gives (30_encoding R123). -/

namespace Sys2Proof

/-- A command with its operands, in the order of R122's "arguments" column. -/
inductive Instr where
  | regdev (tag : Word32) (kind : BitVec 2) (clockHz : Word32)
  | lookup (tag : Word32)
  | region (regionId size imageId : Word32)
  | bankdef (bankId regionId size : Word32)
  | spacedef (spaceId owner : Word32) (aw : BitVec 6)
  | syscfg (masterHz frameHz : Word32) (slices sw sh : Word16)
  | start
  | reset
  | teardown
  | map (spaceId start stop : Word32) (kind : BitVec 3) (p0 p1 : Word32)
  | read (spaceId address : Word32)
  | write (spaceId address : Word32) (byte : Byte)
  | setbank (bankId sourceOffset : Word32)
  | fetch (spaceId address : Word32)
  | portdef (handlerId : Word32) (pk : BitVec 3) (q0 q1 q2 q3 : Word32)
  | poke (regionId offset : Word32) (byte : Byte)
  | assert (cpu line : Word32) (vector : Byte) (hasVector : Bool)
  | clear (cpu line : Word32)
  | pulse (cpu line : Word32)
  | ack (cpu : Word32)
  | lineq (cpu line : Word32)
  | runframe
  | timerset (id delay period : Word32) (act : BitVec 2) (t0 t1 t2 : Word32)
  | tmcreate (layer : Word32) (w h tw th : Word16) (rf gfx : Word32) (smode : BitVec 2) (nent : BitVec 9)
  | markdirty (layer tileIndex : Word32)
  | setscroll (layer rowOrCol : Word32) (dx dy : Word16)
  | tmcomposite (minX minY maxX maxY : Word16) (layer : Word32) (mode : Bool) (pen : Word16)
  | spcfg (regionId base : Word32) (stride count : Word16) (df gfx : Word32) (spw sph : Word16)
      (reverse hasTpen : Bool) (tpen : Word16)
  | spcomposite (minX minY maxX maxY : Word16) (only : Bool) (p : Byte)
  | render
  | setflip (flag : Bool)
  | setpen (group pen paletteIndex : Word32)
  | setpal (index : Word32) (rgb : Rgb)
  | rstep (slot : Word32) (rk : BitVec 2) (ra rb rc : Word32)
  | input (index : Word32) (value : Byte)
  | scramble (value : Byte)
  | snapshot
  | restore
  | savereg (cls : Byte) (id : Word32)
deriving DecidableEq, Repr, Inhabited

end Sys2Proof
end

