-- ==== Sys2Proof/WellFormed.lean ====
section
/-! DEFINITION. Well-formed commands: the ones whose enumerated operands hold a defined member
(30_encoding R123, R126, R127, R132). A command that is not well-formed still decodes and still has
its effect, the configuration error its rule names (log 25). -/

namespace Sys2Proof

/-- The operands hold no reserved value of an enumerated field. -/
def Instr.wellFormed : Instr → Bool
  | .regdev _ kind _ => kind != 3
  | .map _ _ _ kind _ _ => kind.toNat < 6
  | .tmcreate _ _ _ _ _ _ _ smode _ => smode != 3
  | .rstep _ rk _ _ _ => rk != 3
  | .savereg cls _ => cls.toNat ≤ 7
  | .lookup .. => true
  | .region .. => true
  | .bankdef .. => true
  | .spacedef .. => true
  | .syscfg .. => true
  | .start => true
  | .reset => true
  | .teardown => true
  | .read .. => true
  | .write .. => true
  | .setbank .. => true
  | .fetch .. => true
  | .portdef .. => true
  | .poke .. => true
  | .assert .. => true
  | .clear .. => true
  | .pulse .. => true
  | .ack .. => true
  | .lineq .. => true
  | .runframe => true
  | .timerset .. => true
  | .markdirty .. => true
  | .setscroll .. => true
  | .tmcomposite .. => true
  | .spcfg .. => true
  | .spcomposite .. => true
  | .render => true
  | .setflip .. => true
  | .setpen .. => true
  | .setpal .. => true
  | .input .. => true
  | .scramble .. => true
  | .snapshot => true
  | .restore => true

end Sys2Proof
end

