-- ==== Sys2Proof/Decode.lean ====
section
/-! DEFINITION. The decoder of command words and, after it, the encoder (30_encoding R120, R122, R133,
R134). Decoding is total: every 264-bit word is a command or an illegal opcode, every byte list is that
or too short. -/

namespace Sys2Proof

/-- Why bytes are not a command. -/
inductive DecodeError where
  /-- The opcode byte is not in R122 (R123). -/
  | illegalOpcode (op : Byte)
  /-- Fewer than 33 bytes (R134). -/
  | tooShort
deriving DecidableEq, Repr

/-- Bits 7 to 0 of a command word (R120). -/
def opcodeOf (w : CmdWord) : Byte := w.extractLsb' 0 8

/-- `A[n]`: bits 39+32n to 8+32n of a command word (R120). -/
def argOf (w : CmdWord) (n : Nat) : Word32 := w.extractLsb' (8 + 32 * n) 32

/-- `{hi, lo}`'s low half, bits 15 to 0 (R122). -/
def loHalf (a : Word32) : Word16 := a.extractLsb' 0 16

/-- `{hi, lo}`'s high half, bits 31 to 16 (R122). -/
def hiHalf (a : Word32) : Word16 := a.extractLsb' 16 16

/-- A byte operand: bits 7 to 0 of its argument (R133). -/
def byteArg (a : Word32) : Byte := a.extractLsb' 0 8

/-- The command an opcode and its eight arguments stand for (R122), none for a reserved opcode (R123). -/
def decodeArgs (op : Byte) (A : Nat → Word32) : Option Instr :=
  match op.toNat with
  | 0x01 => some (.regdev (A 0) ((A 1).extractLsb' 0 2) (A 2))
  | 0x02 => some (.lookup (A 0))
  | 0x03 => some (.region (A 0) (A 1) (A 2))
  | 0x04 => some (.bankdef (A 0) (A 1) (A 2))
  | 0x05 => some (.spacedef (A 0) (A 1) ((A 2).extractLsb' 0 6))
  | 0x06 => some (.syscfg (A 0) (A 1) (loHalf (A 2)) (loHalf (A 3)) (hiHalf (A 3)))
  | 0x07 => some .start
  | 0x08 => some .reset
  | 0x09 => some .teardown
  | 0x10 => some (.map (A 0) (A 1) (A 2) ((A 3).extractLsb' 0 3) (A 4) (A 5))
  | 0x11 => some (.read (A 0) (A 1))
  | 0x12 => some (.write (A 0) (A 1) (byteArg (A 2)))
  | 0x13 => some (.setbank (A 0) (A 1))
  | 0x14 => some (.fetch (A 0) (A 1))
  | 0x15 => some (.portdef (A 0) ((A 1).extractLsb' 0 3) (A 2) (A 3) (A 4) (A 5))
  | 0x16 => some (.poke (A 0) (A 1) (byteArg (A 2)))
  | 0x20 => some (.assert (A 0) (A 1) (byteArg (A 2)) ((A 2).getLsbD 8))
  | 0x21 => some (.clear (A 0) (A 1))
  | 0x22 => some (.pulse (A 0) (A 1))
  | 0x23 => some (.ack (A 0))
  | 0x24 => some (.lineq (A 0) (A 1))
  | 0x30 => some .runframe
  | 0x31 => some (.timerset (A 0) (A 1) (A 2) ((A 3).extractLsb' 0 2) (A 4) (A 5) (A 6))
  | 0x40 => some (.tmcreate (A 0) (loHalf (A 1)) (hiHalf (A 1)) (loHalf (A 2)) (hiHalf (A 2)) (A 3) (A 4)
      ((A 5).extractLsb' 0 2) ((A 5).extractLsb' 16 9))
  | 0x41 => some (.markdirty (A 0) (A 1))
  | 0x42 => some (.setscroll (A 0) (A 1) (loHalf (A 2)) (loHalf (A 3)))
  | 0x43 => some (.tmcomposite (loHalf (A 0)) (hiHalf (A 0)) (loHalf (A 1)) (hiHalf (A 1)) (A 2)
      ((A 3).getLsbD 0) (loHalf (A 4)))
  | 0x50 => some (.spcfg (A 0) (A 1) (loHalf (A 2)) (hiHalf (A 2)) (A 3) (A 4) (loHalf (A 5)) (hiHalf (A 5))
      ((A 6).getLsbD 0) ((A 6).getLsbD 1) (hiHalf (A 6)))
  | 0x51 => some (.spcomposite (loHalf (A 0)) (hiHalf (A 0)) (loHalf (A 1)) (hiHalf (A 1))
      ((A 2).getLsbD 0) ((A 2).extractLsb' 8 8))
  | 0x60 => some .render
  | 0x61 => some (.setflip ((A 0).getLsbD 0))
  | 0x62 => some (.setpen (A 0) (A 1) (A 2))
  | 0x63 => some (.setpal (A 0) ((A 1).extractLsb' 0 24))
  | 0x64 => some (.rstep (A 0) ((A 1).extractLsb' 0 2) (A 2) (A 3) (A 4))
  | 0x70 => some (.input (A 0) (byteArg (A 1)))
  | 0x71 => some (.scramble (byteArg (A 0)))
  | 0x72 => some .snapshot
  | 0x73 => some .restore
  | 0x74 => some (.savereg (byteArg (A 0)) (A 1))
  | _ => none

/-- The command a command word stands for (R120, R122, R123). -/
def decodeWord (w : CmdWord) : Except DecodeError Instr :=
  match decodeArgs (opcodeOf w) (argOf w) with
  | some i => .ok i
  | none => .error (.illegalOpcode (opcodeOf w))

/-- The number bytes stand for, least significant byte first (R88). -/
def leNat : List Byte → Nat
  | [] => 0
  | b :: bs => b.toNat + 256 * leNat bs

/-- The command word 33 bytes stand for (R120). -/
def wordOf (bytes : List Byte) : CmdWord := BitVec.ofNat 264 (leNat (bytes.take 33))

/-- The command 33 bytes stand for, and the bytes after them (R120, R134). -/
def decode (bytes : List Byte) : Except DecodeError (Instr × List Byte) :=
  if bytes.length < 33 then .error .tooShort
  else
    match decodeWord (wordOf bytes) with
    | .ok i => .ok (i, bytes.drop 33)
    | .error e => .error e

/-- `n` bytes of a number, least significant byte first (R88). -/
def natToLe : Nat → Nat → List Byte
  | 0, _ => []
  | n + 1, v => BitVec.ofNat 8 v :: natToLe n (v / 256)

/-- The 33 bytes of a table word: the low `nbits` bits of `w`, in whole bytes, every bit above them 0
(R120). -/
def tableBytes (nbits w : Nat) : List Byte := (natToLe (nbits / 8) w ++ List.replicate 33 0).take 33

/-- The command the decoder reads from a word of spec/opcode_table.json. -/
def decodeTableWord (nbits w : Nat) : Option Instr :=
  match decode (tableBytes nbits w) with
  | .ok (i, _) => some i
  | .error _ => none

/-! ## The encoder -/

/-- The opcode byte of a command (R122). -/
def Instr.opcode : Instr → Byte
  | .regdev .. => 0x01
  | .lookup .. => 0x02
  | .region .. => 0x03
  | .bankdef .. => 0x04
  | .spacedef .. => 0x05
  | .syscfg .. => 0x06
  | .start => 0x07
  | .reset => 0x08
  | .teardown => 0x09
  | .map .. => 0x10
  | .read .. => 0x11
  | .write .. => 0x12
  | .setbank .. => 0x13
  | .fetch .. => 0x14
  | .portdef .. => 0x15
  | .poke .. => 0x16
  | .assert .. => 0x20
  | .clear .. => 0x21
  | .pulse .. => 0x22
  | .ack .. => 0x23
  | .lineq .. => 0x24
  | .runframe => 0x30
  | .timerset .. => 0x31
  | .tmcreate .. => 0x40
  | .markdirty .. => 0x41
  | .setscroll .. => 0x42
  | .tmcomposite .. => 0x43
  | .spcfg .. => 0x50
  | .spcomposite .. => 0x51
  | .render => 0x60
  | .setflip .. => 0x61
  | .setpen .. => 0x62
  | .setpal .. => 0x63
  | .rstep .. => 0x64
  | .input .. => 0x70
  | .scramble .. => 0x71
  | .snapshot => 0x72
  | .restore => 0x73
  | .savereg .. => 0x74

/-- Two 16-bit halves in one argument, `hi` in bits 31 to 16 (R122). -/
def halves (hi lo : Word16) : Word32 := hi ++ lo

/-- The arguments a command names, `A[0]` first; the ones it does not name are 0 (R120, R122). -/
def Instr.args : Instr → List Word32
  | .regdev tag kind clockHz => [tag, kind.setWidth 32, clockHz]
  | .lookup tag => [tag]
  | .region regionId size imageId => [regionId, size, imageId]
  | .bankdef bankId regionId size => [bankId, regionId, size]
  | .spacedef spaceId owner aw => [spaceId, owner, aw.setWidth 32]
  | .syscfg masterHz frameHz slices sw sh => [masterHz, frameHz, halves 0 slices, halves sh sw]
  | .start => []
  | .reset => []
  | .teardown => []
  | .map spaceId first last kind p0 p1 => [spaceId, first, last, kind.setWidth 32, p0, p1]
  | .read spaceId address => [spaceId, address]
  | .write spaceId address byte => [spaceId, address, byte.setWidth 32]
  | .setbank bankId sourceOffset => [bankId, sourceOffset]
  | .fetch spaceId address => [spaceId, address]
  | .portdef handlerId pk q0 q1 q2 q3 => [handlerId, pk.setWidth 32, q0, q1, q2, q3]
  | .poke regionId offset byte => [regionId, offset, byte.setWidth 32]
  | .assert cpu line vector hasVector => [cpu, line, (0#23 ++ BitVec.ofBool hasVector) ++ vector]
  | .clear cpu line => [cpu, line]
  | .pulse cpu line => [cpu, line]
  | .ack cpu => [cpu]
  | .lineq cpu line => [cpu, line]
  | .runframe => []
  | .timerset id delay period act t0 t1 t2 => [id, delay, period, act.setWidth 32, t0, t1, t2]
  | .tmcreate layer w h tw th rf gfx smode nent =>
      [layer, halves h w, halves th tw, rf, gfx, halves (nent.setWidth 16) (smode.setWidth 16)]
  | .markdirty layer tileIndex => [layer, tileIndex]
  | .setscroll layer rowOrCol dx dy => [layer, rowOrCol, halves 0 dx, halves 0 dy]
  | .tmcomposite minX minY maxX maxY layer mode pen =>
      [halves minY minX, halves maxY maxX, layer, (BitVec.ofBool mode).setWidth 32, halves 0 pen]
  | .spcfg regionId base stride count df gfx spw sph reverse hasTpen tpen =>
      [regionId, base, halves count stride, df, gfx, halves sph spw,
        halves tpen ((BitVec.ofBool hasTpen ++ BitVec.ofBool reverse).setWidth 16)]
  | .spcomposite minX minY maxX maxY only p =>
      [halves minY minX, halves maxY maxX, halves 0 (p ++ (BitVec.ofBool only).setWidth 8)]
  | .render => []
  | .setflip flag => [(BitVec.ofBool flag).setWidth 32]
  | .setpen group pen paletteIndex => [group, pen, paletteIndex]
  | .setpal index rgb => [index, rgb.setWidth 32]
  | .rstep slot rk ra rb rc => [slot, rk.setWidth 32, ra, rb, rc]
  | .input index value => [index, value.setWidth 32]
  | .scramble value => [value.setWidth 32]
  | .snapshot => []
  | .restore => []
  | .savereg cls id => [cls.setWidth 32, id]

/-- An argument in its place in a command word: bits 39+32n to 8+32n (R120). -/
def placeArg (n : Nat) (a : Word32) : CmdWord := a.setWidth 264 <<< (8 + 32 * n)

/-- A command word from its opcode and its eight arguments (R120). -/
def packWord (op : Byte) (A : Nat → Word32) : CmdWord :=
  op.setWidth 264 ||| placeArg 0 (A 0) ||| placeArg 1 (A 1) ||| placeArg 2 (A 2) ||| placeArg 3 (A 3) |||
    placeArg 4 (A 4) ||| placeArg 5 (A 5) ||| placeArg 6 (A 6) ||| placeArg 7 (A 7)

/-- The command word of a command (R120): what it does not name is 0. -/
def encode (i : Instr) : CmdWord := packWord i.opcode fun n => i.args.getD n 0

/-- The 33 bytes of a command, in transmission order (R120). -/
def encodeBytes (i : Instr) : List Byte := natToLe 33 (encode i).toNat

/-! ## Pseudo-instructions (R136) -/

/-- `MARKALL layer=L` for a grid of `cells` cells. -/
def expandMarkAll (layer : Word32) (cells : Nat) : List Instr :=
  (List.range cells).map fun t => .markdirty layer (BitVec.ofNat 32 t)

/-- `SCROLLALL layer=L, dx, dy` for a layer of `nent` scroll entries. -/
def expandScrollAll (layer : Word32) (nent : Nat) (dx dy : Word16) : List Instr :=
  (List.range nent).map fun e => .setscroll layer (BitVec.ofNat 32 e) dx dy

/-- `PERIODIC id=n, hz=f, ...`: a TIMERSET with delay and period `MASTER_HZ div f`. -/
def expandPeriodic (id masterHz hz : Word32) (act : BitVec 2) (t0 t1 t2 : Word32) : Instr :=
  .timerset id (masterHz / hz) (masterHz / hz) act t0 t1 t2

/-- `VBLANKIRQ id=n, cpu=c, line=l`: a periodic Pulse once a frame (43_scheduler R239). -/
def expandVblankIrq (id masterHz frameHz cpu line : Word32) : Instr :=
  expandPeriodic id masterHz frameHz 0 cpu line 0

end Sys2Proof
end

