-- ==== Sys2Proof/Config.lean ====
section
/-! DEFINITION. What an implementation fixes and what the spec leaves open (spec/00_scope R8,
spec/93_implementation_defined.md): the instance parameters that are plain data, the types the
oracles speak, and one opaque constant for every function-valued parameter and every free value. -/

namespace Sys2Proof

/-- How an out-of-range index is brought into range (44_tilemap R269, conflict C3). -/
inductive OorPolicy where
  | wrap
  | saturate
deriving DecidableEq, Repr, Inhabited

/-- The sizes of one graphics decode table (44_tilemap R262). -/
structure GfxDim where
  ncodes : Nat
  ngbank : Nat
  npen : Nat
deriving DecidableEq, Repr, Inhabited

/-- The plain-data parameters of 00_scope R8. `State.params` carries them (log 1); no command writes
them. Lists indexed by a handle read a default past their end; `resolveIds`, `decodeIds`, `extIds`,
`gfx` and `romimg` say which functions, tables and images exist. -/
structure Params where
  openBus : Byte
  oorPolicy : OorPolicy
  ndev : Nat
  nspace : Nat
  nregion : Nat
  nbank : Nat
  nhandler : Nat
  ntimer : Nat
  nlatch : Nat
  nin : Nat
  nrstep : Nat
  nsave : Nat
  nentry : Nat
  nlayer : Nat
  ngroup : Nat
  npens : Nat
  npal : Nat
  nline : List Nat
  resetPc : List Word32
  samples : List Word32
  romimg : List (Nat × List Byte)
  resolveIds : List Nat
  decodeIds : List Nat
  extIds : List Nat
  gfx : List (Nat × GfxDim)
  scr : List Byte
deriving DecidableEq, Repr, Inhabited

namespace Params

/-- `NLINE[c]` (00_scope R8). -/
def nlineOf (p : Params) (c : Nat) : Nat := p.nline.getD c 2

/-- `RESET_PC[c]` (00_scope R8). -/
def resetPcOf (p : Params) (c : Nat) : Word32 := p.resetPc.getD c 0

/-- `SAMPLES[d]` (00_scope R8). -/
def samplesOf (p : Params) (d : Nat) : Word32 := p.samples.getD d 0

/-- `SCR[v]` (47_host R331). -/
def scrOf (p : Params) (v : Byte) : Byte := p.scr.getD v.toNat 0

/-- `ROMIMG[j]`, if the loader supplies it (40_config R152). -/
def romimgOf (p : Params) (j : Nat) : Option (List Byte) := p.romimg.lookup j

/-- The sizes of `GFX[g]`, if it exists (44_tilemap R262). -/
def gfxOf (p : Params) (g : Nat) : Option GfxDim := p.gfx.lookup g

/-- The legal values of 00_scope R8, with `NPEN[g] ≤ NPENS` (44_tilemap R262). Function and table
numbers fit the 8-bit fields that hold them (10_state R38, R42). -/
structure Legal (p : Params) : Prop where
  ndev : 1 ≤ p.ndev ∧ p.ndev ≤ 256
  nspace : 1 ≤ p.nspace ∧ p.nspace ≤ 256
  nregion : 1 ≤ p.nregion ∧ p.nregion ≤ 256
  nbank : 1 ≤ p.nbank ∧ p.nbank ≤ 256
  nhandler : 1 ≤ p.nhandler ∧ p.nhandler ≤ 256
  ntimer : 1 ≤ p.ntimer ∧ p.ntimer ≤ 256
  nlatch : 1 ≤ p.nlatch ∧ p.nlatch ≤ 256
  nin : 1 ≤ p.nin ∧ p.nin ≤ 256
  nrstep : 1 ≤ p.nrstep ∧ p.nrstep ≤ 256
  nsave : 1 ≤ p.nsave ∧ p.nsave ≤ 256
  nentry : 1 ≤ p.nentry ∧ p.nentry ≤ 65536
  nlayer : 1 ≤ p.nlayer ∧ p.nlayer ≤ 16
  ngroup : 1 ≤ p.ngroup ∧ p.ngroup ≤ 65536
  npens : 1 ≤ p.npens ∧ p.npens ≤ 65536
  npal : 1 ≤ p.npal ∧ p.npal ≤ 65536
  nline : ∀ n ∈ p.nline, 2 ≤ n ∧ n ≤ 256
  resolveIds : ∀ n ∈ p.resolveIds, n < 256
  decodeIds : ∀ n ∈ p.decodeIds, n < 256
  gfx : ∀ e ∈ p.gfx, e.1 < 256 ∧ 1 ≤ e.2.ncodes ∧ 1 ≤ e.2.ngbank ∧ 1 ≤ e.2.npen ∧ e.2.npen ≤ p.npens
  scr : p.scr.length = 256

/-- The nearest number from `lo` to `hi`. -/
def clamp (lo hi n : Nat) : Nat := max lo (min hi n)

/-- Every parameter brought into its legal range; a legal instance stays as it is (log 14). -/
def clamped (p : Params) : Params :=
  { p with
    ndev := clamp 1 256 p.ndev
    nspace := clamp 1 256 p.nspace
    nregion := clamp 1 256 p.nregion
    nbank := clamp 1 256 p.nbank
    nhandler := clamp 1 256 p.nhandler
    ntimer := clamp 1 256 p.ntimer
    nlatch := clamp 1 256 p.nlatch
    nin := clamp 1 256 p.nin
    nrstep := clamp 1 256 p.nrstep
    nsave := clamp 1 256 p.nsave
    nentry := clamp 1 65536 p.nentry
    nlayer := clamp 1 16 p.nlayer
    ngroup := clamp 1 65536 p.ngroup
    npens := clamp 1 65536 p.npens
    npal := clamp 1 65536 p.npal
    nline := p.nline.map (clamp 2 256)
    resolveIds := p.resolveIds.filter (· < 256)
    decodeIds := p.decodeIds.filter (· < 256)
    gfx := (p.gfx.filter (·.1 < 256)).map fun e =>
      (e.1, ⟨max 1 e.2.ncodes, max 1 e.2.ngbank, clamp 1 (clamp 1 65536 p.npens) e.2.npen⟩)
    scr := (List.range 256).map fun n => p.scr.getD n 0 }

end Params

/-- The Tile `resolve_fn` returns (44_tilemap R261, conflict C4). -/
structure Tile where
  code : Word32
  color : Word16
  flipX : Bool
  flipY : Bool
  priority : Byte
deriving DecidableEq, Repr, Inhabited

/-- The sprite record `decode_fn` returns (45_sprite R291, conflict C5); `x` and `y` are signed. -/
structure SpriteRec where
  code : Word32
  x : Word16
  y : Word16
  flipX : Bool
  flipY : Bool
  color : Word16
  priority : Byte
  bank : Byte
  enabled : Bool
deriving DecidableEq, Repr, Inhabited

/-- What a CPU unit observes (43_scheduler R233): the calls `set_pc` and `set_irq_line`, the start of
a `step` with its budget, and the answers to its own commands. -/
inductive CpuObs where
  | setPc (addr : Word32)
  | irqLine (line : Nat) (level : Bool)
  | step (budget : Word32)
  | readReply (v : Byte)
  | writeReply
  | ackReply (v : Byte) (r1 : Word32)
  | refusedReply
deriving DecidableEq, Repr, Inhabited

/-- What a CPU unit does next inside a `step` (43_scheduler R233): it issues the command word `cmd`, or,
when `cmd` is none, it returns `consumed`. -/
structure CpuTurn where
  cmd : Option CmdWord
  consumed : Word32
deriving DecidableEq, Repr, Inhabited

namespace Config

/-- The instance before it is put into range: any value of the type. -/
opaque rawParams : Params

/-- The instance `State.reset` is a reset of: some legal parameters, which ones nothing says (log 1). -/
def params : Params := rawParams.clamped

/-- FREE VALUE (93 U1, log 6): the byte at a memory key under one draw. -/
opaque freeByte : Nat → Nat → Byte

/-- FREE VALUE (93 U2, log 7): two numbers for a frame-buffer pixel under one draw. -/
opaque freePixel : Nat → Nat → Word16 × Word16

/-- FREE VALUE (93 U4, log 8): the tile-cache entry of a layer and cell under one draw. -/
opaque freeTile : Nat → Nat → Nat → Tile

/-- `VECFN[c]`, present or absent, from the bit set of active lines to a byte (42_interrupt R203). -/
opaque vecfn : Nat → Option (Nat → Byte)

/-- `resolve_fn[f]` of a cell and of a view of every region's bytes (44_tilemap R261). -/
opaque resolve : Nat → Nat → (Nat → Nat → Option Byte) → Tile

/-- `GFX[g]` of bank, code, row and column, before it is put below `NPEN[g]` (44_tilemap R262). -/
opaque gfxPen : Nat → Nat → Nat → Nat → Nat → Nat

/-- `decode_fn[f]` of a record index and the record's bytes (45_sprite R291). -/
opaque decode : Nat → Nat → List Byte → SpriteRec

/-- `CPU[c]`: its next turn, from everything it has observed, newest first (43_scheduler R233, log 10). -/
opaque cpu : Nat → List CpuObs → CpuTurn

/-- A bound on the commands `CPU[c]` issues in the `step` that begins with these observations: R233 says
the sequence is finite (log 10). -/
opaque cpuBound : Nat → List CpuObs → Nat

end Config

end Sys2Proof
end

