-- ==== Sys2Proof/Machine/State.lean ====
section
/-! DEFINITION. The state of the block (spec/10_state.md R20 to R55), the reasons a step could stop, and
the machine right after power-on (spec/70_reset_and_hazards.md R390). -/

namespace Sys2Proof.Machine

/-- Reasons to stop with a fault. The spec has none: its configuration errors, refusals, soft faults and
fatal errors all leave a next state (60_exceptions R351 to R354), so the type is empty and nobody raises
it (log 23; safe). -/
inductive Fault where
deriving DecidableEq, Repr

/-- Reasons to refuse an instruction. -/
inductive Refusal where
  /-- Raised by `exec`'s arm of an instruction that has no meaning yet, by its mnemonic; safe. No arm
  raises it now. -/
  | notModelled (mnemonic : String)
deriving DecidableEq, Repr

/-- The life-cycle phase (10_state R20). -/
inductive Phase where
  | config
  | run
  | fatal
  | down
deriving DecidableEq, Repr, Inhabited

/-- The kind of a device (30_encoding R127). -/
inductive DevKind where
  | cpu
  | sound
  | other
deriving DecidableEq, Repr, Inhabited

/-- A registered device (10_state R25). -/
structure Device where
  tag : Word32
  kind : DevKind
  clockHz : Word32
deriving DecidableEq, Repr, Inhabited

/-- A backing store without its bytes (10_state R26). `gen` is the model's own: the draw that gave the
region the bytes the spec leaves unspecified (log 6). -/
structure Region where
  valid : Bool
  size : Word32
  img : Bool
  gen : Nat
deriving DecidableEq, Repr, Inhabited

/-- A bank window (10_state R27). -/
structure Bank where
  valid : Bool
  region : Byte
  size : Word32
  offset : Word32
deriving DecidableEq, Repr, Inhabited

/-- An address space (10_state R28). -/
structure Space where
  valid : Bool
  owner : Byte
  aw : BitVec 6
deriving DecidableEq, Repr, Inhabited

/-- `access_kind` (30_encoding R126). -/
inductive AccessKind where
  | rom
  | ram
  | bankedRom
  | readHandler
  | writeHandler
  | readWriteHandler
deriving DecidableEq, Repr, Inhabited

/-- A registered address range (10_state R29); `stop` is the spec's inclusive `end`. -/
structure Entry where
  space : Byte
  start : Word32
  stop : Word32
  kind : AccessKind
  p0 : Word32
  p1 : Word32
deriving DecidableEq, Repr, Inhabited

/-- The port kind (30_encoding R131). -/
inductive PortKind where
  | ext
  | tileram
  | banksel
  | irqack
  | scroll
  | latch
  | flip
  | input
deriving DecidableEq, Repr, Inhabited

/-- A handler instance (10_state R30). -/
structure Port where
  valid : Bool
  pk : PortKind
  q0 : Word32
  q1 : Word32
  q2 : Word32
  q3 : Word32
deriving DecidableEq, Repr, Inhabited

/-- The state of an interrupt line (30_encoding R128). -/
inductive LineState where
  | idle
  | pending
  | acknowledged
  | asserted
deriving DecidableEq, Repr, Inhabited

/-- An interrupt line (10_state R33). -/
structure Line where
  st : LineState
  hasvec : Bool
  vec : Byte
deriving DecidableEq, Repr, Inhabited

/-- A timer's action (30_encoding R130). -/
inductive TimerAct where
  | pulse
  | assert
  | clear
  | callback
deriving DecidableEq, Repr, Inhabited

/-- A timer-wheel entry (10_state R37). -/
structure Timer where
  armed : Bool
  deadline : Word64
  period : Word32
  act : TimerAct
  t0 : Word32
  t1 : Word32
  t2 : Word32
deriving DecidableEq, Repr, Inhabited

/-- The scroll mode of a layer (30_encoding R132). -/
inductive ScrollMode where
  | whole
  | rows
  | cols
deriving DecidableEq, Repr, Inhabited

/-- A tilemap layer's configuration (10_state R38). -/
structure Layer where
  valid : Bool
  w : Word16
  h : Word16
  tw : Word16
  th : Word16
  rf : Byte
  gfx : Byte
  smode : ScrollMode
  nent : BitVec 9
deriving DecidableEq, Repr, Inhabited

/-- A scroll entry (10_state R39). -/
structure Scroll where
  dx : Word16
  dy : Word16
deriving DecidableEq, Repr, Inhabited

/-- The sprite compositor's configuration (10_state R42). -/
structure SpriteCfg where
  valid : Bool
  region : Byte
  base : Word32
  stride : Word16
  count : Word16
  df : Byte
  gfx : Byte
  spw : Word16
  sph : Word16
  reverse : Bool
  hasTpen : Bool
  tpen : Word16
deriving DecidableEq, Repr, Inhabited

/-- A frame-buffer pixel: colour group and pen (10_state R43). -/
structure Pixel where
  g : Word16
  p : Word16
deriving DecidableEq, Repr, Inhabited

/-- The kind of a render step (30_encoding R132). -/
inductive RenderKind where
  | fill
  | layer
  | sprites
deriving DecidableEq, Repr, Inhabited

/-- A slot of the render list (10_state R47). -/
structure RStep where
  valid : Bool
  rk : RenderKind
  ra : Word32
  rb : Word32
  rc : Word32
deriving DecidableEq, Repr, Inhabited

/-- The class of a state-save variable (30_encoding R132). -/
inductive SaveClass where
  | region
  | bank
  | scroll
  | flip
  | latches
  | lines
  | palette
  | lookup
deriving DecidableEq, Repr, Inhabited

/-- An item of the save list (10_state R49). -/
structure SaveItem where
  cls : SaveClass
  id : Word32
deriving DecidableEq, Repr, Inhabited

/-- An event of the output stream (10_state R48). -/
inductive Event where
  | diag (code : Byte) (a b : Nat)
  | irqLine (cpu line : Nat) (level : Bool)
  | setPc (cpu : Nat) (addr : Word32)
  | ack (cpu line : Nat) (vec : Byte)
  | timerFire (n : Nat)
  | frame (bitmap : List (List Rgb))
  | samples (dev : Nat) (count : Word32)
  | fatal (code : Byte)
deriving DecidableEq, Repr

/-- A command on the host's side of the interface: the command word and the payload carried beside it
(30_encoding R120, R121). -/
structure HostCmd where
  word : CmdWord
  payload : List Byte
deriving DecidableEq, Repr, Inhabited

/-- The whole block: the state of 10_state R20 to R49, and after it the model's own fields (log 1 to
log 11, log 22). Tables are lists; a slot table has its capacity as its length (log 18). -/
structure State where
  phase : Phase
  status : Byte
  r0 : Word32
  r1 : Word32
  cfgErr : Byte
  fatalCode : Byte
  dev : List Device
  regions : List Region
  mem : List Host.Cell
  banks : List Bank
  spaces : List Space
  entries : List Entry
  ports : List Port
  latch : List Byte
  inp : List Byte
  lines : List (List Line)
  masterHz : Word32
  frameHz : Word32
  slices : Word16
  sw : BitVec 15
  sh : BitVec 15
  syscfgDone : Bool
  now : Word64
  frameStart : Word64
  frameCount : Word32
  k : Word16
  i : Byte
  inFrame : Bool
  inHandler : Bool
  carry : List Word32
  timers : List Timer
  layers : List Layer
  scroll : List (List Scroll)
  dirty : List (List Bool)
  cache : List (List Tile)
  spr : SpriteCfg
  fb : List Pixel
  flip : Bool
  palette : List Rgb
  lookup : List Word16
  rsteps : List RStep
  save : List SaveItem
  events : List Event
  params : Params
  inq : List HostCmd
  payloadIn : List Byte
  payloadOut : List Byte
  freeCtr : Nat
  cpuObs : List (List CpuObs)
  extMem : Nat
deriving DecidableEq, Repr

/-- A line from REGDEV on (10_state R33). -/
def idleLine : Line := ⟨.idle, false, 0⟩

/-- A disarmed timer at power-on; its other fields are unspecified and zero here (10_state R37, log 9). -/
def disarmedTimer : Timer := ⟨false, 0, 0, .pulse, 0, 0, 0⟩

/-- An invalid region slot (70_reset R390). R390 says only that the slots of the tables are invalid at power-on: the
other fields of this one and of the six below, 0 or the first name of their type, are the model's DESIGN CHOICE
(log 27). -/
def noRegion : Region := ⟨false, 0, false, 0⟩
/-- An invalid bank slot; its other fields are a DESIGN CHOICE (log 27). -/
def noBank : Bank := ⟨false, 0, 0, 0⟩
/-- An invalid space slot; its other fields are a DESIGN CHOICE (log 27). -/
def noSpace : Space := ⟨false, 0, 0⟩
/-- An invalid port slot; its other fields are a DESIGN CHOICE (log 27). -/
def noPort : Port := ⟨false, .ext, 0, 0, 0, 0⟩
/-- An invalid layer slot; its other fields are a DESIGN CHOICE (log 27). -/
def noLayer : Layer := ⟨false, 0, 0, 0, 0, 0, 0, .whole, 0⟩
/-- An invalid render slot; its other fields are a DESIGN CHOICE (log 27). -/
def noRStep : RStep := ⟨false, .fill, 0, 0, 0⟩
/-- The sprite configuration before SPCFG, invalid; its other fields are a DESIGN CHOICE (log 27). -/
def noSpriteCfg : SpriteCfg := ⟨false, 0, 0, 0, 0, 0, 0, 0, 0, false, false, 0⟩

/-- The block of instance `p` right after power-on (70_reset R390). The fields that R390 does not give are the
model's: log 9 (timers), log 22 (the model's own fields), log 27 (invalid slots). -/
def State.powerOn (p : Params) : State where
  phase := .config
  status := 0
  r0 := 0
  r1 := 0
  cfgErr := 0
  fatalCode := 0
  dev := []
  regions := List.replicate p.nregion noRegion
  mem := []
  banks := List.replicate p.nbank noBank
  spaces := List.replicate p.nspace noSpace
  entries := []
  ports := List.replicate p.nhandler noPort
  latch := List.replicate p.nlatch 0
  inp := List.replicate p.nin 0
  lines := []
  masterHz := 0
  frameHz := 0
  slices := 0
  sw := 0
  sh := 0
  syscfgDone := false
  now := 0
  frameStart := 0
  frameCount := 0
  k := 0
  i := 0
  inFrame := false
  inHandler := false
  carry := []
  timers := List.replicate p.ntimer disarmedTimer
  layers := List.replicate p.nlayer noLayer
  scroll := List.replicate p.nlayer []
  dirty := List.replicate p.nlayer []
  cache := List.replicate p.nlayer []
  spr := noSpriteCfg
  fb := []
  flip := false
  palette := List.replicate p.npal 0
  lookup := List.replicate (p.ngroup * p.npens) 0
  rsteps := List.replicate p.nrstep noRStep
  save := []
  events := []
  params := p
  inq := []
  payloadIn := []
  payloadOut := []
  freeCtr := 0
  cpuObs := []
  extMem := 0

/-- The machine right after reset: power-on of an instance nothing is known of but that it is legal
(00_scope R8, 70_reset R390, log 1). -/
def State.reset : State := State.powerOn Config.params

end Sys2Proof.Machine
end

