-- ==== Sys2Proof/Machine/CommandPort.lean ====
section
/-! DEFINITION. The host's side of the command interface (spec/30_encoding.md R120, R121): taking the next
command the host has presented, with the payload beside it (log 2, log 4). -/

namespace Sys2Proof.Machine

/-- The next command word, and the block with that command taken; none when the host has presented
nothing. -/
def takeCommand (s : State) : Option (CmdWord × State) :=
  match s.inq with
  | [] => none
  | c :: rest => some (c.word, { s with inq := rest, payloadIn := c.payload })

/-- A command word presented before everything else the host has presented, the payload register kept. -/
def presentWord (w : CmdWord) (s : State) : State := { s with inq := ⟨w, s.payloadIn⟩ :: s.inq }

end Sys2Proof.Machine
end

