-- ==== Sys2Proof/Machine/Codes.lean ====
section
/-! DEFINITION. The outcome codes (60_exceptions R350). -/

namespace Sys2Proof.Machine

/-- The command completed. -/
def codeOk : Byte := 0x00
/-- REGDEV with a tag already registered. -/
def codeDuplicateTag : Byte := 0x10
/-- LOOKUP of an absent tag. -/
def codeUnknownDevice : Byte := 0x11
/-- A bank that names no region, or a range that names no bank. -/
def codeUnresolvableBank : Byte := 0x12
/-- An image longer than its region, or a range past its region's end. -/
def codeRegionOverflow : Byte := 0x13
/-- A range that is empty, too wide, or longer than its window. -/
def codeBadRange : Byte := 0x14
/-- A reserved value of an enumerated field. -/
def codeBadKind : Byte := 0x15
/-- An identifier that names nothing, a full table, an item defined twice. -/
def codeBadId : Byte := 0x16
/-- A numeric operand outside its legal range. -/
def codeBadParam : Byte := 0x17
/-- A command in the wrong one of Config and Run. -/
def codePhaseError : Byte := 0x18
/-- A command its issuer may not issue. -/
def codeNotPermitted : Byte := 0x19
/-- An opcode value with no command. -/
def codeIllegalOpcode : Byte := 0x1A
/-- Any command after TEARDOWN. -/
def codeDown : Byte := 0x1B
/-- START before SYSCFG or with no CPU. -/
def codeIncomplete : Byte := 0x1C
/-- Soft: a read that nothing maps. -/
def codeUnmappedRead : Byte := 0x20
/-- Soft: a write that nothing maps. -/
def codeUnmappedWrite : Byte := 0x21
/-- Soft: an index brought into range. -/
def codeIndexOutOfRange : Byte := 0x22
/-- Fatal: a handler re-entering the scheduler. -/
def codeReentry : Byte := 0x30
/-- Fatal: a colour group that does not exist. -/
def codeColorOutOfRange : Byte := 0x31
/-- Fatal: a slice with a negative budget. -/
def codeNegativeCycles : Byte := 0x32

end Sys2Proof.Machine
end

