-- ==== Sys2Proof/Machine/Env.lean ====
section
/-! DEFINITION. The environment: every function-valued parameter and every free value of the block as one
record (00_scope R8, R50), so that the operations are functions of it and a reader can run them on an
environment of his own. `Config.env` is the one the machine has: its fields are the opaque constants of
Config, of which nothing is known. -/

namespace Sys2Proof.Machine

/-- What an external handler is called for (41_address_space R181). -/
inductive ExtEvent where
  | read (a o : Nat)
  | write (a o : Nat) (w : Byte)
  | timer (n : Nat)
deriving DecidableEq, Repr, Inhabited

/-- What an external handler answers: the byte, the command words, and the memory it keeps
(41_address_space R181, log 11). -/
structure ExtReply where
  v : Byte
  cmds : List CmdWord
  mem : Nat
deriving DecidableEq, Repr, Inhabited

/-- The oracles, the function-valued parameters and the free values. -/
structure Env where
  freeByte : Nat → Nat → Byte
  freePixel : Nat → Nat → Word16 × Word16
  freeTile : Nat → Nat → Nat → Tile
  vecfn : Nat → Option (Nat → Byte)
  resolve : Nat → Nat → (Nat → Nat → Option Byte) → Tile
  gfxPen : Nat → Nat → Nat → Nat → Nat → Nat
  decode : Nat → Nat → List Byte → SpriteRec
  cpu : Nat → List CpuObs → CpuTurn
  cpuBound : Nat → List CpuObs → Nat
  ext : Nat → ExtEvent → State → ExtReply

end Sys2Proof.Machine

namespace Sys2Proof.Config

/-- `EXT[e]` of an event and a read-only view of the block (41_address_space R181, log 11). -/
opaque ext : Nat → Machine.ExtEvent → Machine.State → Machine.ExtReply

/-- The environment of the machine. -/
def env : Machine.Env where
  freeByte := freeByte
  freePixel := freePixel
  freeTile := freeTile
  vecfn := vecfn
  resolve := resolve
  gfxPen := gfxPen
  decode := decode
  cpu := cpu
  cpuBound := cpuBound
  ext := ext

end Sys2Proof.Config
end

