-- ==== Sys2Proof/Machine/Operands.lean ====
section
/-! DEFINITION. Operand forms (30_encoding R124 to R133): the enumerations an operand's code stands for,
the clip rectangle, which table slots exist, and the legality of each command by phase and issuer. -/

namespace Sys2Proof.Machine

/-! ## Enumerations -/

/-- Device `kind` (R127); 3 is reserved. -/
def devKindOf (b : BitVec 2) : Option DevKind :=
  match b.toNat with
  | 0 => some .cpu
  | 1 => some .sound
  | 2 => some .other
  | _ => none

/-- `access_kind` (R126); 6 and 7 are reserved. -/
def accessKindOf (b : BitVec 3) : Option AccessKind :=
  match b.toNat with
  | 0 => some .rom
  | 1 => some .ram
  | 2 => some .bankedRom
  | 3 => some .readHandler
  | 4 => some .writeHandler
  | 5 => some .readWriteHandler
  | _ => none

/-- Port kind `pk` (R131); every code is defined. -/
def portKindOf (b : BitVec 3) : PortKind :=
  match b.toNat with
  | 0 => .ext
  | 1 => .tileram
  | 2 => .banksel
  | 3 => .irqack
  | 4 => .scroll
  | 5 => .latch
  | 6 => .flip
  | _ => .input

/-- Timer action `act` (R130); every code is defined. -/
def timerActOf (b : BitVec 2) : TimerAct :=
  match b.toNat with
  | 0 => .pulse
  | 1 => .assert
  | 2 => .clear
  | _ => .callback

/-- Scroll mode `smode` (R132); 3 is reserved. -/
def scrollModeOf (b : BitVec 2) : Option ScrollMode :=
  match b.toNat with
  | 0 => some .whole
  | 1 => some .rows
  | 2 => some .cols
  | _ => none

/-- Render step kind `rk` (R132); 3 is reserved. -/
def renderKindOf (b : BitVec 2) : Option RenderKind :=
  match b.toNat with
  | 0 => some .fill
  | 1 => some .layer
  | 2 => some .sprites
  | _ => none

/-- Save class (R132); other values are reserved. -/
def saveClassOf (b : Byte) : Option SaveClass :=
  match b.toNat with
  | 0 => some .region
  | 1 => some .bank
  | 2 => some .scroll
  | 3 => some .flip
  | 4 => some .latches
  | 5 => some .lines
  | 6 => some .palette
  | 7 => some .lookup
  | _ => none

/-- The two-bit code of a line state (R128). -/
def lineStateCode : LineState → Nat
  | .idle => 0
  | .pending => 1
  | .acknowledged => 2
  | .asserted => 3

/-- The line state of a two-bit code (R128). -/
def lineStateOf (n : Nat) : LineState :=
  match n with
  | 0 => .idle
  | 1 => .pending
  | 2 => .acknowledged
  | _ => .asserted

/-! ## Table slots -/

/-- Slot r of the regions; past the table it is invalid. -/
def regionAt (s : State) (r : Nat) : Region := s.regions.getD r noRegion
/-- Slot b of the banks. -/
def bankAt (s : State) (b : Nat) : Bank := s.banks.getD b noBank
/-- Slot n of the spaces. -/
def spaceAt (s : State) (n : Nat) : Space := s.spaces.getD n noSpace
/-- Slot h of the ports. -/
def portAt (s : State) (h : Nat) : Port := s.ports.getD h noPort
/-- Slot L of the layers. -/
def layerAt (s : State) (L : Nat) : Layer := s.layers.getD L noLayer
/-- Slot n of the timers. -/
def timerAt (s : State) (n : Nat) : Timer := s.timers.getD n disarmedTimer

/-- Region r exists: r < NREGION and its slot is valid. -/
def regionOk (s : State) (r : Nat) : Bool := decide (r < s.params.nregion) && (regionAt s r).valid
/-- Bank b exists. -/
def bankOk (s : State) (b : Nat) : Bool := decide (b < s.params.nbank) && (bankAt s b).valid
/-- Space n exists. -/
def spaceOk (s : State) (n : Nat) : Bool := decide (n < s.params.nspace) && (spaceAt s n).valid
/-- Port h exists. -/
def portOk (s : State) (h : Nat) : Bool := decide (h < s.params.nhandler) && (portAt s h).valid
/-- Layer L exists. -/
def layerOk (s : State) (L : Nat) : Bool := decide (L < s.params.nlayer) && (layerAt s L).valid

/-- Handle c names a device of kind CPU. -/
def isCpu (s : State) (c : Nat) : Bool := (s.dev[c]?).any fun d => d.kind == .cpu

/-- `LineOk(c, l)` (42_interrupt R207). -/
def lineOk (s : State) (c l : Nat) : Bool := isCpu s c && decide (l < s.params.nlineOf c)

/-- The handles of kind CPU, ascending. -/
def cpuHandles (s : State) : List Nat := (List.range s.dev.length).filter (isCpu s)

/-- The handles of kind SOUND, ascending. -/
def soundHandles (s : State) : List Nat :=
  (List.range s.dev.length).filter fun d => (s.dev[d]?).any fun v => v.kind == .sound

/-! ## The clip rectangle (R133) -/

/-- An inclusive rectangle of screen pixels. -/
structure Clip where
  x0 : Nat
  y0 : Nat
  x1 : Nat
  y1 : Nat
deriving DecidableEq, Repr, Inhabited

/-- The clip rectangle of a command, its maxima cut to the screen (44_tilemap R266, 45_sprite R292). -/
def clipOf (s : State) (minX minY maxX maxY : Nat) : Clip :=
  ⟨minX, minY, min maxX (s.sw.toNat - 1), min maxY (s.sh.toNat - 1)⟩

/-- Pixel (x, y) lies in the rectangle. -/
def clipHas (c : Clip) (x y : Nat) : Bool :=
  decide (c.x0 ≤ x) && decide (x ≤ c.x1) && decide (c.y0 ≤ y) && decide (y ≤ c.y1)

/-! ## Who may issue what, and when -/

/-- The phases a command is legal in (R124). -/
inductive Legality where
  | configOnly
  | runOnly
  | configRun
  | untilDown
deriving DecidableEq, Repr

/-- A command of this legality may run in this phase (R124). -/
def legalIn : Legality → Phase → Bool
  | .configOnly, .config => true
  | .runOnly, .run => true
  | .configRun, .config => true
  | .configRun, .run => true
  | .untilDown, .config => true
  | .untilDown, .run => true
  | .untilDown, .fatal => true
  | _, _ => false

/-- The phase table (R124). -/
def legality : Instr → Legality
  | .regdev .. => .configOnly
  | .lookup .. => .configRun
  | .region .. => .configOnly
  | .bankdef .. => .configOnly
  | .spacedef .. => .configOnly
  | .syscfg .. => .configOnly
  | .start => .configOnly
  | .reset => .runOnly
  | .teardown => .untilDown
  | .map .. => .configOnly
  | .read .. => .runOnly
  | .write .. => .runOnly
  | .setbank .. => .configRun
  | .fetch .. => .runOnly
  | .portdef .. => .configOnly
  | .poke .. => .configRun
  | .assert .. => .runOnly
  | .clear .. => .runOnly
  | .pulse .. => .runOnly
  | .ack .. => .runOnly
  | .lineq .. => .configRun
  | .runframe => .runOnly
  | .timerset .. => .runOnly
  | .tmcreate .. => .configOnly
  | .markdirty .. => .configRun
  | .setscroll .. => .configRun
  | .tmcomposite .. => .runOnly
  | .spcfg .. => .configOnly
  | .spcomposite .. => .runOnly
  | .render => .runOnly
  | .setflip .. => .configRun
  | .setpen .. => .configRun
  | .setpal .. => .configRun
  | .rstep .. => .configOnly
  | .input .. => .configRun
  | .scramble .. => .configRun
  | .snapshot => .runOnly
  | .restore => .runOnly
  | .savereg .. => .configOnly

end Sys2Proof.Machine
end

