-- ==== Sys2Proof/Machine/Flags.lean ====
section
/-! DEFINITION. The flags of the block (10_state R51): the interrupt-line states and their transitions
(42_interrupt R204, R207), the bits an acknowledge reads, and the dirty bits. -/

namespace Sys2Proof.Machine

/-- A line is active when it is Pending or Asserted (R207). -/
def active (st : LineState) : Bool :=
  match st with
  | .idle => false
  | .pending => true
  | .acknowledged => false
  | .asserted => true

/-- ASSERT of a line (R200, R204). -/
def assertedLine (vector : Byte) (hasVector : Bool) : Line :=
  ⟨.asserted, hasVector, if hasVector then vector else 0⟩

/-- CLEAR of a line: the vector stays (R201, R204). -/
def clearedLine (ln : Line) : Line := { ln with st := .idle }

/-- PULSE of a line: only Idle becomes Pending, the vector stays (R202, R204). -/
def pulsedLine (ln : Line) : Line :=
  match ln.st with
  | .idle => { ln with st := .pending }
  | _ => ln

/-- ACK of a selected line: Pending goes through Acknowledged to Idle inside the one command, Asserted
stays (R203, R204). -/
def acknowledgedLine (ln : Line) : Line :=
  match ln.st with
  | .pending => { ({ ln with st := .acknowledged } : Line) with st := .idle }
  | _ => ln

/-- The notification a change of a line asks for: level 1 when it leaves Idle, level 0 when it returns
to Idle, none otherwise (R207). -/
def lineLevel (before after : LineState) : Option Bool :=
  if before = .idle then
    if after = .idle then none else some true
  else
    if after = .idle then some false else none

/-- `line[c][l]`. -/
def lineAt (s : State) (c l : Nat) : Line := (s.lines.getD c []).getD l idleLine

/-- Line l of CPU c is active. -/
def lineActive (s : State) (c l : Nat) : Bool := active (lineAt s c l).st

/-- `bits(c)`: bit l is 1 exactly when line l of CPU c is active (R207). -/
def activeBits (s : State) (c : Nat) : Nat :=
  ((List.range (s.params.nlineOf c)).map fun l => if lineActive s c l then 2 ^ l else 0).sum

/-- The line an acknowledge takes: NMI, then IRQ, then the least numbered active line (R203). -/
def selectLine (s : State) (c : Nat) : Option Nat :=
  (1 :: 0 :: (List.range (s.params.nlineOf c))).find? fun l =>
    decide (l < s.params.nlineOf c) && lineActive s c l

/-- `dirty[L][t]`. -/
def dirtyAt (s : State) (L t : Nat) : Bool := (s.dirty.getD L []).getD t false

/-- Sets one dirty bit (44_tilemap R264). -/
def setDirty (L t : Nat) (b : Bool) (s : State) : State :=
  { s with dirty := s.dirty.modify L fun row => row.set t b }

/-- Sets every dirty bit of every layer (40_config R157, 47_host R334). -/
def allDirty (s : State) : State :=
  { s with dirty := s.dirty.map fun row => row.map fun _ => true }

end Sys2Proof.Machine
end

