-- ==== Sys2Proof/Machine/Ops.lean ====
section
/-! DEFINITION. The named operations: the output event stream, the four error primitives and the end of a
command (60_exceptions R351 to R355), the acknowledge (the block's whole part in taking an interrupt, R357;
there is no return from one), the bytes of the regions, the free values, and the index reduction. -/

namespace Sys2Proof.Machine

/-! ## Events -/

/-- `emit ev` (00_scope R10, 10_state R48); the newest event is first (log 5). -/
def emit (e : Event) (s : State) : State := { s with events := e :: s.events }

/-- CPU unit c observes o (43_scheduler R233, log 10). -/
def observe (c : Nat) (o : CpuObs) (s : State) : State :=
  { s with cpuObs := s.cpuObs.modify c (o :: ·) }

/-- `Notify(c, l, level)`: the call of `set_irq_line` on CPU c (42_interrupt R207). -/
def notify (c l : Nat) (level : Bool) (s : State) : State :=
  observe c (.irqLine l level) (emit (.irqLine c l level) s)

/-- `emit SetPc(c, RESET_PC[c])`: the call of `set_pc` on CPU c (40_config R156). -/
def callSetPc (s : State) (c : Nat) : State :=
  observe c (.setPc (s.params.resetPcOf c)) (emit (.setPc c (s.params.resetPcOf c)) s)

/-- `soft(code, a, b)`: a diagnostic event, nothing else (60_exceptions R353). -/
def soft (code : Byte) (a b : Nat) (s : State) : State := emit (.diag code a b) s

/-- Stores a line and notifies its CPU of a change between Idle and active (42_interrupt R204, R207). -/
def putLine (c l : Nat) (ln : Line) (s : State) : State :=
  let t : State := { s with lines := s.lines.modify c fun row => row.set l ln }
  match lineLevel (lineAt s c l).st ln.st with
  | none => t
  | some level => notify c l level t

/-! ## How a command ends -/

/-- The end of a command's body: it completed with a value, or it raised a configuration error, a refusal
or a fatal error (60_exceptions R351, R352, R354). The state of a fatal error is the one after it. -/
inductive Res (α : Type) where
  | ok (v : α) (s : State)
  | config (code : Byte)
  | refuse (code : Byte)
  | fatal (code : Byte) (s : State)
deriving Repr

/-- Goes on after a completed part; an error ends every enclosing operation (R354). -/
def andThen {α β : Type} (x : Res α) (f : α → State → Res β) : Res β :=
  match x with
  | .ok v s => f v s
  | .config code => .config code
  | .refuse code => .refuse code
  | .fatal code s => .fatal code s

/-- What a host command answers in R0 and R1; none leaves the register (10_state R22). -/
structure Answer where
  r0 : Option Word32
  r1 : Option Word32
deriving DecidableEq, Repr, Inhabited

/-- A command whose rule names no result. -/
def noAnswer : Answer := ⟨none, none⟩

/-- The command completed and names no result. -/
def done (s : State) : Res Answer := .ok noAnswer s

/-- The command completed with R0 (and R1 unchanged). -/
def doneR0 (r0 : Word32) (s : State) : Res Answer := .ok ⟨some r0, none⟩ s

/-- The command completed with R0 and R1. -/
def doneR01 (r0 r1 : Word32) (s : State) : Res Answer := .ok ⟨some r0, some r1⟩ s

/-- The state after `raise Fatal(code)` (R354). -/
def fatalState (code : Byte) (s : State) : State :=
  emit (.fatal code) { s with fatalCode := code, phase := .fatal }

/-- `raise Fatal(code)` (R354). -/
def raiseFatal {α : Type} (code : Byte) (s : State) : Res α := .fatal code (fatalState code s)

/-- TAKING AN ERROR, the block's exception entry: what the end of a host command does to the state it
began in. Completion writes STATUS and the results (10_state R22); a configuration error latches `cfgErr`
once and reports (R351); a refusal reports only (R352); a fatal error keeps what was written and reports
(R354). -/
def endCommand (s : State) (x : Res Answer) : State :=
  match x with
  | .ok a t => { t with status := codeOk, r0 := a.r0.getD t.r0, r1 := a.r1.getD t.r1 }
  | .config code => { s with cfgErr := if s.cfgErr = 0 then code else s.cfgErr, status := code }
  | .refuse code => { s with status := code }
  | .fatal code t => { t with status := code }

/-- A host command: the phase checks in R355's order, then the body (30_encoding R124). -/
def hostCommand (legal : Legality) (body : State → Res Answer) (s : State) : State :=
  match s.phase with
  | .down => { s with status := codeDown }
  | .fatal => if legalIn legal .fatal then endCommand s (body s) else { s with status := s.fatalCode }
  | .config => if legalIn legal .config then endCommand s (body s) else { s with status := codePhaseError }
  | .run => if legalIn legal .run then endCommand s (body s) else { s with status := codePhaseError }

/-- A host command word with an undefined opcode, with R355's priorities (30_encoding R123). -/
def rejectIllegal (s : State) : State :=
  match s.phase with
  | .down => { s with status := codeDown }
  | .fatal => { s with status := s.fatalCode }
  | .config => { s with status := codeIllegalOpcode }
  | .run => { s with status := codeIllegalOpcode }

/-! ## The acknowledge -/

/-- The byte the data bus carries when line l of CPU c is acknowledged (42_interrupt R203). -/
def vectorByte (env : Env) (s : State) (c l : Nat) : Byte :=
  match env.vecfn c with
  | some f => f (activeBits s c)
  | none => if (lineAt s c l).hasvec then (lineAt s c l).vec else s.params.openBus

/-- THE ENTRY OF AN INTERRUPT, as far as it is the block's (42_interrupt R203, R208, 60_exceptions R357): select the
line, form the vector byte, consume a Pending request. Nothing is saved and nothing returns. The value is
the vector byte and R1. -/
def acknowledge (env : Env) (c : Nat) (s : State) : Res (Byte × Word32) :=
  if isCpu s c = false then .refuse codeBadId
  else
    match selectLine s c with
    | none => .ok (s.params.openBus, 0x100) s
    | some l =>
      .ok (vectorByte env s c l, BitVec.ofNat 32 l)
        (emit (.ack c l (vectorByte env s c l)) (putLine c l (acknowledgedLine (lineAt s c l)) s))

/-! ## The bytes of the regions -/

/-- Where byte o of region r stands in `mem` (log 6). -/
def memKey (r o : Nat) : Nat := r * 2 ^ 32 + o

/-- The byte a list of cells holds at a key, none where nothing is listed. -/
def memFind : List Host.Cell → Nat → Option Byte
  | [], _ => none
  | c :: m, k => if c.1 = k then some c.2 else memFind m k

/-- Stores a byte at a key, keeping the keys strictly rising. -/
def memSet : List Host.Cell → Nat → Byte → List Host.Cell
  | [], k, v => [(k, v)]
  | c :: m, k, v =>
    if k < c.1 then (k, v) :: c :: m
    else if k = c.1 then (k, v) :: m
    else c :: memSet m k v

/-- Bytes at rising keys from k on. -/
def cellsFrom : Nat → List Byte → List Host.Cell
  | _, [] => []
  | k, b :: bs => (k, b) :: cellsFrom (k + 1) bs

/-- Replaces everything listed for region r by bytes from its offset 0 on; what they do not reach is not
listed. -/
def memSetRegion (m : List Host.Cell) (r : Nat) (bytes : List Byte) : List Host.Cell :=
  m.filter (fun c => decide (c.1 < memKey r 0)) ++
    cellsFrom (memKey r 0) (bytes.take (2 ^ 32)) ++
    m.filter (fun c => decide (memKey (r + 1) 0 ≤ c.1))

/-- The canonical form of memory: keys strictly rising. An unlisted key holds no byte, so no entry equals
what it holds (log 6). -/
abbrev Memory.wf (m : List Host.Cell) : Prop := m.Pairwise fun a b => a.1 < b.1

/-- `region[r][o]`: the stored byte, or the free value of the region's last draw (10_state R26, U1). -/
def readRegion (env : Env) (s : State) (r o : Nat) : Byte :=
  (memFind s.mem (memKey r o)).getD (env.freeByte (regionAt s r).gen (memKey r o))

/-- `region[r][o] <- v` (10_state R26). -/
def writeRegion (r o : Nat) (v : Byte) (s : State) : State :=
  { s with mem := memSet s.mem (memKey r o) v }

/-- The size of a region in bytes. -/
def regionSize (s : State) (r : Nat) : Nat := (regionAt s r).size.toNat

/-- The read-only view of every region's bytes that `resolve_fn` is given (44_tilemap R261); there is no
byte outside a region. -/
def regionView (env : Env) (s : State) (r o : Nat) : Option Byte :=
  if regionOk s r && decide (o < regionSize s r) then some (readRegion env s r o) else none

/-! ## Free values -/

/-- A frame buffer nothing has written: some pixel with a group below NGROUP and a pen below NPENS at
every place (46_frame R312, U2, log 7). -/
def freshFb (env : Env) (s : State) : List Pixel :=
  (List.range (s.sw.toNat * s.sh.toNat)).map fun n =>
    let v := env.freePixel s.freeCtr n
    ⟨BitVec.ofNat 16 (v.1.toNat % s.params.ngroup), BitVec.ofNat 16 (v.2.toNat % s.params.npens)⟩

/-- The unspecified tile-cache of layer L with `cells` cells (10_state R41, U4, log 8). -/
def freshCache (env : Env) (s : State) (L cells : Nat) : List Tile :=
  (List.range cells).map fun t => env.freeTile s.freeCtr L t

/-- The next draw is another one (log 22). -/
def nextDraw (s : State) : State := { s with freeCtr := s.freeCtr + 1 }

/-! ## Index reduction -/

/-- `InRange(v, n)`'s value (44_tilemap R269). -/
def reduceIndex (policy : OorPolicy) (v n : Nat) : Nat :=
  if v < n then v
  else
    match policy with
    | .wrap => v % n
    | .saturate => n - 1

/-- `InRange(v, n)`'s diagnostic (44_tilemap R269). -/
def noteIndex (v n : Nat) (s : State) : State :=
  if v < n then s else soft codeIndexOutOfRange v n s

end Sys2Proof.Machine
end

