-- ==== Sys2Proof/Machine/Tilemap.lean ====
section
/-! DEFINITION. Family 4, the tilemap compositor (spec/44_tilemap.md R260 to R271), and the painting of
the frame buffer that the sprite blender shares. -/

namespace Sys2Proof.Machine

/-- The layer slot TMCREATE makes, with its scroll entries 0, its cells dirty and its cache unspecified
(R260). -/
def makeLayer (env : Env) (L : Nat) (ly : Layer) (s : State) : State :=
  nextDraw
    { s with
      layers := s.layers.set L ly
      scroll := s.scroll.set L (List.replicate ly.nent.toNat ⟨0, 0⟩)
      dirty := s.dirty.set L (List.replicate (ly.w.toNat * ly.h.toNat) true)
      cache := s.cache.set L (freshCache env s L (ly.w.toNat * ly.h.toNat)) }

/-- The number of scroll entries TMCREATE gives: 1 when the mode is WHOLE (R260). -/
def scrollCount (m : ScrollMode) (nent : BitVec 9) : BitVec 9 :=
  match m with
  | .whole => 1
  | .rows => nent
  | .cols => nent

/-- TMCREATE (R260). -/
def tmcreateBody (env : Env) (layer : Word32) (w h tw th : Word16) (rf gfx : Word32) (smode : BitVec 2)
    (nent : BitVec 9) (s : State) : Res Answer :=
  if s.params.nlayer ≤ layer.toNat ∨ (layerAt s layer.toNat).valid then .config codeBadId
  else if w = 0 ∨ h = 0 ∨ tw = 0 ∨ th = 0 then .config codeBadParam
  else if 65536 < w.toNat * tw.toNat ∨ 65536 < h.toNat * th.toNat then .config codeBadParam
  else if s.params.resolveIds.contains rf.toNat = false ∨ (s.params.gfxOf gfx.toNat).isNone then
    .config codeBadId
  else
    match scrollModeOf smode with
    | none => .config codeBadKind
    | some m =>
      if scrollCount m nent = 0 ∨ 256 < (scrollCount m nent).toNat then .config codeBadParam
      else
        done (makeLayer env layer.toNat
          ⟨true, w, h, tw, th, rf.setWidth 8, gfx.setWidth 8, m, scrollCount m nent⟩ s)

/-- TMCREATE as the host issues it (R260). -/
def execTmcreate (layer : Word32) (w h tw th : Word16) (rf gfx : Word32) (smode : BitVec 2)
    (nent : BitVec 9) (s : State) : Host.Outcome State Fault Refusal :=
  .next (hostCommand (legality (.tmcreate layer w h tw th rf gfx smode nent))
    (tmcreateBody Config.env layer w h tw th rf gfx smode nent) s)

/-- The cells of a layer's grid (R263). -/
def cellCount (ly : Layer) : Nat := ly.w.toNat * ly.h.toNat

/-- MARKDIRTY (R264). -/
def markdirtyBody (layer tileIndex : Word32) (s : State) : Res Answer :=
  if layerOk s layer.toNat = false then .refuse codeBadId
  else
    done (setDirty layer.toNat
      (reduceIndex s.params.oorPolicy tileIndex.toNat (cellCount (layerAt s layer.toNat))) true
      (noteIndex tileIndex.toNat (cellCount (layerAt s layer.toNat)) s))

/-- MARKDIRTY as the host issues it (R264). -/
def execMarkdirty (layer tileIndex : Word32) (s : State) : Host.Outcome State Fault Refusal :=
  .next (hostCommand (legality (.markdirty layer tileIndex)) (markdirtyBody layer tileIndex) s)

/-- `scroll[L][e] <- v`. -/
def setScrollEntry (L e : Nat) (v : Scroll) (s : State) : State :=
  { s with scroll := s.scroll.modify L fun row => row.set e v }

/-- `scroll[L][e]`. -/
def scrollAt (s : State) (L e : Nat) : Scroll := (s.scroll.getD L []).getD e ⟨0, 0⟩

/-- SETSCROLL (R265). -/
def setscrollBody (layer rowOrCol : Word32) (dx dy : Word16) (s : State) : Res Answer :=
  if layerOk s layer.toNat = false then .refuse codeBadId
  else if (layerAt s layer.toNat).nent.toNat ≤ rowOrCol.toNat then .refuse codeBadParam
  else done (setScrollEntry layer.toNat rowOrCol.toNat ⟨dx, dy⟩ s)

/-- SETSCROLL as the host issues it (R265). -/
def execSetscroll (layer rowOrCol : Word32) (dx dy : Word16) (s : State) :
    Host.Outcome State Fault Refusal :=
  .next (hostCommand (legality (.setscroll layer rowOrCol dx dy)) (setscrollBody layer rowOrCol dx dy) s)

/-! ## The lazy redraw (R267) -/

/-- The sizes of graphics table g (R262). -/
def gfxDim (s : State) (g : Nat) : GfxDim := (s.params.gfxOf g).getD ⟨1, 1, 1⟩

/-- The pen of a graphics table, below NPEN (R262). -/
def penOf (env : Env) (s : State) (g bank code row col : Nat) : Word16 :=
  BitVec.ofNat 16 (env.gfxPen g bank code row col % (gfxDim s g).npen)

/-- What `resolve_fn` returns for cell t of layer L now (R261). -/
def resolvedTile (env : Env) (s : State) (L t : Nat) : Tile :=
  env.resolve (layerAt s L).rf.toNat t (regionView env s)

/-- The tile a cache entry gets: the code brought into range (R267, R269). -/
def cachedTile (s : State) (L : Nat) (tl : Tile) : Tile :=
  { tl with
    code := BitVec.ofNat 32
      (reduceIndex s.params.oorPolicy tl.code.toNat (gfxDim s (layerAt s L).gfx.toNat).ncodes) }

/-- `cache[L][t]`. -/
def cacheAt (s : State) (L t : Nat) : Tile := (s.cache.getD L []).getD t ⟨0, 0, false, false, 0⟩

/-- `cache[L][t] <- tl`. -/
def setCache (L t : Nat) (tl : Tile) (s : State) : State :=
  { s with cache := s.cache.modify L fun row => row.set t tl }

/-- One cell of Resolve(L) (R267). -/
def resolveCell (env : Env) (L t : Nat) (s : State) : Res Unit :=
  if dirtyAt s L t = false then .ok () s
  else if s.params.ngroup ≤ (resolvedTile env s L t).color.toNat then raiseFatal codeColorOutOfRange s
  else
    .ok ()
      (setDirty L t false
        (setCache L t (cachedTile s L (resolvedTile env s L t))
          (noteIndex (resolvedTile env s L t).code.toNat (gfxDim s (layerAt s L).gfx.toNat).ncodes s)))

/-- Resolve of a list of cells in its order (R267). -/
def resolveCells (env : Env) (L : Nat) : List Nat → State → Res Unit
  | [], s => .ok () s
  | t :: ts, s => andThen (resolveCell env L t s) fun _ s' => resolveCells env L ts s'

/-- Resolve(L): every dirty cell, ascending (R267). -/
def resolveLayer (env : Env) (L : Nat) (s : State) : Res Unit :=
  resolveCells env L (List.range (cellCount (layerAt s L))) s

/-! ## Drawing (R263, R266, R268, R271) -/

/-- The scroll entry that applies to a screen pixel (R271). -/
def scrollEntryOf (ly : Layer) (x y : Nat) : Nat :=
  match ly.smode with
  | .whole => 0
  | .rows => (y / ly.th.toNat) % ly.nent.toNat
  | .cols => (x / ly.tw.toNat) % ly.nent.toNat

/-- The position inside a tile that is read, mirrored when flipped (R268, 45_sprite R296). -/
def mirrored (flipped : Bool) (size pos : Nat) : Nat := if flipped then size - 1 - pos else pos

/-- The cell and the position in it that plane pixel (sx, sy) shows (R263). -/
def cellOf (ly : Layer) (sx sy : Nat) : Nat := (sy / ly.th.toNat) * ly.w.toNat + sx / ly.tw.toNat

/-- `TilePixel(L, x, y)` (R268). -/
def tilePixel (env : Env) (s : State) (L x y : Nat) : Pixel :=
  let ly := layerAt s L
  let sc := scrollAt s L (scrollEntryOf ly x y)
  let sx := (x + sc.dx.toNat) % (ly.w.toNat * ly.tw.toNat)
  let sy := (y + sc.dy.toNat) % (ly.h.toNat * ly.th.toNat)
  let tl := cacheAt s L (cellOf ly sx sy)
  ⟨tl.color, penOf env s ly.gfx.toNat 0 tl.code.toNat
    (mirrored tl.flipY ly.th.toNat (sy % ly.th.toNat)) (mirrored tl.flipX ly.tw.toNat (sx % ly.tw.toNat))⟩

/-- `FB[y][x]`. -/
def fbAt (s : State) (x y : Nat) : Pixel := s.fb.getD (y * s.sw.toNat + x) ⟨0, 0⟩

/-- Writes, inside a rectangle, the pixels a picture gives; where it gives none the pixel stays. Each
pixel is written at most once, so the order of the two loops is not observable (R266, log 17). -/
def paint (clip : Clip) (picture : Nat → Nat → Option Pixel) (s : State) : State :=
  { s with
    fb := s.fb.mapIdx fun n px =>
      if clipHas clip (n % s.sw.toNat) (n / s.sw.toNat) then
        (picture (n % s.sw.toNat) (n / s.sw.toNat)).getD px
      else px }

/-- What layer L gives for a pixel: nothing where its transparency test skips it (R266). -/
def layerPicture (env : Env) (s : State) (L : Nat) (mode : Bool) (pen : Word16) (x y : Nat) :
    Option Pixel :=
  if mode && (tilePixel env s L x y).p == pen then none else some (tilePixel env s L x y)

/-- TMCOMPOSITE (R266). -/
def tmcompositeBody (env : Env) (minX minY maxX maxY : Word16) (layer : Word32) (mode : Bool)
    (pen : Word16) (s : State) : Res Answer :=
  if layerOk s layer.toNat = false then .refuse codeBadId
  else
    andThen (resolveLayer env layer.toNat s) fun _ t =>
      done (paint (clipOf t minX.toNat minY.toNat maxX.toNat maxY.toNat)
        (layerPicture env t layer.toNat mode pen) t)

/-- TMCOMPOSITE as the host issues it (R266). -/
def execTmcomposite (minX minY maxX maxY : Word16) (layer : Word32) (mode : Bool) (pen : Word16)
    (s : State) : Host.Outcome State Fault Refusal :=
  .next (hostCommand (legality (.tmcomposite minX minY maxX maxY layer mode pen))
    (tmcompositeBody Config.env minX minY maxX maxY layer mode pen) s)

end Sys2Proof.Machine
end

