-- ==== Sys2Proof/Machine/AddressSpace.lean ====
section
/-! DEFINITION. Family 1 without the bus accesses: MAP, SETBANK, PORTDEF and POKE
(spec/41_address_space.md R170, R173, R175, R178). -/

namespace Sys2Proof.Machine

/-- MAP's check of what an entry names, by its kind; `len` is the range's length (R170). -/
def mapTargetError (s : State) (kind : AccessKind) (len : Nat) (p0 p1 : Word32) : Option Byte :=
  match kind with
  | .rom | .ram =>
    if regionOk s p0.toNat = false then some codeBadId
    else if regionSize s p0.toNat < p1.toNat + len then some codeRegionOverflow
    else none
  | .bankedRom =>
    if bankOk s p0.toNat = false then some codeUnresolvableBank
    else if (bankAt s p0.toNat).size.toNat < len then some codeBadRange
    else none
  | .readHandler | .writeHandler | .readWriteHandler =>
    if portOk s p0.toNat = false then some codeBadId else none

/-- MAP (R170). -/
def mapBody (spaceId start stop : Word32) (kind : BitVec 3) (p0 p1 : Word32) (s : State) : Res Answer :=
  if spaceOk s spaceId.toNat = false then .config codeBadId
  else
    match accessKindOf kind with
    | none => .config codeBadKind
    | some kd =>
      if stop.toNat < start.toNat ∨ 2 ^ (spaceAt s spaceId.toNat).aw.toNat ≤ stop.toNat then
        .config codeBadRange
      else
        match mapTargetError s kd (stop.toNat - start.toNat + 1) p0 p1 with
        | some code => .config code
        | none =>
          if s.entries.length = s.params.nentry then .config codeBadId
          else done { s with entries := s.entries ++ [⟨spaceId.setWidth 8, start, stop, kd, p0, p1⟩] }

/-- MAP as the host issues it (R170). -/
def execMap (spaceId start stop : Word32) (kind : BitVec 3) (p0 p1 : Word32) (s : State) :
    Host.Outcome State Fault Refusal :=
  .next (hostCommand (legality (.map spaceId start stop kind p0 p1)) (mapBody spaceId start stop kind p0 p1) s)

/-- `bank[b].offset <- off`. -/
def setBankOffset (b : Nat) (off : Word32) (s : State) : State :=
  { s with banks := s.banks.modify b fun bk => { bk with offset := off } }

/-- SETBANK (R173). -/
def setbankBody (bankId sourceOffset : Word32) (s : State) : Res Answer :=
  if bankOk s bankId.toNat = false then .refuse codeBadId
  else done (setBankOffset bankId.toNat sourceOffset s)

/-- SETBANK as the host issues it (R173). -/
def execSetbank (bankId sourceOffset : Word32) (s : State) : Host.Outcome State Fault Refusal :=
  .next (hostCommand (legality (.setbank bankId sourceOffset)) (setbankBody bankId sourceOffset) s)

/-- The "checked at PORTDEF" column of R180. -/
def portParamsOk (s : State) (pk : PortKind) (q0 q1 q2 q3 : Word32) : Bool :=
  match pk with
  | .ext => s.params.extIds.contains q0.toNat
  | .tileram => layerOk s q0.toNat && regionOk s q1.toNat
  | .banksel => bankOk s q0.toNat
  | .irqack => lineOk s q0.toNat q1.toNat
  | .scroll => layerOk s q0.toNat && decide (q1.toNat < (layerAt s q0.toNat).nent.toNat)
  | .latch =>
    decide (q0.toNat < s.params.nlatch) && decide (q1.toNat ≤ 2) &&
      (decide (q1 = 0) || lineOk s q2.toNat q3.toNat)
  | .flip => true
  | .input => decide (q0.toNat < s.params.nin)

/-- PORTDEF (R175, R180). -/
def portdefBody (handlerId : Word32) (pk : BitVec 3) (q0 q1 q2 q3 : Word32) (s : State) : Res Answer :=
  if s.params.nhandler ≤ handlerId.toNat ∨ (portAt s handlerId.toNat).valid then .config codeBadId
  else if portParamsOk s (portKindOf pk) q0 q1 q2 q3 = false then .config codeBadId
  else done { s with ports := s.ports.set handlerId.toNat ⟨true, portKindOf pk, q0, q1, q2, q3⟩ }

/-- PORTDEF as the host issues it (R175). -/
def execPortdef (handlerId : Word32) (pk : BitVec 3) (q0 q1 q2 q3 : Word32) (s : State) :
    Host.Outcome State Fault Refusal :=
  .next (hostCommand (legality (.portdef handlerId pk q0 q1 q2 q3)) (portdefBody handlerId pk q0 q1 q2 q3) s)

/-- POKE (R178). -/
def pokeBody (regionId offset : Word32) (byte : Byte) (s : State) : Res Answer :=
  if regionOk s regionId.toNat = false then .refuse codeBadId
  else if regionSize s regionId.toNat ≤ offset.toNat then .refuse codeBadParam
  else done (writeRegion regionId.toNat offset.toNat byte s)

/-- POKE as the host issues it (R178). -/
def execPoke (regionId offset : Word32) (byte : Byte) (s : State) : Host.Outcome State Fault Refusal :=
  .next (hostCommand (legality (.poke regionId offset byte)) (pokeBody regionId offset byte) s)

end Sys2Proof.Machine
end

