-- ==== Sys2Proof/Machine/Sprite.lean ====
section
/-! DEFINITION. Family 5, the sprite blender (spec/45_sprite.md R290 to R297). -/

namespace Sys2Proof.Machine

/-- SPCFG (R290). -/
def spcfgBody (regionId base : Word32) (stride count : Word16) (df gfx : Word32) (spw sph : Word16)
    (reverse hasTpen : Bool) (tpen : Word16) (s : State) : Res Answer :=
  if s.spr.valid then .config codeBadId
  else if regionOk s regionId.toNat = false then .config codeBadId
  else if stride = 0 ∨ spw = 0 ∨ sph = 0 then .config codeBadParam
  else if s.params.decodeIds.contains df.toNat = false ∨ (s.params.gfxOf gfx.toNat).isNone then
    .config codeBadId
  else
    done
      { s with
        spr := ⟨true, regionId.setWidth 8, base, stride, count, df.setWidth 8, gfx.setWidth 8, spw, sph,
          reverse, hasTpen, tpen⟩ }

/-- SPCFG as the host issues it (R290). -/
def execSpcfg (regionId base : Word32) (stride count : Word16) (df gfx : Word32) (spw sph : Word16)
    (reverse hasTpen : Bool) (tpen : Word16) (s : State) : Host.Outcome State Fault Refusal :=
  .next (hostCommand (legality (.spcfg regionId base stride count df gfx spw sph reverse hasTpen tpen))
    (spcfgBody regionId base stride count df gfx spw sph reverse hasTpen tpen) s)

/-- The bytes of record n of the sprite table (R293). -/
def spriteBytes (env : Env) (s : State) (n : Nat) : List Byte :=
  (List.range s.spr.stride.toNat).map fun b =>
    readRegion env s s.spr.region.toNat
      ((s.spr.base.toNat + n * s.spr.stride.toNat + b) % regionSize s s.spr.region.toNat)

/-- Record n as `decode_fn` reads it (R291). -/
def spriteRecord (env : Env) (s : State) (n : Nat) : SpriteRec :=
  env.decode s.spr.df.toNat n (spriteBytes env s n)

/-- The record passes the enable bit and the priority mode (R292, R297). -/
def spriteShown (D : SpriteRec) (only : Bool) (p : Byte) : Bool := D.enabled && (!only || D.priority == p)

/-- What a record gives for screen pixel (x, y): nothing outside the sprite's rectangle or where its pen is
the transparent one. `code` and `bank` are already in range (R292, R296). -/
def spritePicture (env : Env) (s : State) (D : SpriteRec) (code bank : Nat) (x y : Nat) : Option Pixel :=
  let c : Int := (x : Int) - D.x.toInt
  let r : Int := (y : Int) - D.y.toInt
  if 0 ≤ c ∧ c < s.spr.spw.toNat ∧ 0 ≤ r ∧ r < s.spr.sph.toNat then
    let pen := penOf env s s.spr.gfx.toNat bank code
      (mirrored D.flipY s.spr.sph.toNat r.toNat) (mirrored D.flipX s.spr.spw.toNat c.toNat)
    if s.spr.hasTpen && pen == s.spr.tpen then none else some ⟨D.color, pen⟩
  else none

/-- One record of SPCOMPOSITE (R292). -/
def drawSprite (env : Env) (clip : Clip) (only : Bool) (p : Byte) (n : Nat) (s : State) : Res Unit :=
  let D := spriteRecord env s n
  if spriteShown D only p = false then .ok () s
  else if s.params.ngroup ≤ D.color.toNat then raiseFatal codeColorOutOfRange s
  else
    let dim := gfxDim s s.spr.gfx.toNat
    .ok ()
      (paint clip
        (spritePicture env s D (reduceIndex s.params.oorPolicy D.code.toNat dim.ncodes)
          (reduceIndex s.params.oorPolicy D.bank.toNat dim.ngbank))
        (noteIndex D.bank.toNat dim.ngbank (noteIndex D.code.toNat dim.ncodes s)))

/-- The records of a list in its order (R292). -/
def drawSprites (env : Env) (clip : Clip) (only : Bool) (p : Byte) : List Nat → State → Res Unit
  | [], s => .ok () s
  | n :: ns, s => andThen (drawSprite env clip only p n s) fun _ t => drawSprites env clip only p ns t

/-- The order of the records: table order, or from the last to the first (R292, R295). -/
def spriteOrder (c : SpriteCfg) : List Nat :=
  if c.reverse then (List.range c.count.toNat).reverse else List.range c.count.toNat

/-- SPCOMPOSITE (R292). -/
def spcompositeBody (env : Env) (minX minY maxX maxY : Word16) (only : Bool) (p : Byte) (s : State) :
    Res Answer :=
  if s.spr.valid = false then .refuse codeBadId
  else
    andThen (drawSprites env (clipOf s minX.toNat minY.toNat maxX.toNat maxY.toNat) only p
      (spriteOrder s.spr) s) fun _ t => done t

/-- SPCOMPOSITE as the host issues it (R292). -/
def execSpcomposite (minX minY maxX maxY : Word16) (only : Bool) (p : Byte) (s : State) :
    Host.Outcome State Fault Refusal :=
  .next (hostCommand (legality (.spcomposite minX minY maxX maxY only p))
    (spcompositeBody Config.env minX minY maxX maxY only p) s)

end Sys2Proof.Machine
end

