-- ==== Sys2Proof/Machine/Frame.lean ====
section
/-! DEFINITION. Family 6, the frame renderer, the palette and flip-screen (spec/46_frame.md R310 to
R317). -/

namespace Sys2Proof.Machine

/-- RSTEP's check of the operands of a step (R316). -/
def rstepCheck (s : State) (rk : RenderKind) (ra rb : Word32) : Option Byte :=
  match rk with
  | .fill => if s.params.ngroup ≤ ra.toNat ∨ s.params.npens ≤ rb.toNat then some codeBadParam else none
  | .layer => if layerOk s ra.toNat = false then some codeBadId else none
  | .sprites => if s.spr.valid = false then some codeBadId else none

/-- Slot n of the render list. -/
def rstepAt (s : State) (n : Nat) : RStep := s.rsteps.getD n noRStep

/-- RSTEP (R316). -/
def rstepBody (slot : Word32) (rk : BitVec 2) (ra rb rc : Word32) (s : State) : Res Answer :=
  if s.params.nrstep ≤ slot.toNat ∨ (rstepAt s slot.toNat).valid then .config codeBadId
  else
    match renderKindOf rk with
    | none => .config codeBadKind
    | some kd =>
      match rstepCheck s kd ra rb with
      | some code => .config code
      | none => done { s with rsteps := s.rsteps.set slot.toNat ⟨true, kd, ra, rb, rc⟩ }

/-- RSTEP as the host issues it (R316). -/
def execRstep (slot : Word32) (rk : BitVec 2) (ra rb rc : Word32) (s : State) :
    Host.Outcome State Fault Refusal :=
  .next (hostCommand (legality (.rstep slot rk ra rb rc)) (rstepBody slot rk ra rb rc) s)

/-- A compositor run as a step of the render list: a refusal, which no reachable list meets, draws nothing
(R310, log 16). -/
def nestedDraw (s : State) (x : Res Answer) : Res Unit :=
  match x with
  | .ok _ t => .ok () t
  | .config _ => .ok () s
  | .refuse _ => .ok () s
  | .fatal code t => .fatal code t

/-- One valid step of the render list (R310). -/
def renderStep (env : Env) (st : RStep) (s : State) : Res Unit :=
  match st.rk with
  | .fill => .ok () { s with fb := s.fb.map fun _ => ⟨st.ra.extractLsb' 0 16, st.rb.extractLsb' 0 16⟩ }
  | .layer =>
    nestedDraw s (tmcompositeBody env 0 0 (s.sw.setWidth 16 - 1) (s.sh.setWidth 16 - 1) st.ra
      (st.rb.getLsbD 0) (st.rc.extractLsb' 0 16) s)
  | .sprites =>
    nestedDraw s (spcompositeBody env 0 0 (s.sw.setWidth 16 - 1) (s.sh.setWidth 16 - 1)
      (st.ra.getLsbD 0) (st.ra.extractLsb' 8 8) s)

/-- The steps of a list in its order (R310, R311). -/
def renderSteps (env : Env) : List RStep → State → Res Unit
  | [], s => .ok () s
  | st :: sts, s => andThen (renderStep env st s) fun _ t => renderSteps env sts t

/-- `palette[lookup[g][p]]` (R312, 10_state R46). -/
def colorOf (s : State) (px : Pixel) : Rgb :=
  s.palette.getD (s.lookup.getD (px.g.toNat * s.params.npens + px.p.toNat) 0).toNat 0

/-- Pixel (x, y) of the output: the frame buffer's, rotated by 180 degrees when `flip` is set (R312). -/
def outputPixel (s : State) (x y : Nat) : Rgb :=
  colorOf s (if s.flip then fbAt s (s.sw.toNat - 1 - x) (s.sh.toNat - 1 - y) else fbAt s x y)

/-- The bitmap: sh rows of sw pixels, row 0 on top (R312). -/
def bitmapOf (s : State) : List (List Rgb) :=
  (List.range s.sh.toNat).map fun y => (List.range s.sw.toNat).map fun x => outputPixel s x y

/-- RENDER without its STATUS (R310). -/
def renderFrame (env : Env) (s : State) : Res Unit :=
  andThen (renderSteps env (s.rsteps.filter fun st => st.valid) s) fun _ t =>
    .ok () (emit (.frame (bitmapOf t)) t)

/-- RENDER (R310). -/
def renderBody (env : Env) (s : State) : Res Answer := andThen (renderFrame env s) fun _ t => done t

/-- RENDER as the host issues it (R310). -/
def execRender (s : State) : Host.Outcome State Fault Refusal :=
  .next (hostCommand (legality .render) (renderBody Config.env) s)

/-- SETFLIP (R313). -/
def setflipBody (flag : Bool) (s : State) : Res Answer := done { s with flip := flag }

/-- SETFLIP as the host issues it (R313). -/
def execSetflip (flag : Bool) (s : State) : Host.Outcome State Fault Refusal :=
  .next (hostCommand (legality (.setflip flag)) (setflipBody flag) s)

/-- Where `lookup[g][p]` stands, group-major (10_state R46). -/
def lookupIndex (p : Params) (g pen : Nat) : Nat := g * p.npens + pen

/-- SETPEN (R314). -/
def setpenBody (group pen paletteIndex : Word32) (s : State) : Res Answer :=
  if s.params.ngroup ≤ group.toNat ∨ s.params.npens ≤ pen.toNat ∨ s.params.npal ≤ paletteIndex.toNat then
    .refuse codeBadParam
  else
    done { s with
      lookup := s.lookup.set (lookupIndex s.params group.toNat pen.toNat) (paletteIndex.setWidth 16) }

/-- SETPEN as the host issues it (R314). -/
def execSetpen (group pen paletteIndex : Word32) (s : State) : Host.Outcome State Fault Refusal :=
  .next (hostCommand (legality (.setpen group pen paletteIndex)) (setpenBody group pen paletteIndex) s)

/-- SETPAL (R315). -/
def setpalBody (index : Word32) (rgb : Rgb) (s : State) : Res Answer :=
  if s.params.npal ≤ index.toNat then .refuse codeBadParam
  else done { s with palette := s.palette.set index.toNat rgb }

/-- SETPAL as the host issues it (R315). -/
def execSetpal (index : Word32) (rgb : Rgb) (s : State) : Host.Outcome State Fault Refusal :=
  .next (hostCommand (legality (.setpal index rgb)) (setpalBody index rgb) s)

end Sys2Proof.Machine
end

