-- ==== Sys2Proof/Machine/Interrupt.lean ====
section
/-! DEFINITION. Family 2, the interrupt dispatcher (spec/42_interrupt.md R200 to R208). -/

namespace Sys2Proof.Machine

/-- ASSERT (R200). -/
def assertBody (cpu line : Word32) (vector : Byte) (hasVector : Bool) (s : State) : Res Answer :=
  if lineOk s cpu.toNat line.toNat = false then .refuse codeBadId
  else done (putLine cpu.toNat line.toNat (assertedLine vector hasVector) s)

/-- ASSERT as the host issues it (R200). -/
def execAssert (cpu line : Word32) (vector : Byte) (hasVector : Bool) (s : State) :
    Host.Outcome State Fault Refusal :=
  .next (hostCommand (legality (.assert cpu line vector hasVector)) (assertBody cpu line vector hasVector) s)

/-- CLEAR (R201). -/
def clearBody (cpu line : Word32) (s : State) : Res Answer :=
  if lineOk s cpu.toNat line.toNat = false then .refuse codeBadId
  else done (putLine cpu.toNat line.toNat (clearedLine (lineAt s cpu.toNat line.toNat)) s)

/-- CLEAR as the host issues it (R201). -/
def execClear (cpu line : Word32) (s : State) : Host.Outcome State Fault Refusal :=
  .next (hostCommand (legality (.clear cpu line)) (clearBody cpu line) s)

/-- PULSE (R202). -/
def pulseBody (cpu line : Word32) (s : State) : Res Answer :=
  if lineOk s cpu.toNat line.toNat = false then .refuse codeBadId
  else done (putLine cpu.toNat line.toNat (pulsedLine (lineAt s cpu.toNat line.toNat)) s)

/-- PULSE as the host issues it (R202). -/
def execPulse (cpu line : Word32) (s : State) : Host.Outcome State Fault Refusal :=
  .next (hostCommand (legality (.pulse cpu line)) (pulseBody cpu line) s)

/-- ACK (R203). -/
def ackBody (env : Env) (cpu : Word32) (s : State) : Res Answer :=
  andThen (acknowledge env cpu.toNat s) fun v t => doneR01 (v.1.setWidth 32) v.2 t

/-- ACK as the host issues it (R203). -/
def execAck (cpu : Word32) (s : State) : Host.Outcome State Fault Refusal :=
  .next (hostCommand (legality (.ack cpu)) (ackBody Config.env cpu) s)

/-- R1 of LINEQ: `hasvec` in bit 8, `vec` in bits 7 to 0 (R205). -/
def lineVecWord (ln : Line) : Word32 := (BitVec.ofBool ln.hasvec ++ ln.vec).setWidth 32

/-- LINEQ (R205). -/
def lineqBody (cpu line : Word32) (s : State) : Res Answer :=
  if lineOk s cpu.toNat line.toNat = false then .refuse codeBadId
  else
    doneR01 (BitVec.ofNat 32 (lineStateCode (lineAt s cpu.toNat line.toNat).st))
      (lineVecWord (lineAt s cpu.toNat line.toNat)) s

/-- LINEQ as the host issues it (R205). -/
def execLineq (cpu line : Word32) (s : State) : Host.Outcome State Fault Refusal :=
  .next (hostCommand (legality (.lineq cpu line)) (lineqBody cpu line) s)

end Sys2Proof.Machine
end

