-- ==== Sys2Proof/Machine/Timer.lean ====
section
/-! DEFINITION. The arming of the timer wheel (spec/43_scheduler.md R234); its firing is part of
Scheduler. -/

namespace Sys2Proof.Machine

/-- What a timer's action names exists: the line of a line action, the external handler of a callback
(R234). -/
def timerTargetOk (s : State) (act : TimerAct) (t0 t1 : Word32) : Bool :=
  match act with
  | .pulse | .assert | .clear => lineOk s t0.toNat t1.toNat
  | .callback => s.params.extIds.contains t0.toNat

/-- TIMERSET (R234). -/
def timersetBody (id delay period : Word32) (act : BitVec 2) (t0 t1 t2 : Word32) (s : State) : Res Answer :=
  if s.params.ntimer ≤ id.toNat then .refuse codeBadId
  else if delay = 0 then .refuse codeBadParam
  else if timerTargetOk s (timerActOf act) t0 t1 = false then .refuse codeBadId
  else
    done { s with
      timers := s.timers.set id.toNat
        ⟨true, s.now + delay.setWidth 64, period, timerActOf act, t0, t1, t2⟩ }

/-- TIMERSET as the host issues it (R234). -/
def execTimerset (id delay period : Word32) (act : BitVec 2) (t0 t1 t2 : Word32) (s : State) :
    Host.Outcome State Fault Refusal :=
  .next (hostCommand (legality (.timerset id delay period act t0 t1 t2))
    (timersetBody id delay period act t0 t1 t2) s)

end Sys2Proof.Machine
end

