-- ==== Sys2Proof/Machine/Internal.lean ====
section
/-! DEFINITION. Internal commands: what handlers and timer callbacks may issue (spec/30_encoding.md R125,
spec/41_address_space.md R182). -/

namespace Sys2Proof.Machine

/-- The body of a command a handler may issue; none for every other command (R125, R182). -/
def internalBody : Instr → Option (State → Res Answer)
  | .setbank bankId off => some (setbankBody bankId off)
  | .poke regionId off byte => some (pokeBody regionId off byte)
  | .assert c l vector hasVector => some (assertBody c l vector hasVector)
  | .clear c l => some (clearBody c l)
  | .pulse c l => some (pulseBody c l)
  | .timerset n delay period act t0 t1 t2 => some (timersetBody n delay period act t0 t1 t2)
  | .markdirty layer t => some (markdirtyBody layer t)
  | .setscroll layer e dx dy => some (setscrollBody layer e dx dy)
  | .setflip flag => some (setflipBody flag)
  | .setpen group pen idx => some (setpenBody group pen idx)
  | .setpal idx rgb => some (setpalBody idx rgb)
  | .regdev .. => none
  | .lookup .. => none
  | .region .. => none
  | .bankdef .. => none
  | .spacedef .. => none
  | .syscfg .. => none
  | .start => none
  | .reset => none
  | .teardown => none
  | .map .. => none
  | .read .. => none
  | .write .. => none
  | .fetch .. => none
  | .portdef .. => none
  | .ack .. => none
  | .lineq .. => none
  | .runframe => none
  | .tmcreate .. => none
  | .tmcomposite .. => none
  | .spcfg .. => none
  | .spcomposite .. => none
  | .render => none
  | .rstep .. => none
  | .input .. => none
  | .scramble .. => none
  | .snapshot => none
  | .restore => none
  | .savereg .. => none

/-- A permitted internal command runs: the phase check, then the body; a refusal is a diagnostic with the
opcode and `A[0]`; STATUS, R0 and R1 are not written (R182, R352, R355). -/
def runInternal (legal : Legality) (op a0 : Nat) (body : State → Res Answer) (s : State) : Res Unit :=
  if legalIn legal s.phase = false then .ok () (soft codePhaseError op a0 s)
  else
    match body s with
    | .ok _ t => .ok () t
    | .config code => .ok () (soft code op a0 s)
    | .refuse code => .ok () (soft code op a0 s)
    | .fatal code t => .fatal code t

/-- A command the block itself issues in a handler: from a built-in port or a timer (R185 to R189, R235). -/
def issueInternal (i : Instr) (s : State) : Res Unit :=
  match internalBody i with
  | none => .ok () (soft codeNotPermitted i.opcode.toNat 0 s)
  | some body => runInternal (legality i) i.opcode.toNat (i.args.getD 0 0).toNat body s

/-- `ExecInternal(cw)` (R182). -/
def execInternal (cw : CmdWord) (s : State) : Res Unit :=
  match decodeWord cw with
  | .error _ => .ok () (soft codeNotPermitted (opcodeOf cw).toNat 0 s)
  | .ok i =>
    if i = .runframe then raiseFatal codeReentry s
    else
      match internalBody i with
      | none => .ok () (soft codeNotPermitted (opcodeOf cw).toNat 0 s)
      | some body => runInternal (legality i) (opcodeOf cw).toNat (argOf cw 0).toNat body s

/-- The commands of a handler's list, each to completion before the next (R182). -/
def execInternals : List CmdWord → State → Res Unit
  | [], s => .ok () s
  | cw :: cws, s => andThen (execInternal cw s) fun _ t => execInternals cws t

/-- One call of `EXT[e]`: the oracle answers, keeps its memory, and its commands run (R181, R183, R184,
log 11). -/
def callExt (env : Env) (e : Nat) (event : ExtEvent) (s : State) : Res Byte :=
  andThen (execInternals (env.ext e event s).cmds { s with extMem := (env.ext e event s).mem }) fun _ t =>
    .ok (env.ext e event s).v t

/-- `in_handler <- 1`, the handler's work, `in_handler <- 0`; a fatal error leaves it set (R183, R184). -/
def insideHandler {α : Type} (work : State → Res α) (s : State) : Res α :=
  andThen (work { s with inHandler := true }) fun v t => .ok v { t with inHandler := false }

end Sys2Proof.Machine
end

