-- ==== Sys2Proof/Machine/Bus.lean ====
section
/-! DEFINITION. The bus: resolution, MemRead and MemWrite (spec/20_memory.md R81 to R86), the ports
(spec/41_address_space.md R180 to R191), and READ, FETCH and WRITE (R171, R172, R174). -/

namespace Sys2Proof.Machine

/-! ## Resolution -/

/-- The entry kind serves reads and fetches (R82). -/
def servesRead : AccessKind → Bool
  | .rom => true
  | .ram => true
  | .bankedRom => true
  | .readHandler => true
  | .writeHandler => false
  | .readWriteHandler => true

/-- The entry kind serves writes (R82). -/
def servesWrite : AccessKind → Bool
  | .rom => false
  | .ram => true
  | .bankedRom => false
  | .readHandler => false
  | .writeHandler => true
  | .readWriteHandler => true

/-- An address reduced to the width of its space (R81). -/
def busAddress (s : State) (sp a : Nat) : Nat := a % 2 ^ (spaceAt s sp).aw.toNat

/-- The entry covers address a of space sp. -/
def covers (e : Entry) (sp a : Nat) : Bool :=
  decide (e.space.toNat = sp) && decide (e.start.toNat ≤ a) && decide (a ≤ e.stop.toNat)

/-- `resolve(s, a, d)`: the last registered entry that covers the address and serves the direction (R83). -/
def resolveEntry (s : State) (sp a : Nat) (serves : AccessKind → Bool) : Option Entry :=
  s.entries.reverse.find? fun e => covers e sp a && serves e.kind

/-! ## Ports -/

/-- The byte of its region a TILERAM port reaches at offset o (R183, R185). -/
def tileramOffset (s : State) (P : Port) (o : Nat) : Nat := (P.q2.toNat + o) % regionSize s P.q1.toNat

/-- What a port does for a read, none when its kind does not serve reads (R180, R183, R191). -/
def portRead (env : Env) (P : Port) (a o : Nat) : Option (State → Res Byte) :=
  match P.pk with
  | .ext => some fun s => callExt env P.q0.toNat (.read a o) s
  | .tileram => some fun s => .ok (readRegion env s P.q1.toNat (tileramOffset s P o)) s
  | .banksel => none
  | .irqack => none
  | .scroll => none
  | .latch => some fun s => .ok (s.latch.getD P.q0.toNat 0) s
  | .flip => none
  | .input => some fun s =>
      .ok (if P.q1.getLsbD 0 then s.params.scrOf (s.inp.getD P.q0.toNat 0) else s.inp.getD P.q0.toNat 0) s

/-- One byte of a scroll value replaced (R188). -/
def replaceByte (high : Bool) (w : Byte) (v : Word16) : Word16 :=
  if high then w ++ v.extractLsb' 0 8 else v.extractLsb' 8 8 ++ w

/-- The scroll entry after a SCROLL write: `sel` bit 0 picks the axis, bit 1 the byte (R188). -/
def scrollWritten (sel : Word32) (w : Byte) (e : Scroll) : Scroll :=
  if sel.getLsbD 0 then { e with dy := replaceByte (sel.getLsbD 1) w e.dy }
  else { e with dx := replaceByte (sel.getLsbD 1) w e.dx }

/-- What a LATCH write raises, none when the port's `notify` is 0 (R189). -/
def latchSignal (P : Port) : Option Instr :=
  if P.q1 = 1 then some (.pulse P.q2 P.q3)
  else if P.q1 = 2 then some (.assert P.q2 P.q3 0 false)
  else none

/-- `latch[n] <- w`. -/
def setLatch (n : Nat) (w : Byte) (s : State) : State := { s with latch := s.latch.set n w }

/-- What a port does for a write, none when its kind does not serve writes (R180, R184 to R190). -/
def portWrite (env : Env) (P : Port) (a o : Nat) (w : Byte) : Option (State → Res Unit) :=
  match P.pk with
  | .ext => some fun s => andThen (callExt env P.q0.toNat (.write a o w) s) fun _ t => .ok () t
  | .tileram => some fun s =>
      issueInternal (.markdirty P.q0 (BitVec.ofNat 32 (o >>> (P.q3.toNat % 32))))
        (writeRegion P.q1.toNat (tileramOffset s P o) w s)
  | .banksel => some fun s =>
      issueInternal (.setbank P.q0 ((w &&& P.q1.extractLsb' 0 8).setWidth 32 * P.q2)) s
  | .irqack => some fun s => issueInternal (.clear P.q0 P.q1) s
  | .scroll => some fun s =>
      .ok () (setScrollEntry P.q0.toNat P.q1.toNat
        (scrollWritten P.q2 w (scrollAt s P.q0.toNat P.q1.toNat)) s)
  | .latch => some fun s =>
      match latchSignal P with
      | none => .ok () (setLatch P.q0.toNat w s)
      | some i => issueInternal i (setLatch P.q0.toNat w s)
  | .flip => some fun s => .ok () { s with flip := w.getLsbD (P.q0.toNat % 8) }
  | .input => none

/-- `HandlerRead(h, a, o)` (R183, R86). -/
def handlerRead (env : Env) (h a o : Nat) (s : State) : Res Byte :=
  match portRead env (portAt s h) a o with
  | none => .ok s.params.openBus (soft codeUnmappedRead a h s)
  | some work => insideHandler work s

/-- `HandlerWrite(h, a, o, w)` (R184, R86). -/
def handlerWrite (env : Env) (h a o : Nat) (w : Byte) (s : State) : Res Unit :=
  match portWrite env (portAt s h) a o w with
  | none => .ok () (soft codeUnmappedWrite a h s)
  | some work => insideHandler work s

/-! ## The two memory primitives -/

/-- The byte a bank window shows at offset o, and where it lies: `(offset + o) mod size` (R84). -/
def bankedOffset (s : State) (b : Bank) (o : Nat) : Nat := (b.offset.toNat + o) % regionSize s b.region.toNat

/-- What a resolved entry gives a read at (reduced) address a (R84). -/
def entryRead (env : Env) (e : Entry) (a : Nat) (s : State) : Res Byte :=
  match e.kind with
  | .rom | .ram => .ok (readRegion env s e.p0.toNat (e.p1.toNat + (a - e.start.toNat))) s
  | .bankedRom =>
    .ok (readRegion env s (bankAt s e.p0.toNat).region.toNat
      (bankedOffset s (bankAt s e.p0.toNat) (a - e.start.toNat))) s
  | .readHandler | .writeHandler | .readWriteHandler =>
    handlerRead env e.p0.toNat a (a - e.start.toNat) s

/-- `MemRead(s, a, 1)` (R84). -/
def memRead (env : Env) (sp a : Nat) (s : State) : Res Byte :=
  match resolveEntry s sp (busAddress s sp a) servesRead with
  | none => .ok s.params.openBus (soft codeUnmappedRead sp (busAddress s sp a) s)
  | some e => entryRead env e (busAddress s sp a) s

/-- What a resolved entry does with a write at (reduced) address a; ROM and BankedROM entries are never
resolved for a write (R82, R85). -/
def entryWrite (env : Env) (e : Entry) (a : Nat) (v : Byte) (s : State) : Res Unit :=
  match e.kind with
  | .rom | .bankedRom => .ok () s
  | .ram => .ok () (writeRegion e.p0.toNat (e.p1.toNat + (a - e.start.toNat)) v s)
  | .readHandler | .writeHandler | .readWriteHandler =>
    handlerWrite env e.p0.toNat a (a - e.start.toNat) v s

/-- `MemWrite(s, a, 1, v)` (R85). -/
def memWrite (env : Env) (sp a : Nat) (v : Byte) (s : State) : Res Unit :=
  match resolveEntry s sp (busAddress s sp a) servesWrite with
  | none => .ok () (soft codeUnmappedWrite sp (busAddress s sp a) s)
  | some e => entryWrite env e (busAddress s sp a) v s

/-! ## The commands -/

/-- READ (R171). -/
def readBody (env : Env) (spaceId address : Word32) (s : State) : Res Answer :=
  if spaceOk s spaceId.toNat = false then .refuse codeBadId
  else andThen (memRead env spaceId.toNat address.toNat s) fun v t => doneR0 (v.setWidth 32) t

/-- READ as the host issues it (R171). -/
def execRead (spaceId address : Word32) (s : State) : Host.Outcome State Fault Refusal :=
  .next (hostCommand (legality (.read spaceId address)) (readBody Config.env spaceId address) s)

/-- WRITE (R172). -/
def writeBody (env : Env) (spaceId address : Word32) (byte : Byte) (s : State) : Res Answer :=
  if spaceOk s spaceId.toNat = false then .refuse codeBadId
  else andThen (memWrite env spaceId.toNat address.toNat byte s) fun _ t => done t

/-- WRITE as the host issues it (R172). -/
def execWrite (spaceId address : Word32) (byte : Byte) (s : State) : Host.Outcome State Fault Refusal :=
  .next (hostCommand (legality (.write spaceId address byte)) (writeBody Config.env spaceId address byte) s)

/-- FETCH: the semantics of READ (R174). -/
def fetchBody (env : Env) (spaceId address : Word32) (s : State) : Res Answer :=
  if spaceOk s spaceId.toNat = false then .refuse codeBadId
  else andThen (memRead env spaceId.toNat address.toNat s) fun v t => doneR0 (v.setWidth 32) t

/-- FETCH as the host issues it (R174). -/
def execFetch (spaceId address : Word32) (s : State) : Host.Outcome State Fault Refusal :=
  .next (hostCommand (legality (.fetch spaceId address)) (fetchBody Config.env spaceId address) s)

end Sys2Proof.Machine
end

