-- ==== Sys2Proof/Machine/HostIf.lean ====
section
/-! DEFINITION. Family 7, inputs, scrambling and persisted state (spec/47_host.md R330 to R336). -/

namespace Sys2Proof.Machine

/-- INPUT (R330). -/
def inputBody (index : Word32) (value : Byte) (s : State) : Res Answer :=
  if s.params.nin ≤ index.toNat then .refuse codeBadId
  else done { s with inp := s.inp.set index.toNat value }

/-- INPUT as the host issues it (R330). -/
def execInput (index : Word32) (value : Byte) (s : State) : Host.Outcome State Fault Refusal :=
  .next (hostCommand (legality (.input index value)) (inputBody index value) s)

/-- SCRAMBLE (R331). -/
def scrambleBody (value : Byte) (s : State) : Res Answer := doneR0 ((s.params.scrOf value).setWidth 32) s

/-- SCRAMBLE as the host issues it (R331). -/
def execScramble (value : Byte) (s : State) : Host.Outcome State Fault Refusal :=
  .next (hostCommand (legality (.scramble value)) (scrambleBody value) s)

/-! ## The save list (R332) -/

/-- What a save item names exists (R332). -/
def saveTargetOk (s : State) (cls : SaveClass) (id : Word32) : Bool :=
  match cls with
  | .region => regionOk s id.toNat
  | .bank => bankOk s id.toNat
  | .scroll => layerOk s id.toNat
  | .lines => isCpu s id.toNat
  | .flip | .latches | .palette | .lookup => true

/-- The identifier a save item keeps: 0 for the classes that have one item (R332). -/
def saveId (cls : SaveClass) (id : Word32) : Word32 :=
  match cls with
  | .region | .bank | .scroll | .lines => id
  | .flip | .latches | .palette | .lookup => 0

/-- SAVEREG (R332). -/
def saveregBody (cls : Byte) (id : Word32) (s : State) : Res Answer :=
  match saveClassOf cls with
  | none => .config codeBadKind
  | some kd =>
    if saveTargetOk s kd id = false then .config codeBadId
    else if s.save.contains ⟨kd, saveId kd id⟩ then .config codeBadId
    else if s.save.length = s.params.nsave then .config codeBadId
    else done { s with save := s.save ++ [⟨kd, saveId kd id⟩] }

/-- SAVEREG as the host issues it (R332). -/
def execSavereg (cls : Byte) (id : Word32) (s : State) : Host.Outcome State Fault Refusal :=
  .next (hostCommand (legality (.savereg cls id)) (saveregBody cls id) s)

/-! ## The snapshot (R333, R336) -/

/-- The two bytes of a line: `st` in bits 1 to 0 and `hasvec` in bit 2, then `vec` (R336). -/
def lineBytes (ln : Line) : List Byte :=
  [BitVec.ofNat 8 (lineStateCode ln.st + 4 * ln.hasvec.toNat), ln.vec]

/-- The four bytes of a scroll entry (R336). -/
def scrollBytes (e : Scroll) : List Byte := natToLe 2 e.dx.toNat ++ natToLe 2 e.dy.toNat

/-- How many items of a class are in a snapshot, and the bytes of each (R336). -/
def itemCount (s : State) (it : SaveItem) : Nat :=
  match it.cls with
  | .region => regionSize s it.id.toNat
  | .bank => 1
  | .scroll => (layerAt s it.id.toNat).nent.toNat
  | .flip => 1
  | .latches => s.params.nlatch
  | .lines => s.params.nlineOf it.id.toNat
  | .palette => s.params.npal
  | .lookup => s.params.ngroup * s.params.npens

/-- The bytes of one item of a class (R336). -/
def itemWidth : SaveClass → Nat
  | .region => 1
  | .bank => 4
  | .scroll => 4
  | .flip => 1
  | .latches => 1
  | .lines => 2
  | .palette => 3
  | .lookup => 2

/-- The n-th element of a save item, as bytes (R336). -/
def elementBytes (env : Env) (s : State) (it : SaveItem) (n : Nat) : List Byte :=
  match it.cls with
  | .region => [readRegion env s it.id.toNat n]
  | .bank => natToLe 4 (bankAt s it.id.toNat).offset.toNat
  | .scroll => scrollBytes (scrollAt s it.id.toNat n)
  | .flip => [if s.flip then 1 else 0]
  | .latches => [s.latch.getD n 0]
  | .lines => lineBytes (lineAt s it.id.toNat n)
  | .palette => natToLe 3 (s.palette.getD n 0).toNat
  | .lookup => natToLe 2 (s.lookup.getD n 0).toNat

/-- The encoding of one item of the save list (R336). -/
def itemBytes (env : Env) (s : State) (it : SaveItem) : List Byte :=
  (List.range (itemCount s it)).flatMap (elementBytes env s it)

/-- The length of the encoding of one item (R336). -/
def itemLength (s : State) (it : SaveItem) : Nat := itemCount s it * itemWidth it.cls

/-- The snapshot: the encodings in registration order (R336). -/
def snapshotBytes (env : Env) (s : State) : List Byte := s.save.flatMap (itemBytes env s)

/-- The length R336 gives for the current configuration. -/
def snapshotLength (s : State) : Nat := (s.save.map (itemLength s)).sum

/-- SNAPSHOT (R333); the payload goes beside the response (log 4). -/
def snapshotBody (env : Env) (s : State) : Res Answer :=
  doneR0 (BitVec.ofNat 32 (snapshotBytes env s).length) { s with payloadOut := snapshotBytes env s }

/-- SNAPSHOT as the host issues it (R333). -/
def execSnapshot (s : State) : Host.Outcome State Fault Refusal :=
  .next (hostCommand (legality .snapshot) (snapshotBody Config.env) s)

/-! ## The restore (R334) -/

/-- The number that `width` bytes at a position stand for (R88). -/
def numberAt (bytes : List Byte) (pos width : Nat) : Nat := leNat ((bytes.drop pos).take width)

/-- The line two bytes stand for (R336). -/
def lineFrom (bytes : List Byte) (pos : Nat) : Line :=
  ⟨lineStateOf (numberAt bytes pos 1 % 4), (numberAt bytes pos 1 / 4) % 2 == 1,
    BitVec.ofNat 8 (numberAt bytes (pos + 1) 1)⟩

/-- The bytes of one element are in range: a FLIP byte is 0 or 1, a line has no reserved bit and is not
Acknowledged, a lookup value is below NPAL (R334). -/
def elementOk (s : State) (cls : SaveClass) (bytes : List Byte) (n : Nat) : Bool :=
  match cls with
  | .region | .bank | .scroll | .latches | .palette => true
  | .flip => decide (numberAt bytes n 1 ≤ 1)
  | .lines => decide (numberAt bytes (2 * n) 1 < 8) && decide (numberAt bytes (2 * n) 1 % 4 ≠ 2)
  | .lookup => decide (numberAt bytes (2 * n) 2 < s.params.npal)

/-- The bytes of one item are in range (R334). -/
def itemOk (s : State) (it : SaveItem) (bytes : List Byte) : Bool :=
  (List.range (itemCount s it)).all (elementOk s it.cls bytes)

/-- Every item of a list is in range, each taking its bytes from the front (R334). -/
def itemsOk (s : State) : List SaveItem → List Byte → Bool
  | [], _ => true
  | it :: its, bytes =>
    itemOk s it (bytes.take (itemLength s it)) && itemsOk s its (bytes.drop (itemLength s it))

/-- Writes one item from its bytes; nothing is notified yet (R334, R336). -/
def restoreItem (it : SaveItem) (bytes : List Byte) (s : State) : State :=
  match it.cls with
  | .region => { s with mem := memSetRegion s.mem it.id.toNat bytes }
  | .bank => { s with
      banks := s.banks.modify it.id.toNat fun bk => { bk with offset := BitVec.ofNat 32 (numberAt bytes 0 4) } }
  | .scroll => { s with
      scroll := s.scroll.set it.id.toNat ((List.range (itemCount s it)).map fun e =>
        ⟨BitVec.ofNat 16 (numberAt bytes (4 * e) 2), BitVec.ofNat 16 (numberAt bytes (4 * e + 2) 2)⟩) }
  | .flip => { s with flip := numberAt bytes 0 1 == 1 }
  | .latches => { s with latch := bytes }
  | .lines => { s with
      lines := s.lines.set it.id.toNat ((List.range (itemCount s it)).map fun l => lineFrom bytes (2 * l)) }
  | .palette => { s with
      palette := (List.range (itemCount s it)).map fun n => BitVec.ofNat 24 (numberAt bytes (3 * n) 3) }
  | .lookup => { s with
      lookup := (List.range (itemCount s it)).map fun n => BitVec.ofNat 16 (numberAt bytes (2 * n) 2) }

/-- Writes the items of a list, each taking its bytes from the front (R334). -/
def restoreItems : List SaveItem → List Byte → State → State
  | [], _, s => s
  | it :: its, bytes, s =>
    restoreItems its (bytes.drop (itemLength s it)) (restoreItem it (bytes.take (itemLength s it)) s)

/-- Notifies CPU c of line l if its activity differs from the one in `before` (R334, 42_interrupt R207). -/
def notifyChange (before : State) (c : Nat) (s : State) (l : Nat) : State :=
  if lineActive before c l = lineActive s c l then s else notify c l (lineActive s c l) s

/-- The notifications of one restored item, the lines of a CPU in ascending number (R334; DESIGN CHOICE of the
order, log 29). -/
def notifyItem (before : State) (s : State) (it : SaveItem) : State :=
  match it.cls with
  | .lines => (List.range (itemCount s it)).foldl (notifyChange before it.id.toNat) s
  | .region | .bank | .scroll | .flip | .latches | .palette | .lookup => s

/-- RESTORE of a payload (R334); the notifications come item by item in the order of the save list (DESIGN CHOICE,
log 29). -/
def restoreFrom (bytes : List Byte) (s : State) : Res Answer :=
  if bytes.length ≠ snapshotLength s then .refuse codeBadParam
  else if itemsOk s s.save bytes = false then .refuse codeBadParam
  else done (allDirty (s.save.foldl (notifyItem s) (restoreItems s.save bytes s)))

/-- RESTORE: the payload is the one carried beside the command (R121, R334, log 4). -/
def restoreBody (s : State) : Res Answer := restoreFrom s.payloadIn s

/-- RESTORE as the host issues it (R334). -/
def execRestore (s : State) : Host.Outcome State Fault Refusal :=
  .next (hostCommand (legality .restore) restoreBody s)

end Sys2Proof.Machine
end

