-- ==== Sys2Proof/Machine/Lifecycle.lean ====
section
/-! DEFINITION. Family 0, configuration and lifecycle (spec/40_config.md R150 to R158). -/

namespace Sys2Proof.Machine

/-- The lines a new device gets: NLINE of them for a CPU, none otherwise (R150). -/
def newLines (p : Params) (c : Nat) (kind : DevKind) : List Line :=
  match kind with
  | .cpu => List.replicate (p.nlineOf c) idleLine
  | .sound => []
  | .other => []

/-- REGDEV (R150). -/
def regdevBody (tag : Word32) (kind : BitVec 2) (clockHz : Word32) (s : State) : Res Answer :=
  match devKindOf kind with
  | none => .config codeBadKind
  | some kd =>
    if s.dev.any (fun d => d.tag == tag) then .config codeDuplicateTag
    else if s.dev.length = s.params.ndev then .config codeBadId
    else
      doneR0 (BitVec.ofNat 32 s.dev.length)
        { s with
          dev := s.dev ++ [⟨tag, kd, clockHz⟩]
          lines := s.lines ++ [newLines s.params s.dev.length kd]
          carry := s.carry ++ [0]
          cpuObs := s.cpuObs ++ [[]] }

/-- REGDEV as the host issues it (R150). -/
def execRegdev (tag : Word32) (kind : BitVec 2) (clockHz : Word32) (s : State) :
    Host.Outcome State Fault Refusal :=
  .next (hostCommand (legality (.regdev tag kind clockHz)) (regdevBody tag kind clockHz) s)

/-- LOOKUP (R151). -/
def lookupBody (tag : Word32) (s : State) : Res Answer :=
  match s.dev.findIdx? (fun d => d.tag == tag) with
  | some d => doneR0 (BitVec.ofNat 32 d) s
  | none => .refuse codeUnknownDevice

/-- LOOKUP as the host issues it (R151). -/
def execLookup (tag : Word32) (s : State) : Host.Outcome State Fault Refusal :=
  .next (hostCommand (legality (.lookup tag)) (lookupBody tag) s)

/-- The region slot and bytes REGION makes: the image from offset 0 on, every other byte unspecified
(R152). -/
def makeRegion (regionId size : Word32) (img : Bool) (bytes : List Byte) (s : State) : State :=
  nextDraw
    { s with
      regions := s.regions.set regionId.toNat ⟨true, size, img, s.freeCtr⟩
      mem := memSetRegion s.mem regionId.toNat bytes }

/-- REGION (R152). -/
def regionBody (regionId size imageId : Word32) (s : State) : Res Answer :=
  if s.params.nregion ≤ regionId.toNat ∨ (regionAt s regionId.toNat).valid then .config codeBadId
  else if size = 0 then .config codeBadParam
  else if imageId = 0 then done (makeRegion regionId size false [] s)
  else
    match s.params.romimgOf imageId.toNat with
    | none => .config codeBadId
    | some bytes =>
      if size.toNat < bytes.length then .config codeRegionOverflow
      else done (makeRegion regionId size true bytes s)

/-- REGION as the host issues it (R152). -/
def execRegion (regionId size imageId : Word32) (s : State) : Host.Outcome State Fault Refusal :=
  .next (hostCommand (legality (.region regionId size imageId)) (regionBody regionId size imageId) s)

/-- BANKDEF (R153). -/
def bankdefBody (bankId regionId size : Word32) (s : State) : Res Answer :=
  if s.params.nbank ≤ bankId.toNat ∨ (bankAt s bankId.toNat).valid then .config codeBadId
  else if regionOk s regionId.toNat = false then .config codeUnresolvableBank
  else if size = 0 then .config codeBadParam
  else done { s with banks := s.banks.set bankId.toNat ⟨true, regionId.setWidth 8, size, 0⟩ }

/-- BANKDEF as the host issues it (R153). -/
def execBankdef (bankId regionId size : Word32) (s : State) : Host.Outcome State Fault Refusal :=
  .next (hostCommand (legality (.bankdef bankId regionId size)) (bankdefBody bankId regionId size) s)

/-- SPACEDEF (R154). -/
def spacedefBody (spaceId owner : Word32) (aw : BitVec 6) (s : State) : Res Answer :=
  if s.params.nspace ≤ spaceId.toNat ∨ (spaceAt s spaceId.toNat).valid then .config codeBadId
  else if isCpu s owner.toNat = false then .config codeBadId
  else if aw = 0 ∨ 32 < aw.toNat then .config codeBadParam
  else done { s with spaces := s.spaces.set spaceId.toNat ⟨true, owner.setWidth 8, aw⟩ }

/-- SPACEDEF as the host issues it (R154). -/
def execSpacedef (spaceId owner : Word32) (aw : BitVec 6) (s : State) : Host.Outcome State Fault Refusal :=
  .next (hostCommand (legality (.spacedef spaceId owner aw)) (spacedefBody spaceId owner aw) s)

/-- SYSCFG (R155). -/
def syscfgBody (masterHz frameHz : Word32) (slices sw sh : Word16) (s : State) : Res Answer :=
  if masterHz = 0 ∨ frameHz = 0 ∨ slices = 0 then .config codeBadParam
  else if sw = 0 ∨ 32767 < sw.toNat ∨ sh = 0 ∨ 32767 < sh.toNat then .config codeBadParam
  else
    done
      { s with
        masterHz := masterHz
        frameHz := frameHz
        slices := slices
        sw := sw.setWidth 15
        sh := sh.setWidth 15
        syscfgDone := true }

/-- SYSCFG as the host issues it (R155). -/
def execSyscfg (masterHz frameHz : Word32) (slices sw sh : Word16) (s : State) :
    Host.Outcome State Fault Refusal :=
  .next (hostCommand (legality (.syscfg masterHz frameHz slices sw sh))
    (syscfgBody masterHz frameHz slices sw sh) s)

/-- `set_pc(RESET_PC[c])` on every CPU, ascending (R156, R157). -/
def callAllSetPc (s : State) : State := (cpuHandles s).foldl callSetPc s

/-- The block enters Run with a new frame buffer (R156). -/
def enterRun (env : Env) (s : State) : State :=
  nextDraw { s with fb := freshFb env s, phase := .run }

/-- START (R156). -/
def startBody (env : Env) (s : State) : Res Answer :=
  if s.cfgErr ≠ 0 then .refuse s.cfgErr
  else if s.syscfgDone = false ∨ cpuHandles s = [] then .refuse codeIncomplete
  else done (callAllSetPc (enterRun env s))

/-- START as the host issues it (R156). -/
def execStart (s : State) : Host.Outcome State Fault Refusal :=
  .next (hostCommand (legality .start) (startBody Config.env) s)

/-- The save list names this item (R157). -/
def saved (s : State) (cls : SaveClass) (id : Nat) : Bool :=
  s.save.any fun it => it.cls == cls && decide (it.id.toNat = id)

/-- The save list names some item of this class (R157). -/
def savedAny (s : State) (cls : SaveClass) : Bool := s.save.any fun it => it.cls == cls

/-- RESET makes region r's bytes unspecified: it is valid, not saved, and no image (R157). -/
def losesBytes (s : State) (r : Nat) : Bool :=
  (regionAt s r).valid && !saved s .region r && !(regionAt s r).img

/-- RESET of the lines of one CPU: notify level 0 for an active line, then (Idle, 0, 0) (R157); the lines in
ascending number (DESIGN CHOICE, log 29). -/
def resetLines (s : State) (c : Nat) : State :=
  if saved s .lines c then s
  else (List.range (s.params.nlineOf c)).foldl (fun t l => putLine c l idleLine t) s

/-- RESET of everything but the lines (R157); one draw makes all that is unspecified. It keeps `extMem` and
`cpuObs`, what the model has of the oracles' state, which 70_reset R394 leaves a model to decide (DESIGN CHOICE,
log 28). -/
def resetFields (env : Env) (s : State) : State :=
  nextDraw
    { s with
      banks := s.banks.mapIdx fun b bk => if bk.valid && !saved s .bank b then { bk with offset := 0 } else bk
      latch := if savedAny s .latches then s.latch else s.latch.map fun _ => 0
      now := 0
      frameStart := 0
      frameCount := 0
      k := 0
      i := 0
      inFrame := false
      inHandler := false
      carry := s.carry.map fun _ => 0
      timers := s.timers.map fun t => { t with armed := false }
      scroll := s.scroll.mapIdx fun L row => if saved s .scroll L then row else row.map fun _ => ⟨0, 0⟩
      dirty := s.dirty.map fun row => row.map fun _ => true
      cache := s.cache.mapIdx fun L row => freshCache env s L row.length
      flip := if savedAny s .flip then s.flip else false
      fb := freshFb env s
      regions := s.regions.mapIdx fun r rg => if losesBytes s r then { rg with gen := s.freeCtr } else rg
      mem := s.mem.filter fun c => !losesBytes s (c.1 / 2 ^ 32) }

/-- RESET (R157); the lines of the CPUs in ascending handle (DESIGN CHOICE, log 29). -/
def resetBody (env : Env) (s : State) : Res Answer :=
  done (callAllSetPc (resetFields env ((cpuHandles s).foldl resetLines s)))

/-- RESET as the host issues it (R157). -/
def execReset (s : State) : Host.Outcome State Fault Refusal :=
  .next (hostCommand (legality .reset) (resetBody Config.env) s)

/-- TEARDOWN (R158). -/
def teardownBody (s : State) : Res Answer :=
  done { s with timers := s.timers.map fun t => { t with armed := false }, phase := .down }

/-- TEARDOWN as the host issues it (R158). -/
def execTeardown (s : State) : Host.Outcome State Fault Refusal :=
  .next (hostCommand (legality .teardown) teardownBody s)

end Sys2Proof.Machine
end

