-- ==== Sys2Proof/Machine/Scheduler.lean ====
section
/-! DEFINITION. Family 3, the scheduler: the CPU units, the slices, the firing of timers and RUNFRAME
(spec/43_scheduler.md R230 to R239). -/

namespace Sys2Proof.Machine

/-! ## Time (R238, R232) -/

/-- `FC`, the master cycles of a frame (R238). -/
def frameCycles (s : State) : Nat := s.masterHz.toNat / s.frameHz.toNat

/-- `E(k)`, the end of slice k of a frame of S slices (R238). -/
def sliceEnd (s : State) (S k : Nat) : Word64 :=
  s.frameStart + BitVec.ofNat 64 (frameCycles s * (k + 1) / S)

/-- `CF(c)`, a CPU's cycles of a frame (R232). It does not depend on `FC`: DESIGN CHOICE, unsafe, where `FC` is 0
and R238's prose says that CPUs get no cycles (log 30). -/
def cpuCycles (s : State) (c : Nat) : Nat := ((s.dev[c]?).map fun d => d.clockHz.toNat).getD 0 / s.frameHz.toNat

/-- `target(c, k)`, a CPU's cycles in slice k of a frame of S slices, by R232's formula for every `FC`, 0 included:
DESIGN CHOICE, unsafe, because R238's prose says that CPUs get no cycles in a frame of 0 master cycles (log 30). -/
def sliceTarget (s : State) (S c k : Nat) : Nat :=
  cpuCycles s c * (k + 1) / S - cpuCycles s c * k / S

/-! ## The commands of a CPU unit (R125, R233, R352, R355) -/

/-- A CPU's READ or FETCH; refused, it gets the open-bus byte and a diagnostic is emitted (R171, R174). -/
def cpuRead (env : Env) (c op : Nat) (spaceId address : Word32) (s : State) : Res CpuObs :=
  if spaceOk s spaceId.toNat = false then
    .ok (.readReply s.params.openBus) (soft codeBadId op spaceId.toNat s)
  else if (spaceAt s spaceId.toNat).owner.toNat ≠ c then
    .ok (.readReply s.params.openBus) (soft codeNotPermitted op spaceId.toNat s)
  else andThen (memRead env spaceId.toNat address.toNat s) fun v t => .ok (.readReply v) t

/-- A CPU's WRITE (R172). -/
def cpuWrite (env : Env) (c op : Nat) (spaceId address : Word32) (byte : Byte) (s : State) : Res CpuObs :=
  if spaceOk s spaceId.toNat = false then .ok .writeReply (soft codeBadId op spaceId.toNat s)
  else if (spaceAt s spaceId.toNat).owner.toNat ≠ c then
    .ok .writeReply (soft codeNotPermitted op spaceId.toNat s)
  else andThen (memWrite env spaceId.toNat address.toNat byte s) fun _ t => .ok .writeReply t

/-- A CPU's ACK; refused, it gets the open-bus byte and `none` (R203, R352). -/
def cpuAck (env : Env) (c op : Nat) (cpu : Word32) (s : State) : Res CpuObs :=
  if isCpu s cpu.toNat = false then .ok (.ackReply s.params.openBus 0x100) (soft codeBadId op cpu.toNat s)
  else if cpu.toNat ≠ c then
    .ok (.ackReply s.params.openBus 0x100) (soft codeNotPermitted op cpu.toNat s)
  else andThen (acknowledge env cpu.toNat s) fun v t => .ok (.ackReply v.1 v.2) t

/-- What CPU c's command does; none for a command it may not issue (R125). -/
def cpuBody (env : Env) (c op : Nat) : Instr → Option (State → Res CpuObs)
  | .read spaceId address => some (cpuRead env c op spaceId address)
  | .fetch spaceId address => some (cpuRead env c op spaceId address)
  | .write spaceId address byte => some (cpuWrite env c op spaceId address byte)
  | .ack cpu => some (cpuAck env c op cpu)
  | .regdev .. => none
  | .lookup .. => none
  | .region .. => none
  | .bankdef .. => none
  | .spacedef .. => none
  | .syscfg .. => none
  | .start => none
  | .reset => none
  | .teardown => none
  | .map .. => none
  | .setbank .. => none
  | .portdef .. => none
  | .poke .. => none
  | .assert .. => none
  | .clear .. => none
  | .pulse .. => none
  | .lineq .. => none
  | .runframe => none
  | .timerset .. => none
  | .tmcreate .. => none
  | .markdirty .. => none
  | .setscroll .. => none
  | .tmcomposite .. => none
  | .spcfg .. => none
  | .spcomposite .. => none
  | .render => none
  | .setflip .. => none
  | .setpen .. => none
  | .setpal .. => none
  | .rstep .. => none
  | .input .. => none
  | .scramble .. => none
  | .snapshot => none
  | .restore => none
  | .savereg .. => none

/-- A CPU's command that it may not issue, or that is none: a diagnostic with the opcode and `A[0]`
(R352, R355). -/
def cpuRejected (cw : CmdWord) (s : State) : Res CpuObs :=
  .ok .refusedReply (soft codeNotPermitted (opcodeOf cw).toNat (argOf cw 0).toNat s)

/-- One command word issued by CPU c inside its `step` (R125, R233). -/
def cpuCommand (env : Env) (c : Nat) (cw : CmdWord) (s : State) : Res CpuObs :=
  match decodeWord cw with
  | .error _ => cpuRejected cw s
  | .ok i =>
    match cpuBody env c (opcodeOf cw).toNat i with
    | none => cpuRejected cw s
    | some work => work s

/-! ## Stepping a CPU (R233) -/

/-- Everything CPU c has observed, newest first. -/
def obsOf (s : State) (c : Nat) : List CpuObs := s.cpuObs.getD c []

/-- The commands of one `step`, each answered before the next, then `consumed`; `fuel` is the oracle's own
bound on their number (R233, log 10). -/
def cpuTurns (env : Env) (c : Nat) : Nat → State → Res Word32
  | 0, s => .ok (env.cpu c (obsOf s c)).consumed s
  | fuel + 1, s =>
    match (env.cpu c (obsOf s c)).cmd with
    | none => .ok (env.cpu c (obsOf s c)).consumed s
    | some cw => andThen (cpuCommand env c cw s) fun o t => cpuTurns env c fuel (observe c o t)

/-- `CPU[c].step(budget)` (R233). -/
def cpuStep (env : Env) (c : Nat) (budget : Word32) (s : State) : Res Word32 :=
  let t := observe c (.step budget) s
  cpuTurns env c (env.cpuBound c (obsOf t c)) t

/-- `carry[c]`. -/
def carryAt (s : State) (c : Nat) : Nat := (s.carry.getD c 0).toNat

/-- `carry[c] <- v`. -/
def setCarry (c v : Nat) (s : State) : State := { s with carry := s.carry.set c (BitVec.ofNat 32 v) }

/-- CPU c's part of slice k: the budget is the target less the carried overrun; a negative one is fatal,
zero is not stepped, and the new overrun is carried (R231). -/
def sliceCpu (env : Env) (S k c : Nat) (s : State) : Res Unit :=
  if sliceTarget s S c k < carryAt s c then raiseFatal codeNegativeCycles s
  else if sliceTarget s S c k = carryAt s c then .ok () (setCarry c 0 s)
  else
    andThen (cpuStep env c (BitVec.ofNat 32 (sliceTarget s S c k - carryAt s c)) s) fun consumed t =>
      .ok () (setCarry c (consumed.toNat - (sliceTarget s S c k - carryAt s c)) t)

/-- The CPUs of a slice in ascending handle; `i` is the cursor (R231, log 20). -/
def sliceCpus (env : Env) (S k : Nat) : List Nat → State → Res Unit
  | [], s => .ok () s
  | c :: cs, s =>
    andThen (sliceCpu env S k c { s with i := BitVec.ofNat 8 c }) fun _ t => sliceCpus env S k cs t

/-! ## Timers (R235) -/

/-- Timer n is armed and its deadline is not after `tEnd`. -/
def timerDue (s : State) (tEnd : Word64) (n : Nat) : Bool :=
  (timerAt s n).armed && decide ((timerAt s n).deadline.toNat ≤ tEnd.toNat)

/-- The timers due at `tEnd`, ascending. -/
def dueTimers (s : State) (tEnd : Word64) : List Nat :=
  (List.range s.timers.length).filter (timerDue s tEnd)

/-- Of ascending slots the one with the least deadline, among equals the least (R235). -/
def earliest (s : State) : List Nat → Option Nat
  | [] => none
  | n :: ns =>
    match earliest s ns with
    | none => some n
    | some m => if (timerAt s n).deadline.toNat ≤ (timerAt s m).deadline.toNat then some n else some m

/-- A timer before its action: re-armed one period later, or disarmed (R235). -/
def rearmed (T : Timer) : Timer :=
  if T.period = 0 then { T with armed := false }
  else { T with deadline := T.deadline + T.period.setWidth 64 }

/-- A timer's action (R235). -/
def timerAction (env : Env) (n : Nat) (T : Timer) (s : State) : Res Unit :=
  match T.act with
  | .pulse => issueInternal (.pulse T.t0 T.t1) s
  | .assert => issueInternal (.assert T.t0 T.t1 (T.t2.extractLsb' 0 8) (T.t2.getLsbD 8)) s
  | .clear => issueInternal (.clear T.t0 T.t1) s
  | .callback =>
    andThen (insideHandler (callExt env T.t0.toNat (.timer n)) s) fun _ t => .ok () t

/-- One firing: the slot first, then the event, then the action (R235). -/
def fireTimer (env : Env) (n : Nat) (s : State) : Res Unit :=
  timerAction env n (timerAt s n)
    (emit (.timerFire n) { s with timers := s.timers.set n (rearmed (timerAt s n)) })

/-- `FireTimers(t_end)`; `fuel` bounds the loop (R235, log 15). -/
def fireTimers (env : Env) (tEnd : Word64) : Nat → State → Res Unit
  | 0, s => .ok () s
  | fuel + 1, s =>
    match earliest s (dueTimers s tEnd) with
    | none => .ok () s
    | some n => andThen (fireTimer env n s) fun _ t => fireTimers env tEnd fuel t

/-- A bound on the firings at one slice end: each one disarms a due slot or moves its deadline on by at
least 1 (R235, log 15). -/
def firingBound (s : State) (tEnd : Word64) : Nat :=
  ((dueTimers s tEnd).map fun n => tEnd.toNat - (timerAt s n).deadline.toNat + 1).sum

/-! ## RUNFRAME (R230, R231) -/

/-- The end of a slice: the clock moves, then the timers fire (R231). -/
def endSlice (env : Env) (tEnd : Word64) (s : State) : Res Unit :=
  fireTimers env tEnd (firingBound s tEnd) { s with now := tEnd }

/-- `Slice(k)` of a frame of S slices (R231). -/
def slice (env : Env) (S k : Nat) (s : State) : Res Unit :=
  andThen (sliceCpus env S k (cpuHandles s) s) fun _ t => endSlice env (sliceEnd s S k) t

/-- Slices of a list in its order; `k` is the cursor (R230). -/
def slicesFrom (env : Env) (S : Nat) : List Nat → State → Res Unit
  | [], s => .ok () s
  | k :: ks, s => andThen (slice env S k { s with k := BitVec.ofNat 16 k }) fun _ t => slicesFrom env S ks t

/-- `generate_samples` of every sound device, ascending (R230, 60_exceptions R377). -/
def emitSamples (s : State) : State :=
  (soundHandles s).foldl (fun t d => emit (.samples d (t.params.samplesOf d)) t) s

/-- The end of a frame: its start moves on, its number grows, the cursors return to 0 (R230). -/
def endFrame (s : State) : State :=
  { s with
    frameStart := s.frameStart + BitVec.ofNat 64 (frameCycles s)
    frameCount := s.frameCount + 1
    k := 0
    i := 0
    inFrame := false }

/-- RUNFRAME (R230). -/
def runframeBody (env : Env) (s : State) : Res Answer :=
  andThen (slicesFrom env s.slices.toNat (List.range s.slices.toNat) { s with inFrame := true }) fun _ t =>
    andThen (renderFrame env t) fun _ u => done (endFrame (emitSamples u))

/-- RUNFRAME as the host issues it (R230). -/
def execRunframe (s : State) : Host.Outcome State Fault Refusal :=
  .next (hostCommand (legality .runframe) (runframeBody Config.env) s)

end Sys2Proof.Machine
end

