-- ==== Sys2Proof/Machine/Dispatch.lean ====
section
/-! DEFINITION. What each command does: one arm per constructor of Instr, each one call of its meaning. -/

namespace Sys2Proof.Machine

def exec (i : Instr) (s : State) : Host.Outcome State Fault Refusal :=
  match i with
  | .regdev tag kind clockHz => Sys2Proof.Machine.execRegdev tag kind clockHz s
  | .lookup tag => Sys2Proof.Machine.execLookup tag s
  | .region regionId size imageId => Sys2Proof.Machine.execRegion regionId size imageId s
  | .bankdef bankId regionId size => Sys2Proof.Machine.execBankdef bankId regionId size s
  | .spacedef spaceId owner aw => Sys2Proof.Machine.execSpacedef spaceId owner aw s
  | .syscfg masterHz frameHz slices sw sh => Sys2Proof.Machine.execSyscfg masterHz frameHz slices sw sh s
  | .start => Sys2Proof.Machine.execStart s
  | .reset => Sys2Proof.Machine.execReset s
  | .teardown => Sys2Proof.Machine.execTeardown s
  | .map spaceId first last kind p0 p1 => Sys2Proof.Machine.execMap spaceId first last kind p0 p1 s
  | .read spaceId address => Sys2Proof.Machine.execRead spaceId address s
  | .write spaceId address byte => Sys2Proof.Machine.execWrite spaceId address byte s
  | .setbank bankId sourceOffset => Sys2Proof.Machine.execSetbank bankId sourceOffset s
  | .fetch spaceId address => Sys2Proof.Machine.execFetch spaceId address s
  | .portdef handlerId pk q0 q1 q2 q3 => Sys2Proof.Machine.execPortdef handlerId pk q0 q1 q2 q3 s
  | .poke regionId offset byte => Sys2Proof.Machine.execPoke regionId offset byte s
  | .assert cpu line vector hasVector => Sys2Proof.Machine.execAssert cpu line vector hasVector s
  | .clear cpu line => Sys2Proof.Machine.execClear cpu line s
  | .pulse cpu line => Sys2Proof.Machine.execPulse cpu line s
  | .ack cpu => Sys2Proof.Machine.execAck cpu s
  | .lineq cpu line => Sys2Proof.Machine.execLineq cpu line s
  | .runframe => Sys2Proof.Machine.execRunframe s
  | .timerset id delay period act t0 t1 t2 => Sys2Proof.Machine.execTimerset id delay period act t0 t1 t2 s
  | .tmcreate layer w h tw th rf gfx smode nent => Sys2Proof.Machine.execTmcreate layer w h tw th rf gfx smode nent s
  | .markdirty layer tileIndex => Sys2Proof.Machine.execMarkdirty layer tileIndex s
  | .setscroll layer rowOrCol dx dy => Sys2Proof.Machine.execSetscroll layer rowOrCol dx dy s
  | .tmcomposite minX minY maxX maxY layer mode pen => Sys2Proof.Machine.execTmcomposite minX minY maxX maxY layer mode pen s
  | .spcfg regionId base stride count df gfx spw sph reverse hasTpen tpen => Sys2Proof.Machine.execSpcfg regionId base stride count df gfx spw sph reverse hasTpen tpen s
  | .spcomposite minX minY maxX maxY only p => Sys2Proof.Machine.execSpcomposite minX minY maxX maxY only p s
  | .render => Sys2Proof.Machine.execRender s
  | .setflip flag => Sys2Proof.Machine.execSetflip flag s
  | .setpen group pen paletteIndex => Sys2Proof.Machine.execSetpen group pen paletteIndex s
  | .setpal index rgb => Sys2Proof.Machine.execSetpal index rgb s
  | .rstep slot rk ra rb rc => Sys2Proof.Machine.execRstep slot rk ra rb rc s
  | .input index value => Sys2Proof.Machine.execInput index value s
  | .scramble value => Sys2Proof.Machine.execScramble value s
  | .snapshot => Sys2Proof.Machine.execSnapshot s
  | .restore => Sys2Proof.Machine.execRestore s
  | .savereg cls id => Sys2Proof.Machine.execSavereg cls id s

end Sys2Proof.Machine
end

