-- ==== Sys2Proof/Machine/Step.lean ====
section
/-! DEFINITION. One step of the block: it takes the next command the host has presented, decodes it and
executes it (spec/00_scope.md R12, spec/30_encoding.md R121, R124). With nothing presented the block is
quiescent (60_exceptions R379, log 2). -/

namespace Sys2Proof.Machine

/-- One step. -/
def step (s : State) : Host.Outcome State Fault Refusal :=
  match takeCommand s with
  | none => .next s
  | some (w, t) =>
    match decodeWord w with
    | .ok i => exec i t
    | .error _ => .next (rejectIllegal t)

/-- `s` with a word of spec/opcode_table.json presented as the next command; the bits above `nbits` are
0 (log 2). -/
def State.withFetchWord (s : State) (nbits w : Nat) : State := presentWord (wordOf (tableBytes nbits w)) s

end Sys2Proof.Machine
end

