-- ==== Sys2Proof/Safety.lean ====
section
/-! DEFINITION. What the claims speak of: the states a command leaves when it is turned away, the shape of
the tables, the invariants the spec names, and the coherence of the tile-cache. -/

namespace Sys2Proof.Machine

/-! ## Commands turned away -/

/-- A refused host command: nothing but STATUS changes (60_exceptions R352). -/
def refusedWith (code : Byte) (s : State) : State := { s with status := code }

/-- A host command with a configuration error: the first one latches (60_exceptions R351). -/
def configErrorWith (code : Byte) (s : State) : State :=
  { s with cfgErr := if s.cfgErr = 0 then code else s.cfgErr, status := code }

/-- A host command that completed and names no result (10_state R22). -/
def completed (s : State) : State := { s with status := codeOk }

/-- A host command that completed with R0 (10_state R22). -/
def completedR0 (r0 : Word32) (s : State) : State := { s with status := codeOk, r0 := r0 }

/-- A host command that completed with R0 and R1 (10_state R22). -/
def completedR01 (r0 r1 : Word32) (s : State) : State := { s with status := codeOk, r0 := r0, r1 := r1 }

/-- The phases in which a Config-and-Run command is legal (30_encoding R124). -/
def configOrRun (s : State) : Prop := s.phase = .config ∨ s.phase = .run

/-- The opcode bytes that stand for a command (30_encoding R122). -/
def definedOpcodes : List Byte :=
  [0x01, 0x02, 0x03, 0x04, 0x05, 0x06, 0x07, 0x08, 0x09,
    0x10, 0x11, 0x12, 0x13, 0x14, 0x15, 0x16,
    0x20, 0x21, 0x22, 0x23, 0x24, 0x30, 0x31,
    0x40, 0x41, 0x42, 0x43, 0x50, 0x51,
    0x60, 0x61, 0x62, 0x63, 0x64, 0x70, 0x71, 0x72, 0x73, 0x74]

/-- The opcodes a handler or timer callback may issue (41_address_space R182). -/
def internalOpcodes : List Byte := [0x13, 0x16, 0x20, 0x21, 0x22, 0x31, 0x41, 0x42, 0x61, 0x62, 0x63]

/-- The heading of a command's rule: its opcode, the phases it is legal in, and whether handlers and timer
callbacks may issue it as the host may; a CPU may not (30_encoding R122, R124, R125). -/
structure Heading (i : Instr) (op : Byte) (phases : Legality) (handlers : Bool) : Prop where
  opcode : i.opcode = op
  phases : legality i = phases
  handlers : (internalBody i).isSome = handlers
  cpus : ∀ env c, (cpuBody env c op.toNat i).isNone = true

/-- `line[c][l]` replaced (42_interrupt R204). -/
def withLine (c l : Nat) (ln : Line) (s : State) : State :=
  { s with lines := s.lines.modify c fun row => row.set l ln }

/-! ## Invariants -/

/-- The stored bytes are in canonical form (log 6). -/
def memoryOk (s : State) : Prop := Memory.wf s.mem

/-- No line is Acknowledged between commands (42_interrupt R204, R205). -/
def linesOk (s : State) : Prop := ∀ row ∈ s.lines, ∀ ln ∈ row, ln.st ≠ .acknowledged

/-- Every lookup entry is a palette index below NPAL (10_state R46). -/
def lookupOk (s : State) : Prop := ∀ v ∈ s.lookup, v.toNat < s.params.npal

/-- Layer L's tables have the sizes TMCREATE gave them, and its sizes are not 0 (44_tilemap R260). -/
structure LayerShaped (s : State) (L : Nat) : Prop where
  sizes : 0 < (layerAt s L).w.toNat ∧ 0 < (layerAt s L).h.toNat ∧
    0 < (layerAt s L).tw.toNat ∧ 0 < (layerAt s L).th.toNat ∧ 0 < (layerAt s L).nent.toNat
  scroll : (s.scroll.getD L []).length = (layerAt s L).nent.toNat
  dirty : (s.dirty.getD L []).length = cellCount (layerAt s L)
  cache : (s.cache.getD L []).length = cellCount (layerAt s L)

/-- Every table has its capacity as its length, every handle its line row, carry and record, every valid
layer its tables, every save item a thing it names, and in Run the frame buffer is the screen's size
(10_state R25 to R49). -/
structure Shaped (s : State) : Prop where
  regions : s.regions.length = s.params.nregion
  banks : s.banks.length = s.params.nbank
  spaces : s.spaces.length = s.params.nspace
  ports : s.ports.length = s.params.nhandler
  latch : s.latch.length = s.params.nlatch
  inp : s.inp.length = s.params.nin
  timers : s.timers.length = s.params.ntimer
  layers : s.layers.length = s.params.nlayer
  scroll : s.scroll.length = s.params.nlayer
  dirty : s.dirty.length = s.params.nlayer
  cache : s.cache.length = s.params.nlayer
  palette : s.palette.length = s.params.npal
  lookup : s.lookup.length = s.params.ngroup * s.params.npens
  rsteps : s.rsteps.length = s.params.nrstep
  dev : s.dev.length ≤ s.params.ndev
  entries : s.entries.length ≤ s.params.nentry
  save : s.save.length ≤ s.params.nsave
  lines : s.lines.length = s.dev.length
  carry : s.carry.length = s.dev.length
  cpuObs : s.cpuObs.length = s.dev.length
  lineRows : ∀ c, isCpu s c = true → (s.lines.getD c []).length = s.params.nlineOf c
  layerRows : ∀ L, layerOk s L = true → LayerShaped s L
  saved : ∀ it ∈ s.save, saveTargetOk s it.cls it.id = true ∧ it.id = saveId it.cls it.id
  savedOnce : s.save.Nodup
  screen : s.phase = .run → s.fb.length = s.sw.toNat * s.sh.toNat

/-- What MAP checked of an entry: its range is not empty, and what it names exists; the bytes of a ROM or RAM
range lie in their region (41_address_space R170, 20_memory R84). -/
def entryOk (s : State) (e : Entry) : Prop :=
  e.start.toNat ≤ e.stop.toNat ∧
    match e.kind with
    | .rom | .ram =>
      regionOk s e.p0.toNat = true ∧
        e.p1.toNat + (e.stop.toNat - e.start.toNat + 1) ≤ regionSize s e.p0.toNat
    | .bankedRom => bankOk s e.p0.toNat = true
    | .readHandler | .writeHandler | .readWriteHandler => portOk s e.p0.toNat = true

/-- Every registered entry is as MAP checked it. -/
def entriesOk (s : State) : Prop := ∀ e ∈ s.entries, entryOk s e

/-- The rest of what MAP checked of an entry: its space exists, its range lies in the space, and a BankedROM
range is no longer than its bank's window (41_address_space R170). -/
def entryFits (s : State) (e : Entry) : Prop :=
  spaceOk s e.space.toNat = true ∧ e.stop.toNat < 2 ^ (spaceAt s e.space.toNat).aw.toNat ∧
    (e.kind = .bankedRom → e.stop.toNat - e.start.toNat + 1 ≤ (bankAt s e.p0.toNat).size.toNat)

/-- Every registered entry passes all the checks of MAP. -/
def entriesFit (s : State) : Prop := ∀ e ∈ s.entries, entryOk s e ∧ entryFits s e

/-- What every clean cell's cache entry holds is what `resolve_fn` would return now, brought into range,
with a colour group that exists (10_state R41, 44_tilemap R267). -/
def cacheCoherent (env : Env) (s : State) (L : Nat) : Prop :=
  ∀ t, t < cellCount (layerAt s L) → dirtyAt s L t = false →
    cacheAt s L t = cachedTile s L (resolvedTile env s L t) ∧
      (resolvedTile env s L t).color.toNat < s.params.ngroup

/-! ## Compound commands as runs of their parts -/

/-- The notifications of a RESET in their order: level 0 for every active line of every CPU whose lines are
not saved (40_config R157; the order of CPUs and lines is ascending, log 29). -/
def resetNotices (s : State) : List Event :=
  (cpuHandles s).flatMap fun c =>
    if saved s .lines c then []
    else ((List.range (s.params.nlineOf c)).filter (lineActive s c)).map fun l => .irqLine c l false

/-- The notifications of a RESTORE from s to t in their order: one for each line of a saved item whose activity
differs, with its new level (47_host R334; the order is the model's, log 29). -/
def restoreNotices (s t : State) : List Event :=
  s.save.flatMap fun it =>
    if it.cls = .lines then
      ((List.range (s.params.nlineOf it.id.toNat)).filter fun l =>
        lineActive t it.id.toNat l != lineActive s it.id.toNat l).map fun l =>
          .irqLine it.id.toNat l (lineActive t it.id.toNat l)
    else []

/-- The diagnostic of an index v that has to be below n (44_tilemap R269). -/
def indexNotice (v n : Nat) : List Event := if v < n then [] else [.diag codeIndexOutOfRange v n]

/-- The diagnostics of re-resolving the dirty ones of some cells of layer L, in their order: one for each code
past the graphics table (44_tilemap R267). -/
def cellNotices (env : Env) (s : State) (L : Nat) (cells : List Nat) : List Event :=
  cells.flatMap fun c =>
    if dirtyAt s L c then
      indexNotice (resolvedTile env s L c).code.toNat (gfxDim s (layerAt s L).gfx.toNat).ncodes
    else []

/-- Record n is one that SPCOMPOSITE draws (45_sprite R292, R297). -/
abbrev spriteDrawn (env : Env) (s : State) (only : Bool) (p : Byte) (n : Nat) : Prop :=
  (spriteRecord env s n).enabled = true ∧ (only = true → (spriteRecord env s n).priority = p)

/-- The diagnostics of drawing some records in their order: for each drawn one its code, then its bank
(45_sprite R292). -/
def spriteNotices (env : Env) (s : State) (only : Bool) (p : Byte) (ns : List Nat) : List Event :=
  ns.flatMap fun n =>
    let D := spriteRecord env s n
    if spriteDrawn env s only p n then
      indexNotice D.code.toNat (gfxDim s s.spr.gfx.toNat).ncodes ++
        indexNotice D.bank.toNat (gfxDim s s.spr.gfx.toNat).ngbank
    else []

/-- Pixel (x, y) after record n is drawn over it (45_sprite R292). -/
def spriteOver (env : Env) (s : State) (only : Bool) (p : Byte) (x y : Nat) (px : Pixel) (n : Nat) : Pixel :=
  let D := spriteRecord env s n
  let dim := gfxDim s s.spr.gfx.toNat
  if spriteDrawn env s only p n then
    (spritePicture env s D (reduceIndex s.params.oorPolicy D.code.toNat dim.ncodes)
      (reduceIndex s.params.oorPolicy D.bank.toNat dim.ngbank) x y).getD px
  else px

/-- Inside one `step`, CPU c issues n commands from s to t: each is what the unit asks for after what it has
observed, and its answer is observed before the next is asked for (43_scheduler R233, 20_memory R93). -/
inductive CpuIssues (env : Env) (c : Nat) : Nat → State → State → Prop
  | nil (s : State) : CpuIssues env c 0 s s
  | cons {n : Nat} {s t u : State} {cw : CmdWord} {o : CpuObs}
      (asked : (env.cpu c (s.cpuObs.getD c [])).cmd = some cw) (answered : cpuCommand env c cw s = .ok o t)
      (rest : CpuIssues env c n { t with cpuObs := t.cpuObs.modify c (o :: ·) } u) : CpuIssues env c (n + 1) s u

/-- The CPUs of a list get their parts of slice k in its order; `i` is the cursor (43_scheduler R231). -/
inductive CpusRun (env : Env) (S k : Nat) : List Nat → State → State → Prop
  | nil (s : State) : CpusRun env S k [] s s
  | cons {c : Nat} {cs : List Nat} {s t u : State}
      (first : sliceCpu env S k c { s with i := BitVec.ofNat 8 c } = .ok () t)
      (rest : CpusRun env S k cs t u) : CpusRun env S k (c :: cs) s u

/-- The slices of a list run in its order; `k` is the cursor (43_scheduler R230). -/
inductive SlicesRun (env : Env) (S : Nat) : List Nat → State → State → Prop
  | nil (s : State) : SlicesRun env S [] s s
  | cons {k : Nat} {ks : List Nat} {s t u : State}
      (first : slice env S k { s with k := BitVec.ofNat 16 k } = .ok () t)
      (rest : SlicesRun env S ks t u) : SlicesRun env S (k :: ks) s u

/-- The command that a LAYER or SPRITES step of the render list stands for, over the whole screen; none for a
FILL step (46_frame R310). -/
def stepCommand (s : State) (st : RStep) : Option Instr :=
  match st.rk with
  | .fill => none
  | .layer =>
    some (.tmcomposite 0 0 (s.sw.setWidth 16 - 1) (s.sh.setWidth 16 - 1) st.ra (st.rb.getLsbD 0)
      (st.rc.extractLsb' 0 16))
  | .sprites =>
    some (.spcomposite 0 0 (s.sw.setWidth 16 - 1) (s.sh.setWidth 16 - 1) (st.ra.getLsbD 0)
      (st.ra.extractLsb' 8 8))

/-- The steps of a list draw in its order: a FILL step gives every pixel its pair, another completes as the
command it stands for (46_frame R310, R311). -/
inductive Drawn : List RStep → State → State → Prop
  | nil (s : State) : Drawn [] s s
  | fill {st : RStep} {sts : List RStep} {s u : State} (kind : st.rk = .fill)
      (rest : Drawn sts { s with fb := s.fb.map fun _ => ⟨st.ra.extractLsb' 0 16, st.rb.extractLsb' 0 16⟩ } u) :
      Drawn (st :: sts) s u
  | command {st : RStep} {sts : List RStep} {s t u : State} {i : Instr} (stands : stepCommand s st = some i)
      (first : exec i s = .next t) (complete : t.status = codeOk) (rest : Drawn sts t u) :
      Drawn (st :: sts) s u

/-! ## What no command writes after START -/

/-- The two states agree on the instance and on everything the commands of phase Config register
(20_memory R91, 30_encoding R124). -/
structure SameConfig (s t : State) : Prop where
  params : t.params = s.params
  dev : t.dev = s.dev
  spaces : t.spaces = s.spaces
  entries : t.entries = s.entries
  ports : t.ports = s.ports
  layers : t.layers = s.layers
  spr : t.spr = s.spr
  rsteps : t.rsteps = s.rsteps
  save : t.save = s.save
  clocks : t.masterHz = s.masterHz ∧ t.frameHz = s.frameHz ∧ t.slices = s.slices
  screen : t.sw = s.sw ∧ t.sh = s.sh
  syscfg : t.syscfgDone = s.syscfgDone
  regions : ∀ r, (regionAt t r).valid = (regionAt s r).valid ∧ (regionAt t r).size = (regionAt s r).size ∧
    (regionAt t r).img = (regionAt s r).img
  banks : ∀ b, (bankAt t b).valid = (bankAt s b).valid ∧ (bankAt t b).region = (bankAt s b).region ∧
    (bankAt t b).size = (bankAt s b).size

end Sys2Proof.Machine
end

