-- ==== Sys2Proof/Certificates/Slice0/Obligations.lean ====
section
/-! DEFINITION. The statements about the block, for the provers. An equation `exec i s = .next t` says all of
the next state at once, so it is the frame of the command too. `Config.env` is the environment of oracles,
function parameters and free values, of which nothing is known. -/

open Sys2Proof Sys2Proof.Machine

/-! ## Encoding -/

/-- R120, R122, R134: decoding the command word of a command gives the command back, every operand at every
value; and so do its 33 bytes, least significant byte first, with the bytes after them left. -/
def Obligations.DecodeEncode : Prop :=
  (∀ i : Instr, decodeWord (encode i) = .ok i) ∧
  (∀ (i : Instr) (rest : List Byte), decode (encodeBytes i ++ rest) = .ok (i, rest))

/-- R123, R355: an opcode of R122 always decodes, whatever the other bits; every other opcode is illegal, and a
step refuses it in the order of R355's checks. -/
def Obligations.IllegalOpcodes : Prop :=
  (∀ w : CmdWord,
     (opcodeOf w ∈ definedOpcodes → ∃ i, decodeWord w = .ok i ∧ i.opcode = opcodeOf w) ∧
       (opcodeOf w ∉ definedOpcodes → decodeWord w = .error (.illegalOpcode (opcodeOf w)))) ∧
  (∀ (s : State) (c : HostCmd) (rest : List HostCmd), s.inq = c :: rest → opcodeOf c.word ∉ definedOpcodes →
     (configOrRun s →
       step s = .next (refusedWith codeIllegalOpcode { s with inq := rest, payloadIn := c.payload })) ∧
     (s.phase = .fatal →
       step s = .next (refusedWith s.fatalCode { s with inq := rest, payloadIn := c.payload })) ∧
     (s.phase = .down → step s = .next (refusedWith codeDown { s with inq := rest, payloadIn := c.payload })))

/-- Four command words written from the spec's encodings (R120, R150, R200, R234, R260). -/
def Obligations.WordsDecode : Prop :=
  decodeWord 0x2DC6C0000000006D61696E01 = .ok (.regdev 0x6D61696E 0 3000000) ∧
    decodeWord 0x1FF000000000000000020 = .ok (.assert 0 0 0xFF true) ∧
    decodeWord 0x00000000000000000000000000000000000186A0000186A00000000031 =
      .ok (.timerset 0 100000 100000 0 0 0 0) ∧
    decodeWord 0x00080008002000200000000040 =
      .ok (.tmcreate 0 32 32 8 8 0 0 0 0)

/-! ## Steps, phases and errors -/

/-- A step takes the next command the host has presented, with its payload, and executes the command its word
decodes to; with nothing presented the block stays as it is (R12, R121, R379). The queue is the model's
(log 2). -/
def Obligations.StepRunsDecoded : Prop :=
  ∀ s : State,
    (s.inq = [] → step s = .next s) ∧
      ∀ (c : HostCmd) (rest : List HostCmd) (i : Instr), s.inq = c :: rest → decodeWord c.word = .ok i →
        step s = exec i { s with inq := rest, payloadIn := c.payload }

/-- R124: which commands are legal in which phases; a command in the wrong phase changes nothing but STATUS,
with the code of the phase. -/
def Obligations.PhaseLegality : Prop :=
  (∀ i : Instr,
     (legality i = .configOnly ↔
       i.opcode ∈ ([0x01, 0x03, 0x04, 0x05, 0x06, 0x07, 0x10, 0x15, 0x40, 0x50, 0x64, 0x74] : List Byte)) ∧
     (legality i = .runOnly ↔
       i.opcode ∈ ([0x08, 0x11, 0x12, 0x14, 0x20, 0x21, 0x22, 0x23, 0x30, 0x31, 0x43, 0x51, 0x60, 0x72, 0x73] :
         List Byte)) ∧
     (legality i = .configRun ↔
       i.opcode ∈ ([0x02, 0x13, 0x16, 0x24, 0x41, 0x42, 0x61, 0x62, 0x63, 0x70, 0x71] : List Byte)) ∧
     (legality i = .untilDown ↔ i.opcode = 0x09)) ∧
  (∀ (i : Instr) (s : State),
     (s.phase = .down → exec i s = .next (refusedWith codeDown s)) ∧
     (s.phase = .fatal → i ≠ .teardown → exec i s = .next (refusedWith s.fatalCode s)) ∧
     (s.phase = .config → legality i = .runOnly → exec i s = .next (refusedWith codePhaseError s)) ∧
     (s.phase = .run → legality i = .configOnly → exec i s = .next (refusedWith codePhaseError s)))

/-- R360, R351, R354: the only ways from phase to phase are Config to Run, Run to Fatal, and any but Down to Down;
the first configuration error stays in `cfg_err`, and `fatal_code` is written once. -/
def Obligations.LifeCycle : Prop :=
  (∀ s t : State, step s = .next t →
     t.phase = s.phase ∨ (s.phase = .config ∧ t.phase = .run) ∨ (s.phase = .run ∧ t.phase = .fatal) ∨
       (s.phase ≠ .down ∧ t.phase = .down)) ∧
  (∀ s t : State, step s = .next t →
     (s.cfgErr ≠ 0 → t.cfgErr = s.cfgErr) ∧
       (s.phase = .fatal ∨ s.phase = .down → t.fatalCode = s.fatalCode))

/-- R48: a step adds events to the output stream and takes none back. -/
def Obligations.EventsOnlyGrow : Prop :=
  ∀ s t : State, step s = .next t → ∃ es, t.events = es ++ s.events

/-- R91, R124: outside phase Config no step changes what the commands of that phase registered. -/
def Obligations.ConfigurationFixed : Prop :=
  ∀ s t : State, s.phase ≠ .config → step s = .next t → SameConfig s t ∧ t.phase ≠ .config

/-! ## Invariants -/

/-- Every step keeps the stored bytes in canonical form (log 6). -/
def Obligations.MemoryStaysCanonical : Prop := ∀ s t : State, memoryOk s → step s = .next t → memoryOk t

/-- R204, R46: Acknowledged is never seen between commands, and every lookup entry stays a palette index below
NPAL. -/
def Obligations.LinesAndLookupStayLegal : Prop :=
  (∀ s t : State, linesOk s → step s = .next t → linesOk t) ∧
  (∀ s t : State, lookupOk s → step s = .next t → lookupOk t)

/-- Every table keeps the size the configuration gave it (R25 to R49). -/
def Obligations.TablesStayShaped : Prop := ∀ s t : State, Shaped s → step s = .next t → Shaped t

/-- R84, R170: what MAP checked of an entry stays true of it: its range is not empty, what it names exists, and a
ROM or RAM range lies in its region; and, in a legal instance (R8), its space exists, its range lies in the
space, and a BankedROM range is no longer than its bank's window. No step changes the instance (log 1). -/
def Obligations.EntriesStayInBounds : Prop :=
  (∀ s t : State, entriesOk s → step s = .next t → entriesOk t) ∧
  (∀ s t : State, s.params.Legal → entriesFit s → step s = .next t → t.params = s.params ∧ entriesFit t)

/-- The invariants hold right after power-on, and the instance is a legal one of R8 (log 1, log 14). -/
def Obligations.ResetInvariants : Prop :=
  memoryOk State.reset ∧ linesOk State.reset ∧ lookupOk State.reset ∧ Shaped State.reset ∧
    entriesOk State.reset ∧ entriesFit State.reset ∧ State.reset.params.Legal

/-- R390: the power-on value of every item that has one. -/
def Obligations.ResetState : Prop :=
  let s := State.reset
  s.phase = .config ∧ s.status = 0 ∧ s.r0 = 0 ∧ s.r1 = 0 ∧ s.cfgErr = 0 ∧ s.fatalCode = 0 ∧
    s.dev = [] ∧ s.entries = [] ∧ s.save = [] ∧ s.lines = [] ∧ s.carry = [] ∧ s.fb = [] ∧
    (∀ r, (regionAt s r).valid = false) ∧ (∀ b, (bankAt s b).valid = false) ∧
    (∀ n, (spaceAt s n).valid = false) ∧ (∀ h, (portAt s h).valid = false) ∧
    (∀ L, (layerAt s L).valid = false) ∧ (∀ n, (rstepAt s n).valid = false) ∧ s.spr.valid = false ∧
    (∀ v ∈ s.latch, v = 0) ∧ (∀ v ∈ s.inp, v = 0) ∧ (∀ n, (timerAt s n).armed = false) ∧
    s.masterHz = 0 ∧ s.frameHz = 0 ∧ s.slices = 0 ∧ s.sw = 0 ∧ s.sh = 0 ∧ s.syscfgDone = false ∧
    s.now = 0 ∧ s.frameStart = 0 ∧ s.frameCount = 0 ∧ s.k = 0 ∧ s.i = 0 ∧
    s.inFrame = false ∧ s.inHandler = false ∧ s.flip = false ∧
    (∀ c ∈ s.palette, c = 0) ∧ (∀ v ∈ s.lookup, v = 0)

/-! ## Family 0 -/

/-- R127, R150, R151: the codes of a device's kind, REGDEV and LOOKUP. The empty record of what a device observes is
the model's (log 10). -/
def Obligations.RegdevAndLookup : Prop :=
  (devKindOf 0 = some .cpu ∧ devKindOf 1 = some .sound ∧ devKindOf 2 = some .other ∧ devKindOf 3 = none) ∧
  (∀ (tag clockHz : Word32) (kind : BitVec 2) (s : State), s.phase = .config →
     (kind = 3 → exec (.regdev tag kind clockHz) s = .next (configErrorWith codeBadKind s)) ∧
     (kind ≠ 3 → (∃ d ∈ s.dev, d.tag = tag) →
       exec (.regdev tag kind clockHz) s = .next (configErrorWith codeDuplicateTag s)) ∧
     (kind ≠ 3 → (∀ d ∈ s.dev, d.tag ≠ tag) → s.dev.length = s.params.ndev →
       exec (.regdev tag kind clockHz) s = .next (configErrorWith codeBadId s)) ∧
     (∀ kd, devKindOf kind = some kd → (∀ d ∈ s.dev, d.tag ≠ tag) → s.dev.length ≠ s.params.ndev →
       exec (.regdev tag kind clockHz) s = .next (completedR0 (BitVec.ofNat 32 s.dev.length)
         { s with
           dev := s.dev ++ [⟨tag, kd, clockHz⟩]
           lines := s.lines ++
             [if kd = .cpu then List.replicate (s.params.nlineOf s.dev.length) idleLine else []]
           carry := s.carry ++ [0]
           cpuObs := s.cpuObs ++ [[]] }))) ∧
  (∀ (tag : Word32) (s : State), configOrRun s →
     (∀ (l r : List Device) (d : Device), s.dev = l ++ d :: r → d.tag = tag → (∀ x ∈ l, x.tag ≠ tag) →
       exec (.lookup tag) s = .next (completedR0 (BitVec.ofNat 32 l.length) s)) ∧
     ((∀ d ∈ s.dev, d.tag ≠ tag) → exec (.lookup tag) s = .next (refusedWith codeUnknownDevice s)))

/-- R152: REGION makes a valid slot, its first bytes the image's, every other region's bytes as they were; its
other bytes are a new draw of the free stream (log 6, log 22). Then its errors, in the order of its checks. -/
def Obligations.RegionMakesASlot : Prop :=
  (∀ (r size j : Word32) (bytes : List Byte) (s : State), s.phase = .config → r.toNat < s.params.nregion →
     (regionAt s r.toNat).valid = false → size ≠ 0 →
     (j = 0 ∧ bytes = [] ∨ j ≠ 0 ∧ s.params.romimgOf j.toNat = some bytes ∧ bytes.length ≤ size.toNat) →
     ∃ t, exec (.region r size j) s = .next t ∧
       t = { s with
         status := codeOk
         regions := s.regions.set r.toNat ⟨true, size, decide (j ≠ 0), s.freeCtr⟩
         mem := t.mem
         freeCtr := s.freeCtr + 1 } ∧
       (∀ o v, bytes[o]? = some v → readRegion Config.env t r.toNat o = v) ∧
       (∀ r' o, r' ≠ r.toNat → o < 2 ^ 32 → readRegion Config.env t r' o = readRegion Config.env s r' o)) ∧
  (∀ (r size j : Word32) (s : State), s.phase = .config →
     (s.params.nregion ≤ r.toNat ∨ (regionAt s r.toNat).valid = true →
       exec (.region r size j) s = .next (configErrorWith codeBadId s)) ∧
     (r.toNat < s.params.nregion → (regionAt s r.toNat).valid = false →
       (size = 0 → exec (.region r size j) s = .next (configErrorWith codeBadParam s)) ∧
       (size ≠ 0 → j ≠ 0 → s.params.romimgOf j.toNat = none →
         exec (.region r size j) s = .next (configErrorWith codeBadId s)) ∧
       (∀ bytes, size ≠ 0 → j ≠ 0 → s.params.romimgOf j.toNat = some bytes → size.toNat < bytes.length →
         exec (.region r size j) s = .next (configErrorWith codeRegionOverflow s))))

/-- R153, R154: BANKDEF and SPACEDEF. -/
def Obligations.BankdefAndSpacedef : Prop :=
  (∀ b r n, Heading (.bankdef b r n) 0x04 .configOnly false) ∧
  (∀ n c aw, Heading (.spacedef n c aw) 0x05 .configOnly false) ∧
  (∀ (b r size : Word32) (s : State), s.phase = .config →
     (s.params.nbank ≤ b.toNat ∨ (bankAt s b.toNat).valid = true →
       exec (.bankdef b r size) s = .next (configErrorWith codeBadId s)) ∧
     (b.toNat < s.params.nbank → (bankAt s b.toNat).valid = false →
       (regionOk s r.toNat = false → exec (.bankdef b r size) s = .next (configErrorWith codeUnresolvableBank s)) ∧
       (regionOk s r.toNat = true → size = 0 →
         exec (.bankdef b r size) s = .next (configErrorWith codeBadParam s)) ∧
       (regionOk s r.toNat = true → size ≠ 0 →
         exec (.bankdef b r size) s =
           .next (completed { s with banks := s.banks.set b.toNat ⟨true, r.setWidth 8, size, 0⟩ })))) ∧
  (∀ (n c : Word32) (aw : BitVec 6) (s : State), s.phase = .config →
     (s.params.nspace ≤ n.toNat ∨ (spaceAt s n.toNat).valid = true →
       exec (.spacedef n c aw) s = .next (configErrorWith codeBadId s)) ∧
     (n.toNat < s.params.nspace → (spaceAt s n.toNat).valid = false →
       (isCpu s c.toNat = false → exec (.spacedef n c aw) s = .next (configErrorWith codeBadId s)) ∧
       (isCpu s c.toNat = true → (aw = 0 ∨ 32 < aw.toNat) →
         exec (.spacedef n c aw) s = .next (configErrorWith codeBadParam s)) ∧
       (isCpu s c.toNat = true → 1 ≤ aw.toNat → aw.toNat ≤ 32 →
         exec (.spacedef n c aw) s =
           .next (completed { s with spaces := s.spaces.set n.toNat ⟨true, c.setWidth 8, aw⟩ }))))

/-- R155: SYSCFG. -/
def Obligations.SyscfgWritesTheClocks : Prop :=
  (∀ m f n w h, Heading (.syscfg m f n w h) 0x06 .configOnly false) ∧
  ∀ (m f : Word32) (n w h : Word16) (s : State), s.phase = .config →
    (m ≠ 0 → f ≠ 0 → n ≠ 0 → 1 ≤ w.toNat → w.toNat ≤ 32767 → 1 ≤ h.toNat → h.toNat ≤ 32767 →
      exec (.syscfg m f n w h) s = .next (completed { s with
        masterHz := m, frameHz := f, slices := n, sw := w.setWidth 15, sh := h.setWidth 15,
        syscfgDone := true })) ∧
    (m = 0 ∨ f = 0 ∨ n = 0 ∨ w = 0 ∨ 32767 < w.toNat ∨ h = 0 ∨ 32767 < h.toNat →
      exec (.syscfg m f n w h) s = .next (configErrorWith codeBadParam s))

/-- R156: START creates the frame buffer with the screen's pixels, enters Run and calls `set_pc` on every CPU
in ascending handle; a latched error or a missing SYSCFG or CPU refuses it. The buffer's contents are free
values (log 7). -/
def Obligations.StartEntersRun : Prop :=
  ∀ s : State, s.phase = .config →
    (s.cfgErr ≠ 0 → exec .start s = .next (refusedWith s.cfgErr s)) ∧
    (s.cfgErr = 0 → (s.syscfgDone = false ∨ ∀ c, isCpu s c = false) →
      exec .start s = .next (refusedWith codeIncomplete s)) ∧
    (s.cfgErr = 0 → s.syscfgDone = true → (∃ c, isCpu s c = true) →
      ∃ t, exec .start s = .next t ∧
        t = { s with status := codeOk, phase := .run, fb := t.fb, events := t.events, cpuObs := t.cpuObs,
                     freeCtr := s.freeCtr + 1 } ∧
        t.fb.length = s.sw.toNat * s.sh.toNat ∧
        t.events = (cpuHandles s).reverse.map (fun c => Event.setPc c (s.params.resetPcOf c)) ++ s.events)

/-- R157: in Run, RESET completes. Bytes, pixels and cache entries it leaves unspecified are free values (log 6 to
log 8); it keeps what the model has of the oracles (log 28), the records of the CPUs' calls apart (log 10). It
notifies level 0 once for each active line of each CPU whose lines are not saved and of nothing else, in
ascending CPU and line (log 29), then sets the program counters; Acknowledged is no state between commands
(R204). -/
def Obligations.ResetKeepsTheSaved : Prop :=
  ∀ s : State, s.phase = .run →
    ∃ t, exec .reset s = .next t ∧
      t = { s with
        status := codeOk
        banks := t.banks
        latch := if savedAny s .latches then s.latch else s.latch.map fun _ => 0
        lines := t.lines
        now := 0
        frameStart := 0
        frameCount := 0
        k := 0
        i := 0
        inFrame := false
        inHandler := false
        carry := s.carry.map fun _ => 0
        timers := s.timers.map fun T => { T with armed := false }
        scroll := t.scroll
        dirty := s.dirty.map fun row => row.map fun _ => true
        cache := t.cache
        flip := if savedAny s .flip then s.flip else false
        fb := t.fb
        regions := t.regions
        mem := t.mem
        events := t.events
        cpuObs := t.cpuObs
        freeCtr := t.freeCtr } ∧
      (∀ b, bankAt t b =
        if (bankAt s b).valid && !saved s .bank b then { bankAt s b with offset := 0 } else bankAt s b) ∧
      (∀ c l, l < s.params.nlineOf c → isCpu s c = true →
        lineAt t c l = if saved s .lines c then lineAt s c l else idleLine) ∧
      (∀ L e, scrollAt t L e = if saved s .scroll L then scrollAt s L e else ⟨0, 0⟩) ∧
      (∀ r, (regionAt t r).valid = (regionAt s r).valid ∧ (regionAt t r).size = (regionAt s r).size ∧
        (regionAt t r).img = (regionAt s r).img) ∧
      (∀ r o, o < 2 ^ 32 → ((regionAt s r).img = true ∨ saved s .region r = true) →
        readRegion Config.env t r o = readRegion Config.env s r o) ∧
      (linesOk s → t.events =
        (cpuHandles s).reverse.map (fun c => Event.setPc c (s.params.resetPcOf c)) ++
          (resetNotices s).reverse ++ s.events)

/-- R158: TEARDOWN disarms every timer and takes the block Down, from any phase but Down. -/
def Obligations.TeardownGoesDown : Prop :=
  (Heading .teardown 0x09 .untilDown false) ∧
  ∀ s : State, s.phase ≠ .down →
    exec .teardown s = .next (completed
      { s with timers := s.timers.map fun T => { T with armed := false }, phase := .down })

/-! ## Family 1 -/

/-- R126, R170: the codes of `access_kind`; MAP appends an entry whose range and target pass its checks; then its
errors, in the order of its checks. -/
def Obligations.MapAppendsAnEntry : Prop :=
  (∀ sp a z kind p q, Heading (.map sp a z kind p q) 0x10 .configOnly false) ∧
  (accessKindOf 0 = some .rom ∧ accessKindOf 1 = some .ram ∧ accessKindOf 2 = some .bankedRom ∧
    accessKindOf 3 = some .readHandler ∧ accessKindOf 4 = some .writeHandler ∧
    accessKindOf 5 = some .readWriteHandler ∧ accessKindOf 6 = none ∧ accessKindOf 7 = none) ∧
  (∀ (sp a z p q : Word32) (kind : BitVec 3) (kd : AccessKind) (s : State), s.phase = .config →
     spaceOk s sp.toNat = true → accessKindOf kind = some kd → a.toNat ≤ z.toNat →
     z.toNat < 2 ^ (spaceAt s sp.toNat).aw.toNat → s.entries.length ≠ s.params.nentry →
     ((kd = .rom ∨ kd = .ram) ∧ regionOk s p.toNat = true ∧
         q.toNat + (z.toNat - a.toNat + 1) ≤ regionSize s p.toNat ∨
       kd = .bankedRom ∧ bankOk s p.toNat = true ∧ z.toNat - a.toNat + 1 ≤ (bankAt s p.toNat).size.toNat ∨
       (kd = .readHandler ∨ kd = .writeHandler ∨ kd = .readWriteHandler) ∧ portOk s p.toNat = true) →
     exec (.map sp a z kind p q) s =
       .next (completed { s with entries := s.entries ++ [⟨sp.setWidth 8, a, z, kd, p, q⟩] })) ∧
  (∀ (sp a z p q : Word32) (kind : BitVec 3) (s : State), s.phase = .config →
     (spaceOk s sp.toNat = false → exec (.map sp a z kind p q) s = .next (configErrorWith codeBadId s)) ∧
     (spaceOk s sp.toNat = true → 6 ≤ kind.toNat →
       exec (.map sp a z kind p q) s = .next (configErrorWith codeBadKind s)) ∧
     (∀ kd, spaceOk s sp.toNat = true → accessKindOf kind = some kd →
       (z.toNat < a.toNat ∨ 2 ^ (spaceAt s sp.toNat).aw.toNat ≤ z.toNat →
         exec (.map sp a z kind p q) s = .next (configErrorWith codeBadRange s)) ∧
       (a.toNat ≤ z.toNat → z.toNat < 2 ^ (spaceAt s sp.toNat).aw.toNat →
         ((kd = .rom ∨ kd = .ram) → regionOk s p.toNat = false →
           exec (.map sp a z kind p q) s = .next (configErrorWith codeBadId s)) ∧
         ((kd = .rom ∨ kd = .ram) → regionOk s p.toNat = true →
           regionSize s p.toNat < q.toNat + (z.toNat - a.toNat + 1) →
           exec (.map sp a z kind p q) s = .next (configErrorWith codeRegionOverflow s)) ∧
         (kd = .bankedRom → bankOk s p.toNat = false →
           exec (.map sp a z kind p q) s = .next (configErrorWith codeUnresolvableBank s)) ∧
         (kd = .bankedRom → bankOk s p.toNat = true → (bankAt s p.toNat).size.toNat < z.toNat - a.toNat + 1 →
           exec (.map sp a z kind p q) s = .next (configErrorWith codeBadRange s)) ∧
         ((kd = .readHandler ∨ kd = .writeHandler ∨ kd = .readWriteHandler) → portOk s p.toNat = false →
           exec (.map sp a z kind p q) s = .next (configErrorWith codeBadId s)) ∧
         ((kd = .rom ∨ kd = .ram) ∧ regionOk s p.toNat = true ∧
             q.toNat + (z.toNat - a.toNat + 1) ≤ regionSize s p.toNat ∨
           kd = .bankedRom ∧ bankOk s p.toNat = true ∧ z.toNat - a.toNat + 1 ≤ (bankAt s p.toNat).size.toNat ∨
           (kd = .readHandler ∨ kd = .writeHandler ∨ kd = .readWriteHandler) ∧ portOk s p.toNat = true →
           s.entries.length = s.params.nentry →
           exec (.map sp a z kind p q) s = .next (configErrorWith codeBadId s)))))

/-- R82, R83: an entry is resolved exactly when it covers the address, serves the direction, and no later
registered entry does; the kinds that serve reads and fetches, and the kinds that serve writes. -/
def Obligations.LastRegisteredWins : Prop :=
  (∀ (s : State) (sp a : Nat) (serves : AccessKind → Bool) (e : Entry),
    resolveEntry s sp a serves = some e ↔
      ∃ l r, s.entries = l ++ e :: r ∧
        (e.space.toNat = sp ∧ e.start.toNat ≤ a ∧ a ≤ e.stop.toNat ∧ serves e.kind = true) ∧
        ∀ x ∈ r, ¬(x.space.toNat = sp ∧ x.start.toNat ≤ a ∧ a ≤ x.stop.toNat ∧ serves x.kind = true)) ∧
  (∀ k : AccessKind,
    (servesRead k = true ↔
      k = .rom ∨ k = .ram ∨ k = .bankedRom ∨ k = .readHandler ∨ k = .readWriteHandler) ∧
    (servesWrite k = true ↔ k = .ram ∨ k = .writeHandler ∨ k = .readWriteHandler))

/-- R81, R84, R171, R174: READ and FETCH of a ROM, RAM or BankedROM entry, of an unmapped address, of a port
that does not serve reads, and of a space that does not exist. -/
def Obligations.ReadAndFetchGiveTheByte : Prop :=
  ∀ (op : Word32 → Word32 → Instr), (op = .read ∨ op = .fetch) →
  ∀ (sp a : Word32) (s : State), s.phase = .run →
    (spaceOk s sp.toNat = false → exec (op sp a) s = .next (refusedWith codeBadId s)) ∧
    (spaceOk s sp.toNat = true →
      let x := a.toNat % 2 ^ (spaceAt s sp.toNat).aw.toNat
      (resolveEntry s sp.toNat x servesRead = none →
        exec (op sp a) s = .next (completedR0 (s.params.openBus.setWidth 32)
          (emit (.diag codeUnmappedRead sp.toNat x) s))) ∧
      ∀ e, resolveEntry s sp.toNat x servesRead = some e →
        ((e.kind = .rom ∨ e.kind = .ram) →
          exec (op sp a) s = .next (completedR0
            ((readRegion Config.env s e.p0.toNat (e.p1.toNat + (x - e.start.toNat))).setWidth 32) s)) ∧
        (e.kind = .bankedRom →
          exec (op sp a) s = .next (completedR0
            ((readRegion Config.env s (bankAt s e.p0.toNat).region.toNat
              (((bankAt s e.p0.toNat).offset.toNat + (x - e.start.toNat)) %
                regionSize s (bankAt s e.p0.toNat).region.toNat)).setWidth 32) s)) ∧
        ((e.kind = .readHandler ∨ e.kind = .readWriteHandler) →
          (portAt s e.p0.toNat).pk ∈ ([.banksel, .irqack, .scroll, .flip] : List PortKind) →
          exec (op sp a) s = .next (completedR0 (s.params.openBus.setWidth 32)
            (emit (.diag codeUnmappedRead x e.p0.toNat) s))))

/-- R183, R191: READ and FETCH of a TILERAM, LATCH or INPUT port give the byte behind it and change nothing. -/
def Obligations.ReadOfAPort : Prop :=
  ∀ (op : Word32 → Word32 → Instr), (op = .read ∨ op = .fetch) →
  ∀ (sp a : Word32) (s : State) (e : Entry) (P : Port), s.phase = .run → s.inHandler = false →
    spaceOk s sp.toNat = true →
    resolveEntry s sp.toNat (a.toNat % 2 ^ (spaceAt s sp.toNat).aw.toNat) servesRead = some e →
    (e.kind = .readHandler ∨ e.kind = .readWriteHandler) → portAt s e.p0.toNat = P →
    (P.pk = .tileram →
      exec (op sp a) s = .next (completedR0 ((readRegion Config.env s P.q1.toNat
        ((P.q2.toNat + (a.toNat % 2 ^ (spaceAt s sp.toNat).aw.toNat - e.start.toNat)) %
          regionSize s P.q1.toNat)).setWidth 32) s)) ∧
    (P.pk = .latch → exec (op sp a) s = .next (completedR0 ((s.latch.getD P.q0.toNat 0).setWidth 32) s)) ∧
    (P.pk = .input → P.q1.getLsbD 0 = false →
      exec (op sp a) s = .next (completedR0 ((s.inp.getD P.q0.toNat 0).setWidth 32) s)) ∧
    (P.pk = .input → P.q1.getLsbD 0 = true →
      exec (op sp a) s =
        .next (completedR0 ((s.params.scrOf (s.inp.getD P.q0.toNat 0)).setWidth 32) s))

/-- R85, R172: a WRITE to a RAM entry stores the one byte of its region that the entry's base and the offset
in the range give, and no other byte; a WRITE that no entry serves, or that a port does not serve, is dropped
with a diagnostic. -/
def Obligations.WriteStoresOneByte : Prop :=
  ∀ (sp a : Word32) (v : Byte) (s : State), s.phase = .run →
    (spaceOk s sp.toNat = false → exec (.write sp a v) s = .next (refusedWith codeBadId s)) ∧
    (spaceOk s sp.toNat = true →
      let x := a.toNat % 2 ^ (spaceAt s sp.toNat).aw.toNat
      (resolveEntry s sp.toNat x servesWrite = none →
        exec (.write sp a v) s = .next (completed (emit (.diag codeUnmappedWrite sp.toNat x) s))) ∧
      ∀ e, resolveEntry s sp.toNat x servesWrite = some e →
        (e.kind = .ram → entriesOk s →
          ∃ t, exec (.write sp a v) s = .next t ∧ t = { s with status := codeOk, mem := t.mem } ∧
            ∀ r o, o < 2 ^ 32 → readRegion Config.env t r o =
              if r = e.p0.toNat ∧ o = e.p1.toNat + (x - e.start.toNat) then v
              else readRegion Config.env s r o) ∧
        ((e.kind = .writeHandler ∨ e.kind = .readWriteHandler) → (portAt s e.p0.toNat).pk = .input →
          exec (.write sp a v) s =
            .next (completed (emit (.diag codeUnmappedWrite x e.p0.toNat) s))))

/-- R185 to R190: what a WRITE does at each built-in port kind that serves writes, in each state of what the port
names. The CPU's record of a notification is the model's (log 10); a port that names what does not exist is left
out, since PORTDEF makes none (log 19). -/
def Obligations.WriteToAPort : Prop :=
  ∀ (sp a : Word32) (v : Byte) (s : State) (e : Entry) (P : Port), s.phase = .run → s.inHandler = false →
    spaceOk s sp.toNat = true →
    resolveEntry s sp.toNat (a.toNat % 2 ^ (spaceAt s sp.toNat).aw.toNat) servesWrite = some e →
    (e.kind = .writeHandler ∨ e.kind = .readWriteHandler) → portAt s e.p0.toNat = P →
    let o := a.toNat % 2 ^ (spaceAt s sp.toNat).aw.toNat - e.start.toNat
    (P.pk = .tileram → layerOk s P.q0.toNat = true →
      let cell := o >>> (P.q3.toNat % 32)
      let cells := cellCount (layerAt s P.q0.toNat)
      let stored := writeRegion P.q1.toNat ((P.q2.toNat + o) % regionSize s P.q1.toNat) v s
      (cell < cells → exec (.write sp a v) s = .next (completed (setDirty P.q0.toNat cell true stored))) ∧
      (cells ≤ cell → exec (.write sp a v) s = .next (completed
        (setDirty P.q0.toNat (if s.params.oorPolicy = .wrap then cell % cells else cells - 1) true
          (emit (.diag codeIndexOutOfRange cell cells) stored))))) ∧
    (P.pk = .banksel → bankOk s P.q0.toNat = true →
      exec (.write sp a v) s = .next (completed (setBankOffset P.q0.toNat
        (BitVec.ofNat 32 ((v.toNat &&& (P.q1.toNat % 256)) * P.q2.toNat)) s))) ∧
    (P.pk = .irqack → lineOk s P.q0.toNat P.q1.toNat = true →
      let ln := lineAt s P.q0.toNat P.q1.toNat
      (ln.st = .idle → exec (.write sp a v) s = .next (completed s)) ∧
      (ln.st = .pending ∨ ln.st = .asserted →
        exec (.write sp a v) s = .next (completed (notify P.q0.toNat P.q1.toNat false
          (withLine P.q0.toNat P.q1.toNat { ln with st := .idle } s))))) ∧
    (P.pk = .scroll →
      let old := scrollAt s P.q0.toNat P.q1.toNat
      let written : Scroll :=
        match P.q2.getLsbD 0, P.q2.getLsbD 1 with
        | false, false => ⟨old.dx.extractLsb' 8 8 ++ v, old.dy⟩
        | false, true => ⟨v ++ old.dx.extractLsb' 0 8, old.dy⟩
        | true, false => ⟨old.dx, old.dy.extractLsb' 8 8 ++ v⟩
        | true, true => ⟨old.dx, v ++ old.dy.extractLsb' 0 8⟩
      exec (.write sp a v) s =
        .next (completed (setScrollEntry P.q0.toNat P.q1.toNat written s))) ∧
    (P.pk = .latch →
      let latched : State := { s with latch := s.latch.set P.q0.toNat v }
      let ln := lineAt s P.q2.toNat P.q3.toNat
      let asserted : Line := ⟨.asserted, false, 0⟩
      (P.q1 = 0 → exec (.write sp a v) s = .next (completed latched)) ∧
      (P.q1 = 1 → lineOk s P.q2.toNat P.q3.toNat = true →
        (ln.st = .idle → exec (.write sp a v) s = .next (completed (notify P.q2.toNat P.q3.toNat true
          (withLine P.q2.toNat P.q3.toNat { ln with st := .pending } latched)))) ∧
        (ln.st = .pending ∨ ln.st = .asserted → exec (.write sp a v) s = .next (completed latched))) ∧
      (P.q1 = 2 → lineOk s P.q2.toNat P.q3.toNat = true →
        (ln.st = .idle → exec (.write sp a v) s = .next (completed (notify P.q2.toNat P.q3.toNat true
          (withLine P.q2.toNat P.q3.toNat asserted latched)))) ∧
        (ln.st = .pending ∨ ln.st = .asserted → exec (.write sp a v) s =
          .next (completed (withLine P.q2.toNat P.q3.toNat asserted latched))))) ∧
    (P.pk = .flip →
      exec (.write sp a v) s = .next (completed { s with flip := v.getLsbD (P.q0.toNat % 8) }))

/-- R173: SETBANK; and property P2, the very next READ in the window gives the byte at the new offset. -/
def Obligations.SetbankSeenByNextRead : Prop :=
  (∀ b off, Heading (.setbank b off) 0x13 .configRun true) ∧
  (∀ (b off : Word32) (s : State), configOrRun s →
     (bankOk s b.toNat = true → exec (.setbank b off) s = .next (completed
       { s with banks := s.banks.set b.toNat { bankAt s b.toNat with offset := off } })) ∧
     (bankOk s b.toNat = false → exec (.setbank b off) s = .next (refusedWith codeBadId s))) ∧
  (∀ (b off sp a : Word32) (s : State) (e : Entry), s.phase = .run → bankOk s b.toNat = true →
     spaceOk s sp.toNat = true →
     resolveEntry s sp.toNat (a.toNat % 2 ^ (spaceAt s sp.toNat).aw.toNat) servesRead = some e →
     e.kind = .bankedRom → e.p0 = b →
     ∃ t, exec (.setbank b off) s = .next t ∧
       exec (.read sp a) t = .next (completedR0
         ((readRegion Config.env s (bankAt s b.toNat).region.toNat
           ((off.toNat + (a.toNat % 2 ^ (spaceAt s sp.toNat).aw.toNat - e.start.toNat)) %
             regionSize s (bankAt s b.toNat).region.toNat)).setWidth 32) t))

/-- R87's property P1: a WRITE that goes to one range changes no READ that goes to another range with other
backing bytes. -/
def Obligations.BusIsolation : Prop :=
  ∀ (sp a b : Word32) (v : Byte) (s : State) (e f : Entry), s.phase = .run → entriesOk s →
    spaceOk s sp.toNat = true →
    resolveEntry s sp.toNat (a.toNat % 2 ^ (spaceAt s sp.toNat).aw.toNat) servesWrite = some e →
    resolveEntry s sp.toNat (b.toNat % 2 ^ (spaceAt s sp.toNat).aw.toNat) servesRead = some f →
    e.kind = .ram → (f.kind = .ram ∨ f.kind = .rom) →
    (e.p0 ≠ f.p0 ∨ e.p1.toNat + (e.stop.toNat - e.start.toNat) < f.p1.toNat ∨
      f.p1.toNat + (f.stop.toNat - f.start.toNat) < e.p1.toNat) →
    ∃ t r, exec (.write sp a v) s = .next t ∧ exec (.read sp b) s = .next (completedR0 r s) ∧
      exec (.read sp b) t = .next (completedR0 r t)

/-- R131, R175, R180: the codes of the port kinds, and PORTDEF. -/
def Obligations.PortdefDefinesAPort : Prop :=
  (∀ h pk q0 q1 q2 q3, Heading (.portdef h pk q0 q1 q2 q3) 0x15 .configOnly false) ∧
  (portKindOf 0 = .ext ∧ portKindOf 1 = .tileram ∧ portKindOf 2 = .banksel ∧ portKindOf 3 = .irqack ∧
    portKindOf 4 = .scroll ∧ portKindOf 5 = .latch ∧ portKindOf 6 = .flip ∧ portKindOf 7 = .input) ∧
  ∀ (h q0 q1 q2 q3 : Word32) (pk : BitVec 3) (s : State), s.phase = .config →
    (s.params.nhandler ≤ h.toNat ∨ (portAt s h.toNat).valid = true →
      exec (.portdef h pk q0 q1 q2 q3) s = .next (configErrorWith codeBadId s)) ∧
    (h.toNat < s.params.nhandler → (portAt s h.toNat).valid = false →
      let legal : Prop :=
        match portKindOf pk with
        | .ext => q0.toNat ∈ s.params.extIds
        | .tileram => layerOk s q0.toNat = true ∧ regionOk s q1.toNat = true
        | .banksel => bankOk s q0.toNat = true
        | .irqack => lineOk s q0.toNat q1.toNat = true
        | .scroll => layerOk s q0.toNat = true ∧ q1.toNat < (layerAt s q0.toNat).nent.toNat
        | .latch => q0.toNat < s.params.nlatch ∧ q1.toNat ≤ 2 ∧ (q1 = 0 ∨ lineOk s q2.toNat q3.toNat = true)
        | .flip => True
        | .input => q0.toNat < s.params.nin
      (legal → exec (.portdef h pk q0 q1 q2 q3) s = .next (completed
        { s with ports := s.ports.set h.toNat ⟨true, portKindOf pk, q0, q1, q2, q3⟩ })) ∧
      (¬legal → exec (.portdef h pk q0 q1 q2 q3) s = .next (configErrorWith codeBadId s)))

/-- R178: POKE stores one byte of a region, consults no map and marks nothing dirty. -/
def Obligations.PokeStoresOneByte : Prop :=
  (∀ r o v, Heading (.poke r o v) 0x16 .configRun true) ∧
  ∀ (r o : Word32) (v : Byte) (s : State), configOrRun s →
    (regionOk s r.toNat = false → exec (.poke r o v) s = .next (refusedWith codeBadId s)) ∧
    (regionOk s r.toNat = true → regionSize s r.toNat ≤ o.toNat →
      exec (.poke r o v) s = .next (refusedWith codeBadParam s)) ∧
    (regionOk s r.toNat = true → o.toNat < regionSize s r.toNat →
      ∃ t, exec (.poke r o v) s = .next t ∧ t = { s with status := codeOk, mem := t.mem } ∧
        ∀ r' o', o' < 2 ^ 32 → readRegion Config.env t r' o' =
          if r' = r.toNat ∧ o' = o.toNat then v else readRegion Config.env s r' o')

/-- R182: what becomes of a command word a handler issues; STATUS, R0 and R1 are not written. -/
def Obligations.HandlerCommands : Prop :=
  ∀ (cw : CmdWord) (s : State),
    (opcodeOf cw = 0x30 → execInternal cw s = .fatal codeReentry (fatalState codeReentry s)) ∧
    (opcodeOf cw ≠ 0x30 → opcodeOf cw ∉ internalOpcodes →
      execInternal cw s = .ok () (emit (.diag codeNotPermitted (opcodeOf cw).toNat 0) s)) ∧
    (s.phase = .run → opcodeOf cw ∈ internalOpcodes →
      ∃ i t, decodeWord cw = .ok i ∧ exec i s = .next t ∧
        (t.status = codeOk → ∃ u, execInternal cw s = .ok () u ∧ t = { u with status := codeOk } ∧
          u.status = s.status ∧ u.r0 = s.r0 ∧ u.r1 = s.r1) ∧
        (t.status ≠ codeOk → execInternal cw s =
          .ok () (emit (.diag t.status (opcodeOf cw).toNat (argOf cw 0).toNat) s)))

/-- R125, R171, R172, R203, R233, R352, R355: a CPU may only access its own spaces and acknowledge for itself: then
its command does what the host's does, answers the byte (and R1) that the host gets, and writes no STATUS, R0 or
R1, and it is fatal where the host's is (a RUNFRAME in an external handler); anything else is refused with a
diagnostic and no effect. That the CPU observes `refusedReply` or `writeReply` is the
model's choice (log 10); the numbers in the diagnostic are the model's reading of R352 (log 24). -/
def Obligations.CpuMayOnlyUseItsOwn : Prop :=
  (∀ (c : Nat) (cw : CmdWord) (s : State), s.phase = .run →
    (opcodeOf cw ∈ ([0x11, 0x12, 0x14] : List Byte) ∧ spaceOk s (argOf cw 0).toNat = true ∧
        (spaceAt s (argOf cw 0).toNat).owner.toNat = c ∨
      opcodeOf cw = 0x23 ∧ isCpu s (argOf cw 0).toNat = true ∧ (argOf cw 0).toNat = c) →
    ∃ i t, decodeWord cw = .ok i ∧ i.opcode = opcodeOf cw ∧ exec i s = .next t ∧
      (t.status = codeOk ∧ (∃ o u, cpuCommand Config.env c cw s = .ok o u ∧
          t = { u with status := codeOk, r0 := t.r0, r1 := t.r1 } ∧
          u.status = s.status ∧ u.r0 = s.r0 ∧ u.r1 = s.r1 ∧
          o = (if opcodeOf cw = 0x12 then .writeReply
            else if opcodeOf cw = 0x23 then .ackReply (t.r0.setWidth 8) t.r1
            else .readReply (t.r0.setWidth 8))) ∨
        t.phase = .fatal ∧ t.status = codeReentry ∧
          cpuCommand Config.env c cw s = .fatal codeReentry { t with status := s.status })) ∧
  ∀ (env : Env) (c : Nat) (cw : CmdWord) (s : State),
    let refused (code : Byte) : State := emit (.diag code (opcodeOf cw).toNat (argOf cw 0).toNat) s
    (opcodeOf cw ∉ ([0x11, 0x12, 0x14, 0x23] : List Byte) →
      cpuCommand env c cw s = .ok .refusedReply (refused codeNotPermitted)) ∧
    (opcodeOf cw ∈ ([0x11, 0x14] : List Byte) →
      (spaceOk s (argOf cw 0).toNat = false →
        cpuCommand env c cw s = .ok (.readReply s.params.openBus) (refused codeBadId)) ∧
      (spaceOk s (argOf cw 0).toNat = true → (spaceAt s (argOf cw 0).toNat).owner.toNat ≠ c →
        cpuCommand env c cw s = .ok (.readReply s.params.openBus) (refused codeNotPermitted))) ∧
    (opcodeOf cw = 0x12 →
      (spaceOk s (argOf cw 0).toNat = false →
        cpuCommand env c cw s = .ok .writeReply (refused codeBadId)) ∧
      (spaceOk s (argOf cw 0).toNat = true → (spaceAt s (argOf cw 0).toNat).owner.toNat ≠ c →
        cpuCommand env c cw s = .ok .writeReply (refused codeNotPermitted))) ∧
    (opcodeOf cw = 0x23 →
      (isCpu s (argOf cw 0).toNat = false →
        cpuCommand env c cw s = .ok (.ackReply s.params.openBus 0x100) (refused codeBadId)) ∧
      (isCpu s (argOf cw 0).toNat = true → (argOf cw 0).toNat ≠ c →
        cpuCommand env c cw s = .ok (.ackReply s.params.openBus 0x100) (refused codeNotPermitted)))

/-! ## Family 2 -/

/-- R200, R201, R202, R204: ASSERT, CLEAR and PULSE of a line in each of its states, and of no line. -/
def Obligations.AssertClearPulse : Prop :=
  ∀ (c l : Word32) (v : Byte) (hv : Bool) (s : State), s.phase = .run →
    let ln := lineAt s c.toNat l.toNat
    let asserted : Line := ⟨.asserted, hv, if hv then v else 0⟩
    (lineOk s c.toNat l.toNat = false →
      exec (.assert c l v hv) s = .next (refusedWith codeBadId s) ∧
      exec (.clear c l) s = .next (refusedWith codeBadId s) ∧
      exec (.pulse c l) s = .next (refusedWith codeBadId s)) ∧
    (lineOk s c.toNat l.toNat = true → ln.st = .idle →
      exec (.assert c l v hv) s =
        .next (completed (notify c.toNat l.toNat true (withLine c.toNat l.toNat asserted s))) ∧
      exec (.clear c l) s = .next (completed s) ∧
      exec (.pulse c l) s = .next (completed (notify c.toNat l.toNat true
        (withLine c.toNat l.toNat { ln with st := .pending } s)))) ∧
    (lineOk s c.toNat l.toNat = true → (ln.st = .pending ∨ ln.st = .asserted) →
      exec (.assert c l v hv) s = .next (completed (withLine c.toNat l.toNat asserted s)) ∧
      exec (.clear c l) s = .next (completed (notify c.toNat l.toNat false
        (withLine c.toNat l.toNat { ln with st := .idle } s))) ∧
      exec (.pulse c l) s = .next (completed s))

/-- R207: which lines are active, and `bits(c)`. R203: the line an acknowledge takes is the active line 1, else the
least active line (so line 0 before 2); and ACK of no active line, of a Pending line, of an Asserted line, and of no
CPU. The CPU's record of the notification is the model's (log 10). -/
def Obligations.AckTakesTheSelectedLine : Prop :=
  (∀ (s : State) (c l : Nat),
    (lineActive s c l = true ↔ (lineAt s c l).st = .pending ∨ (lineAt s c l).st = .asserted) ∧
    (activeBits s c).testBit l = (decide (l < s.params.nlineOf c) && lineActive s c l)) ∧
  (∀ (s : State) (c l : Nat), selectLine s c = some l ↔
    l < s.params.nlineOf c ∧ lineActive s c l = true ∧
      ∀ m, m < s.params.nlineOf c → lineActive s c m = true → l = 1 ∨ m ≠ 1 ∧ l ≤ m) ∧
  ∀ (c : Word32) (s : State), s.phase = .run →
    (isCpu s c.toNat = false → exec (.ack c) s = .next (refusedWith codeBadId s)) ∧
    (isCpu s c.toNat = true →
      ((∀ l, l < s.params.nlineOf c.toNat → lineActive s c.toNat l = false) →
        exec (.ack c) s = .next (completedR01 (s.params.openBus.setWidth 32) 0x100 s)) ∧
      ∀ l, selectLine s c.toNat = some l →
        let ln := lineAt s c.toNat l
        let v : Byte :=
          match Config.env.vecfn c.toNat with
          | some f => f (activeBits s c.toNat)
          | none => if ln.hasvec then ln.vec else s.params.openBus
        (ln.st = .pending →
          exec (.ack c) s = .next (completedR01 (v.setWidth 32) (BitVec.ofNat 32 l)
            (emit (.ack c.toNat l v) (notify c.toNat l false
              (withLine c.toNat l { ln with st := .idle } s))))) ∧
        (ln.st = .asserted →
          exec (.ack c) s = .next (completedR01 (v.setWidth 32) (BitVec.ofNat 32 l)
            (emit (.ack c.toNat l v) s))))

/-- R205: LINEQ answers the state code and the vector, and changes nothing else. -/
def Obligations.LineqAnswersTheLine : Prop :=
  (∀ c l, Heading (.lineq c l) 0x24 .configRun false) ∧
  ∀ (c l : Word32) (s : State), configOrRun s →
    (lineOk s c.toNat l.toNat = false → exec (.lineq c l) s = .next (refusedWith codeBadId s)) ∧
    (lineOk s c.toNat l.toNat = true → exec (.lineq c l) s = .next (completedR01
      (match (lineAt s c.toNat l.toNat).st with
        | .idle => 0
        | .pending => 1
        | .acknowledged => 2
        | .asserted => 3)
      (BitVec.ofNat 32 ((lineAt s c.toNat l.toNat).hasvec.toNat * 256 + (lineAt s c.toNat l.toNat).vec.toNat))
      s))

/-- R202's property P5: two PULSEs of an idle line before an ACK give one acknowledge, not two. -/
def Obligations.PulseNotCounted : Prop :=
  ∀ (c l : Word32) (s : State), s.phase = .run → Shaped s → lineOk s c.toNat l.toNat = true →
    (∀ m, m < s.params.nlineOf c.toNat → (lineAt s c.toNat m).st = .idle) →
    ∃ s1 s2 s3 s4 s5 s6, exec (.pulse c l) s = .next s1 ∧ exec (.pulse c l) s1 = .next s2 ∧
      exec (.lineq c l) s2 = .next s3 ∧ s3.r0 = 1 ∧
      exec (.ack c) s3 = .next s4 ∧ s4.r1 = l ∧
      exec (.lineq c l) s4 = .next s5 ∧ s5.r0 = 0 ∧
      exec (.ack c) s5 = .next s6 ∧ s6.r1 = 0x100

/-! ## Family 3 -/

/-- R130, R234: the codes of a timer's action; TIMERSET arms a slot, its deadline counted from `now`. -/
def Obligations.TimersetArmsASlot : Prop :=
  (∀ n d p act t0 t1 t2, Heading (.timerset n d p act t0 t1 t2) 0x31 .runOnly true) ∧
  (timerActOf 0 = .pulse ∧ timerActOf 1 = .assert ∧ timerActOf 2 = .clear ∧ timerActOf 3 = .callback) ∧
  ∀ (n delay period t0 t1 t2 : Word32) (act : BitVec 2) (s : State), s.phase = .run →
    let target : Prop :=
      match timerActOf act with
      | .pulse | .assert | .clear => lineOk s t0.toNat t1.toNat = true
      | .callback => t0.toNat ∈ s.params.extIds
    (s.params.ntimer ≤ n.toNat →
      exec (.timerset n delay period act t0 t1 t2) s = .next (refusedWith codeBadId s)) ∧
    (n.toNat < s.params.ntimer → delay = 0 →
      exec (.timerset n delay period act t0 t1 t2) s = .next (refusedWith codeBadParam s)) ∧
    (n.toNat < s.params.ntimer → delay ≠ 0 → ¬target →
      exec (.timerset n delay period act t0 t1 t2) s = .next (refusedWith codeBadId s)) ∧
    (n.toNat < s.params.ntimer → delay ≠ 0 → target →
      exec (.timerset n delay period act t0 t1 t2) s = .next (completed { s with
        timers := s.timers.set n.toNat
          ⟨true, s.now + delay.setWidth 64, period, timerActOf act, t0, t1, t2⟩ }))

/-- R230: a frame in which no CPU is given a cycle, no timer is armed and the render list is empty only
advances time, shows the frame buffer and asks for samples. -/
def Obligations.RunframeIdle : Prop :=
  ∀ s : State, s.phase = .run → s.slices ≠ 0 →
    (∀ d ∈ s.dev, d.clockHz.toNat < s.frameHz.toNat) → (∀ v ∈ s.carry, v = 0) →
    (∀ T ∈ s.timers, T.armed = false) → (∀ st ∈ s.rsteps, st.valid = false) →
    exec .runframe s = .next (completed { s with
      now := s.frameStart + BitVec.ofNat 64 (s.masterHz.toNat / s.frameHz.toNat)
      frameStart := s.frameStart + BitVec.ofNat 64 (s.masterHz.toNat / s.frameHz.toNat)
      frameCount := s.frameCount + 1
      k := 0
      i := 0
      inFrame := false
      events := (soundHandles s).reverse.map (fun d => Event.samples d (s.params.samplesOf d)) ++
        .frame (bitmapOf s) :: s.events })

/-- R231, R232, R238: a CPU's target in a slice and the end of a slice, which add up over a frame to the CPU's
cycles and to the frame's; a carried overrun larger than the whole target is fatal, an equal one leaves the CPU
unstepped with nothing carried, and otherwise the budget is the difference and the new overrun is carried. R233: in
its `step` a CPU unit is asked for one command after the other, each answered before the next, until it returns,
and its `consumed` is the value; a fatal command ends the step. The unit's form, what it observes, and the bound
on the number of its commands are the model's (log 10). That the target is R232's also in a frame of 0 master
cycles, of which R238 says that CPUs get no cycles, is the model's choice (log 30). -/
def Obligations.SliceBudget : Prop :=
  (∀ (env : Env) (c : Nat) (budget : Word32) (s : State),
    let s0 : State := { s with cpuObs := s.cpuObs.modify c (.step budget :: ·) }
    let bound := env.cpuBound c (s0.cpuObs.getD c [])
    (∀ n t, CpuIssues env c n s0 t →
      (n ≤ bound ∧ (env.cpu c (t.cpuObs.getD c [])).cmd = none ∨ n = bound) →
      cpuStep env c budget s = .ok (env.cpu c (t.cpuObs.getD c [])).consumed t) ∧
    (∀ n t cw code u, CpuIssues env c n s0 t → n < bound →
      (env.cpu c (t.cpuObs.getD c [])).cmd = some cw → cpuCommand env c cw t = .fatal code u →
      cpuStep env c budget s = .fatal code u)) ∧
  (∀ (S k c : Nat) (d : Device) (s : State), s.dev[c]? = some d →
    let cf := d.clockHz.toNat / s.frameHz.toNat
    sliceTarget s S c k = cf * (k + 1) / S - cf * k / S ∧
    (0 < S → ((List.range S).map (sliceTarget s S c)).sum = cf)) ∧
  (∀ (S k : Nat) (s : State),
    let fc := s.masterHz.toNat / s.frameHz.toNat
    sliceEnd s S k = s.frameStart + BitVec.ofNat 64 (fc * (k + 1) / S) ∧
    (0 < S → sliceEnd s S (S - 1) = s.frameStart + BitVec.ofNat 64 fc)) ∧
  ∀ (env : Env) (S k c : Nat) (s : State),
    (sliceTarget s S c k < carryAt s c →
      sliceCpu env S k c s = .fatal codeNegativeCycles (fatalState codeNegativeCycles s)) ∧
    (sliceTarget s S c k = carryAt s c →
      sliceCpu env S k c s = .ok () { s with carry := s.carry.set c 0 }) ∧
    (∀ consumed t, carryAt s c < sliceTarget s S c k →
      cpuStep env c (BitVec.ofNat 32 (sliceTarget s S c k - carryAt s c)) s = .ok consumed t →
      ∃ u, sliceCpu env S k c s = .ok () u ∧ u = { t with carry := u.carry } ∧
        u.carry = t.carry.set c
          (BitVec.ofNat 32 (max ((consumed.toNat : Int) - (sliceTarget s S c k - carryAt s c)) 0).toNat))

/-- R235: at a slice end the clock is moved to it; while a timer is due the one with the least deadline, among
equals the least slot, fires, and when none is due nothing more happens; so afterwards none is due. For a clock
not within 2^32 cycles of its end (log 15). -/
def Obligations.TimersAllFire : Prop :=
  ∀ (env : Env) (tEnd : Word64) (s : State), tEnd.toNat + 2 ^ 32 ≤ 2 ^ 64 →
    ((∀ n, timerDue s tEnd n = false) → endSlice env tEnd s = .ok () { s with now := tEnd }) ∧
    (∀ n, timerDue s tEnd n = true →
      (∀ m, timerDue s tEnd m = true → (timerAt s n).deadline.toNat < (timerAt s m).deadline.toNat ∨
        (timerAt s n).deadline = (timerAt s m).deadline ∧ n ≤ m) →
      endSlice env tEnd s =
        andThen (fireTimer env n { s with now := tEnd }) fun _ t => endSlice env tEnd t) ∧
    (∀ t, endSlice env tEnd s = .ok () t → ∀ n, timerDue t tEnd n = false)

/-- R235: a firing re-arms or disarms its slot first, then reports, then acts: Pulse, Assert and Clear of a line in
each of its states, and Callback, whose command list runs with `in_handler` set. The CPU's record of a
notification is the model's (log 10), the handler's form too (log 11); a line that does not exist is left out,
since TIMERSET arms none (log 19). -/
def Obligations.TimerFiresBeforeItActs : Prop :=
  ∀ (env : Env) (n : Nat) (s : State), s.phase = .run →
    let T := timerAt s n
    let c := T.t0.toNat
    let l := T.t1.toNat
    let ln := lineAt s c l
    let u : State :=
      { s with
        timers := s.timers.set n
          (if T.period = 0 then { T with armed := false }
            else { T with deadline := T.deadline + T.period.setWidth 64 })
        events := .timerFire n :: s.events }
    let asserted : Line :=
      ⟨.asserted, T.t2.getLsbD 8, if T.t2.getLsbD 8 then T.t2.extractLsb' 0 8 else 0⟩
    (lineOk s c l = true → ln.st = .idle →
      (T.act = .pulse →
        fireTimer env n s = .ok () (notify c l true (withLine c l { ln with st := .pending } u))) ∧
      (T.act = .assert → fireTimer env n s = .ok () (notify c l true (withLine c l asserted u))) ∧
      (T.act = .clear → fireTimer env n s = .ok () u)) ∧
    (lineOk s c l = true → (ln.st = .pending ∨ ln.st = .asserted) →
      (T.act = .pulse → fireTimer env n s = .ok () u) ∧
      (T.act = .assert → fireTimer env n s = .ok () (withLine c l asserted u)) ∧
      (T.act = .clear →
        fireTimer env n s = .ok () (notify c l false (withLine c l { ln with st := .idle } u)))) ∧
    (T.act = .callback →
      let reply := env.ext c (.timer n) { u with inHandler := true }
      let works := execInternals reply.cmds { u with inHandler := true, extMem := reply.mem }
      (∃ t, works = .ok () t ∧ fireTimer env n s = .ok () { t with inHandler := false }) ∨
      (∃ t, works = .fatal codeReentry t ∧ fireTimer env n s = .fatal codeReentry t))

/-! ## Family 4 -/

/-- R132, R260: the codes of `smode`; TMCREATE makes a layer whose scroll entries are 0 and whose cells are all
dirty; the cache is free values (log 8). Then its errors, in the order of its checks. -/
def Obligations.TmcreateMakesALayer : Prop :=
  (scrollModeOf 0 = some .whole ∧ scrollModeOf 1 = some .rows ∧ scrollModeOf 2 = some .cols ∧
    scrollModeOf 3 = none) ∧
  (∀ (L : Word32) (w h tw th : Word16) (rf g : Word32) (m : BitVec 2) (n : BitVec 9) (sm : ScrollMode)
     (s : State), s.phase = .config → L.toNat < s.params.nlayer → (layerAt s L.toNat).valid = false →
     w ≠ 0 → h ≠ 0 → tw ≠ 0 → th ≠ 0 → w.toNat * tw.toNat ≤ 65536 → h.toNat * th.toNat ≤ 65536 →
     rf.toNat ∈ s.params.resolveIds → (s.params.gfxOf g.toNat).isSome = true → scrollModeOf m = some sm →
     (sm ≠ .whole → n ≠ 0 ∧ n.toNat ≤ 256) →
     let nent : BitVec 9 := if sm = .whole then 1 else n
     ∃ t, exec (.tmcreate L w h tw th rf g m n) s = .next t ∧
       t = { s with
         status := codeOk
         layers := s.layers.set L.toNat ⟨true, w, h, tw, th, rf.setWidth 8, g.setWidth 8, sm, nent⟩
         scroll := s.scroll.set L.toNat (List.replicate nent.toNat ⟨0, 0⟩)
         dirty := s.dirty.set L.toNat (List.replicate (w.toNat * h.toNat) true)
         cache := t.cache
         freeCtr := s.freeCtr + 1 } ∧
       ∀ L', L' ≠ L.toNat → t.cache.getD L' [] = s.cache.getD L' []) ∧
  (∀ (L : Word32) (w h tw th : Word16) (rf g : Word32) (m : BitVec 2) (n : BitVec 9) (s : State),
     s.phase = .config →
     (s.params.nlayer ≤ L.toNat ∨ (layerAt s L.toNat).valid = true →
       exec (.tmcreate L w h tw th rf g m n) s = .next (configErrorWith codeBadId s)) ∧
     (L.toNat < s.params.nlayer → (layerAt s L.toNat).valid = false →
       (w = 0 ∨ h = 0 ∨ tw = 0 ∨ th = 0 ∨ 65536 < w.toNat * tw.toNat ∨ 65536 < h.toNat * th.toNat →
         exec (.tmcreate L w h tw th rf g m n) s = .next (configErrorWith codeBadParam s)) ∧
       (w ≠ 0 → h ≠ 0 → tw ≠ 0 → th ≠ 0 → w.toNat * tw.toNat ≤ 65536 → h.toNat * th.toNat ≤ 65536 →
         (rf.toNat ∉ s.params.resolveIds ∨ s.params.gfxOf g.toNat = none →
           exec (.tmcreate L w h tw th rf g m n) s = .next (configErrorWith codeBadId s)) ∧
         (rf.toNat ∈ s.params.resolveIds → (s.params.gfxOf g.toNat).isSome = true →
           (m = 3 → exec (.tmcreate L w h tw th rf g m n) s = .next (configErrorWith codeBadKind s)) ∧
           (m = 1 ∨ m = 2 → n = 0 ∨ 256 < n.toNat →
             exec (.tmcreate L w h tw th rf g m n) s = .next (configErrorWith codeBadParam s))))))

/-- R264, R265: MARKDIRTY sets the dirty bit of one cell, an index past the grid brought into range and reported;
SETSCROLL writes one scroll entry. -/
def Obligations.MarkdirtyAndSetscroll : Prop :=
  (∀ L x, Heading (.markdirty L x) 0x41 .configRun true) ∧
  (∀ L e dx dy, Heading (.setscroll L e dx dy) 0x42 .configRun true) ∧
  (∀ (L x : Word32) (s : State), configOrRun s →
     (layerOk s L.toNat = false → exec (.markdirty L x) s = .next (refusedWith codeBadId s)) ∧
     (layerOk s L.toNat = true → x.toNat < cellCount (layerAt s L.toNat) →
       exec (.markdirty L x) s = .next (completed
         { s with dirty := s.dirty.modify L.toNat fun row => row.set x.toNat true })) ∧
     (layerOk s L.toNat = true → cellCount (layerAt s L.toNat) ≤ x.toNat →
       exec (.markdirty L x) s = .next (completed
         { s with
           dirty := s.dirty.modify L.toNat fun row => row.set
             (if s.params.oorPolicy = .wrap then x.toNat % cellCount (layerAt s L.toNat)
               else cellCount (layerAt s L.toNat) - 1) true
           events := .diag codeIndexOutOfRange x.toNat (cellCount (layerAt s L.toNat)) :: s.events }))) ∧
  (∀ (L e : Word32) (dx dy : Word16) (s : State), configOrRun s →
     (layerOk s L.toNat = false → exec (.setscroll L e dx dy) s = .next (refusedWith codeBadId s)) ∧
     (layerOk s L.toNat = true → (layerAt s L.toNat).nent.toNat ≤ e.toNat →
       exec (.setscroll L e dx dy) s = .next (refusedWith codeBadParam s)) ∧
     (layerOk s L.toNat = true → e.toNat < (layerAt s L.toNat).nent.toNat →
       exec (.setscroll L e dx dy) s = .next (completed
         { s with scroll := s.scroll.modify L.toNat fun row => row.set e.toNat ⟨dx, dy⟩ })))

/-- R266, R267: TMCOMPOSITE re-resolves every dirty cell of its layer, then writes into the clip rectangle
the layer's pixels that its transparency test does not skip, and changes nothing else. R263, R268, R271: the
pixel a layer shows at (x, y), by the tile (tx, ty) and the place (i, j) in it that the scrolled and wrapped plane
coordinates name (a pen is brought below NPEN as log 13 says). R261, R269: a cell's tile is what `resolve_fn` gives
on the bytes of the regions, its code brought into range. The diagnostics are those of the dirty cells' codes, in
ascending cell, and no others. A layer that does not exist is BadId. -/
def Obligations.TmcompositeDrawsTheLayer : Prop :=
  (∀ (x0 y0 x1 y1 : Word16) (L : Word32) (mode : Bool) (pen : Word16) (s : State), s.phase = .run →
    layerOk s L.toNat = false →
    exec (.tmcomposite x0 y0 x1 y1 L mode pen) s = .next (refusedWith codeBadId s)) ∧
  (∀ (env : Env) (s : State) (L c : Nat) (tl : Tile),
    resolvedTile env s L c = env.resolve (layerAt s L).rf.toNat c (fun r o =>
      if regionOk s r = true ∧ o < regionSize s r then some (readRegion env s r o) else none) ∧
    cachedTile s L tl =
      let n := (gfxDim s (layerAt s L).gfx.toNat).ncodes
      { tl with code :=
          if tl.code.toNat < n then tl.code
          else if s.params.oorPolicy = .wrap then BitVec.ofNat 32 (tl.code.toNat % n)
          else BitVec.ofNat 32 (n - 1) }) ∧
  (∀ (env : Env) (s : State) (L x y tx ty i j : Nat),
    let ly := layerAt s L
    let sc := scrollAt s L
      (match ly.smode with
        | .whole => 0
        | .rows => y / ly.th.toNat % ly.nent.toNat
        | .cols => x / ly.tw.toNat % ly.nent.toNat)
    let tile := cacheAt s L (ty * ly.w.toNat + tx)
    tx < ly.w.toNat → ty < ly.h.toNat → i < ly.tw.toNat → j < ly.th.toNat →
    (x + sc.dx.toNat) % (ly.w.toNat * ly.tw.toNat) = tx * ly.tw.toNat + i →
    (y + sc.dy.toNat) % (ly.h.toNat * ly.th.toNat) = ty * ly.th.toNat + j →
    tilePixel env s L x y = ⟨tile.color, BitVec.ofNat 16
      (env.gfxPen ly.gfx.toNat 0 tile.code.toNat
        (if tile.flipY then ly.th.toNat - 1 - j else j) (if tile.flipX then ly.tw.toNat - 1 - i else i) %
          (gfxDim s ly.gfx.toNat).npen)⟩) ∧
  ∀ (x0 y0 x1 y1 : Word16) (L : Word32) (mode : Bool) (pen : Word16) (s : State), s.phase = .run → Shaped s →
    layerOk s L.toNat = true →
    (∀ c, c < cellCount (layerAt s L.toNat) → dirtyAt s L.toNat c = true →
      (resolvedTile Config.env s L.toNat c).color.toNat < s.params.ngroup) →
    ∃ t, exec (.tmcomposite x0 y0 x1 y1 L mode pen) s = .next t ∧
      t = { s with status := codeOk, fb := t.fb, dirty := t.dirty, cache := t.cache, events := t.events } ∧
      (∀ L' c, dirtyAt t L' c = (dirtyAt s L' c && decide (L' ≠ L.toNat))) ∧
      (∀ L' c, cacheAt t L' c = if L' = L.toNat ∧ dirtyAt s L' c = true
        then cachedTile s L' (resolvedTile Config.env s L' c) else cacheAt s L' c) ∧
      (∀ x y, x < s.sw.toNat → y < s.sh.toNat →
        let p := tilePixel Config.env t L.toNat x y
        fbAt t x y =
          if x0.toNat ≤ x ∧ x ≤ x1.toNat ∧ y0.toNat ≤ y ∧ y ≤ y1.toNat ∧ ¬(mode = true ∧ p.p = pen) then p
          else fbAt s x y) ∧
      t.events = (cellNotices Config.env s L.toNat (List.range (cellCount (layerAt s L.toNat)))).reverse ++ s.events

/-- R267: the first dirty cell whose colour group does not exist is fatal; the cells before it are resolved and
clean, it, the later ones and the other layers untouched, and no pixel is written. R292: the first drawn record
whose colour group does not exist is fatal, and what the records before it drew stays. -/
def Obligations.ColorOutOfRange : Prop :=
  (∀ (x0 y0 x1 y1 : Word16) (L : Word32) (mode : Bool) (pen : Word16) (s : State) (b : Nat), s.phase = .run →
    layerOk s L.toNat = true → b < cellCount (layerAt s L.toNat) → dirtyAt s L.toNat b = true →
    s.params.ngroup ≤ (resolvedTile Config.env s L.toNat b).color.toNat →
    (∀ c, c < b → dirtyAt s L.toNat c = true →
      (resolvedTile Config.env s L.toNat c).color.toNat < s.params.ngroup) →
    ∃ t, exec (.tmcomposite x0 y0 x1 y1 L mode pen) s = .next t ∧
      t = { s with
        status := codeColorOutOfRange, fatalCode := codeColorOutOfRange, phase := .fatal,
        dirty := t.dirty, cache := t.cache,
        events := .fatal codeColorOutOfRange ::
          ((cellNotices Config.env s L.toNat (List.range b)).reverse ++ s.events) } ∧
      (∀ c, c < b → dirtyAt t L.toNat c = false) ∧
      (Shaped s → ∀ c, c < b → cacheAt t L.toNat c =
        if dirtyAt s L.toNat c = true then cachedTile s L.toNat (resolvedTile Config.env s L.toNat c)
        else cacheAt s L.toNat c) ∧
      (∀ c, b ≤ c → dirtyAt t L.toNat c = dirtyAt s L.toNat c ∧ cacheAt t L.toNat c = cacheAt s L.toNat c) ∧
      (∀ L' c, L' ≠ L.toNat → dirtyAt t L' c = dirtyAt s L' c ∧ cacheAt t L' c = cacheAt s L' c)) ∧
  (∀ (x0 y0 x1 y1 : Word16) (only : Bool) (p : Byte) (s : State), s.phase = .run →
    exec (.spcomposite x0 y0 x1 y1 only p) s =
      .next (endCommand s (spcompositeBody Config.env x0 y0 x1 y1 only p s))) ∧
  (∀ (env : Env) (x0 y0 x1 y1 : Word16) (only : Bool) (p : Byte) (s : State) (pre post : List Nat) (n : Nat),
    s.fb.length = s.sw.toNat * s.sh.toNat → s.spr.valid = true →
    (if s.spr.reverse then (List.range s.spr.count.toNat).reverse else List.range s.spr.count.toNat) =
      pre ++ n :: post →
    spriteDrawn env s only p n → s.params.ngroup ≤ (spriteRecord env s n).color.toNat →
    (∀ m ∈ pre, spriteDrawn env s only p m → (spriteRecord env s m).color.toNat < s.params.ngroup) →
    ∃ t, endCommand s (spcompositeBody env x0 y0 x1 y1 only p s) = t ∧
      t = { s with
        status := codeColorOutOfRange, fatalCode := codeColorOutOfRange, phase := .fatal, fb := t.fb,
        events := .fatal codeColorOutOfRange :: ((spriteNotices env s only p pre).reverse ++ s.events) } ∧
      ∀ x y, x < s.sw.toNat → y < s.sh.toNat → fbAt t x y =
        if x0.toNat ≤ x ∧ x ≤ x1.toNat ∧ y0.toNat ≤ y ∧ y ≤ y1.toNat then
          pre.foldl (spriteOver env s only p x y) (fbAt s x y)
        else fbAt s x y)

/-- R267's property P3: where the cache is coherent, compositing draws what compositing after marking every
cell dirty draws. -/
def Obligations.DirtyTrackingUnseen : Prop :=
  ∀ (x0 y0 x1 y1 : Word16) (L : Word32) (mode : Bool) (pen : Word16) (s t : State), s.phase = .run →
    layerOk s L.toNat = true → cacheCoherent Config.env s L.toNat →
    exec (.tmcomposite x0 y0 x1 y1 L mode pen) s = .next t → t.status = codeOk →
    ∃ u, exec (.tmcomposite x0 y0 x1 y1 L mode pen) (allDirty s) = .next u ∧ u.status = codeOk ∧ u.fb = t.fb

/-! ## Family 5 -/

/-- R290: SPCFG. -/
def Obligations.SpcfgConfigures : Prop :=
  (∀ r b st n df g w h rev ht tp, Heading (.spcfg r b st n df g w h rev ht tp) 0x50 .configOnly false) ∧
  ∀ (r b : Word32) (st n : Word16) (df g : Word32) (w h : Word16) (rev ht : Bool) (tp : Word16) (s : State),
    s.phase = .config →
    (s.spr.valid = true ∨ regionOk s r.toNat = false →
      exec (.spcfg r b st n df g w h rev ht tp) s = .next (configErrorWith codeBadId s)) ∧
    (s.spr.valid = false → regionOk s r.toNat = true → (st = 0 ∨ w = 0 ∨ h = 0) →
      exec (.spcfg r b st n df g w h rev ht tp) s = .next (configErrorWith codeBadParam s)) ∧
    (s.spr.valid = false → regionOk s r.toNat = true → st ≠ 0 → w ≠ 0 → h ≠ 0 →
      (df.toNat ∉ s.params.decodeIds ∨ s.params.gfxOf g.toNat = none) →
      exec (.spcfg r b st n df g w h rev ht tp) s = .next (configErrorWith codeBadId s)) ∧
    (s.spr.valid = false → regionOk s r.toNat = true → st ≠ 0 → w ≠ 0 → h ≠ 0 →
      df.toNat ∈ s.params.decodeIds → (s.params.gfxOf g.toNat).isSome = true →
      exec (.spcfg r b st n df g w h rev ht tp) s = .next (completed { s with
        spr := ⟨true, r.setWidth 8, b, st, n, df.setWidth 8, g.setWidth 8, w, h, rev, ht, tp⟩ }))

/-- R292, R295: SPCOMPOSITE draws the shown records in their order, each over the earlier ones, inside the
clip rectangle, and changes nothing else. R293: the bytes of a record, wrapping at its region's end. R292, R296:
the pixel a record gives at column c and row r of its rectangle, whose corner is signed, and nothing elsewhere (a
pen is brought below NPEN as log 13 says). The diagnostics are those of each drawn record's code and then its bank,
in the order of the records, and no others. Without a sprite configuration it is BadId. -/
def Obligations.SpcompositeDrawsInOrder : Prop :=
  (∀ (x0 y0 x1 y1 : Word16) (only : Bool) (p : Byte) (s : State), s.phase = .run → s.spr.valid = false →
    exec (.spcomposite x0 y0 x1 y1 only p) s = .next (refusedWith codeBadId s)) ∧
  (∀ (env : Env) (s : State) (n : Nat),
    spriteRecord env s n = env.decode s.spr.df.toNat n (spriteBytes env s n) ∧
    (spriteBytes env s n).length = s.spr.stride.toNat ∧
    ∀ b, b < s.spr.stride.toNat → (spriteBytes env s n)[b]? =
      some (readRegion env s s.spr.region.toNat
        ((s.spr.base.toNat + n * s.spr.stride.toNat + b) % regionSize s s.spr.region.toNat))) ∧
  (∀ (env : Env) (s : State) (D : SpriteRec) (code bank x y : Nat),
    (∀ c r, c < s.spr.spw.toNat → r < s.spr.sph.toNat →
      (x : Int) = D.x.toInt + c → (y : Int) = D.y.toInt + r →
      let pen : Word16 := BitVec.ofNat 16
        (env.gfxPen s.spr.gfx.toNat bank code
          (if D.flipY then s.spr.sph.toNat - 1 - r else r) (if D.flipX then s.spr.spw.toNat - 1 - c else c) %
            (gfxDim s s.spr.gfx.toNat).npen)
      spritePicture env s D code bank x y =
        if s.spr.hasTpen = true ∧ pen = s.spr.tpen then none else some ⟨D.color, pen⟩) ∧
    ((∀ c r, c < s.spr.spw.toNat → r < s.spr.sph.toNat →
        ¬((x : Int) = D.x.toInt + c ∧ (y : Int) = D.y.toInt + r)) →
      spritePicture env s D code bank x y = none)) ∧
  ∀ (x0 y0 x1 y1 : Word16) (only : Bool) (p : Byte) (s : State), s.phase = .run →
    s.fb.length = s.sw.toNat * s.sh.toNat → s.spr.valid = true →
    (∀ n, n < s.spr.count.toNat → spriteDrawn Config.env s only p n →
      (spriteRecord Config.env s n).color.toNat < s.params.ngroup) →
    let order := if s.spr.reverse then (List.range s.spr.count.toNat).reverse else List.range s.spr.count.toNat
    ∃ t, exec (.spcomposite x0 y0 x1 y1 only p) s = .next t ∧
      t = { s with
        status := codeOk, fb := t.fb,
        events := (spriteNotices Config.env s only p order).reverse ++ s.events } ∧
      ∀ x y, x < s.sw.toNat → y < s.sh.toNat → fbAt t x y =
        if x0.toNat ≤ x ∧ x ≤ x1.toNat ∧ y0.toNat ≤ y ∧ y ≤ y1.toNat then
          order.foldl (spriteOver Config.env s only p x y) (fbAt s x y)
        else fbAt s x y

/-! ## Family 6 -/

/-- R310, R312: RENDER of a list of FILL steps: every pixel gets the last step's pair (none, if the list is
empty), and the Frame event shows `palette[lookup[g][p]]` of each pixel, turned by 180 degrees under `flip`. R310,
R311: any render list draws its valid slots in ascending order, a LAYER step as TMCOMPOSITE and a SPRITES step as
SPCOMPOSITE of the whole screen, and then emits the bitmap; a step that is fatal ends it without one. -/
def Obligations.RenderFill : Prop :=
  (∀ s t : State, s.phase = .run → Drawn (s.rsteps.filter fun st => st.valid) s t →
    exec .render s = .next (completed (emit (.frame (bitmapOf t)) t))) ∧
  (∀ (s t u : State) (pre post : List RStep) (st : RStep) (i : Instr), s.phase = .run →
    (s.rsteps.filter fun st => st.valid) = pre ++ st :: post → Drawn pre s t →
    stepCommand t st = some i → exec i t = .next u → u.phase = .fatal → exec .render s = .next u) ∧
  ∀ s : State, s.phase = .run → s.fb.length = s.sw.toNat * s.sh.toNat →
    (∀ st ∈ s.rsteps, st.valid = true → st.rk = .fill) →
    ∃ t bitmap, exec .render s = .next t ∧
      t = { s with status := codeOk, fb := t.fb, events := .frame bitmap :: s.events } ∧
      t.fb.length = s.fb.length ∧
      (∀ x y, x < s.sw.toNat → y < s.sh.toNat → fbAt t x y =
        match (s.rsteps.filter fun st => st.valid).getLast? with
        | none => fbAt s x y
        | some st => ⟨st.ra.extractLsb' 0 16, st.rb.extractLsb' 0 16⟩) ∧
      bitmap.length = s.sh.toNat ∧
      ∀ x y, x < s.sw.toNat → y < s.sh.toNat →
        let px := if s.flip then fbAt t (s.sw.toNat - 1 - x) (s.sh.toNat - 1 - y) else fbAt t x y
        (bitmap.getD y []).length = s.sw.toNat ∧
        (bitmap.getD y [])[x]? =
          some (s.palette.getD (s.lookup.getD (px.g.toNat * s.params.npens + px.p.toNat) 0).toNat 0)

/-- R317: RENDER writes only the frame buffer, the dirty bits and the tile-cache, and it is idempotent: right
after a RENDER that completed, a second one completes with the same Frame event and leaves the same state but
for the event stream. -/
def Obligations.RenderIdempotent : Prop :=
  ∀ s t : State, s.phase = .run → exec .render s = .next t → t.status = codeOk →
    t = { s with status := codeOk, fb := t.fb, dirty := t.dirty, cache := t.cache, events := t.events } ∧
    ∃ u bitmap, exec .render t = .next u ∧ u = { t with events := u.events } ∧
      t.events.head? = some (.frame bitmap) ∧ u.events.head? = some (.frame bitmap)

/-- R313, R314, R315: SETFLIP, SETPEN and SETPAL write the one item they name. -/
def Obligations.SetflipSetpenSetpal : Prop :=
  (∀ f, Heading (.setflip f) 0x61 .configRun true) ∧
  (∀ g p v, Heading (.setpen g p v) 0x62 .configRun true) ∧
  (∀ n rgb, Heading (.setpal n rgb) 0x63 .configRun true) ∧
  ∀ s : State, configOrRun s →
    (∀ f, exec (.setflip f) s = .next (completed { s with flip := f })) ∧
    (∀ g p v : Word32,
      (g.toNat < s.params.ngroup → p.toNat < s.params.npens → v.toNat < s.params.npal →
        exec (.setpen g p v) s = .next (completed
          { s with lookup := s.lookup.set (g.toNat * s.params.npens + p.toNat) (v.setWidth 16) })) ∧
      (s.params.ngroup ≤ g.toNat ∨ s.params.npens ≤ p.toNat ∨ s.params.npal ≤ v.toNat →
        exec (.setpen g p v) s = .next (refusedWith codeBadParam s))) ∧
    (∀ (n : Word32) (rgb : Rgb),
      (n.toNat < s.params.npal →
        exec (.setpal n rgb) s = .next (completed { s with palette := s.palette.set n.toNat rgb })) ∧
      (s.params.npal ≤ n.toNat → exec (.setpal n rgb) s = .next (refusedWith codeBadParam s)))

/-- R132, R316: the codes of `rk`, and RSTEP. -/
def Obligations.RstepDefinesAStep : Prop :=
  (∀ n rk ra rb rc, Heading (.rstep n rk ra rb rc) 0x64 .configOnly false) ∧
  (renderKindOf 0 = some .fill ∧ renderKindOf 1 = some .layer ∧ renderKindOf 2 = some .sprites ∧
    renderKindOf 3 = none) ∧
  ∀ (n ra rb rc : Word32) (rk : BitVec 2) (s : State), s.phase = .config →
    (s.params.nrstep ≤ n.toNat ∨ (rstepAt s n.toNat).valid = true →
      exec (.rstep n rk ra rb rc) s = .next (configErrorWith codeBadId s)) ∧
    (n.toNat < s.params.nrstep → (rstepAt s n.toNat).valid = false →
      (rk = 3 → exec (.rstep n rk ra rb rc) s = .next (configErrorWith codeBadKind s)) ∧
      (rk = 0 → s.params.ngroup ≤ ra.toNat ∨ s.params.npens ≤ rb.toNat →
        exec (.rstep n rk ra rb rc) s = .next (configErrorWith codeBadParam s)) ∧
      (rk = 1 → layerOk s ra.toNat = false →
        exec (.rstep n rk ra rb rc) s = .next (configErrorWith codeBadId s)) ∧
      (rk = 2 → s.spr.valid = false →
        exec (.rstep n rk ra rb rc) s = .next (configErrorWith codeBadId s)) ∧
      (∀ kd, renderKindOf rk = some kd →
        (kd = .fill ∧ ra.toNat < s.params.ngroup ∧ rb.toNat < s.params.npens ∨
          kd = .layer ∧ layerOk s ra.toNat = true ∨ kd = .sprites ∧ s.spr.valid = true) →
        exec (.rstep n rk ra rb rc) s =
          .next (completed { s with rsteps := s.rsteps.set n.toNat ⟨true, kd, ra, rb, rc⟩ })))

/-! ## Family 7 -/

/-- R330, R331: INPUT loads one input byte, SCRAMBLE answers the scrambled byte. -/
def Obligations.InputAndScramble : Prop :=
  (∀ n v, Heading (.input n v) 0x70 .configRun false) ∧
  (∀ v, Heading (.scramble v) 0x71 .configRun false) ∧
  ∀ (n : Word32) (v : Byte) (s : State), configOrRun s →
    (n.toNat < s.params.nin → exec (.input n v) s = .next (completed { s with inp := s.inp.set n.toNat v })) ∧
    (s.params.nin ≤ n.toNat → exec (.input n v) s = .next (refusedWith codeBadId s)) ∧
    exec (.scramble v) s = .next (completedR0 ((s.params.scr.getD v.toNat 0).setWidth 32) s)

/-- R132, R332: the codes of the save classes, and SAVEREG. -/
def Obligations.SaveregAppendsAnItem : Prop :=
  (∀ cls id, Heading (.savereg cls id) 0x74 .configOnly false) ∧
  (saveClassOf 0 = some .region ∧ saveClassOf 1 = some .bank ∧ saveClassOf 2 = some .scroll ∧
    saveClassOf 3 = some .flip ∧ saveClassOf 4 = some .latches ∧ saveClassOf 5 = some .lines ∧
    saveClassOf 6 = some .palette ∧ saveClassOf 7 = some .lookup ∧
    ∀ cls : Byte, 7 < cls.toNat → saveClassOf cls = none) ∧
  ∀ (cls : Byte) (id : Word32) (s : State), s.phase = .config →
    (7 < cls.toNat → exec (.savereg cls id) s = .next (configErrorWith codeBadKind s)) ∧
    ∀ kd, saveClassOf cls = some kd →
      let exists' : Prop :=
        match kd with
        | .region => regionOk s id.toNat = true
        | .bank => bankOk s id.toNat = true
        | .scroll => layerOk s id.toNat = true
        | .lines => isCpu s id.toNat = true
        | .flip | .latches | .palette | .lookup => True
      let item : SaveItem := ⟨kd, if 3 ≤ cls.toNat ∧ cls.toNat ≠ 5 then 0 else id⟩
      (¬exists' ∨ item ∈ s.save ∨ s.save.length = s.params.nsave →
        exec (.savereg cls id) s = .next (configErrorWith codeBadId s)) ∧
      (exists' → item ∉ s.save → s.save.length ≠ s.params.nsave →
        exec (.savereg cls id) s = .next (completed { s with save := s.save ++ [item] }))

/-- R333, R336, R334: SNAPSHOT answers its payload's length and changes nothing else; the payload has the length the
configuration fixes (its place beside the response is the model's, log 4). RESTORE refuses a payload of another
length, or with an item out of range (a FLIP byte above 1; a LINES state byte with one of bits 7 to 3 set or state
2; a LOOKUP value not below NPAL), writes nothing then, and completes otherwise. R336: the bytes of each item stand
one after the other in registration order, each class in its encoding. -/
def Obligations.SnapshotAnswersAndRestoreRefuses : Prop :=
  (∀ (env : Env) (s : State) (pre post : List SaveItem) (it : SaveItem), s.save = pre ++ it :: post →
     let id := it.id.toNat
     let byteAt (n : Nat) : Option Byte :=
       (snapshotBytes env s)[(pre.map fun x => itemCount s x * itemWidth x.cls).sum + n]?
     match it.cls with
     | .region => itemCount s it * itemWidth it.cls = regionSize s id ∧
         ∀ o, o < regionSize s id → byteAt o = some (readRegion env s id o)
     | .bank => itemCount s it * itemWidth it.cls = 4 ∧
         ∀ b, b < 4 → byteAt b = some ((bankAt s id).offset.extractLsb' (8 * b) 8)
     | .scroll => itemCount s it * itemWidth it.cls = 4 * (layerAt s id).nent.toNat ∧
         ∀ e b, e < (layerAt s id).nent.toNat → b < 2 →
           byteAt (4 * e + b) = some ((scrollAt s id e).dx.extractLsb' (8 * b) 8) ∧
           byteAt (4 * e + 2 + b) = some ((scrollAt s id e).dy.extractLsb' (8 * b) 8)
     | .flip => itemCount s it * itemWidth it.cls = 1 ∧ byteAt 0 = some (if s.flip then 1 else 0)
     | .latches => itemCount s it * itemWidth it.cls = s.params.nlatch ∧
         ∀ n, n < s.params.nlatch → byteAt n = some (s.latch.getD n 0)
     | .lines => itemCount s it * itemWidth it.cls = 2 * s.params.nlineOf id ∧
         ∀ l, l < s.params.nlineOf id →
           let st : BitVec 2 :=
             match (lineAt s id l).st with
             | .idle => 0
             | .pending => 1
             | .acknowledged => 2
             | .asserted => 3
           byteAt (2 * l) = some ((0 : BitVec 5) ++ BitVec.ofBool (lineAt s id l).hasvec ++ st) ∧
           byteAt (2 * l + 1) = some (lineAt s id l).vec
     | .palette => itemCount s it * itemWidth it.cls = 3 * s.params.npal ∧
         ∀ n b, n < s.params.npal → b < 3 → byteAt (3 * n + b) = some ((s.palette.getD n 0).extractLsb' (8 * b) 8)
     | .lookup => itemCount s it * itemWidth it.cls = 2 * s.params.ngroup * s.params.npens ∧
         ∀ g p b, g < s.params.ngroup → p < s.params.npens → b < 2 →
           byteAt (2 * (g * s.params.npens + p) + b) =
             some ((s.lookup.getD (g * s.params.npens + p) 0).extractLsb' (8 * b) 8)) ∧
  (∀ s : State, s.phase = .run →
     exec .snapshot s = .next (completedR0 (BitVec.ofNat 32 (snapshotBytes Config.env s).length)
       { s with payloadOut := snapshotBytes Config.env s }) ∧
     (snapshotBytes Config.env s).length = (s.save.map fun it => itemCount s it * itemWidth it.cls).sum) ∧
  (∀ s : State, s.phase = .run →
     (s.payloadIn.length ≠ snapshotLength s ∨ itemsOk s s.save s.payloadIn = false) →
     exec .restore s = .next (refusedWith codeBadParam s)) ∧
  (∀ s : State, s.phase = .run →
     let byteAt (pre : List SaveItem) (n : Nat) : Nat :=
       (s.payloadIn.getD ((pre.map fun x => itemCount s x * itemWidth x.cls).sum + n) 0).toNat
     let outOfRange : Prop := ∃ pre it post, s.save = pre ++ it :: post ∧
       match it.cls with
       | .flip => 1 < byteAt pre 0
       | .lines => ∃ l, l < s.params.nlineOf it.id.toNat ∧
           (8 ≤ byteAt pre (2 * l) ∨ byteAt pre (2 * l) % 4 = 2)
       | .lookup => ∃ n, n < s.params.ngroup * s.params.npens ∧
           s.params.npal ≤ byteAt pre (2 * n) + 256 * byteAt pre (2 * n + 1)
       | .region | .bank | .scroll | .latches | .palette => False
     let len := (s.save.map fun it => itemCount s it * itemWidth it.cls).sum
     (s.payloadIn.length ≠ len ∨ outOfRange → exec .restore s = .next (refusedWith codeBadParam s)) ∧
     (s.payloadIn.length = len → ¬outOfRange → ∃ t, exec .restore s = .next t ∧ t.status = codeOk))

/-- R334, R335: RESTORE of a payload just taken completes, sets every dirty bit, and changes nothing else that
can be read. R335's property P7: a render right before the snapshot and one right after the restore emit the
same bitmap, where the tile-cache of every layer is coherent as R41 says and the sprite table's region is not
empty (R152). -/
def Obligations.RestoreOfSnapshot : Prop :=
  (∀ s a b c : State, s.phase = .run → Shaped s → linesOk s → lookupOk s →
    (∀ L, layerOk s L = true → cacheCoherent Config.env s L) →
    (s.spr.valid = true → 0 < regionSize s s.spr.region.toNat) →
    exec .render s = .next a → a.status = codeOk →
    exec .snapshot a = .next b → exec .restore { b with payloadIn := b.payloadOut } = .next c →
    ∃ d bitmap, exec .render c = .next d ∧ d.status = codeOk ∧
      a.events.head? = some (.frame bitmap) ∧ d.events.head? = some (.frame bitmap)) ∧
  ∀ s : State, s.phase = .run → Shaped s → linesOk s → lookupOk s →
    s.payloadIn = snapshotBytes Config.env s →
    ∃ t, exec .restore s = .next t ∧
      t = { s with status := codeOk, mem := t.mem, dirty := s.dirty.map fun row => row.map fun _ => true } ∧
      ∀ r o, o < regionSize s r → readRegion Config.env t r o = readRegion Config.env s r o

/-- R334, R336: RESTORE of any payload in range completes and SNAPSHOT then gives that payload; every dirty bit is
set; what no save item names stays, and so does everything of a bank but its offset; and the events are one
IrqLine for each line of a saved item whose activity changed, with its new level (in the model's order, log 29).
The CPUs' record of them is the model's (log 10). -/
def Obligations.SnapshotOfRestore : Prop :=
  ∀ s : State, s.phase = .run → Shaped s → s.payloadIn.length = snapshotLength s →
    itemsOk s s.save s.payloadIn = true →
    ∃ t, exec .restore s = .next t ∧ t.status = codeOk ∧ snapshotBytes Config.env t = s.payloadIn ∧
      t = { s with
        status := codeOk
        mem := t.mem
        banks := t.banks
        scroll := t.scroll
        flip := t.flip
        latch := t.latch
        lines := t.lines
        palette := t.palette
        lookup := t.lookup
        dirty := s.dirty.map fun row => row.map fun _ => true
        events := (restoreNotices s t).reverse ++ s.events
        cpuObs := t.cpuObs } ∧
      (∀ r o, o < 2 ^ 32 → saved s .region r = false →
        readRegion Config.env t r o = readRegion Config.env s r o) ∧
      (∀ b, bankAt t b = { bankAt s b with offset := (bankAt t b).offset }) ∧
      (∀ b, saved s .bank b = false → bankAt t b = bankAt s b) ∧
      (∀ L e, saved s .scroll L = false → scrollAt t L e = scrollAt s L e) ∧
      (∀ c l, saved s .lines c = false → lineAt t c l = lineAt s c l) ∧
      (savedAny s .flip = false → t.flip = s.flip) ∧
      (savedAny s .latches = false → t.latch = s.latch) ∧
      (savedAny s .palette = false → t.palette = s.palette) ∧
      (savedAny s .lookup = false → t.lookup = s.lookup)

/-! ## External handlers, and the order of a frame -/

/-- R181 to R184: an EXT port answers a READ or FETCH with the oracle's byte and serves a WRITE, and the command
list the oracle gives runs with `in_handler` set, in its order, each command to completion; it completes unless
it holds a RUNFRAME, and the first of those ends it as the fatal error Reentry. The oracle's form and its memory
`extMem` are the model's (log 11). -/
def Obligations.ExtPortRunsItsCommands : Prop :=
  (∀ (sp a : Word32) (v : Byte) (s : State) (e : Entry), s.phase = .run → spaceOk s sp.toNat = true →
     let x := a.toNat % 2 ^ (spaceAt s sp.toNat).aw.toNat
     let called (event : ExtEvent) : ExtReply :=
       Config.env.ext (portAt s e.p0.toNat).q0.toNat event { s with inHandler := true }
     let works (event : ExtEvent) : Res Unit :=
       execInternals (called event).cmds { s with inHandler := true, extMem := (called event).mem }
     (portAt s e.p0.toNat).pk = .ext →
     (∀ op : Word32 → Word32 → Instr, (op = .read ∨ op = .fetch) →
       resolveEntry s sp.toNat x servesRead = some e → (e.kind = .readHandler ∨ e.kind = .readWriteHandler) →
       let event := ExtEvent.read x (x - e.start.toNat)
       (∃ t, works event = .ok () t ∧
         exec (op sp a) s = .next (completedR0 ((called event).v.setWidth 32) { t with inHandler := false })) ∨
       (∃ t, works event = .fatal codeReentry t ∧
         exec (op sp a) s = .next { t with status := codeReentry })) ∧
     (resolveEntry s sp.toNat x servesWrite = some e → (e.kind = .writeHandler ∨ e.kind = .readWriteHandler) →
       let event := ExtEvent.write x (x - e.start.toNat) v
       (∃ t, works event = .ok () t ∧
         exec (.write sp a v) s = .next (completed { t with inHandler := false })) ∨
       (∃ t, works event = .fatal codeReentry t ∧
         exec (.write sp a v) s = .next { t with status := codeReentry }))) ∧
  (∀ s : State, execInternals [] s = .ok () s) ∧
  (∀ (cw : CmdWord) (s : State), execInternals [cw] s = execInternal cw s) ∧
  (∀ (pre post : List CmdWord) (s : State),
     execInternals (pre ++ post) s = andThen (execInternals pre s) fun _ t => execInternals post t) ∧
  (∀ (pre post : List CmdWord) (cw : CmdWord) (s : State), (∀ x ∈ pre, opcodeOf x ≠ 0x30) →
     ∃ t, execInternals pre s = .ok () t ∧
       (opcodeOf cw = 0x30 →
         execInternals (pre ++ cw :: post) s = .fatal codeReentry (fatalState codeReentry t)))

/-- R230, R231, R236: a slice gives every CPU its part in ascending handle, then moves the clock to its end and
fires the timers due then; a RUNFRAME runs its slices in order, then renders, then asks each sound device for its
samples, then moves the frame on. A fatal error ends it where it stands. What the cursors `i` and `k` hold while the
timers fire and after a fatal error, and that a fatal error leaves `in_frame` set, is the model's reading of the
rules (log 20). -/
def Obligations.RunframeRunsInOrder : Prop :=
  (∀ (env : Env) (S k : Nat) (cs : List Nat) (s : State), cs.Pairwise (· < ·) →
    (∀ c, c ∈ cs ↔ isCpu s c = true) →
    (∀ t, CpusRun env S k cs s t → slice env S k s =
      endSlice env (s.frameStart + BitVec.ofNat 64 (s.masterHz.toNat / s.frameHz.toNat * (k + 1) / S)) t) ∧
    (∀ pre c post t code u, cs = pre ++ c :: post → CpusRun env S k pre s t →
      sliceCpu env S k c { t with i := BitVec.ofNat 8 c } = .fatal code u →
      slice env S k s = .fatal code u)) ∧
  (∀ s t u : State, s.phase = .run →
    SlicesRun Config.env s.slices.toNat (List.range s.slices.toNat) { s with inFrame := true } t →
    exec .render t = .next u →
    (u.status = codeOk → exec .runframe s = .next (completed { u with
      frameStart := s.frameStart + BitVec.ofNat 64 (s.masterHz.toNat / s.frameHz.toNat)
      frameCount := s.frameCount + 1
      k := 0
      i := 0
      inFrame := false
      events := (soundHandles s).reverse.map (fun d => Event.samples d (s.params.samplesOf d)) ++ u.events })) ∧
    (u.phase = .fatal → exec .runframe s = .next u)) ∧
  (∀ (s t u : State) (k : Nat) (code : Byte), s.phase = .run → k < s.slices.toNat →
    SlicesRun Config.env s.slices.toNat (List.range k) { s with inFrame := true } t →
    slice Config.env s.slices.toNat k { t with k := BitVec.ofNat 16 k } = .fatal code u →
    exec .runframe s = .next { u with status := code })
end

