-- ==== Sys2Proof/Laws/State.lean ====
section
/-! SUPPORT. What each named update of the state does to each field, so that no proof unfolds a record
update. -/

namespace Sys2Proof.Machine

variable (s : State)

/-! ## Updates that are other updates -/

@[simp] theorem soft_eq (code : Byte) (a b : Nat) : soft code a b s = emit (.diag code a b) s := rfl
@[simp] theorem notify_eq (c l : Nat) (level : Bool) :
    notify c l level s = observe c (.irqLine l level) (emit (.irqLine c l level) s) := rfl
@[simp] theorem callSetPc_eq (c : Nat) :
    callSetPc s c = observe c (.setPc (s.params.resetPcOf c)) (emit (.setPc c (s.params.resetPcOf c)) s) := rfl

/-! ## emit -/

@[simp] theorem emit_phase (e : Event) : (emit e s).phase = s.phase := rfl
@[simp] theorem emit_status (e : Event) : (emit e s).status = s.status := rfl
@[simp] theorem emit_r0 (e : Event) : (emit e s).r0 = s.r0 := rfl
@[simp] theorem emit_r1 (e : Event) : (emit e s).r1 = s.r1 := rfl
@[simp] theorem emit_cfgErr (e : Event) : (emit e s).cfgErr = s.cfgErr := rfl
@[simp] theorem emit_fatalCode (e : Event) : (emit e s).fatalCode = s.fatalCode := rfl
@[simp] theorem emit_dev (e : Event) : (emit e s).dev = s.dev := rfl
@[simp] theorem emit_regions (e : Event) : (emit e s).regions = s.regions := rfl
@[simp] theorem emit_mem (e : Event) : (emit e s).mem = s.mem := rfl
@[simp] theorem emit_banks (e : Event) : (emit e s).banks = s.banks := rfl
@[simp] theorem emit_spaces (e : Event) : (emit e s).spaces = s.spaces := rfl
@[simp] theorem emit_entries (e : Event) : (emit e s).entries = s.entries := rfl
@[simp] theorem emit_ports (e : Event) : (emit e s).ports = s.ports := rfl
@[simp] theorem emit_latch (e : Event) : (emit e s).latch = s.latch := rfl
@[simp] theorem emit_inp (e : Event) : (emit e s).inp = s.inp := rfl
@[simp] theorem emit_lines (e : Event) : (emit e s).lines = s.lines := rfl
@[simp] theorem emit_masterHz (e : Event) : (emit e s).masterHz = s.masterHz := rfl
@[simp] theorem emit_frameHz (e : Event) : (emit e s).frameHz = s.frameHz := rfl
@[simp] theorem emit_slices (e : Event) : (emit e s).slices = s.slices := rfl
@[simp] theorem emit_sw (e : Event) : (emit e s).sw = s.sw := rfl
@[simp] theorem emit_sh (e : Event) : (emit e s).sh = s.sh := rfl
@[simp] theorem emit_syscfgDone (e : Event) : (emit e s).syscfgDone = s.syscfgDone := rfl
@[simp] theorem emit_now (e : Event) : (emit e s).now = s.now := rfl
@[simp] theorem emit_frameStart (e : Event) : (emit e s).frameStart = s.frameStart := rfl
@[simp] theorem emit_frameCount (e : Event) : (emit e s).frameCount = s.frameCount := rfl
@[simp] theorem emit_k (e : Event) : (emit e s).k = s.k := rfl
@[simp] theorem emit_i (e : Event) : (emit e s).i = s.i := rfl
@[simp] theorem emit_inFrame (e : Event) : (emit e s).inFrame = s.inFrame := rfl
@[simp] theorem emit_inHandler (e : Event) : (emit e s).inHandler = s.inHandler := rfl
@[simp] theorem emit_carry (e : Event) : (emit e s).carry = s.carry := rfl
@[simp] theorem emit_timers (e : Event) : (emit e s).timers = s.timers := rfl
@[simp] theorem emit_layers (e : Event) : (emit e s).layers = s.layers := rfl
@[simp] theorem emit_scroll (e : Event) : (emit e s).scroll = s.scroll := rfl
@[simp] theorem emit_dirty (e : Event) : (emit e s).dirty = s.dirty := rfl
@[simp] theorem emit_cache (e : Event) : (emit e s).cache = s.cache := rfl
@[simp] theorem emit_spr (e : Event) : (emit e s).spr = s.spr := rfl
@[simp] theorem emit_fb (e : Event) : (emit e s).fb = s.fb := rfl
@[simp] theorem emit_flip (e : Event) : (emit e s).flip = s.flip := rfl
@[simp] theorem emit_palette (e : Event) : (emit e s).palette = s.palette := rfl
@[simp] theorem emit_lookup (e : Event) : (emit e s).lookup = s.lookup := rfl
@[simp] theorem emit_rsteps (e : Event) : (emit e s).rsteps = s.rsteps := rfl
@[simp] theorem emit_save (e : Event) : (emit e s).save = s.save := rfl
@[simp] theorem emit_events (e : Event) : (emit e s).events = e :: s.events := rfl
@[simp] theorem emit_params (e : Event) : (emit e s).params = s.params := rfl
@[simp] theorem emit_inq (e : Event) : (emit e s).inq = s.inq := rfl
@[simp] theorem emit_payloadIn (e : Event) : (emit e s).payloadIn = s.payloadIn := rfl
@[simp] theorem emit_payloadOut (e : Event) : (emit e s).payloadOut = s.payloadOut := rfl
@[simp] theorem emit_freeCtr (e : Event) : (emit e s).freeCtr = s.freeCtr := rfl
@[simp] theorem emit_cpuObs (e : Event) : (emit e s).cpuObs = s.cpuObs := rfl
@[simp] theorem emit_extMem (e : Event) : (emit e s).extMem = s.extMem := rfl

/-! ## observe -/

@[simp] theorem observe_phase (c : Nat) (o : CpuObs) : (observe c o s).phase = s.phase := rfl
@[simp] theorem observe_status (c : Nat) (o : CpuObs) : (observe c o s).status = s.status := rfl
@[simp] theorem observe_r0 (c : Nat) (o : CpuObs) : (observe c o s).r0 = s.r0 := rfl
@[simp] theorem observe_r1 (c : Nat) (o : CpuObs) : (observe c o s).r1 = s.r1 := rfl
@[simp] theorem observe_cfgErr (c : Nat) (o : CpuObs) : (observe c o s).cfgErr = s.cfgErr := rfl
@[simp] theorem observe_fatalCode (c : Nat) (o : CpuObs) : (observe c o s).fatalCode = s.fatalCode := rfl
@[simp] theorem observe_dev (c : Nat) (o : CpuObs) : (observe c o s).dev = s.dev := rfl
@[simp] theorem observe_regions (c : Nat) (o : CpuObs) : (observe c o s).regions = s.regions := rfl
@[simp] theorem observe_mem (c : Nat) (o : CpuObs) : (observe c o s).mem = s.mem := rfl
@[simp] theorem observe_banks (c : Nat) (o : CpuObs) : (observe c o s).banks = s.banks := rfl
@[simp] theorem observe_spaces (c : Nat) (o : CpuObs) : (observe c o s).spaces = s.spaces := rfl
@[simp] theorem observe_entries (c : Nat) (o : CpuObs) : (observe c o s).entries = s.entries := rfl
@[simp] theorem observe_ports (c : Nat) (o : CpuObs) : (observe c o s).ports = s.ports := rfl
@[simp] theorem observe_latch (c : Nat) (o : CpuObs) : (observe c o s).latch = s.latch := rfl
@[simp] theorem observe_inp (c : Nat) (o : CpuObs) : (observe c o s).inp = s.inp := rfl
@[simp] theorem observe_lines (c : Nat) (o : CpuObs) : (observe c o s).lines = s.lines := rfl
@[simp] theorem observe_masterHz (c : Nat) (o : CpuObs) : (observe c o s).masterHz = s.masterHz := rfl
@[simp] theorem observe_frameHz (c : Nat) (o : CpuObs) : (observe c o s).frameHz = s.frameHz := rfl
@[simp] theorem observe_slices (c : Nat) (o : CpuObs) : (observe c o s).slices = s.slices := rfl
@[simp] theorem observe_sw (c : Nat) (o : CpuObs) : (observe c o s).sw = s.sw := rfl
@[simp] theorem observe_sh (c : Nat) (o : CpuObs) : (observe c o s).sh = s.sh := rfl
@[simp] theorem observe_syscfgDone (c : Nat) (o : CpuObs) : (observe c o s).syscfgDone = s.syscfgDone := rfl
@[simp] theorem observe_now (c : Nat) (o : CpuObs) : (observe c o s).now = s.now := rfl
@[simp] theorem observe_frameStart (c : Nat) (o : CpuObs) : (observe c o s).frameStart = s.frameStart := rfl
@[simp] theorem observe_frameCount (c : Nat) (o : CpuObs) : (observe c o s).frameCount = s.frameCount := rfl
@[simp] theorem observe_k (c : Nat) (o : CpuObs) : (observe c o s).k = s.k := rfl
@[simp] theorem observe_i (c : Nat) (o : CpuObs) : (observe c o s).i = s.i := rfl
@[simp] theorem observe_inFrame (c : Nat) (o : CpuObs) : (observe c o s).inFrame = s.inFrame := rfl
@[simp] theorem observe_inHandler (c : Nat) (o : CpuObs) : (observe c o s).inHandler = s.inHandler := rfl
@[simp] theorem observe_carry (c : Nat) (o : CpuObs) : (observe c o s).carry = s.carry := rfl
@[simp] theorem observe_timers (c : Nat) (o : CpuObs) : (observe c o s).timers = s.timers := rfl
@[simp] theorem observe_layers (c : Nat) (o : CpuObs) : (observe c o s).layers = s.layers := rfl
@[simp] theorem observe_scroll (c : Nat) (o : CpuObs) : (observe c o s).scroll = s.scroll := rfl
@[simp] theorem observe_dirty (c : Nat) (o : CpuObs) : (observe c o s).dirty = s.dirty := rfl
@[simp] theorem observe_cache (c : Nat) (o : CpuObs) : (observe c o s).cache = s.cache := rfl
@[simp] theorem observe_spr (c : Nat) (o : CpuObs) : (observe c o s).spr = s.spr := rfl
@[simp] theorem observe_fb (c : Nat) (o : CpuObs) : (observe c o s).fb = s.fb := rfl
@[simp] theorem observe_flip (c : Nat) (o : CpuObs) : (observe c o s).flip = s.flip := rfl
@[simp] theorem observe_palette (c : Nat) (o : CpuObs) : (observe c o s).palette = s.palette := rfl
@[simp] theorem observe_lookup (c : Nat) (o : CpuObs) : (observe c o s).lookup = s.lookup := rfl
@[simp] theorem observe_rsteps (c : Nat) (o : CpuObs) : (observe c o s).rsteps = s.rsteps := rfl
@[simp] theorem observe_save (c : Nat) (o : CpuObs) : (observe c o s).save = s.save := rfl
@[simp] theorem observe_events (c : Nat) (o : CpuObs) : (observe c o s).events = s.events := rfl
@[simp] theorem observe_params (c : Nat) (o : CpuObs) : (observe c o s).params = s.params := rfl
@[simp] theorem observe_inq (c : Nat) (o : CpuObs) : (observe c o s).inq = s.inq := rfl
@[simp] theorem observe_payloadIn (c : Nat) (o : CpuObs) : (observe c o s).payloadIn = s.payloadIn := rfl
@[simp] theorem observe_payloadOut (c : Nat) (o : CpuObs) : (observe c o s).payloadOut = s.payloadOut := rfl
@[simp] theorem observe_freeCtr (c : Nat) (o : CpuObs) : (observe c o s).freeCtr = s.freeCtr := rfl
@[simp] theorem observe_cpuObs (c : Nat) (o : CpuObs) :
    (observe c o s).cpuObs = s.cpuObs.modify c (o :: ·) := rfl
@[simp] theorem observe_extMem (c : Nat) (o : CpuObs) : (observe c o s).extMem = s.extMem := rfl

/-! ## fatalState -/

@[simp] theorem fatalState_phase (code : Byte) : (fatalState code s).phase = .fatal := rfl
@[simp] theorem fatalState_status (code : Byte) : (fatalState code s).status = s.status := rfl
@[simp] theorem fatalState_r0 (code : Byte) : (fatalState code s).r0 = s.r0 := rfl
@[simp] theorem fatalState_r1 (code : Byte) : (fatalState code s).r1 = s.r1 := rfl
@[simp] theorem fatalState_cfgErr (code : Byte) : (fatalState code s).cfgErr = s.cfgErr := rfl
@[simp] theorem fatalState_fatalCode (code : Byte) : (fatalState code s).fatalCode = code := rfl
@[simp] theorem fatalState_dev (code : Byte) : (fatalState code s).dev = s.dev := rfl
@[simp] theorem fatalState_regions (code : Byte) : (fatalState code s).regions = s.regions := rfl
@[simp] theorem fatalState_mem (code : Byte) : (fatalState code s).mem = s.mem := rfl
@[simp] theorem fatalState_banks (code : Byte) : (fatalState code s).banks = s.banks := rfl
@[simp] theorem fatalState_spaces (code : Byte) : (fatalState code s).spaces = s.spaces := rfl
@[simp] theorem fatalState_entries (code : Byte) : (fatalState code s).entries = s.entries := rfl
@[simp] theorem fatalState_ports (code : Byte) : (fatalState code s).ports = s.ports := rfl
@[simp] theorem fatalState_latch (code : Byte) : (fatalState code s).latch = s.latch := rfl
@[simp] theorem fatalState_inp (code : Byte) : (fatalState code s).inp = s.inp := rfl
@[simp] theorem fatalState_lines (code : Byte) : (fatalState code s).lines = s.lines := rfl
@[simp] theorem fatalState_masterHz (code : Byte) : (fatalState code s).masterHz = s.masterHz := rfl
@[simp] theorem fatalState_frameHz (code : Byte) : (fatalState code s).frameHz = s.frameHz := rfl
@[simp] theorem fatalState_slices (code : Byte) : (fatalState code s).slices = s.slices := rfl
@[simp] theorem fatalState_sw (code : Byte) : (fatalState code s).sw = s.sw := rfl
@[simp] theorem fatalState_sh (code : Byte) : (fatalState code s).sh = s.sh := rfl
@[simp] theorem fatalState_syscfgDone (code : Byte) : (fatalState code s).syscfgDone = s.syscfgDone := rfl
@[simp] theorem fatalState_now (code : Byte) : (fatalState code s).now = s.now := rfl
@[simp] theorem fatalState_frameStart (code : Byte) : (fatalState code s).frameStart = s.frameStart := rfl
@[simp] theorem fatalState_frameCount (code : Byte) : (fatalState code s).frameCount = s.frameCount := rfl
@[simp] theorem fatalState_k (code : Byte) : (fatalState code s).k = s.k := rfl
@[simp] theorem fatalState_i (code : Byte) : (fatalState code s).i = s.i := rfl
@[simp] theorem fatalState_inFrame (code : Byte) : (fatalState code s).inFrame = s.inFrame := rfl
@[simp] theorem fatalState_inHandler (code : Byte) : (fatalState code s).inHandler = s.inHandler := rfl
@[simp] theorem fatalState_carry (code : Byte) : (fatalState code s).carry = s.carry := rfl
@[simp] theorem fatalState_timers (code : Byte) : (fatalState code s).timers = s.timers := rfl
@[simp] theorem fatalState_layers (code : Byte) : (fatalState code s).layers = s.layers := rfl
@[simp] theorem fatalState_scroll (code : Byte) : (fatalState code s).scroll = s.scroll := rfl
@[simp] theorem fatalState_dirty (code : Byte) : (fatalState code s).dirty = s.dirty := rfl
@[simp] theorem fatalState_cache (code : Byte) : (fatalState code s).cache = s.cache := rfl
@[simp] theorem fatalState_spr (code : Byte) : (fatalState code s).spr = s.spr := rfl
@[simp] theorem fatalState_fb (code : Byte) : (fatalState code s).fb = s.fb := rfl
@[simp] theorem fatalState_flip (code : Byte) : (fatalState code s).flip = s.flip := rfl
@[simp] theorem fatalState_palette (code : Byte) : (fatalState code s).palette = s.palette := rfl
@[simp] theorem fatalState_lookup (code : Byte) : (fatalState code s).lookup = s.lookup := rfl
@[simp] theorem fatalState_rsteps (code : Byte) : (fatalState code s).rsteps = s.rsteps := rfl
@[simp] theorem fatalState_save (code : Byte) : (fatalState code s).save = s.save := rfl
@[simp] theorem fatalState_events (code : Byte) : (fatalState code s).events = .fatal code :: s.events := rfl
@[simp] theorem fatalState_params (code : Byte) : (fatalState code s).params = s.params := rfl
@[simp] theorem fatalState_inq (code : Byte) : (fatalState code s).inq = s.inq := rfl
@[simp] theorem fatalState_payloadIn (code : Byte) : (fatalState code s).payloadIn = s.payloadIn := rfl
@[simp] theorem fatalState_payloadOut (code : Byte) : (fatalState code s).payloadOut = s.payloadOut := rfl
@[simp] theorem fatalState_freeCtr (code : Byte) : (fatalState code s).freeCtr = s.freeCtr := rfl
@[simp] theorem fatalState_cpuObs (code : Byte) : (fatalState code s).cpuObs = s.cpuObs := rfl
@[simp] theorem fatalState_extMem (code : Byte) : (fatalState code s).extMem = s.extMem := rfl

/-! ## nextDraw -/

@[simp] theorem nextDraw_phase : (nextDraw s).phase = s.phase := rfl
@[simp] theorem nextDraw_status : (nextDraw s).status = s.status := rfl
@[simp] theorem nextDraw_r0 : (nextDraw s).r0 = s.r0 := rfl
@[simp] theorem nextDraw_r1 : (nextDraw s).r1 = s.r1 := rfl
@[simp] theorem nextDraw_cfgErr : (nextDraw s).cfgErr = s.cfgErr := rfl
@[simp] theorem nextDraw_fatalCode : (nextDraw s).fatalCode = s.fatalCode := rfl
@[simp] theorem nextDraw_dev : (nextDraw s).dev = s.dev := rfl
@[simp] theorem nextDraw_regions : (nextDraw s).regions = s.regions := rfl
@[simp] theorem nextDraw_mem : (nextDraw s).mem = s.mem := rfl
@[simp] theorem nextDraw_banks : (nextDraw s).banks = s.banks := rfl
@[simp] theorem nextDraw_spaces : (nextDraw s).spaces = s.spaces := rfl
@[simp] theorem nextDraw_entries : (nextDraw s).entries = s.entries := rfl
@[simp] theorem nextDraw_ports : (nextDraw s).ports = s.ports := rfl
@[simp] theorem nextDraw_latch : (nextDraw s).latch = s.latch := rfl
@[simp] theorem nextDraw_inp : (nextDraw s).inp = s.inp := rfl
@[simp] theorem nextDraw_lines : (nextDraw s).lines = s.lines := rfl
@[simp] theorem nextDraw_masterHz : (nextDraw s).masterHz = s.masterHz := rfl
@[simp] theorem nextDraw_frameHz : (nextDraw s).frameHz = s.frameHz := rfl
@[simp] theorem nextDraw_slices : (nextDraw s).slices = s.slices := rfl
@[simp] theorem nextDraw_sw : (nextDraw s).sw = s.sw := rfl
@[simp] theorem nextDraw_sh : (nextDraw s).sh = s.sh := rfl
@[simp] theorem nextDraw_syscfgDone : (nextDraw s).syscfgDone = s.syscfgDone := rfl
@[simp] theorem nextDraw_now : (nextDraw s).now = s.now := rfl
@[simp] theorem nextDraw_frameStart : (nextDraw s).frameStart = s.frameStart := rfl
@[simp] theorem nextDraw_frameCount : (nextDraw s).frameCount = s.frameCount := rfl
@[simp] theorem nextDraw_k : (nextDraw s).k = s.k := rfl
@[simp] theorem nextDraw_i : (nextDraw s).i = s.i := rfl
@[simp] theorem nextDraw_inFrame : (nextDraw s).inFrame = s.inFrame := rfl
@[simp] theorem nextDraw_inHandler : (nextDraw s).inHandler = s.inHandler := rfl
@[simp] theorem nextDraw_carry : (nextDraw s).carry = s.carry := rfl
@[simp] theorem nextDraw_timers : (nextDraw s).timers = s.timers := rfl
@[simp] theorem nextDraw_layers : (nextDraw s).layers = s.layers := rfl
@[simp] theorem nextDraw_scroll : (nextDraw s).scroll = s.scroll := rfl
@[simp] theorem nextDraw_dirty : (nextDraw s).dirty = s.dirty := rfl
@[simp] theorem nextDraw_cache : (nextDraw s).cache = s.cache := rfl
@[simp] theorem nextDraw_spr : (nextDraw s).spr = s.spr := rfl
@[simp] theorem nextDraw_fb : (nextDraw s).fb = s.fb := rfl
@[simp] theorem nextDraw_flip : (nextDraw s).flip = s.flip := rfl
@[simp] theorem nextDraw_palette : (nextDraw s).palette = s.palette := rfl
@[simp] theorem nextDraw_lookup : (nextDraw s).lookup = s.lookup := rfl
@[simp] theorem nextDraw_rsteps : (nextDraw s).rsteps = s.rsteps := rfl
@[simp] theorem nextDraw_save : (nextDraw s).save = s.save := rfl
@[simp] theorem nextDraw_events : (nextDraw s).events = s.events := rfl
@[simp] theorem nextDraw_params : (nextDraw s).params = s.params := rfl
@[simp] theorem nextDraw_inq : (nextDraw s).inq = s.inq := rfl
@[simp] theorem nextDraw_payloadIn : (nextDraw s).payloadIn = s.payloadIn := rfl
@[simp] theorem nextDraw_payloadOut : (nextDraw s).payloadOut = s.payloadOut := rfl
@[simp] theorem nextDraw_freeCtr : (nextDraw s).freeCtr = s.freeCtr + 1 := rfl
@[simp] theorem nextDraw_cpuObs : (nextDraw s).cpuObs = s.cpuObs := rfl
@[simp] theorem nextDraw_extMem : (nextDraw s).extMem = s.extMem := rfl

/-! ## setDirty -/

@[simp] theorem setDirty_phase (L t : Nat) (b : Bool) : (setDirty L t b s).phase = s.phase := rfl
@[simp] theorem setDirty_status (L t : Nat) (b : Bool) : (setDirty L t b s).status = s.status := rfl
@[simp] theorem setDirty_r0 (L t : Nat) (b : Bool) : (setDirty L t b s).r0 = s.r0 := rfl
@[simp] theorem setDirty_r1 (L t : Nat) (b : Bool) : (setDirty L t b s).r1 = s.r1 := rfl
@[simp] theorem setDirty_cfgErr (L t : Nat) (b : Bool) : (setDirty L t b s).cfgErr = s.cfgErr := rfl
@[simp] theorem setDirty_fatalCode (L t : Nat) (b : Bool) : (setDirty L t b s).fatalCode = s.fatalCode := rfl
@[simp] theorem setDirty_dev (L t : Nat) (b : Bool) : (setDirty L t b s).dev = s.dev := rfl
@[simp] theorem setDirty_regions (L t : Nat) (b : Bool) : (setDirty L t b s).regions = s.regions := rfl
@[simp] theorem setDirty_mem (L t : Nat) (b : Bool) : (setDirty L t b s).mem = s.mem := rfl
@[simp] theorem setDirty_banks (L t : Nat) (b : Bool) : (setDirty L t b s).banks = s.banks := rfl
@[simp] theorem setDirty_spaces (L t : Nat) (b : Bool) : (setDirty L t b s).spaces = s.spaces := rfl
@[simp] theorem setDirty_entries (L t : Nat) (b : Bool) : (setDirty L t b s).entries = s.entries := rfl
@[simp] theorem setDirty_ports (L t : Nat) (b : Bool) : (setDirty L t b s).ports = s.ports := rfl
@[simp] theorem setDirty_latch (L t : Nat) (b : Bool) : (setDirty L t b s).latch = s.latch := rfl
@[simp] theorem setDirty_inp (L t : Nat) (b : Bool) : (setDirty L t b s).inp = s.inp := rfl
@[simp] theorem setDirty_lines (L t : Nat) (b : Bool) : (setDirty L t b s).lines = s.lines := rfl
@[simp] theorem setDirty_masterHz (L t : Nat) (b : Bool) : (setDirty L t b s).masterHz = s.masterHz := rfl
@[simp] theorem setDirty_frameHz (L t : Nat) (b : Bool) : (setDirty L t b s).frameHz = s.frameHz := rfl
@[simp] theorem setDirty_slices (L t : Nat) (b : Bool) : (setDirty L t b s).slices = s.slices := rfl
@[simp] theorem setDirty_sw (L t : Nat) (b : Bool) : (setDirty L t b s).sw = s.sw := rfl
@[simp] theorem setDirty_sh (L t : Nat) (b : Bool) : (setDirty L t b s).sh = s.sh := rfl
@[simp] theorem setDirty_syscfgDone (L t : Nat) (b : Bool) : (setDirty L t b s).syscfgDone = s.syscfgDone := rfl
@[simp] theorem setDirty_now (L t : Nat) (b : Bool) : (setDirty L t b s).now = s.now := rfl
@[simp] theorem setDirty_frameStart (L t : Nat) (b : Bool) : (setDirty L t b s).frameStart = s.frameStart := rfl
@[simp] theorem setDirty_frameCount (L t : Nat) (b : Bool) : (setDirty L t b s).frameCount = s.frameCount := rfl
@[simp] theorem setDirty_k (L t : Nat) (b : Bool) : (setDirty L t b s).k = s.k := rfl
@[simp] theorem setDirty_i (L t : Nat) (b : Bool) : (setDirty L t b s).i = s.i := rfl
@[simp] theorem setDirty_inFrame (L t : Nat) (b : Bool) : (setDirty L t b s).inFrame = s.inFrame := rfl
@[simp] theorem setDirty_inHandler (L t : Nat) (b : Bool) : (setDirty L t b s).inHandler = s.inHandler := rfl
@[simp] theorem setDirty_carry (L t : Nat) (b : Bool) : (setDirty L t b s).carry = s.carry := rfl
@[simp] theorem setDirty_timers (L t : Nat) (b : Bool) : (setDirty L t b s).timers = s.timers := rfl
@[simp] theorem setDirty_layers (L t : Nat) (b : Bool) : (setDirty L t b s).layers = s.layers := rfl
@[simp] theorem setDirty_scroll (L t : Nat) (b : Bool) : (setDirty L t b s).scroll = s.scroll := rfl
@[simp] theorem setDirty_dirty (L t : Nat) (b : Bool) :
    (setDirty L t b s).dirty = s.dirty.modify L fun row => row.set t b := rfl
@[simp] theorem setDirty_cache (L t : Nat) (b : Bool) : (setDirty L t b s).cache = s.cache := rfl
@[simp] theorem setDirty_spr (L t : Nat) (b : Bool) : (setDirty L t b s).spr = s.spr := rfl
@[simp] theorem setDirty_fb (L t : Nat) (b : Bool) : (setDirty L t b s).fb = s.fb := rfl
@[simp] theorem setDirty_flip (L t : Nat) (b : Bool) : (setDirty L t b s).flip = s.flip := rfl
@[simp] theorem setDirty_palette (L t : Nat) (b : Bool) : (setDirty L t b s).palette = s.palette := rfl
@[simp] theorem setDirty_lookup (L t : Nat) (b : Bool) : (setDirty L t b s).lookup = s.lookup := rfl
@[simp] theorem setDirty_rsteps (L t : Nat) (b : Bool) : (setDirty L t b s).rsteps = s.rsteps := rfl
@[simp] theorem setDirty_save (L t : Nat) (b : Bool) : (setDirty L t b s).save = s.save := rfl
@[simp] theorem setDirty_events (L t : Nat) (b : Bool) : (setDirty L t b s).events = s.events := rfl
@[simp] theorem setDirty_params (L t : Nat) (b : Bool) : (setDirty L t b s).params = s.params := rfl
@[simp] theorem setDirty_inq (L t : Nat) (b : Bool) : (setDirty L t b s).inq = s.inq := rfl
@[simp] theorem setDirty_payloadIn (L t : Nat) (b : Bool) : (setDirty L t b s).payloadIn = s.payloadIn := rfl
@[simp] theorem setDirty_payloadOut (L t : Nat) (b : Bool) : (setDirty L t b s).payloadOut = s.payloadOut := rfl
@[simp] theorem setDirty_freeCtr (L t : Nat) (b : Bool) : (setDirty L t b s).freeCtr = s.freeCtr := rfl
@[simp] theorem setDirty_cpuObs (L t : Nat) (b : Bool) : (setDirty L t b s).cpuObs = s.cpuObs := rfl
@[simp] theorem setDirty_extMem (L t : Nat) (b : Bool) : (setDirty L t b s).extMem = s.extMem := rfl

/-! ## allDirty -/

@[simp] theorem allDirty_phase : (allDirty s).phase = s.phase := rfl
@[simp] theorem allDirty_status : (allDirty s).status = s.status := rfl
@[simp] theorem allDirty_r0 : (allDirty s).r0 = s.r0 := rfl
@[simp] theorem allDirty_r1 : (allDirty s).r1 = s.r1 := rfl
@[simp] theorem allDirty_cfgErr : (allDirty s).cfgErr = s.cfgErr := rfl
@[simp] theorem allDirty_fatalCode : (allDirty s).fatalCode = s.fatalCode := rfl
@[simp] theorem allDirty_dev : (allDirty s).dev = s.dev := rfl
@[simp] theorem allDirty_regions : (allDirty s).regions = s.regions := rfl
@[simp] theorem allDirty_mem : (allDirty s).mem = s.mem := rfl
@[simp] theorem allDirty_banks : (allDirty s).banks = s.banks := rfl
@[simp] theorem allDirty_spaces : (allDirty s).spaces = s.spaces := rfl
@[simp] theorem allDirty_entries : (allDirty s).entries = s.entries := rfl
@[simp] theorem allDirty_ports : (allDirty s).ports = s.ports := rfl
@[simp] theorem allDirty_latch : (allDirty s).latch = s.latch := rfl
@[simp] theorem allDirty_inp : (allDirty s).inp = s.inp := rfl
@[simp] theorem allDirty_lines : (allDirty s).lines = s.lines := rfl
@[simp] theorem allDirty_masterHz : (allDirty s).masterHz = s.masterHz := rfl
@[simp] theorem allDirty_frameHz : (allDirty s).frameHz = s.frameHz := rfl
@[simp] theorem allDirty_slices : (allDirty s).slices = s.slices := rfl
@[simp] theorem allDirty_sw : (allDirty s).sw = s.sw := rfl
@[simp] theorem allDirty_sh : (allDirty s).sh = s.sh := rfl
@[simp] theorem allDirty_syscfgDone : (allDirty s).syscfgDone = s.syscfgDone := rfl
@[simp] theorem allDirty_now : (allDirty s).now = s.now := rfl
@[simp] theorem allDirty_frameStart : (allDirty s).frameStart = s.frameStart := rfl
@[simp] theorem allDirty_frameCount : (allDirty s).frameCount = s.frameCount := rfl
@[simp] theorem allDirty_k : (allDirty s).k = s.k := rfl
@[simp] theorem allDirty_i : (allDirty s).i = s.i := rfl
@[simp] theorem allDirty_inFrame : (allDirty s).inFrame = s.inFrame := rfl
@[simp] theorem allDirty_inHandler : (allDirty s).inHandler = s.inHandler := rfl
@[simp] theorem allDirty_carry : (allDirty s).carry = s.carry := rfl
@[simp] theorem allDirty_timers : (allDirty s).timers = s.timers := rfl
@[simp] theorem allDirty_layers : (allDirty s).layers = s.layers := rfl
@[simp] theorem allDirty_scroll : (allDirty s).scroll = s.scroll := rfl
@[simp] theorem allDirty_dirty : (allDirty s).dirty = s.dirty.map fun row => row.map fun _ => true := rfl
@[simp] theorem allDirty_cache : (allDirty s).cache = s.cache := rfl
@[simp] theorem allDirty_spr : (allDirty s).spr = s.spr := rfl
@[simp] theorem allDirty_fb : (allDirty s).fb = s.fb := rfl
@[simp] theorem allDirty_flip : (allDirty s).flip = s.flip := rfl
@[simp] theorem allDirty_palette : (allDirty s).palette = s.palette := rfl
@[simp] theorem allDirty_lookup : (allDirty s).lookup = s.lookup := rfl
@[simp] theorem allDirty_rsteps : (allDirty s).rsteps = s.rsteps := rfl
@[simp] theorem allDirty_save : (allDirty s).save = s.save := rfl
@[simp] theorem allDirty_events : (allDirty s).events = s.events := rfl
@[simp] theorem allDirty_params : (allDirty s).params = s.params := rfl
@[simp] theorem allDirty_inq : (allDirty s).inq = s.inq := rfl
@[simp] theorem allDirty_payloadIn : (allDirty s).payloadIn = s.payloadIn := rfl
@[simp] theorem allDirty_payloadOut : (allDirty s).payloadOut = s.payloadOut := rfl
@[simp] theorem allDirty_freeCtr : (allDirty s).freeCtr = s.freeCtr := rfl
@[simp] theorem allDirty_cpuObs : (allDirty s).cpuObs = s.cpuObs := rfl
@[simp] theorem allDirty_extMem : (allDirty s).extMem = s.extMem := rfl

/-! ## writeRegion -/

@[simp] theorem writeRegion_phase (r o : Nat) (v : Byte) : (writeRegion r o v s).phase = s.phase := rfl
@[simp] theorem writeRegion_status (r o : Nat) (v : Byte) : (writeRegion r o v s).status = s.status := rfl
@[simp] theorem writeRegion_r0 (r o : Nat) (v : Byte) : (writeRegion r o v s).r0 = s.r0 := rfl
@[simp] theorem writeRegion_r1 (r o : Nat) (v : Byte) : (writeRegion r o v s).r1 = s.r1 := rfl
@[simp] theorem writeRegion_cfgErr (r o : Nat) (v : Byte) : (writeRegion r o v s).cfgErr = s.cfgErr := rfl
@[simp] theorem writeRegion_fatalCode (r o : Nat) (v : Byte) :
    (writeRegion r o v s).fatalCode = s.fatalCode := rfl
@[simp] theorem writeRegion_dev (r o : Nat) (v : Byte) : (writeRegion r o v s).dev = s.dev := rfl
@[simp] theorem writeRegion_regions (r o : Nat) (v : Byte) : (writeRegion r o v s).regions = s.regions := rfl
@[simp] theorem writeRegion_mem (r o : Nat) (v : Byte) :
    (writeRegion r o v s).mem = memSet s.mem (memKey r o) v := rfl
@[simp] theorem writeRegion_banks (r o : Nat) (v : Byte) : (writeRegion r o v s).banks = s.banks := rfl
@[simp] theorem writeRegion_spaces (r o : Nat) (v : Byte) : (writeRegion r o v s).spaces = s.spaces := rfl
@[simp] theorem writeRegion_entries (r o : Nat) (v : Byte) : (writeRegion r o v s).entries = s.entries := rfl
@[simp] theorem writeRegion_ports (r o : Nat) (v : Byte) : (writeRegion r o v s).ports = s.ports := rfl
@[simp] theorem writeRegion_latch (r o : Nat) (v : Byte) : (writeRegion r o v s).latch = s.latch := rfl
@[simp] theorem writeRegion_inp (r o : Nat) (v : Byte) : (writeRegion r o v s).inp = s.inp := rfl
@[simp] theorem writeRegion_lines (r o : Nat) (v : Byte) : (writeRegion r o v s).lines = s.lines := rfl
@[simp] theorem writeRegion_masterHz (r o : Nat) (v : Byte) : (writeRegion r o v s).masterHz = s.masterHz := rfl
@[simp] theorem writeRegion_frameHz (r o : Nat) (v : Byte) : (writeRegion r o v s).frameHz = s.frameHz := rfl
@[simp] theorem writeRegion_slices (r o : Nat) (v : Byte) : (writeRegion r o v s).slices = s.slices := rfl
@[simp] theorem writeRegion_sw (r o : Nat) (v : Byte) : (writeRegion r o v s).sw = s.sw := rfl
@[simp] theorem writeRegion_sh (r o : Nat) (v : Byte) : (writeRegion r o v s).sh = s.sh := rfl
@[simp] theorem writeRegion_syscfgDone (r o : Nat) (v : Byte) :
    (writeRegion r o v s).syscfgDone = s.syscfgDone := rfl
@[simp] theorem writeRegion_now (r o : Nat) (v : Byte) : (writeRegion r o v s).now = s.now := rfl
@[simp] theorem writeRegion_frameStart (r o : Nat) (v : Byte) :
    (writeRegion r o v s).frameStart = s.frameStart := rfl
@[simp] theorem writeRegion_frameCount (r o : Nat) (v : Byte) :
    (writeRegion r o v s).frameCount = s.frameCount := rfl
@[simp] theorem writeRegion_k (r o : Nat) (v : Byte) : (writeRegion r o v s).k = s.k := rfl
@[simp] theorem writeRegion_i (r o : Nat) (v : Byte) : (writeRegion r o v s).i = s.i := rfl
@[simp] theorem writeRegion_inFrame (r o : Nat) (v : Byte) : (writeRegion r o v s).inFrame = s.inFrame := rfl
@[simp] theorem writeRegion_inHandler (r o : Nat) (v : Byte) :
    (writeRegion r o v s).inHandler = s.inHandler := rfl
@[simp] theorem writeRegion_carry (r o : Nat) (v : Byte) : (writeRegion r o v s).carry = s.carry := rfl
@[simp] theorem writeRegion_timers (r o : Nat) (v : Byte) : (writeRegion r o v s).timers = s.timers := rfl
@[simp] theorem writeRegion_layers (r o : Nat) (v : Byte) : (writeRegion r o v s).layers = s.layers := rfl
@[simp] theorem writeRegion_scroll (r o : Nat) (v : Byte) : (writeRegion r o v s).scroll = s.scroll := rfl
@[simp] theorem writeRegion_dirty (r o : Nat) (v : Byte) : (writeRegion r o v s).dirty = s.dirty := rfl
@[simp] theorem writeRegion_cache (r o : Nat) (v : Byte) : (writeRegion r o v s).cache = s.cache := rfl
@[simp] theorem writeRegion_spr (r o : Nat) (v : Byte) : (writeRegion r o v s).spr = s.spr := rfl
@[simp] theorem writeRegion_fb (r o : Nat) (v : Byte) : (writeRegion r o v s).fb = s.fb := rfl
@[simp] theorem writeRegion_flip (r o : Nat) (v : Byte) : (writeRegion r o v s).flip = s.flip := rfl
@[simp] theorem writeRegion_palette (r o : Nat) (v : Byte) : (writeRegion r o v s).palette = s.palette := rfl
@[simp] theorem writeRegion_lookup (r o : Nat) (v : Byte) : (writeRegion r o v s).lookup = s.lookup := rfl
@[simp] theorem writeRegion_rsteps (r o : Nat) (v : Byte) : (writeRegion r o v s).rsteps = s.rsteps := rfl
@[simp] theorem writeRegion_save (r o : Nat) (v : Byte) : (writeRegion r o v s).save = s.save := rfl
@[simp] theorem writeRegion_events (r o : Nat) (v : Byte) : (writeRegion r o v s).events = s.events := rfl
@[simp] theorem writeRegion_params (r o : Nat) (v : Byte) : (writeRegion r o v s).params = s.params := rfl
@[simp] theorem writeRegion_inq (r o : Nat) (v : Byte) : (writeRegion r o v s).inq = s.inq := rfl
@[simp] theorem writeRegion_payloadIn (r o : Nat) (v : Byte) :
    (writeRegion r o v s).payloadIn = s.payloadIn := rfl
@[simp] theorem writeRegion_payloadOut (r o : Nat) (v : Byte) :
    (writeRegion r o v s).payloadOut = s.payloadOut := rfl
@[simp] theorem writeRegion_freeCtr (r o : Nat) (v : Byte) : (writeRegion r o v s).freeCtr = s.freeCtr := rfl
@[simp] theorem writeRegion_cpuObs (r o : Nat) (v : Byte) : (writeRegion r o v s).cpuObs = s.cpuObs := rfl
@[simp] theorem writeRegion_extMem (r o : Nat) (v : Byte) : (writeRegion r o v s).extMem = s.extMem := rfl

/-! ## setBankOffset -/

@[simp] theorem setBankOffset_phase (b : Nat) (off : Word32) : (setBankOffset b off s).phase = s.phase := rfl
@[simp] theorem setBankOffset_status (b : Nat) (off : Word32) : (setBankOffset b off s).status = s.status := rfl
@[simp] theorem setBankOffset_r0 (b : Nat) (off : Word32) : (setBankOffset b off s).r0 = s.r0 := rfl
@[simp] theorem setBankOffset_r1 (b : Nat) (off : Word32) : (setBankOffset b off s).r1 = s.r1 := rfl
@[simp] theorem setBankOffset_cfgErr (b : Nat) (off : Word32) : (setBankOffset b off s).cfgErr = s.cfgErr := rfl
@[simp] theorem setBankOffset_fatalCode (b : Nat) (off : Word32) :
    (setBankOffset b off s).fatalCode = s.fatalCode := rfl
@[simp] theorem setBankOffset_dev (b : Nat) (off : Word32) : (setBankOffset b off s).dev = s.dev := rfl
@[simp] theorem setBankOffset_regions (b : Nat) (off : Word32) :
    (setBankOffset b off s).regions = s.regions := rfl
@[simp] theorem setBankOffset_mem (b : Nat) (off : Word32) : (setBankOffset b off s).mem = s.mem := rfl
@[simp] theorem setBankOffset_banks (b : Nat) (off : Word32) :
    (setBankOffset b off s).banks = s.banks.modify b fun bk => { bk with offset := off } := rfl
@[simp] theorem setBankOffset_spaces (b : Nat) (off : Word32) : (setBankOffset b off s).spaces = s.spaces := rfl
@[simp] theorem setBankOffset_entries (b : Nat) (off : Word32) :
    (setBankOffset b off s).entries = s.entries := rfl
@[simp] theorem setBankOffset_ports (b : Nat) (off : Word32) : (setBankOffset b off s).ports = s.ports := rfl
@[simp] theorem setBankOffset_latch (b : Nat) (off : Word32) : (setBankOffset b off s).latch = s.latch := rfl
@[simp] theorem setBankOffset_inp (b : Nat) (off : Word32) : (setBankOffset b off s).inp = s.inp := rfl
@[simp] theorem setBankOffset_lines (b : Nat) (off : Word32) : (setBankOffset b off s).lines = s.lines := rfl
@[simp] theorem setBankOffset_masterHz (b : Nat) (off : Word32) :
    (setBankOffset b off s).masterHz = s.masterHz := rfl
@[simp] theorem setBankOffset_frameHz (b : Nat) (off : Word32) :
    (setBankOffset b off s).frameHz = s.frameHz := rfl
@[simp] theorem setBankOffset_slices (b : Nat) (off : Word32) : (setBankOffset b off s).slices = s.slices := rfl
@[simp] theorem setBankOffset_sw (b : Nat) (off : Word32) : (setBankOffset b off s).sw = s.sw := rfl
@[simp] theorem setBankOffset_sh (b : Nat) (off : Word32) : (setBankOffset b off s).sh = s.sh := rfl
@[simp] theorem setBankOffset_syscfgDone (b : Nat) (off : Word32) :
    (setBankOffset b off s).syscfgDone = s.syscfgDone := rfl
@[simp] theorem setBankOffset_now (b : Nat) (off : Word32) : (setBankOffset b off s).now = s.now := rfl
@[simp] theorem setBankOffset_frameStart (b : Nat) (off : Word32) :
    (setBankOffset b off s).frameStart = s.frameStart := rfl
@[simp] theorem setBankOffset_frameCount (b : Nat) (off : Word32) :
    (setBankOffset b off s).frameCount = s.frameCount := rfl
@[simp] theorem setBankOffset_k (b : Nat) (off : Word32) : (setBankOffset b off s).k = s.k := rfl
@[simp] theorem setBankOffset_i (b : Nat) (off : Word32) : (setBankOffset b off s).i = s.i := rfl
@[simp] theorem setBankOffset_inFrame (b : Nat) (off : Word32) :
    (setBankOffset b off s).inFrame = s.inFrame := rfl
@[simp] theorem setBankOffset_inHandler (b : Nat) (off : Word32) :
    (setBankOffset b off s).inHandler = s.inHandler := rfl
@[simp] theorem setBankOffset_carry (b : Nat) (off : Word32) : (setBankOffset b off s).carry = s.carry := rfl
@[simp] theorem setBankOffset_timers (b : Nat) (off : Word32) : (setBankOffset b off s).timers = s.timers := rfl
@[simp] theorem setBankOffset_layers (b : Nat) (off : Word32) : (setBankOffset b off s).layers = s.layers := rfl
@[simp] theorem setBankOffset_scroll (b : Nat) (off : Word32) : (setBankOffset b off s).scroll = s.scroll := rfl
@[simp] theorem setBankOffset_dirty (b : Nat) (off : Word32) : (setBankOffset b off s).dirty = s.dirty := rfl
@[simp] theorem setBankOffset_cache (b : Nat) (off : Word32) : (setBankOffset b off s).cache = s.cache := rfl
@[simp] theorem setBankOffset_spr (b : Nat) (off : Word32) : (setBankOffset b off s).spr = s.spr := rfl
@[simp] theorem setBankOffset_fb (b : Nat) (off : Word32) : (setBankOffset b off s).fb = s.fb := rfl
@[simp] theorem setBankOffset_flip (b : Nat) (off : Word32) : (setBankOffset b off s).flip = s.flip := rfl
@[simp] theorem setBankOffset_palette (b : Nat) (off : Word32) :
    (setBankOffset b off s).palette = s.palette := rfl
@[simp] theorem setBankOffset_lookup (b : Nat) (off : Word32) : (setBankOffset b off s).lookup = s.lookup := rfl
@[simp] theorem setBankOffset_rsteps (b : Nat) (off : Word32) : (setBankOffset b off s).rsteps = s.rsteps := rfl
@[simp] theorem setBankOffset_save (b : Nat) (off : Word32) : (setBankOffset b off s).save = s.save := rfl
@[simp] theorem setBankOffset_events (b : Nat) (off : Word32) : (setBankOffset b off s).events = s.events := rfl
@[simp] theorem setBankOffset_params (b : Nat) (off : Word32) : (setBankOffset b off s).params = s.params := rfl
@[simp] theorem setBankOffset_inq (b : Nat) (off : Word32) : (setBankOffset b off s).inq = s.inq := rfl
@[simp] theorem setBankOffset_payloadIn (b : Nat) (off : Word32) :
    (setBankOffset b off s).payloadIn = s.payloadIn := rfl
@[simp] theorem setBankOffset_payloadOut (b : Nat) (off : Word32) :
    (setBankOffset b off s).payloadOut = s.payloadOut := rfl
@[simp] theorem setBankOffset_freeCtr (b : Nat) (off : Word32) :
    (setBankOffset b off s).freeCtr = s.freeCtr := rfl
@[simp] theorem setBankOffset_cpuObs (b : Nat) (off : Word32) : (setBankOffset b off s).cpuObs = s.cpuObs := rfl
@[simp] theorem setBankOffset_extMem (b : Nat) (off : Word32) : (setBankOffset b off s).extMem = s.extMem := rfl

/-! ## setScrollEntry -/

@[simp] theorem setScrollEntry_phase (L e : Nat) (v : Scroll) : (setScrollEntry L e v s).phase = s.phase := rfl
@[simp] theorem setScrollEntry_status (L e : Nat) (v : Scroll) :
    (setScrollEntry L e v s).status = s.status := rfl
@[simp] theorem setScrollEntry_r0 (L e : Nat) (v : Scroll) : (setScrollEntry L e v s).r0 = s.r0 := rfl
@[simp] theorem setScrollEntry_r1 (L e : Nat) (v : Scroll) : (setScrollEntry L e v s).r1 = s.r1 := rfl
@[simp] theorem setScrollEntry_cfgErr (L e : Nat) (v : Scroll) :
    (setScrollEntry L e v s).cfgErr = s.cfgErr := rfl
@[simp] theorem setScrollEntry_fatalCode (L e : Nat) (v : Scroll) :
    (setScrollEntry L e v s).fatalCode = s.fatalCode := rfl
@[simp] theorem setScrollEntry_dev (L e : Nat) (v : Scroll) : (setScrollEntry L e v s).dev = s.dev := rfl
@[simp] theorem setScrollEntry_regions (L e : Nat) (v : Scroll) :
    (setScrollEntry L e v s).regions = s.regions := rfl
@[simp] theorem setScrollEntry_mem (L e : Nat) (v : Scroll) : (setScrollEntry L e v s).mem = s.mem := rfl
@[simp] theorem setScrollEntry_banks (L e : Nat) (v : Scroll) : (setScrollEntry L e v s).banks = s.banks := rfl
@[simp] theorem setScrollEntry_spaces (L e : Nat) (v : Scroll) :
    (setScrollEntry L e v s).spaces = s.spaces := rfl
@[simp] theorem setScrollEntry_entries (L e : Nat) (v : Scroll) :
    (setScrollEntry L e v s).entries = s.entries := rfl
@[simp] theorem setScrollEntry_ports (L e : Nat) (v : Scroll) : (setScrollEntry L e v s).ports = s.ports := rfl
@[simp] theorem setScrollEntry_latch (L e : Nat) (v : Scroll) : (setScrollEntry L e v s).latch = s.latch := rfl
@[simp] theorem setScrollEntry_inp (L e : Nat) (v : Scroll) : (setScrollEntry L e v s).inp = s.inp := rfl
@[simp] theorem setScrollEntry_lines (L e : Nat) (v : Scroll) : (setScrollEntry L e v s).lines = s.lines := rfl
@[simp] theorem setScrollEntry_masterHz (L e : Nat) (v : Scroll) :
    (setScrollEntry L e v s).masterHz = s.masterHz := rfl
@[simp] theorem setScrollEntry_frameHz (L e : Nat) (v : Scroll) :
    (setScrollEntry L e v s).frameHz = s.frameHz := rfl
@[simp] theorem setScrollEntry_slices (L e : Nat) (v : Scroll) :
    (setScrollEntry L e v s).slices = s.slices := rfl
@[simp] theorem setScrollEntry_sw (L e : Nat) (v : Scroll) : (setScrollEntry L e v s).sw = s.sw := rfl
@[simp] theorem setScrollEntry_sh (L e : Nat) (v : Scroll) : (setScrollEntry L e v s).sh = s.sh := rfl
@[simp] theorem setScrollEntry_syscfgDone (L e : Nat) (v : Scroll) :
    (setScrollEntry L e v s).syscfgDone = s.syscfgDone := rfl
@[simp] theorem setScrollEntry_now (L e : Nat) (v : Scroll) : (setScrollEntry L e v s).now = s.now := rfl
@[simp] theorem setScrollEntry_frameStart (L e : Nat) (v : Scroll) :
    (setScrollEntry L e v s).frameStart = s.frameStart := rfl
@[simp] theorem setScrollEntry_frameCount (L e : Nat) (v : Scroll) :
    (setScrollEntry L e v s).frameCount = s.frameCount := rfl
@[simp] theorem setScrollEntry_k (L e : Nat) (v : Scroll) : (setScrollEntry L e v s).k = s.k := rfl
@[simp] theorem setScrollEntry_i (L e : Nat) (v : Scroll) : (setScrollEntry L e v s).i = s.i := rfl
@[simp] theorem setScrollEntry_inFrame (L e : Nat) (v : Scroll) :
    (setScrollEntry L e v s).inFrame = s.inFrame := rfl
@[simp] theorem setScrollEntry_inHandler (L e : Nat) (v : Scroll) :
    (setScrollEntry L e v s).inHandler = s.inHandler := rfl
@[simp] theorem setScrollEntry_carry (L e : Nat) (v : Scroll) : (setScrollEntry L e v s).carry = s.carry := rfl
@[simp] theorem setScrollEntry_timers (L e : Nat) (v : Scroll) :
    (setScrollEntry L e v s).timers = s.timers := rfl
@[simp] theorem setScrollEntry_layers (L e : Nat) (v : Scroll) :
    (setScrollEntry L e v s).layers = s.layers := rfl
@[simp] theorem setScrollEntry_scroll (L e : Nat) (v : Scroll) :
    (setScrollEntry L e v s).scroll = s.scroll.modify L fun row => row.set e v := rfl
@[simp] theorem setScrollEntry_dirty (L e : Nat) (v : Scroll) : (setScrollEntry L e v s).dirty = s.dirty := rfl
@[simp] theorem setScrollEntry_cache (L e : Nat) (v : Scroll) : (setScrollEntry L e v s).cache = s.cache := rfl
@[simp] theorem setScrollEntry_spr (L e : Nat) (v : Scroll) : (setScrollEntry L e v s).spr = s.spr := rfl
@[simp] theorem setScrollEntry_fb (L e : Nat) (v : Scroll) : (setScrollEntry L e v s).fb = s.fb := rfl
@[simp] theorem setScrollEntry_flip (L e : Nat) (v : Scroll) : (setScrollEntry L e v s).flip = s.flip := rfl
@[simp] theorem setScrollEntry_palette (L e : Nat) (v : Scroll) :
    (setScrollEntry L e v s).palette = s.palette := rfl
@[simp] theorem setScrollEntry_lookup (L e : Nat) (v : Scroll) :
    (setScrollEntry L e v s).lookup = s.lookup := rfl
@[simp] theorem setScrollEntry_rsteps (L e : Nat) (v : Scroll) :
    (setScrollEntry L e v s).rsteps = s.rsteps := rfl
@[simp] theorem setScrollEntry_save (L e : Nat) (v : Scroll) : (setScrollEntry L e v s).save = s.save := rfl
@[simp] theorem setScrollEntry_events (L e : Nat) (v : Scroll) :
    (setScrollEntry L e v s).events = s.events := rfl
@[simp] theorem setScrollEntry_params (L e : Nat) (v : Scroll) :
    (setScrollEntry L e v s).params = s.params := rfl
@[simp] theorem setScrollEntry_inq (L e : Nat) (v : Scroll) : (setScrollEntry L e v s).inq = s.inq := rfl
@[simp] theorem setScrollEntry_payloadIn (L e : Nat) (v : Scroll) :
    (setScrollEntry L e v s).payloadIn = s.payloadIn := rfl
@[simp] theorem setScrollEntry_payloadOut (L e : Nat) (v : Scroll) :
    (setScrollEntry L e v s).payloadOut = s.payloadOut := rfl
@[simp] theorem setScrollEntry_freeCtr (L e : Nat) (v : Scroll) :
    (setScrollEntry L e v s).freeCtr = s.freeCtr := rfl
@[simp] theorem setScrollEntry_cpuObs (L e : Nat) (v : Scroll) :
    (setScrollEntry L e v s).cpuObs = s.cpuObs := rfl
@[simp] theorem setScrollEntry_extMem (L e : Nat) (v : Scroll) :
    (setScrollEntry L e v s).extMem = s.extMem := rfl

/-! ## setLatch -/

@[simp] theorem setLatch_phase (n : Nat) (w : Byte) : (setLatch n w s).phase = s.phase := rfl
@[simp] theorem setLatch_status (n : Nat) (w : Byte) : (setLatch n w s).status = s.status := rfl
@[simp] theorem setLatch_r0 (n : Nat) (w : Byte) : (setLatch n w s).r0 = s.r0 := rfl
@[simp] theorem setLatch_r1 (n : Nat) (w : Byte) : (setLatch n w s).r1 = s.r1 := rfl
@[simp] theorem setLatch_cfgErr (n : Nat) (w : Byte) : (setLatch n w s).cfgErr = s.cfgErr := rfl
@[simp] theorem setLatch_fatalCode (n : Nat) (w : Byte) : (setLatch n w s).fatalCode = s.fatalCode := rfl
@[simp] theorem setLatch_dev (n : Nat) (w : Byte) : (setLatch n w s).dev = s.dev := rfl
@[simp] theorem setLatch_regions (n : Nat) (w : Byte) : (setLatch n w s).regions = s.regions := rfl
@[simp] theorem setLatch_mem (n : Nat) (w : Byte) : (setLatch n w s).mem = s.mem := rfl
@[simp] theorem setLatch_banks (n : Nat) (w : Byte) : (setLatch n w s).banks = s.banks := rfl
@[simp] theorem setLatch_spaces (n : Nat) (w : Byte) : (setLatch n w s).spaces = s.spaces := rfl
@[simp] theorem setLatch_entries (n : Nat) (w : Byte) : (setLatch n w s).entries = s.entries := rfl
@[simp] theorem setLatch_ports (n : Nat) (w : Byte) : (setLatch n w s).ports = s.ports := rfl
@[simp] theorem setLatch_latch (n : Nat) (w : Byte) : (setLatch n w s).latch = s.latch.set n w := rfl
@[simp] theorem setLatch_inp (n : Nat) (w : Byte) : (setLatch n w s).inp = s.inp := rfl
@[simp] theorem setLatch_lines (n : Nat) (w : Byte) : (setLatch n w s).lines = s.lines := rfl
@[simp] theorem setLatch_masterHz (n : Nat) (w : Byte) : (setLatch n w s).masterHz = s.masterHz := rfl
@[simp] theorem setLatch_frameHz (n : Nat) (w : Byte) : (setLatch n w s).frameHz = s.frameHz := rfl
@[simp] theorem setLatch_slices (n : Nat) (w : Byte) : (setLatch n w s).slices = s.slices := rfl
@[simp] theorem setLatch_sw (n : Nat) (w : Byte) : (setLatch n w s).sw = s.sw := rfl
@[simp] theorem setLatch_sh (n : Nat) (w : Byte) : (setLatch n w s).sh = s.sh := rfl
@[simp] theorem setLatch_syscfgDone (n : Nat) (w : Byte) : (setLatch n w s).syscfgDone = s.syscfgDone := rfl
@[simp] theorem setLatch_now (n : Nat) (w : Byte) : (setLatch n w s).now = s.now := rfl
@[simp] theorem setLatch_frameStart (n : Nat) (w : Byte) : (setLatch n w s).frameStart = s.frameStart := rfl
@[simp] theorem setLatch_frameCount (n : Nat) (w : Byte) : (setLatch n w s).frameCount = s.frameCount := rfl
@[simp] theorem setLatch_k (n : Nat) (w : Byte) : (setLatch n w s).k = s.k := rfl
@[simp] theorem setLatch_i (n : Nat) (w : Byte) : (setLatch n w s).i = s.i := rfl
@[simp] theorem setLatch_inFrame (n : Nat) (w : Byte) : (setLatch n w s).inFrame = s.inFrame := rfl
@[simp] theorem setLatch_inHandler (n : Nat) (w : Byte) : (setLatch n w s).inHandler = s.inHandler := rfl
@[simp] theorem setLatch_carry (n : Nat) (w : Byte) : (setLatch n w s).carry = s.carry := rfl
@[simp] theorem setLatch_timers (n : Nat) (w : Byte) : (setLatch n w s).timers = s.timers := rfl
@[simp] theorem setLatch_layers (n : Nat) (w : Byte) : (setLatch n w s).layers = s.layers := rfl
@[simp] theorem setLatch_scroll (n : Nat) (w : Byte) : (setLatch n w s).scroll = s.scroll := rfl
@[simp] theorem setLatch_dirty (n : Nat) (w : Byte) : (setLatch n w s).dirty = s.dirty := rfl
@[simp] theorem setLatch_cache (n : Nat) (w : Byte) : (setLatch n w s).cache = s.cache := rfl
@[simp] theorem setLatch_spr (n : Nat) (w : Byte) : (setLatch n w s).spr = s.spr := rfl
@[simp] theorem setLatch_fb (n : Nat) (w : Byte) : (setLatch n w s).fb = s.fb := rfl
@[simp] theorem setLatch_flip (n : Nat) (w : Byte) : (setLatch n w s).flip = s.flip := rfl
@[simp] theorem setLatch_palette (n : Nat) (w : Byte) : (setLatch n w s).palette = s.palette := rfl
@[simp] theorem setLatch_lookup (n : Nat) (w : Byte) : (setLatch n w s).lookup = s.lookup := rfl
@[simp] theorem setLatch_rsteps (n : Nat) (w : Byte) : (setLatch n w s).rsteps = s.rsteps := rfl
@[simp] theorem setLatch_save (n : Nat) (w : Byte) : (setLatch n w s).save = s.save := rfl
@[simp] theorem setLatch_events (n : Nat) (w : Byte) : (setLatch n w s).events = s.events := rfl
@[simp] theorem setLatch_params (n : Nat) (w : Byte) : (setLatch n w s).params = s.params := rfl
@[simp] theorem setLatch_inq (n : Nat) (w : Byte) : (setLatch n w s).inq = s.inq := rfl
@[simp] theorem setLatch_payloadIn (n : Nat) (w : Byte) : (setLatch n w s).payloadIn = s.payloadIn := rfl
@[simp] theorem setLatch_payloadOut (n : Nat) (w : Byte) : (setLatch n w s).payloadOut = s.payloadOut := rfl
@[simp] theorem setLatch_freeCtr (n : Nat) (w : Byte) : (setLatch n w s).freeCtr = s.freeCtr := rfl
@[simp] theorem setLatch_cpuObs (n : Nat) (w : Byte) : (setLatch n w s).cpuObs = s.cpuObs := rfl
@[simp] theorem setLatch_extMem (n : Nat) (w : Byte) : (setLatch n w s).extMem = s.extMem := rfl

/-! ## setCache -/

@[simp] theorem setCache_phase (L t : Nat) (tl : Tile) : (setCache L t tl s).phase = s.phase := rfl
@[simp] theorem setCache_status (L t : Nat) (tl : Tile) : (setCache L t tl s).status = s.status := rfl
@[simp] theorem setCache_r0 (L t : Nat) (tl : Tile) : (setCache L t tl s).r0 = s.r0 := rfl
@[simp] theorem setCache_r1 (L t : Nat) (tl : Tile) : (setCache L t tl s).r1 = s.r1 := rfl
@[simp] theorem setCache_cfgErr (L t : Nat) (tl : Tile) : (setCache L t tl s).cfgErr = s.cfgErr := rfl
@[simp] theorem setCache_fatalCode (L t : Nat) (tl : Tile) : (setCache L t tl s).fatalCode = s.fatalCode := rfl
@[simp] theorem setCache_dev (L t : Nat) (tl : Tile) : (setCache L t tl s).dev = s.dev := rfl
@[simp] theorem setCache_regions (L t : Nat) (tl : Tile) : (setCache L t tl s).regions = s.regions := rfl
@[simp] theorem setCache_mem (L t : Nat) (tl : Tile) : (setCache L t tl s).mem = s.mem := rfl
@[simp] theorem setCache_banks (L t : Nat) (tl : Tile) : (setCache L t tl s).banks = s.banks := rfl
@[simp] theorem setCache_spaces (L t : Nat) (tl : Tile) : (setCache L t tl s).spaces = s.spaces := rfl
@[simp] theorem setCache_entries (L t : Nat) (tl : Tile) : (setCache L t tl s).entries = s.entries := rfl
@[simp] theorem setCache_ports (L t : Nat) (tl : Tile) : (setCache L t tl s).ports = s.ports := rfl
@[simp] theorem setCache_latch (L t : Nat) (tl : Tile) : (setCache L t tl s).latch = s.latch := rfl
@[simp] theorem setCache_inp (L t : Nat) (tl : Tile) : (setCache L t tl s).inp = s.inp := rfl
@[simp] theorem setCache_lines (L t : Nat) (tl : Tile) : (setCache L t tl s).lines = s.lines := rfl
@[simp] theorem setCache_masterHz (L t : Nat) (tl : Tile) : (setCache L t tl s).masterHz = s.masterHz := rfl
@[simp] theorem setCache_frameHz (L t : Nat) (tl : Tile) : (setCache L t tl s).frameHz = s.frameHz := rfl
@[simp] theorem setCache_slices (L t : Nat) (tl : Tile) : (setCache L t tl s).slices = s.slices := rfl
@[simp] theorem setCache_sw (L t : Nat) (tl : Tile) : (setCache L t tl s).sw = s.sw := rfl
@[simp] theorem setCache_sh (L t : Nat) (tl : Tile) : (setCache L t tl s).sh = s.sh := rfl
@[simp] theorem setCache_syscfgDone (L t : Nat) (tl : Tile) :
    (setCache L t tl s).syscfgDone = s.syscfgDone := rfl
@[simp] theorem setCache_now (L t : Nat) (tl : Tile) : (setCache L t tl s).now = s.now := rfl
@[simp] theorem setCache_frameStart (L t : Nat) (tl : Tile) :
    (setCache L t tl s).frameStart = s.frameStart := rfl
@[simp] theorem setCache_frameCount (L t : Nat) (tl : Tile) :
    (setCache L t tl s).frameCount = s.frameCount := rfl
@[simp] theorem setCache_k (L t : Nat) (tl : Tile) : (setCache L t tl s).k = s.k := rfl
@[simp] theorem setCache_i (L t : Nat) (tl : Tile) : (setCache L t tl s).i = s.i := rfl
@[simp] theorem setCache_inFrame (L t : Nat) (tl : Tile) : (setCache L t tl s).inFrame = s.inFrame := rfl
@[simp] theorem setCache_inHandler (L t : Nat) (tl : Tile) : (setCache L t tl s).inHandler = s.inHandler := rfl
@[simp] theorem setCache_carry (L t : Nat) (tl : Tile) : (setCache L t tl s).carry = s.carry := rfl
@[simp] theorem setCache_timers (L t : Nat) (tl : Tile) : (setCache L t tl s).timers = s.timers := rfl
@[simp] theorem setCache_layers (L t : Nat) (tl : Tile) : (setCache L t tl s).layers = s.layers := rfl
@[simp] theorem setCache_scroll (L t : Nat) (tl : Tile) : (setCache L t tl s).scroll = s.scroll := rfl
@[simp] theorem setCache_dirty (L t : Nat) (tl : Tile) : (setCache L t tl s).dirty = s.dirty := rfl
@[simp] theorem setCache_cache (L t : Nat) (tl : Tile) :
    (setCache L t tl s).cache = s.cache.modify L fun row => row.set t tl := rfl
@[simp] theorem setCache_spr (L t : Nat) (tl : Tile) : (setCache L t tl s).spr = s.spr := rfl
@[simp] theorem setCache_fb (L t : Nat) (tl : Tile) : (setCache L t tl s).fb = s.fb := rfl
@[simp] theorem setCache_flip (L t : Nat) (tl : Tile) : (setCache L t tl s).flip = s.flip := rfl
@[simp] theorem setCache_palette (L t : Nat) (tl : Tile) : (setCache L t tl s).palette = s.palette := rfl
@[simp] theorem setCache_lookup (L t : Nat) (tl : Tile) : (setCache L t tl s).lookup = s.lookup := rfl
@[simp] theorem setCache_rsteps (L t : Nat) (tl : Tile) : (setCache L t tl s).rsteps = s.rsteps := rfl
@[simp] theorem setCache_save (L t : Nat) (tl : Tile) : (setCache L t tl s).save = s.save := rfl
@[simp] theorem setCache_events (L t : Nat) (tl : Tile) : (setCache L t tl s).events = s.events := rfl
@[simp] theorem setCache_params (L t : Nat) (tl : Tile) : (setCache L t tl s).params = s.params := rfl
@[simp] theorem setCache_inq (L t : Nat) (tl : Tile) : (setCache L t tl s).inq = s.inq := rfl
@[simp] theorem setCache_payloadIn (L t : Nat) (tl : Tile) : (setCache L t tl s).payloadIn = s.payloadIn := rfl
@[simp] theorem setCache_payloadOut (L t : Nat) (tl : Tile) :
    (setCache L t tl s).payloadOut = s.payloadOut := rfl
@[simp] theorem setCache_freeCtr (L t : Nat) (tl : Tile) : (setCache L t tl s).freeCtr = s.freeCtr := rfl
@[simp] theorem setCache_cpuObs (L t : Nat) (tl : Tile) : (setCache L t tl s).cpuObs = s.cpuObs := rfl
@[simp] theorem setCache_extMem (L t : Nat) (tl : Tile) : (setCache L t tl s).extMem = s.extMem := rfl

/-! ## setCarry -/

@[simp] theorem setCarry_phase (c v : Nat) : (setCarry c v s).phase = s.phase := rfl
@[simp] theorem setCarry_status (c v : Nat) : (setCarry c v s).status = s.status := rfl
@[simp] theorem setCarry_r0 (c v : Nat) : (setCarry c v s).r0 = s.r0 := rfl
@[simp] theorem setCarry_r1 (c v : Nat) : (setCarry c v s).r1 = s.r1 := rfl
@[simp] theorem setCarry_cfgErr (c v : Nat) : (setCarry c v s).cfgErr = s.cfgErr := rfl
@[simp] theorem setCarry_fatalCode (c v : Nat) : (setCarry c v s).fatalCode = s.fatalCode := rfl
@[simp] theorem setCarry_dev (c v : Nat) : (setCarry c v s).dev = s.dev := rfl
@[simp] theorem setCarry_regions (c v : Nat) : (setCarry c v s).regions = s.regions := rfl
@[simp] theorem setCarry_mem (c v : Nat) : (setCarry c v s).mem = s.mem := rfl
@[simp] theorem setCarry_banks (c v : Nat) : (setCarry c v s).banks = s.banks := rfl
@[simp] theorem setCarry_spaces (c v : Nat) : (setCarry c v s).spaces = s.spaces := rfl
@[simp] theorem setCarry_entries (c v : Nat) : (setCarry c v s).entries = s.entries := rfl
@[simp] theorem setCarry_ports (c v : Nat) : (setCarry c v s).ports = s.ports := rfl
@[simp] theorem setCarry_latch (c v : Nat) : (setCarry c v s).latch = s.latch := rfl
@[simp] theorem setCarry_inp (c v : Nat) : (setCarry c v s).inp = s.inp := rfl
@[simp] theorem setCarry_lines (c v : Nat) : (setCarry c v s).lines = s.lines := rfl
@[simp] theorem setCarry_masterHz (c v : Nat) : (setCarry c v s).masterHz = s.masterHz := rfl
@[simp] theorem setCarry_frameHz (c v : Nat) : (setCarry c v s).frameHz = s.frameHz := rfl
@[simp] theorem setCarry_slices (c v : Nat) : (setCarry c v s).slices = s.slices := rfl
@[simp] theorem setCarry_sw (c v : Nat) : (setCarry c v s).sw = s.sw := rfl
@[simp] theorem setCarry_sh (c v : Nat) : (setCarry c v s).sh = s.sh := rfl
@[simp] theorem setCarry_syscfgDone (c v : Nat) : (setCarry c v s).syscfgDone = s.syscfgDone := rfl
@[simp] theorem setCarry_now (c v : Nat) : (setCarry c v s).now = s.now := rfl
@[simp] theorem setCarry_frameStart (c v : Nat) : (setCarry c v s).frameStart = s.frameStart := rfl
@[simp] theorem setCarry_frameCount (c v : Nat) : (setCarry c v s).frameCount = s.frameCount := rfl
@[simp] theorem setCarry_k (c v : Nat) : (setCarry c v s).k = s.k := rfl
@[simp] theorem setCarry_i (c v : Nat) : (setCarry c v s).i = s.i := rfl
@[simp] theorem setCarry_inFrame (c v : Nat) : (setCarry c v s).inFrame = s.inFrame := rfl
@[simp] theorem setCarry_inHandler (c v : Nat) : (setCarry c v s).inHandler = s.inHandler := rfl
@[simp] theorem setCarry_carry (c v : Nat) : (setCarry c v s).carry = s.carry.set c (BitVec.ofNat 32 v) := rfl
@[simp] theorem setCarry_timers (c v : Nat) : (setCarry c v s).timers = s.timers := rfl
@[simp] theorem setCarry_layers (c v : Nat) : (setCarry c v s).layers = s.layers := rfl
@[simp] theorem setCarry_scroll (c v : Nat) : (setCarry c v s).scroll = s.scroll := rfl
@[simp] theorem setCarry_dirty (c v : Nat) : (setCarry c v s).dirty = s.dirty := rfl
@[simp] theorem setCarry_cache (c v : Nat) : (setCarry c v s).cache = s.cache := rfl
@[simp] theorem setCarry_spr (c v : Nat) : (setCarry c v s).spr = s.spr := rfl
@[simp] theorem setCarry_fb (c v : Nat) : (setCarry c v s).fb = s.fb := rfl
@[simp] theorem setCarry_flip (c v : Nat) : (setCarry c v s).flip = s.flip := rfl
@[simp] theorem setCarry_palette (c v : Nat) : (setCarry c v s).palette = s.palette := rfl
@[simp] theorem setCarry_lookup (c v : Nat) : (setCarry c v s).lookup = s.lookup := rfl
@[simp] theorem setCarry_rsteps (c v : Nat) : (setCarry c v s).rsteps = s.rsteps := rfl
@[simp] theorem setCarry_save (c v : Nat) : (setCarry c v s).save = s.save := rfl
@[simp] theorem setCarry_events (c v : Nat) : (setCarry c v s).events = s.events := rfl
@[simp] theorem setCarry_params (c v : Nat) : (setCarry c v s).params = s.params := rfl
@[simp] theorem setCarry_inq (c v : Nat) : (setCarry c v s).inq = s.inq := rfl
@[simp] theorem setCarry_payloadIn (c v : Nat) : (setCarry c v s).payloadIn = s.payloadIn := rfl
@[simp] theorem setCarry_payloadOut (c v : Nat) : (setCarry c v s).payloadOut = s.payloadOut := rfl
@[simp] theorem setCarry_freeCtr (c v : Nat) : (setCarry c v s).freeCtr = s.freeCtr := rfl
@[simp] theorem setCarry_cpuObs (c v : Nat) : (setCarry c v s).cpuObs = s.cpuObs := rfl
@[simp] theorem setCarry_extMem (c v : Nat) : (setCarry c v s).extMem = s.extMem := rfl

/-! ## paint -/

@[simp] theorem paint_phase (clip : Clip) (pic : Nat → Nat → Option Pixel) :
    (paint clip pic s).phase = s.phase := rfl
@[simp] theorem paint_status (clip : Clip) (pic : Nat → Nat → Option Pixel) :
    (paint clip pic s).status = s.status := rfl
@[simp] theorem paint_r0 (clip : Clip) (pic : Nat → Nat → Option Pixel) : (paint clip pic s).r0 = s.r0 := rfl
@[simp] theorem paint_r1 (clip : Clip) (pic : Nat → Nat → Option Pixel) : (paint clip pic s).r1 = s.r1 := rfl
@[simp] theorem paint_cfgErr (clip : Clip) (pic : Nat → Nat → Option Pixel) :
    (paint clip pic s).cfgErr = s.cfgErr := rfl
@[simp] theorem paint_fatalCode (clip : Clip) (pic : Nat → Nat → Option Pixel) :
    (paint clip pic s).fatalCode = s.fatalCode := rfl
@[simp] theorem paint_dev (clip : Clip) (pic : Nat → Nat → Option Pixel) : (paint clip pic s).dev = s.dev := rfl
@[simp] theorem paint_regions (clip : Clip) (pic : Nat → Nat → Option Pixel) :
    (paint clip pic s).regions = s.regions := rfl
@[simp] theorem paint_mem (clip : Clip) (pic : Nat → Nat → Option Pixel) : (paint clip pic s).mem = s.mem := rfl
@[simp] theorem paint_banks (clip : Clip) (pic : Nat → Nat → Option Pixel) :
    (paint clip pic s).banks = s.banks := rfl
@[simp] theorem paint_spaces (clip : Clip) (pic : Nat → Nat → Option Pixel) :
    (paint clip pic s).spaces = s.spaces := rfl
@[simp] theorem paint_entries (clip : Clip) (pic : Nat → Nat → Option Pixel) :
    (paint clip pic s).entries = s.entries := rfl
@[simp] theorem paint_ports (clip : Clip) (pic : Nat → Nat → Option Pixel) :
    (paint clip pic s).ports = s.ports := rfl
@[simp] theorem paint_latch (clip : Clip) (pic : Nat → Nat → Option Pixel) :
    (paint clip pic s).latch = s.latch := rfl
@[simp] theorem paint_inp (clip : Clip) (pic : Nat → Nat → Option Pixel) : (paint clip pic s).inp = s.inp := rfl
@[simp] theorem paint_lines (clip : Clip) (pic : Nat → Nat → Option Pixel) :
    (paint clip pic s).lines = s.lines := rfl
@[simp] theorem paint_masterHz (clip : Clip) (pic : Nat → Nat → Option Pixel) :
    (paint clip pic s).masterHz = s.masterHz := rfl
@[simp] theorem paint_frameHz (clip : Clip) (pic : Nat → Nat → Option Pixel) :
    (paint clip pic s).frameHz = s.frameHz := rfl
@[simp] theorem paint_slices (clip : Clip) (pic : Nat → Nat → Option Pixel) :
    (paint clip pic s).slices = s.slices := rfl
@[simp] theorem paint_sw (clip : Clip) (pic : Nat → Nat → Option Pixel) : (paint clip pic s).sw = s.sw := rfl
@[simp] theorem paint_sh (clip : Clip) (pic : Nat → Nat → Option Pixel) : (paint clip pic s).sh = s.sh := rfl
@[simp] theorem paint_syscfgDone (clip : Clip) (pic : Nat → Nat → Option Pixel) :
    (paint clip pic s).syscfgDone = s.syscfgDone := rfl
@[simp] theorem paint_now (clip : Clip) (pic : Nat → Nat → Option Pixel) : (paint clip pic s).now = s.now := rfl
@[simp] theorem paint_frameStart (clip : Clip) (pic : Nat → Nat → Option Pixel) :
    (paint clip pic s).frameStart = s.frameStart := rfl
@[simp] theorem paint_frameCount (clip : Clip) (pic : Nat → Nat → Option Pixel) :
    (paint clip pic s).frameCount = s.frameCount := rfl
@[simp] theorem paint_k (clip : Clip) (pic : Nat → Nat → Option Pixel) : (paint clip pic s).k = s.k := rfl
@[simp] theorem paint_i (clip : Clip) (pic : Nat → Nat → Option Pixel) : (paint clip pic s).i = s.i := rfl
@[simp] theorem paint_inFrame (clip : Clip) (pic : Nat → Nat → Option Pixel) :
    (paint clip pic s).inFrame = s.inFrame := rfl
@[simp] theorem paint_inHandler (clip : Clip) (pic : Nat → Nat → Option Pixel) :
    (paint clip pic s).inHandler = s.inHandler := rfl
@[simp] theorem paint_carry (clip : Clip) (pic : Nat → Nat → Option Pixel) :
    (paint clip pic s).carry = s.carry := rfl
@[simp] theorem paint_timers (clip : Clip) (pic : Nat → Nat → Option Pixel) :
    (paint clip pic s).timers = s.timers := rfl
@[simp] theorem paint_layers (clip : Clip) (pic : Nat → Nat → Option Pixel) :
    (paint clip pic s).layers = s.layers := rfl
@[simp] theorem paint_scroll (clip : Clip) (pic : Nat → Nat → Option Pixel) :
    (paint clip pic s).scroll = s.scroll := rfl
@[simp] theorem paint_dirty (clip : Clip) (pic : Nat → Nat → Option Pixel) :
    (paint clip pic s).dirty = s.dirty := rfl
@[simp] theorem paint_cache (clip : Clip) (pic : Nat → Nat → Option Pixel) :
    (paint clip pic s).cache = s.cache := rfl
@[simp] theorem paint_spr (clip : Clip) (pic : Nat → Nat → Option Pixel) : (paint clip pic s).spr = s.spr := rfl
@[simp] theorem paint_fb (clip : Clip) (pic : Nat → Nat → Option Pixel) :
    (paint clip pic s).fb = s.fb.mapIdx fun n px =>
      if clipHas clip (n % s.sw.toNat) (n / s.sw.toNat) then
        (pic (n % s.sw.toNat) (n / s.sw.toNat)).getD px
      else px := rfl
@[simp] theorem paint_flip (clip : Clip) (pic : Nat → Nat → Option Pixel) :
    (paint clip pic s).flip = s.flip := rfl
@[simp] theorem paint_palette (clip : Clip) (pic : Nat → Nat → Option Pixel) :
    (paint clip pic s).palette = s.palette := rfl
@[simp] theorem paint_lookup (clip : Clip) (pic : Nat → Nat → Option Pixel) :
    (paint clip pic s).lookup = s.lookup := rfl
@[simp] theorem paint_rsteps (clip : Clip) (pic : Nat → Nat → Option Pixel) :
    (paint clip pic s).rsteps = s.rsteps := rfl
@[simp] theorem paint_save (clip : Clip) (pic : Nat → Nat → Option Pixel) :
    (paint clip pic s).save = s.save := rfl
@[simp] theorem paint_events (clip : Clip) (pic : Nat → Nat → Option Pixel) :
    (paint clip pic s).events = s.events := rfl
@[simp] theorem paint_params (clip : Clip) (pic : Nat → Nat → Option Pixel) :
    (paint clip pic s).params = s.params := rfl
@[simp] theorem paint_inq (clip : Clip) (pic : Nat → Nat → Option Pixel) : (paint clip pic s).inq = s.inq := rfl
@[simp] theorem paint_payloadIn (clip : Clip) (pic : Nat → Nat → Option Pixel) :
    (paint clip pic s).payloadIn = s.payloadIn := rfl
@[simp] theorem paint_payloadOut (clip : Clip) (pic : Nat → Nat → Option Pixel) :
    (paint clip pic s).payloadOut = s.payloadOut := rfl
@[simp] theorem paint_freeCtr (clip : Clip) (pic : Nat → Nat → Option Pixel) :
    (paint clip pic s).freeCtr = s.freeCtr := rfl
@[simp] theorem paint_cpuObs (clip : Clip) (pic : Nat → Nat → Option Pixel) :
    (paint clip pic s).cpuObs = s.cpuObs := rfl
@[simp] theorem paint_extMem (clip : Clip) (pic : Nat → Nat → Option Pixel) :
    (paint clip pic s).extMem = s.extMem := rfl

end Sys2Proof.Machine
end

