-- ==== Sys2Proof/Laws/Ops.lean ====
section
/-! SUPPORT. What each shared operation can do, once. -/

namespace Sys2Proof.Machine

variable {α β : Type}

/-! ## Parts of a command -/

@[simp] theorem andThen_ok (v : α) (s : State) (f : α → State → Res β) : andThen (.ok v s) f = f v s := rfl
@[simp] theorem andThen_config (code : Byte) (f : α → State → Res β) : andThen (.config code) f = .config code := rfl
@[simp] theorem andThen_refuse (code : Byte) (f : α → State → Res β) : andThen (.refuse code) f = .refuse code := rfl
@[simp] theorem andThen_fatal (code : Byte) (s : State) (f : α → State → Res β) :
    andThen (.fatal code s) f = .fatal code s := rfl

/-- Two parts complete exactly when the first does and the second does after it. -/
theorem andThen_eq_ok {x : Res α} {f : α → State → Res β} {v : β} {t : State} :
    andThen x f = .ok v t ↔ ∃ w u, x = .ok w u ∧ f w u = .ok v t := by
  cases x <;> simp

/-- Two parts end in a fatal error exactly when the first does, or the second after it. -/
theorem andThen_eq_fatal {x : Res α} {f : α → State → Res β} {code : Byte} {t : State} :
    andThen x f = .fatal code t ↔ x = .fatal code t ∨ ∃ w u, x = .ok w u ∧ f w u = .fatal code t := by
  cases x <;> simp

/-! ## How a host command ends -/

@[simp] theorem endCommand_ok (s t : State) (a : Answer) :
    endCommand s (.ok a t) = { t with status := codeOk, r0 := a.r0.getD t.r0, r1 := a.r1.getD t.r1 } := rfl
@[simp] theorem endCommand_done (s t : State) : endCommand s (done t) = { t with status := codeOk } := rfl
@[simp] theorem endCommand_doneR0 (s t : State) (v : Word32) :
    endCommand s (doneR0 v t) = { t with status := codeOk, r0 := v } := rfl
@[simp] theorem endCommand_doneR01 (s t : State) (v w : Word32) :
    endCommand s (doneR01 v w t) = { t with status := codeOk, r0 := v, r1 := w } := rfl
@[simp] theorem endCommand_config (s : State) (code : Byte) :
    endCommand s (.config code) = { s with cfgErr := if s.cfgErr = 0 then code else s.cfgErr, status := code } := rfl
@[simp] theorem endCommand_refuse (s : State) (code : Byte) :
    endCommand s (.refuse code) = { s with status := code } := rfl
@[simp] theorem endCommand_fatal (s t : State) (code : Byte) :
    endCommand s (.fatal code t) = { t with status := code } := rfl

/-- In a phase it is legal in, a host command is its body (30_encoding R124). -/
theorem hostCommand_legal {legal : Legality} {s : State} (body : State → Res Answer)
    (h : legalIn legal s.phase = true) : hostCommand legal body s = endCommand s (body s) := by
  unfold hostCommand
  cases hp : s.phase
  · rw [hp] at h; simp [h]
  · rw [hp] at h; simp [h]
  · rw [hp] at h; simp [h]
  · rw [hp] at h; cases legal <;> simp [legalIn] at h

/-- What a host command can do: it is turned away with STATUS only, or its body runs in a phase it is legal
in (30_encoding R124, 60_exceptions R355). -/
theorem hostCommand_cases (legal : Legality) (body : State → Res Answer) (s : State) :
    (∃ code, hostCommand legal body s = { s with status := code }) ∨
      (legalIn legal s.phase = true ∧ hostCommand legal body s = endCommand s (body s)) := by
  by_cases h : legalIn legal s.phase = true
  · exact .inr ⟨h, hostCommand_legal body h⟩
  · left
    unfold hostCommand
    cases hp : s.phase <;> simp only [hp] at h ⊢
    · exact ⟨_, if_neg h⟩
    · exact ⟨_, if_neg h⟩
    · exact ⟨_, if_neg h⟩
    · exact ⟨_, rfl⟩

theorem rejectIllegal_cases (s : State) : ∃ code, rejectIllegal s = { s with status := code } := by
  unfold rejectIllegal; cases s.phase <;> exact ⟨_, rfl⟩

/-- A phase-`run` command may run in Run only. -/
theorem legalIn_runOnly {p : Phase} : legalIn .runOnly p = true ↔ p = .run := by cases p <;> simp [legalIn]

/-- A Config-only command may run in Config only. -/
theorem legalIn_configOnly {p : Phase} : legalIn .configOnly p = true ↔ p = .config := by
  cases p <;> simp [legalIn]

/-- A Config-and-Run command may run in those two. -/
theorem legalIn_configRun {p : Phase} : legalIn .configRun p = true ↔ p = .config ∨ p = .run := by
  cases p <;> simp [legalIn]

/-- TEARDOWN may run until the block is Down. -/
theorem legalIn_untilDown {p : Phase} : legalIn .untilDown p = true ↔ p ≠ .down := by
  cases p <;> simp [legalIn]

/-! ## Lines -/

/-- Storing a line writes it, and at most emits one notification and records it (42_interrupt R204, R207). -/
theorem putLine_cases (c l : Nat) (ln : Line) (s : State) :
    putLine c l ln s = { s with lines := s.lines.modify c fun row => row.set l ln } ∨
      ∃ level, lineLevel (lineAt s c l).st ln.st = some level ∧
        putLine c l ln s = notify c l level { s with lines := s.lines.modify c fun row => row.set l ln } := by
  unfold putLine
  cases h : lineLevel (lineAt s c l).st ln.st
  · exact .inl rfl
  · exact .inr ⟨_, rfl, rfl⟩

@[simp] theorem putLine_lines (c l : Nat) (ln : Line) (s : State) :
    (putLine c l ln s).lines = s.lines.modify c fun row => row.set l ln := by
  unfold putLine; split <;> rfl

/-- An acknowledge is refused, finds no active line, or takes one (42_interrupt R203). -/
theorem acknowledge_cases (env : Env) (c : Nat) (s : State) :
    (isCpu s c = false ∧ acknowledge env c s = .refuse codeBadId) ∨
    (isCpu s c = true ∧ selectLine s c = none ∧ acknowledge env c s = .ok (s.params.openBus, 0x100) s) ∨
    ∃ l, isCpu s c = true ∧ selectLine s c = some l ∧
      acknowledge env c s = .ok (vectorByte env s c l, BitVec.ofNat 32 l)
        (emit (.ack c l (vectorByte env s c l)) (putLine c l (acknowledgedLine (lineAt s c l)) s)) := by
  unfold acknowledge
  cases h : isCpu s c
  · exact .inl ⟨rfl, rfl⟩
  · cases h2 : selectLine s c
    · exact .inr (.inl ⟨rfl, rfl, rfl⟩)
    · exact .inr (.inr ⟨_, rfl, rfl, rfl⟩)

/-- The line an acknowledge takes exists and is active (42_interrupt R203). -/
theorem selectLine_active {s : State} {c l : Nat} (h : selectLine s c = some l) :
    l < s.params.nlineOf c ∧ lineActive s c l = true := by
  have := List.find?_some h
  simpa using this

/-! ## Resolution -/

/-- A resolved entry is registered, covers the address and serves the direction (20_memory R83). -/
theorem resolveEntry_some {s : State} {sp a : Nat} {serves : AccessKind → Bool} {e : Entry}
    (h : resolveEntry s sp a serves = some e) : e ∈ s.entries ∧ covers e sp a = true ∧ serves e.kind = true := by
  have h1 := List.find?_some h
  have h2 := List.mem_of_find?_eq_some h
  simp only [Bool.and_eq_true] at h1
  exact ⟨by simpa using h2, h1⟩

/-- The last registered entry wins (20_memory R83). -/
theorem resolveEntry_last {s : State} {sp a : Nat} {serves : AccessKind → Bool} (l r : List Entry) (e : Entry)
    (hs : s.entries = l ++ e :: r) (he : covers e sp a = true ∧ serves e.kind = true)
    (hr : ∀ x ∈ r, (covers x sp a && serves x.kind) = false) : resolveEntry s sp a serves = some e := by
  unfold resolveEntry
  rw [hs, List.reverse_append, List.reverse_cons, List.append_assoc, List.find?_append]
  have : (r.reverse).find? (fun e => covers e sp a && serves e.kind) = none :=
    List.find?_eq_none.2 fun x hx => by simpa using hr x (List.mem_reverse.1 hx)
  rw [this]
  simp [he.1, he.2]

/-! ## Index reduction -/

/-- A reduced index is in range (44_tilemap R269). -/
theorem reduceIndex_lt (policy : OorPolicy) (v : Nat) {n : Nat} (h : 0 < n) : reduceIndex policy v n < n := by
  unfold reduceIndex
  split_ifs with hv
  · exact hv
  · cases policy
    · exact Nat.mod_lt _ h
    · simp only; omega

/-- An index in range stays as it is (44_tilemap R269). -/
theorem reduceIndex_of_lt (policy : OorPolicy) {v n : Nat} (h : v < n) : reduceIndex policy v n = v := if_pos h

/-- The index diagnostic is one event at most. -/
theorem noteIndex_cases (v n : Nat) (s : State) :
    noteIndex v n s = s ∨ noteIndex v n s = emit (.diag codeIndexOutOfRange v n) s := by
  unfold noteIndex; split_ifs
  · exact .inl rfl
  · exact .inr rfl

/-! ## Timers -/

theorem earliest_none {s : State} {ns : List Nat} (h : earliest s ns = none) : ns = [] := by
  cases ns with
  | nil => rfl
  | cons a ns =>
    simp only [earliest] at h
    split at h
    · cases h
    · split_ifs at h

/-- The earliest of a list of slots is one of them, and none of the list is earlier (43_scheduler R235). -/
theorem earliest_some {s : State} {ns : List Nat} {n : Nat} (h : earliest s ns = some n) :
    n ∈ ns ∧ ∀ m ∈ ns, (timerAt s n).deadline.toNat ≤ (timerAt s m).deadline.toNat := by
  induction ns generalizing n with
  | nil => simp [earliest] at h
  | cons a ns ih =>
    simp only [earliest] at h
    split at h
    · next h1 => cases earliest_none h1; cases h; simp
    · next m h1 =>
      obtain ⟨hm, hle⟩ := ih h1
      split_ifs at h with hc
      · cases h
        refine ⟨by simp, fun x hx => ?_⟩
        rcases List.mem_cons.1 hx with rfl | hx
        · exact le_rfl
        · exact le_trans hc (hle x hx)
      · cases h
        refine ⟨by simp [hm], fun x hx => ?_⟩
        rcases List.mem_cons.1 hx with rfl | hx
        · omega
        · exact hle x hx

end Sys2Proof.Machine
end

