-- ==== Sys2Proof/Laws/Kept.lean ====
section
/-! SUPPORT. Everything a step can do, once: a relation between states that holds across each primitive update
and composes holds across every step. An invariant P is the relation "P before gives P after"; a frame is the
relation "this field is the same". -/

namespace Sys2Proof.Machine

/-- A relation that composes and holds across every primitive update the work nested inside a command can
make. The guards say what is known where the update is made. -/
structure Kept (env : Env) (R : State → State → Prop) : Prop where
  refl : ∀ s, R s s
  trans : ∀ s t u, R s t → R t u → R s u
  emit : ∀ s e, R s (emit e s)
  observe : ∀ s c o, R s (observe c o s)
  line : ∀ s c l ln, (ln.st = .acknowledged → (lineAt s c l).st = .acknowledged) →
    R s { s with lines := s.lines.modify c fun row => row.set l ln }
  byte : ∀ s r o v, R s (writeRegion r o v s)
  bank : ∀ s b off, R s (setBankOffset b off s)
  scroll : ∀ s L e v, R s (setScrollEntry L e v s)
  latch : ∀ s n w, R s (setLatch n w s)
  flip : ∀ s b, R s { s with flip := b }
  palette : ∀ s n rgb, R s { s with palette := s.palette.set n rgb }
  lookup : ∀ s n (v : Word16), v.toNat < s.params.npal → R s { s with lookup := s.lookup.set n v }
  timer : ∀ s n T, R s { s with timers := s.timers.set n T }
  dirty : ∀ s L t b, R s (setDirty L t b s)
  cell : ∀ s L t tl, R s (setCache L t tl s)
  fb : ∀ s fb, fb.length = s.fb.length → R s { s with fb := fb }
  inHandler : ∀ s b, R s { s with inHandler := b }
  ext : ∀ s n, R s { s with extMem := n }
  now : ∀ s v, R s { s with now := v }
  cursorI : ∀ s v, R s { s with i := v }
  cursorK : ∀ s v, R s { s with k := v }
  carry : ∀ s c v, R s (setCarry c v s)
  inFrame : ∀ s b, R s { s with inFrame := b }
  endFrame : ∀ s, R s (endFrame s)
  fatal : ∀ s code, s.phase = .run → R s (fatalState code s)

/-- A part of a command keeps R: it completes in a related state of the same phase, or it ends in a fatal
error in a related state, or it wrote nothing. -/
def Res.Keeps {α : Type} (R : State → State → Prop) (s : State) : Res α → Prop
  | .ok _ t => R s t ∧ t.phase = s.phase
  | .config _ => True
  | .refuse _ => True
  | .fatal _ t => R s t

namespace Kept

variable {env : Env} {R : State → State → Prop} {α β : Type}

/-! ## Composition -/

theorem ok_self (K : Kept env R) (s : State) (v : α) : (Res.ok v s).Keeps R s := ⟨K.refl s, rfl⟩

theorem after (K : Kept env R) {s t : State} {x : Res α} (h : R s t) (hp : t.phase = s.phase)
    (hx : x.Keeps R t) : x.Keeps R s := by
  cases x with
  | ok v u => exact ⟨K.trans _ _ _ h hx.1, hx.2.trans hp⟩
  | config => trivial
  | refuse => trivial
  | fatal code u => exact K.trans _ _ _ h hx

theorem seq (K : Kept env R) {s : State} {x : Res α} {f : α → State → Res β} (hx : x.Keeps R s)
    (hf : ∀ v t, t.phase = s.phase → (f v t).Keeps R t) : (andThen x f).Keeps R s := by
  cases x with
  | ok v t => exact K.after hx.1 hx.2 (hf v t hx.2)
  | config => trivial
  | refuse => trivial
  | fatal code u => exact hx

theorem raise (K : Kept env R) {s : State} (hs : s.phase = .run) (code : Byte) :
    (raiseFatal (α := α) code s).Keeps R s := K.fatal s code hs

/-! ## Small updates -/

theorem noteIndex (K : Kept env R) (v n : Nat) (s : State) :
    R s (noteIndex v n s) ∧ (Machine.noteIndex v n s).phase = s.phase := by
  rcases noteIndex_cases v n s with h | h <;> rw [h]
  · exact ⟨K.refl s, rfl⟩
  · exact ⟨K.emit s _, rfl⟩

theorem putLine (K : Kept env R) (c l : Nat) (ln : Line) (s : State)
    (h : ln.st = .acknowledged → (lineAt s c l).st = .acknowledged) :
    R s (putLine c l ln s) ∧ (Machine.putLine c l ln s).phase = s.phase := by
  rcases putLine_cases c l ln s with h1 | ⟨level, -, h1⟩ <;> rw [h1]
  · exact ⟨K.line s c l ln h, rfl⟩
  · exact ⟨K.trans _ _ _ (K.line s c l ln h) (K.trans _ _ _ (K.emit _ _) (K.observe _ _ _)), rfl⟩

/-- Folding a kept update over a list is kept. -/
theorem foldl (K : Kept env R) {f : State → α → State} (hf : ∀ s a, R s (f s a) ∧ (f s a).phase = s.phase)
    (l : List α) (s : State) : R s (l.foldl f s) ∧ (l.foldl f s).phase = s.phase := by
  induction l generalizing s with
  | nil => exact ⟨K.refl s, rfl⟩
  | cons a l ih =>
    have h1 := hf s a
    have h2 := ih (f s a)
    exact ⟨K.trans _ _ _ h1.1 h2.1, h2.2.trans h1.2⟩

theorem paint (K : Kept env R) (clip : Clip) (pic : Nat → Nat → Option Pixel) (s : State) :
    R s (paint clip pic s) := K.fb s _ (by simp)

/-! ## The commands that handlers may issue -/

theorem setbank (K : Kept env R) (b off : Word32) (s : State) : (setbankBody b off s).Keeps R s := by
  unfold setbankBody; split_ifs
  · trivial
  · exact ⟨K.bank _ _ _, rfl⟩

theorem poke (K : Kept env R) (r o : Word32) (v : Byte) (s : State) : (pokeBody r o v s).Keeps R s := by
  unfold pokeBody; split_ifs
  · trivial
  · trivial
  · exact ⟨K.byte _ _ _ _, rfl⟩

theorem assert (K : Kept env R) (c l : Word32) (v : Byte) (b : Bool) (s : State) :
    (assertBody c l v b s).Keeps R s := by
  unfold assertBody; split_ifs
  · trivial
  · exact K.putLine _ _ _ _ (by simp [assertedLine])

theorem clear (K : Kept env R) (c l : Word32) (s : State) : (clearBody c l s).Keeps R s := by
  unfold clearBody; split_ifs
  · trivial
  · exact K.putLine _ _ _ _ (by simp [clearedLine])

theorem pulse (K : Kept env R) (c l : Word32) (s : State) : (pulseBody c l s).Keeps R s := by
  unfold pulseBody; split_ifs
  · trivial
  · refine K.putLine _ _ _ _ ?_
    unfold pulsedLine; split <;> simp_all

theorem timerset (K : Kept env R) (n delay period : Word32) (act : BitVec 2) (t0 t1 t2 : Word32) (s : State) :
    (timersetBody n delay period act t0 t1 t2 s).Keeps R s := by
  unfold timersetBody; split_ifs
  · trivial
  · trivial
  · trivial
  · exact ⟨K.timer _ _ _, rfl⟩

theorem markdirty (K : Kept env R) (L t : Word32) (s : State) : (markdirtyBody L t s).Keeps R s := by
  unfold markdirtyBody; split_ifs
  · trivial
  · have h := K.noteIndex t.toNat (cellCount (layerAt s L.toNat)) s
    exact ⟨K.trans _ _ _ h.1 (K.dirty _ _ _ _), h.2⟩

theorem setscroll (K : Kept env R) (L e : Word32) (dx dy : Word16) (s : State) :
    (setscrollBody L e dx dy s).Keeps R s := by
  unfold setscrollBody; split_ifs
  · trivial
  · trivial
  · exact ⟨K.scroll _ _ _ _, rfl⟩

theorem setflip (K : Kept env R) (b : Bool) (s : State) : (setflipBody b s).Keeps R s := ⟨K.flip _ _, rfl⟩

theorem setpen (K : Kept env R) (g p v : Word32) (s : State) : (setpenBody g p v s).Keeps R s := by
  unfold setpenBody; split_ifs with h
  · trivial
  · refine ⟨K.lookup _ _ _ ?_, rfl⟩
    have := Nat.mod_le v.toNat (2 ^ 16)
    simp only [BitVec.toNat_setWidth]
    omega

theorem setpal (K : Kept env R) (n : Word32) (rgb : Rgb) (s : State) : (setpalBody n rgb s).Keeps R s := by
  unfold setpalBody; split_ifs
  · trivial
  · exact ⟨K.palette _ _ _, rfl⟩

/-! ## Internal commands and handlers -/

theorem internalBody (K : Kept env R) (i : Instr) (body : State → Res Answer)
    (h : internalBody i = some body) (s : State) : (body s).Keeps R s := by
  cases i <;> simp only [Machine.internalBody, Option.some.injEq, reduceCtorEq] at h <;> subst h
  · exact K.setbank _ _ _
  · exact K.poke _ _ _ _
  · exact K.assert _ _ _ _ _
  · exact K.clear _ _ _
  · exact K.pulse _ _ _
  · exact K.timerset _ _ _ _ _ _ _ _
  · exact K.markdirty _ _ _
  · exact K.setscroll _ _ _ _ _
  · exact K.setflip _ _
  · exact K.setpen _ _ _ _
  · exact K.setpal _ _ _

theorem runInternal (K : Kept env R) (legal : Legality) (op a0 : Nat) (body : State → Res Answer)
    (h : ∀ s, (body s).Keeps R s) (s : State) : (runInternal legal op a0 body s).Keeps R s := by
  unfold Machine.runInternal
  split_ifs
  · exact ⟨K.emit _ _, rfl⟩
  · have := h s
    cases hb : body s <;> rw [hb] at this <;> first | exact this | exact ⟨K.emit _ _, rfl⟩

theorem issueInternal (K : Kept env R) (i : Instr) (s : State) : (issueInternal i s).Keeps R s := by
  unfold Machine.issueInternal
  cases hb : Machine.internalBody i with
  | none => exact ⟨K.emit _ _, rfl⟩
  | some body => exact K.runInternal _ _ _ body (K.internalBody i body hb) s

theorem execInternal (K : Kept env R) (cw : CmdWord) (s : State) (hs : s.phase = .run) :
    (execInternal cw s).Keeps R s := by
  unfold Machine.execInternal
  cases decodeWord cw with
  | error => exact ⟨K.emit _ _, rfl⟩
  | ok i =>
    simp only
    split_ifs
    · exact K.raise hs _
    · cases hb : Machine.internalBody i with
      | none => exact ⟨K.emit _ _, rfl⟩
      | some body => exact K.runInternal _ _ _ body (K.internalBody i body hb) s

theorem execInternals (K : Kept env R) (cws : List CmdWord) (s : State) (hs : s.phase = .run) :
    (execInternals cws s).Keeps R s := by
  induction cws generalizing s with
  | nil => exact K.ok_self s ()
  | cons cw cws ih => exact K.seq (K.execInternal cw s hs) fun _ t ht => ih t (ht.trans hs)

theorem callExt (K : Kept env R) (e : Nat) (event : ExtEvent) (s : State) (hs : s.phase = .run) :
    (callExt env e event s).Keeps R s := by
  unfold Machine.callExt
  exact K.seq (K.after (K.ext s (env.ext e event s).mem) rfl (K.execInternals _ _ (by exact hs)))
    fun _ t _ => K.ok_self t _

theorem insideHandler (K : Kept env R) (work : State → Res α) (s : State)
    (h : ∀ t, t.phase = s.phase → (work t).Keeps R t) : (insideHandler work s).Keeps R s := by
  unfold Machine.insideHandler
  exact K.seq (K.after (K.inHandler s true) rfl (h _ rfl)) fun _ t _ => ⟨K.inHandler t _, rfl⟩

/-! ## The bus -/

theorem portRead (K : Kept env R) (P : Port) (a o : Nat) (work : State → Res Byte)
    (h : portRead env P a o = some work) (s : State) (hs : s.phase = .run) : (work s).Keeps R s := by
  unfold Machine.portRead at h
  cases hk : P.pk <;> simp only [hk, Option.some.injEq, reduceCtorEq] at h <;> subst h
  · exact K.callExt _ _ s hs
  · exact K.ok_self s _
  · exact K.ok_self s _
  · exact K.ok_self s _

theorem portWrite (K : Kept env R) (P : Port) (a o : Nat) (w : Byte) (work : State → Res Unit)
    (h : portWrite env P a o w = some work) (s : State) (hs : s.phase = .run) : (work s).Keeps R s := by
  unfold Machine.portWrite at h
  cases hk : P.pk <;> simp only [hk, Option.some.injEq, reduceCtorEq] at h <;> subst h
  · exact K.seq (K.callExt _ _ s hs) fun _ t _ => K.ok_self t _
  · exact K.after (K.byte s _ _ _) rfl (K.issueInternal _ _)
  · exact K.issueInternal _ _
  · exact K.issueInternal _ _
  · exact ⟨K.scroll s _ _ _, rfl⟩
  · cases latchSignal P with
    | none => exact ⟨K.latch s _ _, rfl⟩
    | some i => exact K.after (K.latch s _ _) rfl (K.issueInternal _ _)
  · exact ⟨K.flip s _, rfl⟩

theorem handlerRead (K : Kept env R) (h a o : Nat) (s : State) (hs : s.phase = .run) :
    (handlerRead env h a o s).Keeps R s := by
  unfold Machine.handlerRead
  cases hp : Machine.portRead env (portAt s h) a o with
  | none => exact ⟨K.emit s _, rfl⟩
  | some work => exact K.insideHandler work s fun t ht => K.portRead _ _ _ work hp t (ht.trans hs)

theorem handlerWrite (K : Kept env R) (h a o : Nat) (w : Byte) (s : State) (hs : s.phase = .run) :
    (handlerWrite env h a o w s).Keeps R s := by
  unfold Machine.handlerWrite
  cases hp : Machine.portWrite env (portAt s h) a o w with
  | none => exact ⟨K.emit s _, rfl⟩
  | some work => exact K.insideHandler work s fun t ht => K.portWrite _ _ _ _ work hp t (ht.trans hs)

theorem memRead (K : Kept env R) (sp a : Nat) (s : State) (hs : s.phase = .run) :
    (memRead env sp a s).Keeps R s := by
  unfold Machine.memRead
  cases resolveEntry s sp (busAddress s sp a) servesRead with
  | none => exact ⟨K.emit s _, rfl⟩
  | some e =>
    simp only [entryRead]
    cases e.kind
    · exact K.ok_self s _
    · exact K.ok_self s _
    · exact K.ok_self s _
    · exact K.handlerRead _ _ _ s hs
    · exact K.handlerRead _ _ _ s hs
    · exact K.handlerRead _ _ _ s hs

theorem memWrite (K : Kept env R) (sp a : Nat) (v : Byte) (s : State) (hs : s.phase = .run) :
    (memWrite env sp a v s).Keeps R s := by
  unfold Machine.memWrite
  cases resolveEntry s sp (busAddress s sp a) servesWrite with
  | none => exact ⟨K.emit s _, rfl⟩
  | some e =>
    simp only [entryWrite]
    cases e.kind
    · exact K.ok_self s _
    · exact ⟨K.byte s _ _ _, rfl⟩
    · exact K.ok_self s _
    · exact K.handlerWrite _ _ _ _ s hs
    · exact K.handlerWrite _ _ _ _ s hs
    · exact K.handlerWrite _ _ _ _ s hs

theorem acknowledge (K : Kept env R) (c : Nat) (s : State) : (acknowledge env c s).Keeps R s := by
  rcases acknowledge_cases env c s with ⟨-, h⟩ | ⟨-, -, h⟩ | ⟨l, -, -, h⟩ <;> rw [h]
  · trivial
  · exact K.ok_self s _
  · have h1 := K.putLine c l (acknowledgedLine (lineAt s c l)) s (by
      unfold acknowledgedLine; split <;> simp_all)
    exact ⟨K.trans _ _ _ h1.1 (K.emit _ _), h1.2⟩

/-! ## The compositors and the renderer -/

theorem resolveCell (K : Kept env R) (L t : Nat) (s : State) (hs : s.phase = .run) :
    (resolveCell env L t s).Keeps R s := by
  unfold Machine.resolveCell
  split_ifs
  · exact K.ok_self s _
  · exact K.raise hs _
  · have h := K.noteIndex (resolvedTile env s L t).code.toNat (gfxDim s (layerAt s L).gfx.toNat).ncodes s
    exact ⟨K.trans _ _ _ h.1 (K.trans _ _ _ (K.cell _ _ _ _) (K.dirty _ _ _ _)), h.2⟩

theorem resolveCells (K : Kept env R) (L : Nat) (ts : List Nat) (s : State) (hs : s.phase = .run) :
    (resolveCells env L ts s).Keeps R s := by
  induction ts generalizing s with
  | nil => exact K.ok_self s ()
  | cons t ts ih => exact K.seq (K.resolveCell L t s hs) fun _ u hu => ih u (hu.trans hs)

theorem tmcomposite (K : Kept env R) (x0 y0 x1 y1 : Word16) (L : Word32) (mode : Bool) (pen : Word16)
    (s : State) (hs : s.phase = .run) : (tmcompositeBody env x0 y0 x1 y1 L mode pen s).Keeps R s := by
  unfold tmcompositeBody
  split_ifs
  · trivial
  · exact K.seq (K.resolveCells _ _ s hs) fun _ t _ => ⟨K.paint _ _ t, rfl⟩

theorem drawSprite (K : Kept env R) (clip : Clip) (only : Bool) (p : Byte) (n : Nat) (s : State)
    (hs : s.phase = .run) : (drawSprite env clip only p n s).Keeps R s := by
  unfold Machine.drawSprite
  simp only
  split_ifs
  · exact K.ok_self s _
  · exact K.raise hs _
  · have h1 := K.noteIndex (spriteRecord env s n).code.toNat (gfxDim s s.spr.gfx.toNat).ncodes s
    have h2 := K.noteIndex (spriteRecord env s n).bank.toNat (gfxDim s s.spr.gfx.toNat).ngbank
      (Machine.noteIndex (spriteRecord env s n).code.toNat (gfxDim s s.spr.gfx.toNat).ncodes s)
    exact ⟨K.trans _ _ _ (K.trans _ _ _ h1.1 h2.1) (K.paint _ _ _), h2.2.trans h1.2⟩

theorem drawSprites (K : Kept env R) (clip : Clip) (only : Bool) (p : Byte) (ns : List Nat) (s : State)
    (hs : s.phase = .run) : (drawSprites env clip only p ns s).Keeps R s := by
  induction ns generalizing s with
  | nil => exact K.ok_self s ()
  | cons n ns ih => exact K.seq (K.drawSprite clip only p n s hs) fun _ t ht => ih t (ht.trans hs)

theorem spcomposite (K : Kept env R) (x0 y0 x1 y1 : Word16) (only : Bool) (p : Byte) (s : State)
    (hs : s.phase = .run) : (spcompositeBody env x0 y0 x1 y1 only p s).Keeps R s := by
  unfold spcompositeBody
  split_ifs
  · trivial
  · exact K.seq (K.drawSprites _ _ _ _ s hs) fun _ t _ => K.ok_self t _

theorem nestedDraw (K : Kept env R) {s : State} {x : Res Answer} (h : x.Keeps R s) :
    (nestedDraw s x).Keeps R s := by
  cases x with
  | ok a t => exact h
  | config => exact K.ok_self s _
  | refuse => exact K.ok_self s _
  | fatal code t => exact h

theorem renderStep (K : Kept env R) (st : RStep) (s : State) (hs : s.phase = .run) :
    (renderStep env st s).Keeps R s := by
  unfold Machine.renderStep
  cases st.rk
  · exact ⟨K.fb s _ (by simp), rfl⟩
  · exact K.nestedDraw (K.tmcomposite _ _ _ _ _ _ _ s hs)
  · exact K.nestedDraw (K.spcomposite _ _ _ _ _ _ s hs)

theorem renderSteps (K : Kept env R) (sts : List RStep) (s : State) (hs : s.phase = .run) :
    (renderSteps env sts s).Keeps R s := by
  induction sts generalizing s with
  | nil => exact K.ok_self s ()
  | cons st sts ih => exact K.seq (K.renderStep st s hs) fun _ t ht => ih t (ht.trans hs)

theorem renderFrame (K : Kept env R) (s : State) (hs : s.phase = .run) : (renderFrame env s).Keeps R s :=
  K.seq (K.renderSteps _ s hs) fun _ t _ => ⟨K.emit t _, rfl⟩

/-! ## The scheduler -/

theorem cpuBody (K : Kept env R) (c op : Nat) (i : Instr) (work : State → Res CpuObs)
    (h : cpuBody env c op i = some work) (s : State) (hs : s.phase = .run) : (work s).Keeps R s := by
  cases i <;> simp only [Machine.cpuBody, Option.some.injEq, reduceCtorEq] at h <;> subst h
  · simp only [cpuRead]
    split_ifs
    · exact ⟨K.emit s _, rfl⟩
    · exact ⟨K.emit s _, rfl⟩
    · exact K.seq (K.memRead _ _ s hs) fun _ t _ => K.ok_self t _
  · simp only [cpuWrite]
    split_ifs
    · exact ⟨K.emit s _, rfl⟩
    · exact ⟨K.emit s _, rfl⟩
    · exact K.seq (K.memWrite _ _ _ s hs) fun _ t _ => K.ok_self t _
  · simp only [cpuRead]
    split_ifs
    · exact ⟨K.emit s _, rfl⟩
    · exact ⟨K.emit s _, rfl⟩
    · exact K.seq (K.memRead _ _ s hs) fun _ t _ => K.ok_self t _
  · simp only [cpuAck]
    split_ifs
    · exact ⟨K.emit s _, rfl⟩
    · exact ⟨K.emit s _, rfl⟩
    · exact K.seq (K.acknowledge _ s) fun _ t _ => K.ok_self t _

theorem cpuCommand (K : Kept env R) (c : Nat) (cw : CmdWord) (s : State) (hs : s.phase = .run) :
    (cpuCommand env c cw s).Keeps R s := by
  unfold Machine.cpuCommand
  cases decodeWord cw with
  | error => exact ⟨K.emit s _, rfl⟩
  | ok i =>
    simp only
    cases hb : Machine.cpuBody env c (opcodeOf cw).toNat i with
    | none => exact ⟨K.emit s _, rfl⟩
    | some work => exact K.cpuBody c _ i work hb s hs

theorem cpuTurns (K : Kept env R) (c fuel : Nat) (s : State) (hs : s.phase = .run) :
    (cpuTurns env c fuel s).Keeps R s := by
  induction fuel generalizing s with
  | zero => exact K.ok_self s _
  | succ fuel ih =>
    unfold Machine.cpuTurns
    cases (env.cpu c (obsOf s c)).cmd with
    | none => exact K.ok_self s _
    | some cw =>
      exact K.seq (K.cpuCommand c cw s hs) fun o t ht =>
        K.after (K.observe t c o) rfl (ih _ (ht.trans hs))

theorem sliceCpu (K : Kept env R) (S k c : Nat) (s : State) (hs : s.phase = .run) :
    (sliceCpu env S k c s).Keeps R s := by
  unfold Machine.sliceCpu
  split_ifs
  · exact K.raise hs _
  · exact ⟨K.carry s _ _, rfl⟩
  · refine K.seq ?_ fun _ t _ => ⟨K.carry t _ _, rfl⟩
    exact K.after (K.observe s c _) rfl (K.cpuTurns _ _ _ hs)

theorem sliceCpus (K : Kept env R) (S k : Nat) (cs : List Nat) (s : State) (hs : s.phase = .run) :
    (sliceCpus env S k cs s).Keeps R s := by
  induction cs generalizing s with
  | nil => exact K.ok_self s ()
  | cons c cs ih =>
    exact K.seq (K.after (K.cursorI s (BitVec.ofNat 8 c)) rfl (K.sliceCpu S k c _ hs)) fun _ t ht => ih t (ht.trans hs)

theorem fireTimer (K : Kept env R) (n : Nat) (s : State) (hs : s.phase = .run) :
    (fireTimer env n s).Keeps R s := by
  unfold Machine.fireTimer
  refine K.after (K.trans _ _ _ (K.timer s n (rearmed (timerAt s n))) (K.emit _ (.timerFire n))) rfl ?_
  unfold timerAction
  cases (timerAt s n).act
  · exact K.issueInternal _ _
  · exact K.issueInternal _ _
  · exact K.issueInternal _ _
  · exact K.seq (K.insideHandler _ _ fun t ht => K.callExt _ _ t (ht.trans hs)) fun _ t _ => K.ok_self t _

theorem fireTimers (K : Kept env R) (tEnd : Word64) (fuel : Nat) (s : State) (hs : s.phase = .run) :
    (fireTimers env tEnd fuel s).Keeps R s := by
  induction fuel generalizing s with
  | zero => exact K.ok_self s ()
  | succ fuel ih =>
    unfold Machine.fireTimers
    cases earliest s (dueTimers s tEnd) with
    | none => exact K.ok_self s ()
    | some n => exact K.seq (K.fireTimer n s hs) fun _ t ht => ih t (ht.trans hs)

theorem slice (K : Kept env R) (S k : Nat) (s : State) (hs : s.phase = .run) : (slice env S k s).Keeps R s :=
  K.seq (K.sliceCpus S k _ s hs) fun _ t ht =>
    K.after (K.now t (sliceEnd s S k)) rfl (K.fireTimers _ _ _ (ht.trans hs))

theorem slicesFrom (K : Kept env R) (S : Nat) (ks : List Nat) (s : State) (hs : s.phase = .run) :
    (slicesFrom env S ks s).Keeps R s := by
  induction ks generalizing s with
  | nil => exact K.ok_self s ()
  | cons k ks ih =>
    exact K.seq (K.after (K.cursorK s (BitVec.ofNat 16 k)) rfl (K.slice S k _ hs)) fun _ t ht => ih t (ht.trans hs)

theorem emitSamples (K : Kept env R) (s : State) :
    R s (emitSamples s) ∧ (Machine.emitSamples s).phase = s.phase :=
  K.foldl (fun s _ => ⟨K.emit s _, rfl⟩) _ s

/-- RUNFRAME keeps R. -/
theorem runframe (K : Kept env R) (s : State) (hs : s.phase = .run) : (runframeBody env s).Keeps R s := by
  unfold runframeBody
  refine K.seq (K.after (K.inFrame s true) rfl (K.slicesFrom _ _ _ hs)) fun _ t ht => ?_
  refine K.seq (K.renderFrame t (ht.trans hs)) fun _ u _ => ?_
  have h := K.emitSamples u
  exact ⟨K.trans _ _ _ h.1 (K.endFrame _), h.2⟩

end Kept

/-! ## Whole steps -/

/-- A relation that also holds across what only a host command does. The bodies of the Config-only commands,
of START, RESET, TEARDOWN and RESTORE stand as they are: each is one update. -/
structure StepKept (env : Env) (R : State → State → Prop) : Prop extends Kept env R where
  answer : ∀ s a b c, R s { s with status := a, r0 := b, r1 := c }
  latchError : ∀ s code,
    R s { s with cfgErr := if s.cfgErr = 0 then code else s.cfgErr, status := code }
  take : ∀ s q p, R s { s with inq := q, payloadIn := p }
  payload : ∀ s p, R s { s with payloadOut := p }
  inp : ∀ s n v, R s { s with inp := s.inp.set n v }
  regdev : ∀ s t a tag kind hz, s.phase = .config → regdevBody tag kind hz s = .ok a t → R s t
  region : ∀ s t a r n j, s.phase = .config → regionBody r n j s = .ok a t → R s t
  bankdef : ∀ s t a b r n, s.phase = .config → bankdefBody b r n s = .ok a t → R s t
  spacedef : ∀ s t a n c aw, s.phase = .config → spacedefBody n c aw s = .ok a t → R s t
  syscfg : ∀ s t a m f n w h, s.phase = .config → syscfgBody m f n w h s = .ok a t → R s t
  start : ∀ s t a, s.phase = .config → startBody env s = .ok a t → R s t
  reset : ∀ s t a, s.phase = .run → resetBody env s = .ok a t → R s t
  teardown : ∀ s t a, s.phase ≠ .down → teardownBody s = .ok a t → R s t
  map : ∀ s t a sp x y k p q, s.phase = .config → mapBody sp x y k p q s = .ok a t → R s t
  portdef : ∀ s t a h k x y z w, s.phase = .config → portdefBody h k x y z w s = .ok a t → R s t
  tmcreate : ∀ s t a L w h tw th rf g m n, s.phase = .config →
    tmcreateBody env L w h tw th rf g m n s = .ok a t → R s t
  spcfg : ∀ s t a r b st n df g w h rev ht tp, s.phase = .config →
    spcfgBody r b st n df g w h rev ht tp s = .ok a t → R s t
  rstep : ∀ s t a n k x y z, s.phase = .config → rstepBody n k x y z s = .ok a t → R s t
  savereg : ∀ s t a c n, s.phase = .config → saveregBody c n s = .ok a t → R s t
  restore : ∀ s t a, s.phase = .run → restoreBody s = .ok a t → R s t

namespace StepKept

variable {R : State → State → Prop}

/-- A host command whose body keeps R keeps R. -/
theorem host {env : Env} (K : StepKept env R) (legal : Legality) (body : State → Res Answer) (s : State)
    (hr : legalIn legal s.phase = true → (body s).Keeps R s) :
    R s (hostCommand legal body s) := by
  rcases hostCommand_cases legal body s with ⟨code, h⟩ | ⟨hl, h⟩ <;> rw [h]
  · exact K.answer s code s.r0 s.r1
  · have h1 := hr hl
    cases hb : body s with
    | ok a t => rw [hb] at h1; exact K.trans _ _ _ h1.1 (K.answer t _ _ _)
    | config code => exact K.latchError s code
    | refuse code => exact K.answer s code s.r0 s.r1
    | fatal code t => rw [hb] at h1; exact K.trans _ _ _ h1 (K.answer t code t.r0 t.r1)

/-- A host command whose body completes or raises nothing fatal keeps R if its completion does. -/
theorem hostOk {env : Env} (K : StepKept env R) (legal : Legality) (body : State → Res Answer) (s : State)
    (hr : ∀ a t, legalIn legal s.phase = true → body s = .ok a t → R s t)
    (hf : ∀ code t, body s ≠ .fatal code t) :
    R s (hostCommand legal body s) := by
  rcases hostCommand_cases legal body s with ⟨code, h⟩ | ⟨hl, h⟩ <;> rw [h]
  · exact K.answer s code s.r0 s.r1
  · cases hb : body s with
    | ok a t => exact K.trans _ _ _ (hr a t hl hb) (K.answer t _ _ _)
    | config code => exact K.latchError s code
    | refuse code => exact K.answer s code s.r0 s.r1
    | fatal code t => exact absurd hb (hf code t)

/-- What holds across every update holds across the meaning of every command. -/
theorem exec_keeps (K : StepKept Config.env R) (i : Instr) (s t : State) (h : exec i s = .next t) : R s t := by
  have hrun : ∀ {s : State}, legalIn .runOnly s.phase = true → s.phase = .run := legalIn_runOnly.1
  have hcfg : ∀ {s : State}, legalIn .configOnly s.phase = true → s.phase = .config := legalIn_configOnly.1
  cases i <;> simp only [exec] at h
  case regdev =>
    simp only [execRegdev, Host.Outcome.next.injEq] at h
    subst h
    refine K.hostOk _ _ s (fun a t hl hb => K.regdev s t a _ _ _ (hcfg hl) hb) fun code t hb => ?_
    revert hb; unfold regdevBody doneR0; repeat' split
    all_goals simp
  case lookup =>
    simp only [execLookup, Host.Outcome.next.injEq] at h
    subst h
    refine K.hostOk _ _ s (fun a t hl hb => ?_) (fun code t hb => ?_)
    · revert hb; unfold lookupBody doneR0; split <;> simp only [Res.ok.injEq, reduceCtorEq, false_implies]
      rintro ⟨-, rfl⟩; exact K.refl s
    · revert hb; unfold lookupBody doneR0; split <;> simp
  case region =>
    simp only [execRegion, Host.Outcome.next.injEq] at h
    subst h
    refine K.hostOk _ _ s (fun a t hl hb => K.region s t a _ _ _ (hcfg hl) hb) fun code t hb => ?_
    revert hb; unfold regionBody done; repeat' split
    all_goals simp
  case bankdef =>
    simp only [execBankdef, Host.Outcome.next.injEq] at h
    subst h
    refine K.hostOk _ _ s (fun a t hl hb => K.bankdef s t a _ _ _ (hcfg hl) hb) fun code t hb => ?_
    revert hb; unfold bankdefBody done; repeat' split
    all_goals simp
  case spacedef =>
    simp only [execSpacedef, Host.Outcome.next.injEq] at h
    subst h
    refine K.hostOk _ _ s (fun a t hl hb => K.spacedef s t a _ _ _ (hcfg hl) hb) fun code t hb => ?_
    revert hb; unfold spacedefBody done; repeat' split
    all_goals simp
  case syscfg =>
    simp only [execSyscfg, Host.Outcome.next.injEq] at h
    subst h
    refine K.hostOk _ _ s (fun a t hl hb => K.syscfg s t a _ _ _ _ _ (hcfg hl) hb) fun code t hb => ?_
    revert hb; unfold syscfgBody done; repeat' split
    all_goals simp
  case start =>
    simp only [execStart, Host.Outcome.next.injEq] at h
    subst h
    refine K.hostOk _ _ s (fun a t hl hb => K.start s t a (hcfg hl) hb) fun code t hb => ?_
    revert hb; unfold startBody done; repeat' split
    all_goals simp
  case reset =>
    simp only [execReset, Host.Outcome.next.injEq] at h
    subst h
    refine K.hostOk _ _ s (fun a t hl hb => K.reset s t a (hrun hl) hb) fun code t hb => ?_
    revert hb; simp [resetBody, done]
  case teardown =>
    simp only [execTeardown, Host.Outcome.next.injEq] at h
    subst h
    exact K.hostOk _ _ s (fun a t hl hb => K.teardown s t a (legalIn_untilDown.1 hl) hb)
      fun code t hb => by simp [teardownBody, done] at hb
  case map =>
    simp only [execMap, Host.Outcome.next.injEq] at h
    subst h
    refine K.hostOk _ _ s (fun a t hl hb => K.map s t a _ _ _ _ _ _ (hcfg hl) hb) fun code t hb => ?_
    revert hb; unfold mapBody done; repeat' split
    all_goals simp
  case read =>
    simp only [execRead, Host.Outcome.next.injEq] at h
    subst h
    refine K.host _ _ s fun hl => ?_
    unfold readBody; split_ifs
    · trivial
    · exact K.seq (K.memRead _ _ s (hrun hl)) fun _ t _ => K.ok_self t _
  case write =>
    simp only [execWrite, Host.Outcome.next.injEq] at h
    subst h
    refine K.host _ _ s fun hl => ?_
    unfold writeBody; split_ifs
    · trivial
    · exact K.seq (K.memWrite _ _ _ s (hrun hl)) fun _ t _ => K.ok_self t _
  case setbank =>
    simp only [execSetbank, Host.Outcome.next.injEq] at h
    subst h
    exact K.host _ _ s fun _ => K.setbank _ _ s
  case fetch =>
    simp only [execFetch, Host.Outcome.next.injEq] at h
    subst h
    refine K.host _ _ s fun hl => ?_
    unfold fetchBody; split_ifs
    · trivial
    · exact K.seq (K.memRead _ _ s (hrun hl)) fun _ t _ => K.ok_self t _
  case portdef =>
    simp only [execPortdef, Host.Outcome.next.injEq] at h
    subst h
    refine K.hostOk _ _ s (fun a t hl hb => K.portdef s t a _ _ _ _ _ _ (hcfg hl) hb) fun code t hb => ?_
    revert hb; unfold portdefBody done; repeat' split
    all_goals simp
  case poke =>
    simp only [execPoke, Host.Outcome.next.injEq] at h
    subst h
    exact K.host _ _ s fun _ => K.poke _ _ _ s
  case assert =>
    simp only [execAssert, Host.Outcome.next.injEq] at h
    subst h
    exact K.host _ _ s fun _ => K.assert _ _ _ _ s
  case clear =>
    simp only [execClear, Host.Outcome.next.injEq] at h
    subst h
    exact K.host _ _ s fun _ => K.clear _ _ s
  case pulse =>
    simp only [execPulse, Host.Outcome.next.injEq] at h
    subst h
    exact K.host _ _ s fun _ => K.pulse _ _ s
  case ack =>
    simp only [execAck, Host.Outcome.next.injEq] at h
    subst h
    exact K.host _ _ s fun _ => K.seq (K.acknowledge _ s) fun _ t _ => K.ok_self t _
  case lineq =>
    simp only [execLineq, Host.Outcome.next.injEq] at h
    subst h
    refine K.host _ _ s fun _ => ?_
    unfold lineqBody; split_ifs
    · trivial
    · exact K.ok_self s _
  case runframe =>
    simp only [execRunframe, Host.Outcome.next.injEq] at h
    subst h
    exact K.host _ _ s fun hl => K.runframe s (hrun hl)
  case timerset =>
    simp only [execTimerset, Host.Outcome.next.injEq] at h
    subst h
    exact K.host _ _ s fun _ => K.timerset _ _ _ _ _ _ _ s
  case tmcreate =>
    simp only [execTmcreate, Host.Outcome.next.injEq] at h
    subst h
    refine K.hostOk _ _ s (fun a t hl hb => K.tmcreate s t a _ _ _ _ _ _ _ _ _ (hcfg hl) hb) fun code t hb => ?_
    revert hb; unfold tmcreateBody done; repeat' split
    all_goals simp
  case markdirty =>
    simp only [execMarkdirty, Host.Outcome.next.injEq] at h
    subst h
    exact K.host _ _ s fun _ => K.markdirty _ _ s
  case setscroll =>
    simp only [execSetscroll, Host.Outcome.next.injEq] at h
    subst h
    exact K.host _ _ s fun _ => K.setscroll _ _ _ _ s
  case tmcomposite =>
    simp only [execTmcomposite, Host.Outcome.next.injEq] at h
    subst h
    exact K.host _ _ s fun hl => K.tmcomposite _ _ _ _ _ _ _ s (hrun hl)
  case spcfg =>
    simp only [execSpcfg, Host.Outcome.next.injEq] at h
    subst h
    refine K.hostOk _ _ s (fun a t hl hb => K.spcfg s t a _ _ _ _ _ _ _ _ _ _ _ (hcfg hl) hb) fun code t hb => ?_
    revert hb; unfold spcfgBody done; repeat' split
    all_goals simp
  case spcomposite =>
    simp only [execSpcomposite, Host.Outcome.next.injEq] at h
    subst h
    exact K.host _ _ s fun hl => K.spcomposite _ _ _ _ _ _ s (hrun hl)
  case render =>
    simp only [execRender, Host.Outcome.next.injEq] at h
    subst h
    exact K.host _ _ s fun hl => K.seq (K.renderFrame s (hrun hl)) fun _ t _ => K.ok_self t _
  case setflip =>
    simp only [execSetflip, Host.Outcome.next.injEq] at h
    subst h
    exact K.host _ _ s fun _ => K.setflip _ s
  case setpen =>
    simp only [execSetpen, Host.Outcome.next.injEq] at h
    subst h
    exact K.host _ _ s fun _ => K.setpen _ _ _ s
  case setpal =>
    simp only [execSetpal, Host.Outcome.next.injEq] at h
    subst h
    exact K.host _ _ s fun _ => K.setpal _ _ s
  case rstep =>
    simp only [execRstep, Host.Outcome.next.injEq] at h
    subst h
    refine K.hostOk _ _ s (fun a t hl hb => K.rstep s t a _ _ _ _ _ (hcfg hl) hb) fun code t hb => ?_
    revert hb; unfold rstepBody done; repeat' split
    all_goals simp
  case input =>
    simp only [execInput, Host.Outcome.next.injEq] at h
    subst h
    refine K.host _ _ s fun _ => ?_
    unfold inputBody; split_ifs
    · trivial
    · exact ⟨K.inp s _ _, rfl⟩
  case scramble =>
    simp only [execScramble, Host.Outcome.next.injEq] at h
    subst h
    exact K.host _ _ s fun _ => K.ok_self s _
  case snapshot =>
    simp only [execSnapshot, Host.Outcome.next.injEq] at h
    subst h
    exact K.host _ _ s fun _ => ⟨K.payload s _, rfl⟩
  case restore =>
    simp only [execRestore, Host.Outcome.next.injEq] at h
    subst h
    refine K.hostOk _ _ s (fun a t hl hb => K.restore s t a (hrun hl) hb) fun code t hb => ?_
    revert hb; unfold restoreBody restoreFrom done; repeat' split
    all_goals simp
  case savereg =>
    simp only [execSavereg, Host.Outcome.next.injEq] at h
    subst h
    refine K.hostOk _ _ s (fun a t hl hb => K.savereg s t a _ _ (hcfg hl) hb) fun code t hb => ?_
    revert hb; unfold saveregBody done; repeat' split
    all_goals simp

/-- THE STEP: what holds across every update holds across a step. -/
theorem step_keeps (K : StepKept Config.env R) (s t : State) (h : step s = .next t) : R s t := by
  unfold step takeCommand at h
  cases hq : s.inq with
  | nil => rw [hq] at h; cases h; exact K.refl s
  | cons c rest =>
    rw [hq] at h
    refine K.trans _ _ _ (K.take s rest c.payload) ?_
    simp only at h
    split at h
    · exact K.exec_keeps _ _ _ h
    · obtain ⟨code, hc⟩ := rejectIllegal_cases { s with inq := rest, payloadIn := c.payload }
      rw [hc] at h
      cases h
      exact K.answer _ code s.r0 s.r1

end StepKept

end Sys2Proof.Machine
end

