-- ==== Sys2Proof/Laws/Bodies.lean ====
section
/-! SUPPORT. What it means that a command only the host may issue completed: the checks it passed and the state
it left, once per command. -/

namespace Sys2Proof.Machine

variable {s t : State} {a : Answer}

theorem regdevBody_ok {tag hz : Word32} {kind : BitVec 2} (h : regdevBody tag kind hz s = .ok a t) :
    ∃ kd, devKindOf kind = some kd ∧ (∀ d ∈ s.dev, d.tag ≠ tag) ∧ s.dev.length ≠ s.params.ndev ∧
      t = { s with
        dev := s.dev ++ [⟨tag, kd, hz⟩]
        lines := s.lines ++ [newLines s.params s.dev.length kd]
        carry := s.carry ++ [0]
        cpuObs := s.cpuObs ++ [[]] } := by
  unfold regdevBody doneR0 at h
  split at h
  · cases h
  · next kd hk =>
    split_ifs at h with h1 h2
    cases h
    exact ⟨kd, hk, by simpa using h1, h2, rfl⟩

theorem regionBody_ok {r size j : Word32} (h : regionBody r size j s = .ok a t) :
    r.toNat < s.params.nregion ∧ (regionAt s r.toNat).valid = false ∧ size ≠ 0 ∧
      ∃ img bytes, bytes.length ≤ size.toNat ∧ t = makeRegion r size img bytes s := by
  unfold regionBody done at h
  split_ifs at h with h1 h2 h3
  · cases h
    simp only [not_or, Nat.not_le, Bool.not_eq_true] at h1
    exact ⟨h1.1, h1.2, h2, false, [], Nat.zero_le _, rfl⟩
  · split at h
    · cases h
    · split_ifs at h with h4
      cases h
      simp only [not_or, Nat.not_le, Bool.not_eq_true] at h1
      exact ⟨h1.1, h1.2, h2, true, _, Nat.not_lt.1 h4, rfl⟩

theorem bankdefBody_ok {b r n : Word32} (h : bankdefBody b r n s = .ok a t) :
    b.toNat < s.params.nbank ∧ (bankAt s b.toNat).valid = false ∧ regionOk s r.toNat = true ∧ n ≠ 0 ∧
      t = { s with banks := s.banks.set b.toNat ⟨true, r.setWidth 8, n, 0⟩ } := by
  unfold bankdefBody done at h
  split_ifs at h with h1 h2 h3
  cases h
  simp only [not_or, Nat.not_le, Bool.not_eq_true] at h1
  exact ⟨h1.1, h1.2, by simpa using h2, h3, rfl⟩

theorem spacedefBody_ok {n c : Word32} {aw : BitVec 6} (h : spacedefBody n c aw s = .ok a t) :
    n.toNat < s.params.nspace ∧ (spaceAt s n.toNat).valid = false ∧ isCpu s c.toNat = true ∧
      t = { s with spaces := s.spaces.set n.toNat ⟨true, c.setWidth 8, aw⟩ } := by
  unfold spacedefBody done at h
  split_ifs at h with h1 h2 h3
  cases h
  simp only [not_or, Nat.not_le, Bool.not_eq_true] at h1
  exact ⟨h1.1, h1.2, by simpa using h2, rfl⟩

theorem syscfgBody_ok {m f : Word32} {n w h : Word16} (hb : syscfgBody m f n w h s = .ok a t) :
    t = { s with
      masterHz := m, frameHz := f, slices := n, sw := w.setWidth 15, sh := h.setWidth 15,
      syscfgDone := true } := by
  unfold syscfgBody done at hb
  split_ifs at hb
  cases hb
  rfl

theorem startBody_ok {env : Env} (h : startBody env s = .ok a t) :
    s.cfgErr = 0 ∧ s.syscfgDone = true ∧ t = callAllSetPc (enterRun env s) := by
  unfold startBody done at h
  split_ifs at h with h1 h2
  cases h
  simp only [not_or, Bool.not_eq_false] at h2
  exact ⟨by simpa using h1, h2.1, rfl⟩

theorem resetBody_ok {env : Env} (h : resetBody env s = .ok a t) :
    t = callAllSetPc (resetFields env ((cpuHandles s).foldl resetLines s)) := by
  cases h; rfl

theorem teardownBody_ok (h : teardownBody s = .ok a t) :
    t = { s with timers := s.timers.map fun T => { T with armed := false }, phase := .down } := by
  cases h; rfl

theorem mapBody_ok {sp x z p q : Word32} {kind : BitVec 3} (h : mapBody sp x z kind p q s = .ok a t) :
    ∃ kd, accessKindOf kind = some kd ∧ spaceOk s sp.toNat = true ∧ x.toNat ≤ z.toNat ∧
      mapTargetError s kd (z.toNat - x.toNat + 1) p q = none ∧ s.entries.length ≠ s.params.nentry ∧
      t = { s with entries := s.entries ++ [⟨sp.setWidth 8, x, z, kd, p, q⟩] } := by
  unfold mapBody done at h
  cases hk : accessKindOf kind with
  | none => rw [hk] at h; split_ifs at h
  | some kd =>
    rw [hk] at h
    cases hm : mapTargetError s kd (z.toNat - x.toNat + 1) p q with
    | some code => simp only [hm] at h; split_ifs at h
    | none =>
      simp only [hm] at h
      split_ifs at h with h1 h2 h3
      cases h
      simp only [not_or, Nat.not_lt] at h2
      exact ⟨kd, rfl, by simpa using h1, h2.1, hm, h3, rfl⟩

theorem portdefBody_ok {n q0 q1 q2 q3 : Word32} {pk : BitVec 3} (h : portdefBody n pk q0 q1 q2 q3 s = .ok a t) :
    n.toNat < s.params.nhandler ∧ (portAt s n.toNat).valid = false ∧
      portParamsOk s (portKindOf pk) q0 q1 q2 q3 = true ∧
      t = { s with ports := s.ports.set n.toNat ⟨true, portKindOf pk, q0, q1, q2, q3⟩ } := by
  unfold portdefBody done at h
  split_ifs at h with h1 h2
  cases h
  simp only [not_or, Nat.not_le, Bool.not_eq_true] at h1
  exact ⟨h1.1, h1.2, by simpa using h2, rfl⟩

theorem tmcreateBody_ok {env : Env} {L rf g : Word32} {w h tw th : Word16} {m : BitVec 2} {n : BitVec 9}
    (hb : tmcreateBody env L w h tw th rf g m n s = .ok a t) :
    ∃ sm, scrollModeOf m = some sm ∧ L.toNat < s.params.nlayer ∧ (layerAt s L.toNat).valid = false ∧
      w ≠ 0 ∧ h ≠ 0 ∧ tw ≠ 0 ∧ th ≠ 0 ∧ scrollCount sm n ≠ 0 ∧
      t = makeLayer env L.toNat ⟨true, w, h, tw, th, rf.setWidth 8, g.setWidth 8, sm, scrollCount sm n⟩ s := by
  unfold tmcreateBody done at hb
  split_ifs at hb with h1 h2 h3 h4
  split at hb
  · cases hb
  · next sm hm =>
    split_ifs at hb with h5
    cases hb
    simp only [not_or, Nat.not_le, Bool.not_eq_true] at h1 h2 h5
    exact ⟨sm, hm, h1.1, h1.2, h2.1, h2.2.1, h2.2.2.1, h2.2.2.2, h5.1, rfl⟩

theorem spcfgBody_ok {r b df g : Word32} {st n w h tp : Word16} {rev ht : Bool}
    (hb : spcfgBody r b st n df g w h rev ht tp s = .ok a t) :
    s.spr.valid = false ∧ regionOk s r.toNat = true ∧
      t = { s with
        spr := ⟨true, r.setWidth 8, b, st, n, df.setWidth 8, g.setWidth 8, w, h, rev, ht, tp⟩ } := by
  unfold spcfgBody done at hb
  split_ifs at hb with h1 h2
  cases hb
  exact ⟨by simpa using h1, by simpa using h2, rfl⟩

theorem rstepBody_ok {n ra rb rc : Word32} {rk : BitVec 2} (h : rstepBody n rk ra rb rc s = .ok a t) :
    ∃ kd, renderKindOf rk = some kd ∧ rstepCheck s kd ra rb = none ∧ n.toNat < s.params.nrstep ∧
      (rstepAt s n.toNat).valid = false ∧
      t = { s with rsteps := s.rsteps.set n.toNat ⟨true, kd, ra, rb, rc⟩ } := by
  unfold rstepBody done at h
  split_ifs at h with h1
  split at h
  · cases h
  · next kd hk =>
    split at h
    · cases h
    · next hc =>
      cases h
      simp only [not_or, Nat.not_le, Bool.not_eq_true] at h1
      exact ⟨kd, hk, hc, h1.1, h1.2, rfl⟩

theorem saveregBody_ok {c : Byte} {id : Word32} (h : saveregBody c id s = .ok a t) :
    ∃ kd, saveClassOf c = some kd ∧ saveTargetOk s kd id = true ∧ (⟨kd, saveId kd id⟩ : SaveItem) ∉ s.save ∧
      s.save.length ≠ s.params.nsave ∧ t = { s with save := s.save ++ [⟨kd, saveId kd id⟩] } := by
  unfold saveregBody done at h
  split at h
  · cases h
  · next kd hk =>
    split_ifs at h with h1 h2 h3
    cases h
    exact ⟨kd, hk, by simpa using h1, by simpa using h2, h3, rfl⟩

theorem restoreBody_ok (h : restoreBody s = .ok a t) :
    s.payloadIn.length = snapshotLength s ∧ itemsOk s s.save s.payloadIn = true ∧
      t = allDirty (s.save.foldl (notifyItem s) (restoreItems s.save s.payloadIn s)) := by
  unfold restoreBody restoreFrom done at h
  split_ifs at h with h1 h2
  cases h
  exact ⟨by simpa using h1, by simpa using h2, rfl⟩

/-! ## Their loops -/

namespace Kept

variable {env : Env} {R : State → State → Prop}

theorem callAllSetPc (K : Kept env R) (s : State) :
    R s (callAllSetPc s) ∧ (Machine.callAllSetPc s).phase = s.phase :=
  K.foldl (fun s _ => ⟨K.trans _ _ _ (K.emit s _) (K.observe _ _ _), rfl⟩) _ s

theorem resetLines (K : Kept env R) (cs : List Nat) (s : State) :
    R s (cs.foldl resetLines s) ∧ (cs.foldl Machine.resetLines s).phase = s.phase := by
  refine K.foldl (fun s c => ?_) cs s
  unfold Machine.resetLines
  split_ifs
  · exact ⟨K.refl s, rfl⟩
  · exact K.foldl (fun s l => K.putLine c l idleLine s (by simp [idleLine])) _ s

theorem notifyItems (K : Kept env R) (before : State) (its : List SaveItem) (s : State) :
    R s (its.foldl (notifyItem before) s) ∧ (its.foldl (notifyItem before) s).phase = s.phase := by
  refine K.foldl (fun s it => ?_) its s
  unfold notifyItem
  split
  · refine K.foldl (fun s l => ?_) _ s
    unfold notifyChange
    split_ifs
    · exact ⟨K.refl s, rfl⟩
    · exact ⟨K.trans _ _ _ (K.emit s _) (K.observe _ _ _), rfl⟩
  all_goals exact ⟨K.refl s, rfl⟩

end Kept

/-- Restoring the items of a list one after another keeps what restoring each of them keeps. -/
theorem restoreItems_induct {P : State → Prop} (its : List SaveItem) (bytes : List Byte) (s : State) (h : P s)
    (hstep : ∀ it ∈ its, ∀ bs t, P t → P (restoreItem it bs t)) : P (restoreItems its bytes s) := by
  induction its generalizing bytes s with
  | nil => exact h
  | cons it its ih =>
    exact ih _ _ (hstep it (by simp) _ s h) fun it' hi => hstep it' (by simp [hi])

end Sys2Proof.Machine
end

