-- ==== Sys2Proof/Laws/Memory.lean ====
section
/-! SUPPORT. The stored bytes: read after write, other bytes unchanged, and every memory operation keeps the
canonical form. -/

namespace Sys2Proof.Machine

/-! ## Keys -/

/-- A byte has one key. -/
theorem memKey_eq_iff {r o r' o' : Nat} (h : o < 2 ^ 32) (h' : o' < 2 ^ 32) :
    memKey r o = memKey r' o' ↔ r = r' ∧ o = o' := by
  unfold memKey; omega

/-- The region a key belongs to. -/
theorem memKey_div {r o : Nat} (h : o < 2 ^ 32) : memKey r o / 2 ^ 32 = r := by
  unfold memKey; omega

/-! ## Finding and storing -/

theorem memFind_memSet (m : List Host.Cell) (k k' : Nat) (v : Byte) :
    memFind (memSet m k v) k' = if k = k' then some v else memFind m k' := by
  induction m with
  | nil => rfl
  | cons c m ih =>
    simp only [memSet]
    split_ifs with h1 h2 <;> simp_all only [memFind] <;> split_ifs <;> simp_all

theorem memFind_eq_none_of_lt {m : List Host.Cell} {k : Nat} (h : ∀ c ∈ m, k < c.1) : memFind m k = none := by
  induction m with
  | nil => rfl
  | cons c m ih =>
    have := h c (by simp)
    simp only [memFind, if_neg (show ¬c.1 = k by omega)]
    exact ih fun c hc => h c (by simp [hc])

theorem memFind_append (m m' : List Host.Cell) (k : Nat) :
    memFind (m ++ m') k = (memFind m k).orElse fun _ => memFind m' k := by
  induction m with
  | nil => rfl
  | cons c m ih => simp only [List.cons_append, memFind]; split_ifs <;> simp_all

theorem memFind_filter (p : Nat → Bool) (m : List Host.Cell) (k : Nat) :
    memFind (m.filter fun c => p c.1) k = if p k then memFind m k else none := by
  induction m with
  | nil => simp [memFind]
  | cons c m ih =>
    by_cases hc : p c.1 = true <;> by_cases hk : c.1 = k <;> simp_all [memFind]

theorem memFind_cellsFrom (bytes : List Byte) (k k' : Nat) :
    memFind (cellsFrom k bytes) k' = if k ≤ k' then bytes[k' - k]? else none := by
  induction bytes generalizing k with
  | nil => simp [cellsFrom, memFind]
  | cons b bs ih =>
    simp only [cellsFrom, memFind, ih]
    rcases Nat.lt_trichotomy k k' with h | h | h
    · rw [if_neg (by omega), if_pos (by omega), if_pos (by omega), show k' - k = (k' - (k + 1)) + 1 by omega]
      rfl
    · subst h; simp
    · rw [if_neg (by omega), if_neg (by omega), if_neg (by omega)]

/-! ## The canonical form -/

theorem mem_memSet {m : List Host.Cell} {k : Nat} {v : Byte} {c : Host.Cell} (h : c ∈ memSet m k v) :
    c = (k, v) ∨ c ∈ m := by
  induction m with
  | nil => simpa [memSet] using h
  | cons d m ih =>
    simp only [memSet] at h
    split_ifs at h <;> simp_all <;> tauto

/-- Storing a byte keeps the canonical form. -/
theorem memSet_wf {m : List Host.Cell} (h : Memory.wf m) (k : Nat) (v : Byte) : Memory.wf (memSet m k v) := by
  induction m with
  | nil => simp [memSet]
  | cons c m ih =>
    obtain ⟨hc, hm⟩ := List.pairwise_cons.1 h
    simp only [memSet]
    split_ifs with h1 h2
    · refine List.pairwise_cons.2 ⟨fun d hd => ?_, h⟩
      rcases List.mem_cons.1 hd with rfl | hd
      · exact h1
      · exact lt_trans h1 (hc d hd)
    · exact List.pairwise_cons.2 ⟨fun d hd => h2 ▸ hc d hd, hm⟩
    · refine List.pairwise_cons.2 ⟨fun d hd => ?_, ih hm⟩
      rcases mem_memSet hd with rfl | hd
      · exact lt_of_le_of_ne (not_lt.1 h1) (Ne.symm h2)
      · exact hc d hd

/-- Dropping cells keeps the canonical form. -/
theorem filter_wf {m : List Host.Cell} (h : Memory.wf m) (p : Host.Cell → Bool) : Memory.wf (m.filter p) :=
  h.sublist List.filter_sublist

theorem mem_cellsFrom {bytes : List Byte} {k : Nat} {c : Host.Cell} (h : c ∈ cellsFrom k bytes) :
    k ≤ c.1 ∧ c.1 < k + bytes.length := by
  induction bytes generalizing k with
  | nil => simp [cellsFrom] at h
  | cons b bs ih =>
    rcases List.mem_cons.1 h with rfl | h
    · simp
    · have := ih h; simp only [List.length_cons]; omega

theorem cellsFrom_wf (bytes : List Byte) (k : Nat) : Memory.wf (cellsFrom k bytes) := by
  induction bytes generalizing k with
  | nil => exact List.Pairwise.nil
  | cons b bs ih => exact List.pairwise_cons.2 ⟨fun c hc => by have := mem_cellsFrom hc; simp; omega, ih _⟩

/-- Replacing a region's bytes keeps the canonical form. -/
theorem memSetRegion_wf {m : List Host.Cell} (h : Memory.wf m) (r : Nat) (bytes : List Byte) :
    Memory.wf (memSetRegion m r bytes) := by
  unfold memSetRegion Memory.wf
  refine List.pairwise_append.2 ⟨List.pairwise_append.2 ⟨filter_wf h _, cellsFrom_wf _ _, ?_⟩, filter_wf h _, ?_⟩
  · intro a ha b hb
    have h1 := of_decide_eq_true (List.mem_filter.1 ha).2
    have h2 := mem_cellsFrom hb
    omega
  · intro a ha b hb
    have h2 : memKey (r + 1) 0 ≤ b.1 := of_decide_eq_true (List.mem_filter.1 hb).2
    rcases List.mem_append.1 ha with ha | ha
    · have h1 : a.1 < memKey r 0 := of_decide_eq_true (List.mem_filter.1 ha).2
      unfold memKey at *; omega
    · have h1 := mem_cellsFrom ha
      have h3 : (bytes.take (2 ^ 32)).length ≤ 2 ^ 32 := List.length_take_le _ _
      unfold memKey at *; omega

/-- The memory of the machine after reset has the canonical form. -/
theorem reset_memory_wf : Memory.wf State.reset.mem := List.Pairwise.nil

/-! ## One byte of a region -/

/-- Reading the byte just stored gives it (10_state R26). -/
@[simp] theorem readRegion_writeRegion_same (env : Env) (s : State) (r o : Nat) (v : Byte) :
    readRegion env (writeRegion r o v s) r o = v := by
  simp [readRegion, memFind_memSet]

/-- A store leaves every byte with another key alone. -/
theorem readRegion_writeRegion_key (env : Env) (s : State) (r o r' o' : Nat) (v : Byte)
    (h : memKey r o ≠ memKey r' o') : readRegion env (writeRegion r o v s) r' o' = readRegion env s r' o' := by
  simp [readRegion, memFind_memSet, h, regionAt]

/-- A store leaves every other byte alone (10_state R26). -/
theorem readRegion_writeRegion_other (env : Env) (s : State) {r o r' o' : Nat} (v : Byte) (ho : o < 2 ^ 32)
    (ho' : o' < 2 ^ 32) (h : ¬(r = r' ∧ o = o')) :
    readRegion env (writeRegion r o v s) r' o' = readRegion env s r' o' :=
  readRegion_writeRegion_key env s r o r' o' v fun hk => h ((memKey_eq_iff ho ho').1 hk)

/-- A region's size is below 2^32. -/
theorem regionSize_lt (s : State) (r : Nat) : regionSize s r < 2 ^ 32 := (regionAt s r).size.isLt

/-- What a list holds for region r' after region r's bytes are replaced. -/
theorem memFind_memSetRegion (m : List Host.Cell) (r : Nat) (bytes : List Byte) {r' o : Nat} (ho : o < 2 ^ 32) :
    memFind (memSetRegion m r bytes) (memKey r' o) = if r' = r then bytes[o]? else memFind m (memKey r' o) := by
  unfold memSetRegion
  rw [memFind_append, memFind_append,
    memFind_filter (fun k => decide (k < memKey r 0)), memFind_filter (fun k => decide (memKey (r + 1) 0 ≤ k)),
    memFind_cellsFrom]
  rcases Nat.lt_trichotomy r' r with h | h | h
  · have h1 : memKey r' o < memKey r 0 := by unfold memKey; omega
    have h2 : ¬memKey r 0 ≤ memKey r' o := by omega
    have h3 : ¬memKey (r + 1) 0 ≤ memKey r' o := by unfold memKey; omega
    have h4 : ¬r' = r := by omega
    rw [decide_eq_true h1, decide_eq_false h3, if_neg h2, if_neg h4]
    cases memFind m (memKey r' o) <;> rfl
  · subst h
    have h1 : ¬memKey r' o < memKey r' 0 := by unfold memKey; omega
    have h2 : memKey r' 0 ≤ memKey r' o := by unfold memKey; omega
    have h3 : ¬memKey (r' + 1) 0 ≤ memKey r' o := by unfold memKey; omega
    have h4 : memKey r' o - memKey r' 0 = o := by unfold memKey; omega
    rw [decide_eq_false h1, decide_eq_false h3, if_pos h2, if_pos rfl, h4, List.getElem?_take, if_pos ho]
    cases bytes[o]? <;> rfl
  · have h1 : ¬memKey r' o < memKey r 0 := by unfold memKey; omega
    have h2 : memKey (r + 1) 0 ≤ memKey r' o := by unfold memKey; omega
    have h3 : memKey r 0 ≤ memKey r' o := by unfold memKey; omega
    have h4 : (bytes.take (2 ^ 32)).length ≤ memKey r' o - memKey r 0 := by
      have h5 := List.length_take_le (2 ^ 32) bytes
      have h6 : 2 ^ 32 ≤ memKey r' o - memKey r 0 := by unfold memKey; omega
      exact le_trans h5 h6
    have h5 : ¬r' = r := by omega
    rw [decide_eq_false h1, decide_eq_true h2, if_pos h3, if_neg h5, List.getElem?_eq_none h4]
    rfl

end Sys2Proof.Machine
end

