-- ==== Sys2Proof/Laws/PerInstr.lean ====
section
/-! SUPPORT. The per-command family `Layout`: where a command's word holds what (30_encoding R120, R122), one
lemma per constructor of Instr. -/

namespace Sys2Proof.Laws

/-- The opcode byte of an assembled word is the opcode it was assembled from (R120). -/
theorem opcodeOf_packWord (op : Byte) (A : Nat → Word32) : opcodeOf (packWord op A) = op := by
  apply BitVec.eq_of_getLsbD_eq
  intro k hk
  simp only [opcodeOf, packWord, placeArg, BitVec.getLsbD_extractLsb', BitVec.getLsbD_or,
    BitVec.getLsbD_shiftLeft, BitVec.getLsbD_setWidth]
  simp [hk, show k < 264 by omega, show k < 40 by omega, show k < 72 by omega, show k < 104 by omega,
    show k < 136 by omega, show k < 168 by omega, show k < 200 by omega, show k < 232 by omega]

/-- A command's word begins with an opcode of R122, its own, and the command names at most eight arguments. -/
def Layout.Statement (i : Instr) : Prop :=
  opcodeOf (encode i) = i.opcode ∧ i.opcode ∈ Machine.definedOpcodes ∧ i.args.length ≤ 8

/-- The family's statement from the two facts a constructor decides. -/
theorem layout_of_opcode {i : Instr} (op : Byte) (hi : i.opcode = op) (hop : op ∈ Machine.definedOpcodes)
    (hlen : i.args.length ≤ 8) : Layout.Statement i :=
  ⟨opcodeOf_packWord _ _, hi ▸ hop, hlen⟩

theorem Layout.regdev (tag : Word32) (kind : BitVec 2) (clockHz : Word32) :
    Layout.Statement (.regdev tag kind clockHz) :=
  layout_of_opcode 0x01 rfl (by decide) (by simp [Instr.args])

theorem Layout.lookup (tag : Word32) :
    Layout.Statement (.lookup tag) := layout_of_opcode 0x02 rfl (by decide) (by simp [Instr.args])

theorem Layout.region (regionId size imageId : Word32) :
    Layout.Statement (.region regionId size imageId) :=
  layout_of_opcode 0x03 rfl (by decide) (by simp [Instr.args])

theorem Layout.bankdef (bankId regionId size : Word32) :
    Layout.Statement (.bankdef bankId regionId size) :=
  layout_of_opcode 0x04 rfl (by decide) (by simp [Instr.args])

theorem Layout.spacedef (spaceId owner : Word32) (aw : BitVec 6) :
    Layout.Statement (.spacedef spaceId owner aw) :=
  layout_of_opcode 0x05 rfl (by decide) (by simp [Instr.args])

theorem Layout.syscfg (masterHz frameHz : Word32) (slices sw sh : Word16) :
    Layout.Statement (.syscfg masterHz frameHz slices sw sh) :=
  layout_of_opcode 0x06 rfl (by decide) (by simp [Instr.args])

theorem Layout.start :
    Layout.Statement .start := layout_of_opcode 0x07 rfl (by decide) (by simp [Instr.args])

theorem Layout.reset :
    Layout.Statement .reset := layout_of_opcode 0x08 rfl (by decide) (by simp [Instr.args])

theorem Layout.teardown :
    Layout.Statement .teardown := layout_of_opcode 0x09 rfl (by decide) (by simp [Instr.args])

theorem Layout.map (spaceId start stop : Word32) (kind : BitVec 3) (p0 p1 : Word32) :
    Layout.Statement (.map spaceId start stop kind p0 p1) :=
  layout_of_opcode 0x10 rfl (by decide) (by simp [Instr.args])

theorem Layout.read (spaceId address : Word32) :
    Layout.Statement (.read spaceId address) := layout_of_opcode 0x11 rfl (by decide) (by simp [Instr.args])

theorem Layout.write (spaceId address : Word32) (byte : Byte) :
    Layout.Statement (.write spaceId address byte) :=
  layout_of_opcode 0x12 rfl (by decide) (by simp [Instr.args])

theorem Layout.setbank (bankId sourceOffset : Word32) :
    Layout.Statement (.setbank bankId sourceOffset) :=
  layout_of_opcode 0x13 rfl (by decide) (by simp [Instr.args])

theorem Layout.fetch (spaceId address : Word32) :
    Layout.Statement (.fetch spaceId address) := layout_of_opcode 0x14 rfl (by decide) (by simp [Instr.args])

theorem Layout.portdef (handlerId : Word32) (pk : BitVec 3) (q0 q1 q2 q3 : Word32) :
    Layout.Statement (.portdef handlerId pk q0 q1 q2 q3) :=
  layout_of_opcode 0x15 rfl (by decide) (by simp [Instr.args])

theorem Layout.poke (regionId offset : Word32) (byte : Byte) :
    Layout.Statement (.poke regionId offset byte) :=
  layout_of_opcode 0x16 rfl (by decide) (by simp [Instr.args])

theorem Layout.assert (cpu line : Word32) (vector : Byte) (hasVector : Bool) :
    Layout.Statement (.assert cpu line vector hasVector) :=
  layout_of_opcode 0x20 rfl (by decide) (by simp [Instr.args])

theorem Layout.clear (cpu line : Word32) :
    Layout.Statement (.clear cpu line) := layout_of_opcode 0x21 rfl (by decide) (by simp [Instr.args])

theorem Layout.pulse (cpu line : Word32) :
    Layout.Statement (.pulse cpu line) := layout_of_opcode 0x22 rfl (by decide) (by simp [Instr.args])

theorem Layout.ack (cpu : Word32) :
    Layout.Statement (.ack cpu) := layout_of_opcode 0x23 rfl (by decide) (by simp [Instr.args])

theorem Layout.lineq (cpu line : Word32) :
    Layout.Statement (.lineq cpu line) := layout_of_opcode 0x24 rfl (by decide) (by simp [Instr.args])

theorem Layout.runframe :
    Layout.Statement .runframe := layout_of_opcode 0x30 rfl (by decide) (by simp [Instr.args])

theorem Layout.timerset (id delay period : Word32) (act : BitVec 2) (t0 t1 t2 : Word32) :
    Layout.Statement (.timerset id delay period act t0 t1 t2) :=
  layout_of_opcode 0x31 rfl (by decide) (by simp [Instr.args])

theorem Layout.tmcreate (layer : Word32) (w h tw th : Word16) (rf gfx : Word32) (smode : BitVec 2) (nent : BitVec 9) :
    Layout.Statement (.tmcreate layer w h tw th rf gfx smode nent) :=
  layout_of_opcode 0x40 rfl (by decide) (by simp [Instr.args])

theorem Layout.markdirty (layer tileIndex : Word32) :
    Layout.Statement (.markdirty layer tileIndex) :=
  layout_of_opcode 0x41 rfl (by decide) (by simp [Instr.args])

theorem Layout.setscroll (layer rowOrCol : Word32) (dx dy : Word16) :
    Layout.Statement (.setscroll layer rowOrCol dx dy) :=
  layout_of_opcode 0x42 rfl (by decide) (by simp [Instr.args])

theorem Layout.tmcomposite (minX minY maxX maxY : Word16) (layer : Word32) (mode : Bool) (pen : Word16) :
    Layout.Statement (.tmcomposite minX minY maxX maxY layer mode pen) :=
  layout_of_opcode 0x43 rfl (by decide) (by simp [Instr.args])

theorem Layout.spcfg (regionId base : Word32) (stride count : Word16) (df gfx : Word32) (spw sph : Word16) (reverse hasTpen : Bool) (tpen : Word16) :
    Layout.Statement (.spcfg regionId base stride count df gfx spw sph reverse hasTpen tpen) :=
  layout_of_opcode 0x50 rfl (by decide) (by simp [Instr.args])

theorem Layout.spcomposite (minX minY maxX maxY : Word16) (only : Bool) (p : Byte) :
    Layout.Statement (.spcomposite minX minY maxX maxY only p) :=
  layout_of_opcode 0x51 rfl (by decide) (by simp [Instr.args])

theorem Layout.render :
    Layout.Statement .render := layout_of_opcode 0x60 rfl (by decide) (by simp [Instr.args])

theorem Layout.setflip (flag : Bool) :
    Layout.Statement (.setflip flag) := layout_of_opcode 0x61 rfl (by decide) (by simp [Instr.args])

theorem Layout.setpen (group pen paletteIndex : Word32) :
    Layout.Statement (.setpen group pen paletteIndex) :=
  layout_of_opcode 0x62 rfl (by decide) (by simp [Instr.args])

theorem Layout.setpal (index : Word32) (rgb : Rgb) :
    Layout.Statement (.setpal index rgb) := layout_of_opcode 0x63 rfl (by decide) (by simp [Instr.args])

theorem Layout.rstep (slot : Word32) (rk : BitVec 2) (ra rb rc : Word32) :
    Layout.Statement (.rstep slot rk ra rb rc) := layout_of_opcode 0x64 rfl (by decide) (by simp [Instr.args])

theorem Layout.input (index : Word32) (value : Byte) :
    Layout.Statement (.input index value) := layout_of_opcode 0x70 rfl (by decide) (by simp [Instr.args])

theorem Layout.scramble (value : Byte) :
    Layout.Statement (.scramble value) := layout_of_opcode 0x71 rfl (by decide) (by simp [Instr.args])

theorem Layout.snapshot :
    Layout.Statement .snapshot := layout_of_opcode 0x72 rfl (by decide) (by simp [Instr.args])

theorem Layout.restore :
    Layout.Statement .restore := layout_of_opcode 0x73 rfl (by decide) (by simp [Instr.args])

theorem Layout.savereg (cls : Byte) (id : Word32) :
    Layout.Statement (.savereg cls id) := layout_of_opcode 0x74 rfl (by decide) (by simp [Instr.args])

end Sys2Proof.Laws
end

