-- ==== Sys2Proof/Laws/Runs.lean ====
section
/-! SUPPORT. What the compound operations can do: a CPU's turns, the lines' bits, painting, and a list of
sprites drawn in its order. -/

namespace Sys2Proof.Machine

/-- Once n commands are issued and answered, the rest of the turns go on from the state they left (R233). -/
theorem cpuTurns_after_issues {env : Env} {c n : Nat} {s t : State} (h : CpuIssues env c n s t) (m : Nat) :
    cpuTurns env c (n + m) s = cpuTurns env c m t := by
  induction h with
  | nil => simp
  | cons asked answered rest ih =>
    rw [Nat.add_right_comm, cpuTurns, obsOf, asked]
    simp only [answered, andThen_ok]
    exact ih

/-- A CPU's turns end where the unit asks for no command (R233). -/
theorem cpuTurns_return {env : Env} {c : Nat} {s : State} (h : (env.cpu c (s.cpuObs.getD c [])).cmd = none)
    (m : Nat) : cpuTurns env c m s = .ok (env.cpu c (s.cpuObs.getD c [])).consumed s := by
  cases m with
  | zero => rfl
  | succ m => rw [cpuTurns, obsOf, h]

/-- Bit l of a sum of distinct powers of two says whether its power is in it (42_interrupt R207). -/
theorem testBit_sum_pow (f : Nat → Bool) (n l : Nat) :
    (((List.range n).map fun l => if f l then 2 ^ l else 0).sum).testBit l = (decide (l < n) && f l) ∧
      ((List.range n).map fun l => if f l then 2 ^ l else 0).sum < 2 ^ n := by
  induction n generalizing l with
  | zero => simp
  | succ n ih =>
    have hlt := (ih 0).2
    simp only [List.range_succ, List.map_append, List.sum_append, List.map_cons, List.map_nil, List.sum_cons,
      List.sum_nil, Nat.add_zero]
    refine ⟨?_, by rw [Nat.pow_succ]; split <;> omega⟩
    cases hf : f n
    · rw [if_neg Bool.false_ne_true, Nat.add_zero, (ih l).1]
      by_cases hl : l = n
      · simp [hl, hf]
      · congr 1; simp; omega
    · rw [if_pos rfl, Nat.add_comm]
      rcases Nat.lt_trichotomy l n with h | rfl | h
      · rw [Nat.testBit_two_pow_add_gt h, (ih l).1]; simp [h]; omega
      · rw [Nat.testBit_two_pow_add_eq, (ih l).1]; simp [hf]
      · rw [Nat.testBit_lt_two_pow]
        · simp; omega
        · exact lt_of_lt_of_le (by rw [Nat.pow_succ]; omega) (Nat.pow_le_pow_right (by omega) h)

/-- `InRange`'s diagnostic is the event list `indexNotice` (44_tilemap R269). -/
theorem noteIndex_eq (v n : Nat) (s : State) :
    noteIndex v n s = { s with events := (indexNotice v n).reverse ++ s.events } := by
  unfold noteIndex indexNotice; split <;> rfl

/-- The records SPCOMPOSITE draws are those `spriteDrawn` names (45_sprite R292, R297). -/
theorem spriteShown_iff (env : Env) (s : State) (only : Bool) (p : Byte) (n : Nat) :
    spriteShown (spriteRecord env s n) only p = true ↔ spriteDrawn env s only p n := by
  unfold spriteShown spriteDrawn; cases only <;> simp

/-- One pixel of the frame buffer after painting a picture through a clip rectangle. -/
theorem paint_fbAt (clip : Clip) (f : Nat → Nat → Option Pixel) {s : State} {x y : Nat}
    (h : s.fb.length = s.sw.toNat * s.sh.toNat) (hx : x < s.sw.toNat) (hy : y < s.sh.toNat) :
    fbAt (paint clip f s) x y = if clipHas clip x y then (f x y).getD (fbAt s x y) else fbAt s x y := by
  have hl : y * s.sw.toNat + x < s.fb.length := by rw [h]; nlinarith
  have h1 : (y * s.sw.toNat + x) % s.sw.toNat = x := by rw [Nat.mul_comm, Nat.mul_add_mod, Nat.mod_eq_of_lt hx]
  have h2 : (y * s.sw.toNat + x) / s.sw.toNat = y := by
    rw [Nat.mul_comm, Nat.mul_add_div (by omega), Nat.div_eq_of_lt hx, Nat.add_zero]
  simp only [fbAt, paint, List.getD_eq_getElem?_getD, List.getElem?_mapIdx, List.getElem?_eq_getElem hl,
    Option.map_some, Option.getD_some, h1, h2]

/-- A drawn record with a colour group that exists is painted after its diagnostics (45_sprite R292). -/
theorem drawSprite_drawn {env : Env} {clip : Clip} {only : Bool} {p : Byte} {n : Nat} {s : State}
    (hd : spriteDrawn env s only p n) (hc : (spriteRecord env s n).color.toNat < s.params.ngroup) :
    drawSprite env clip only p n s = .ok () (paint clip
      (spritePicture env s (spriteRecord env s n)
        (reduceIndex s.params.oorPolicy (spriteRecord env s n).code.toNat (gfxDim s s.spr.gfx.toNat).ncodes)
        (reduceIndex s.params.oorPolicy (spriteRecord env s n).bank.toNat (gfxDim s s.spr.gfx.toNat).ngbank))
      { s with events := (spriteNotices env s only p [n]).reverse ++ s.events }) := by
  have hs := (spriteShown_iff env s only p n).2 hd
  simp only [drawSprite, hs, Bool.true_eq_false, if_false, if_neg (Nat.not_le.2 hc), noteIndex_eq, spriteNotices,
    List.flatMap_cons, List.flatMap_nil, if_pos hd, List.append_nil, List.reverse_append, List.append_assoc]

/-- A record that is not drawn changes nothing (45_sprite R292, R297). -/
theorem drawSprite_hidden {env : Env} {clip : Clip} {only : Bool} {p : Byte} {n : Nat} {s : State}
    (hd : ¬spriteDrawn env s only p n) : drawSprite env clip only p n s = .ok () s := by
  have hs : spriteShown (spriteRecord env s n) only p = false :=
    Bool.eq_false_iff.2 fun h => hd ((spriteShown_iff env s only p n).1 h)
  simp only [drawSprite, hs, if_true]

end Sys2Proof.Machine
end

