-- ==== Sys2Proof/Tests/Slice0.lean ====
section
/-! SUPPORT. The model's own tests: the ill-formed operands that `wellFormed` refuses, one hand-written
command word per command, one small step per command, and, for every statement of Obligations.lean that has
hypotheses, states and operands that meet them ("95" is spec/95_test_vectors.md). -/

open Sys2Proof Sys2Proof.Machine

namespace Sys2Proof.Tests

/-! ## The smoke test of well-formedness: each check refuses one term -/

theorem test_wf_regdev_kind : Instr.wellFormed (.regdev 1 3 1) = false := by decide
theorem test_wf_map_kind : Instr.wellFormed (.map 0 0 15 6 2 0) = false := by decide
theorem test_wf_tmcreate_smode : Instr.wellFormed (.tmcreate 1 4 2 2 2 0 0 3 0) = false := by decide
theorem test_wf_rstep_kind : Instr.wellFormed (.rstep 0 3 0 0 0) = false := by decide
theorem test_wf_savereg_class : Instr.wellFormed (.savereg 8 0) = false := by decide
theorem test_wf_accepts : Instr.wellFormed (.map 0 0 15 5 2 0) = true := by decide

/-! ## Decoding: the word of each command, byte by byte -/

/-- 95 E1. -/
theorem test_decode_regdev :
    decodeWord (wordOf [0x01, 0x6E, 0x69, 0x61, 0x6D, 0x00, 0x00, 0x00, 0x00, 0xC0, 0xC6, 0x2D]) =
      .ok (.regdev 0x6D61696E 0 3000000) := by decide

/-- 95 G3. -/
theorem test_decode_lookup :
    decodeWord (wordOf [0x02, 0x20, 0x64, 0x6E, 0x73]) =
      .ok (.lookup 0x736E6420) := by decide

/-- 95 2.2. -/
theorem test_decode_region :
    decodeWord (wordOf [0x03, 0x01, 0x00, 0x00, 0x00, 0x20, 0x00, 0x00, 0x00, 0x01]) =
      .ok (.region 1 32 1) := by decide

/-- 95 2.2. -/
theorem test_decode_bankdef :
    decodeWord (wordOf [0x04, 0x00, 0x00, 0x00, 0x00, 0x01, 0x00, 0x00, 0x00, 0x08]) =
      .ok (.bankdef 0 1 8) := by decide

/-- 95 2.2. -/
theorem test_decode_spacedef :
    decodeWord (wordOf [0x05, 0x01, 0x00, 0x00, 0x00, 0x01, 0x00, 0x00, 0x00, 0x10]) =
      .ok (.spacedef 1 1 16) := by decide

/-- 95 E1. -/
theorem test_decode_syscfg :
    decodeWord (wordOf [0x06, 0x80, 0x8D, 0x5B, 0x00, 0x3C, 0x00, 0x00, 0x00, 0x04, 0x00, 0x00, 0x00, 0x00, 0x01, 0xE0, 0x00]) =
      .ok (.syscfg 6000000 60 4 256 224) := by decide

/-- 95 2.2. -/
theorem test_decode_start :
    decodeWord (wordOf [0x07]) =
      .ok (.start) := by decide

/-- 95 H3. -/
theorem test_decode_reset :
    decodeWord (wordOf [0x08]) =
      .ok (.reset) := by decide

/-- 95 G3. -/
theorem test_decode_teardown :
    decodeWord (wordOf [0x09]) =
      .ok (.teardown) := by decide

/-- 95 E1. -/
theorem test_decode_map :
    decodeWord (wordOf [0x10, 0x00, 0x00, 0x00, 0x00, 0x00, 0x80, 0x00, 0x00, 0xFF, 0xBF, 0x00, 0x00, 0x02, 0x00, 0x00, 0x00, 0x01]) =
      .ok (.map 0 0x8000 0xBFFF 2 1 0) := by decide

/-- 95 M1. -/
theorem test_decode_read :
    decodeWord (wordOf [0x11, 0x01, 0x00, 0x00, 0x00, 0x03]) =
      .ok (.read 1 3) := by decide

/-- 95 E2, with a high byte the operand ignores. -/
theorem test_decode_write :
    decodeWord (wordOf [0x12, 0x00, 0x00, 0x00, 0x00, 0x05, 0x50, 0x00, 0x00, 0x10, 0x00, 0x00, 0x00, 0x99]) =
      .ok (.write 0 0x5005 0x10) := by decide

/-- 95 M2. -/
theorem test_decode_setbank :
    decodeWord (wordOf [0x13, 0x00, 0x00, 0x00, 0x00, 0x1C]) =
      .ok (.setbank 0 0x1C) := by decide

/-- 95 M1. -/
theorem test_decode_fetch :
    decodeWord (wordOf [0x14, 0x00, 0x00, 0x00, 0x00, 0x07]) =
      .ok (.fetch 0 7) := by decide

/-- 95 2.2. -/
theorem test_decode_portdef :
    decodeWord (wordOf [0x15, 0x03, 0x00, 0x00, 0x00, 0x05, 0x00, 0x00, 0x00, 0x00, 0x00, 0x00, 0x00, 0x01, 0x00, 0x00, 0x00, 0x01, 0x00, 0x00, 0x00, 0x01]) =
      .ok (.portdef 3 5 0 1 1 1) := by decide

/-- 95 2.2. -/
theorem test_decode_poke :
    decodeWord (wordOf [0x16, 0x05, 0x00, 0x00, 0x00, 0x04, 0x00, 0x00, 0x00, 0x80]) =
      .ok (.poke 5 4 0x80) := by decide

/-- 95 E1. -/
theorem test_decode_assert :
    decodeWord (wordOf [0x20, 0x00, 0x00, 0x00, 0x00, 0x00, 0x00, 0x00, 0x00, 0xFF, 0x01]) =
      .ok (.assert 0 0 0xFF true) := by decide

/-- 95 I3. -/
theorem test_decode_clear :
    decodeWord (wordOf [0x21, 0x00, 0x00, 0x00, 0x00, 0x02]) =
      .ok (.clear 0 2) := by decide

/-- 95 I3. -/
theorem test_decode_pulse :
    decodeWord (wordOf [0x22, 0x00, 0x00, 0x00, 0x00, 0x03]) =
      .ok (.pulse 0 3) := by decide

/-- 95 I3. -/
theorem test_decode_ack :
    decodeWord (wordOf [0x23, 0x02]) =
      .ok (.ack 2) := by decide

/-- 95 I3. -/
theorem test_decode_lineq :
    decodeWord (wordOf [0x24, 0x01, 0x00, 0x00, 0x00, 0x04]) =
      .ok (.lineq 1 4) := by decide

/-- 95 E1. -/
theorem test_decode_runframe :
    decodeWord (wordOf [0x30]) =
      .ok (.runframe) := by decide

/-- 95 S5. -/
theorem test_decode_timerset :
    decodeWord (wordOf [0x31, 0x03, 0x00, 0x00, 0x00, 0x01, 0x00, 0x00, 0x00, 0x00, 0x00, 0x00, 0x00, 0x01, 0x00, 0x00, 0x00, 0x00, 0x00, 0x00, 0x00, 0x04]) =
      .ok (.timerset 3 1 0 1 0 4 0) := by decide

/-- 95 G2. -/
theorem test_decode_tmcreate :
    decodeWord (wordOf [0x40, 0x01, 0x00, 0x00, 0x00, 0x04, 0x00, 0x02, 0x00, 0x02, 0x00, 0x02, 0x00, 0x00, 0x00, 0x00, 0x00, 0x00, 0x00, 0x00, 0x00, 0x02, 0x00, 0x01, 0x01]) =
      .ok (.tmcreate 1 4 2 2 2 0 0 2 257) := by decide

/-- 95 T3. -/
theorem test_decode_markdirty :
    decodeWord (wordOf [0x41, 0x00, 0x00, 0x00, 0x00, 0x0D]) =
      .ok (.markdirty 0 13) := by decide

/-- 95 T1. -/
theorem test_decode_setscroll :
    decodeWord (wordOf [0x42, 0x00, 0x00, 0x00, 0x00, 0x00, 0x00, 0x00, 0x00, 0x03, 0x00, 0x00, 0x00, 0x01]) =
      .ok (.setscroll 0 0 3 1) := by decide

/-- 95 E2. -/
theorem test_decode_tmcomposite :
    decodeWord (wordOf [0x43, 0x02, 0x00, 0x01, 0x00, 0x03, 0x00, 0x02, 0x00, 0x00, 0x00, 0x00, 0x00, 0x01, 0x00, 0x00, 0x00, 0x05]) =
      .ok (.tmcomposite 2 1 3 2 0 true 5) := by decide

/-- 95 E1. -/
theorem test_decode_spcfg :
    decodeWord (wordOf [0x50, 0x03, 0x00, 0x00, 0x00, 0x00, 0x00, 0x00, 0x00, 0x04, 0x00, 0x40, 0x00, 0x00, 0x00, 0x00, 0x00, 0x01, 0x00, 0x00, 0x00, 0x10, 0x00, 0x10, 0x00, 0x03]) =
      .ok (.spcfg 3 0 4 64 0 1 16 16 true true 0) := by decide

/-- 95 E1. -/
theorem test_decode_spcomposite :
    decodeWord (wordOf [0x51, 0x00, 0x00, 0x00, 0x00, 0xFF, 0x00, 0xDF, 0x00, 0x01, 0x01]) =
      .ok (.spcomposite 0 0 255 223 true 1) := by decide

/-- 95 S4. -/
theorem test_decode_render :
    decodeWord (wordOf [0x60]) =
      .ok (.render) := by decide

/-- 95 E3: only bit 0 is read. -/
theorem test_decode_setflip :
    decodeWord (wordOf [0x61, 0xFE, 0xFF, 0xFF, 0xFF]) =
      .ok (.setflip false) := by decide

/-- 95 2.2. -/
theorem test_decode_setpen :
    decodeWord (wordOf [0x62, 0x03, 0x00, 0x00, 0x00, 0x3F, 0x00, 0x00, 0x00, 0xFF]) =
      .ok (.setpen 3 63 255) := by decide

/-- 95 F1: rgb is 24 bits. -/
theorem test_decode_setpal :
    decodeWord (wordOf [0x63, 0x10, 0x00, 0x00, 0x00, 0x56, 0x34, 0x12, 0xFF]) =
      .ok (.setpal 0x10 0x123456) := by decide

/-- 95 F2. -/
theorem test_decode_rstep :
    decodeWord (wordOf [0x64, 0x00, 0x00, 0x00, 0x00, 0x00, 0x00, 0x00, 0x00, 0x01, 0x00, 0x00, 0x00, 0x05]) =
      .ok (.rstep 0 0 1 5 0) := by decide

/-- 95 H3. -/
theorem test_decode_input :
    decodeWord (wordOf [0x70, 0x01, 0x00, 0x00, 0x00, 0x99]) =
      .ok (.input 1 0x99) := by decide

/-- 95 M2. -/
theorem test_decode_scramble :
    decodeWord (wordOf [0x71, 0x12]) =
      .ok (.scramble 0x12) := by decide

/-- 95 H1. -/
theorem test_decode_snapshot :
    decodeWord (wordOf [0x72]) =
      .ok (.snapshot) := by decide

/-- 95 H2. -/
theorem test_decode_restore :
    decodeWord (wordOf [0x73]) =
      .ok (.restore) := by decide

/-- 95 2.2. -/
theorem test_decode_savereg :
    decodeWord (wordOf [0x74, 0x05, 0x00, 0x00, 0x00, 0x01]) =
      .ok (.savereg 5 1) := by decide

/-- 95 E3: an opcode that is no command's. -/
theorem test_decode_illegal : decodeWord (wordOf [0x17, 0x01]) = .error (.illegalOpcode 0x17) := by decide
/-- 95 E3: unnamed arguments are ignored. -/
theorem test_decode_ignored_arguments :
    decodeWord (wordOf [0x11, 0x00, 0x00, 0x00, 0x00, 0x03, 0x00, 0x00, 0x00, 0xEF, 0xBE, 0xAD, 0xDE]) =
      .ok (.read 0 3) := by decide
/-- 30_encoding R134: fewer than 33 bytes are no command. -/
theorem test_decode_short : decode (List.replicate 32 0x30) = .error .tooShort := by decide
/-- A word of spec/opcode_table.json. -/
theorem test_table_word : decodeTableWord 8 0x30 = some .runframe := by decide

/-! ## Small states and a small environment -/

/-- A small instance. -/
def tp : Params where
  openBus := 0xFF
  oorPolicy := .wrap
  ndev := 2
  nspace := 2
  nregion := 2
  nbank := 2
  nhandler := 9
  ntimer := 2
  nlatch := 1
  nin := 1
  nrstep := 2
  nsave := 2
  nentry := 12
  nlayer := 2
  ngroup := 2
  npens := 2
  npal := 4
  nline := [3]
  resetPc := [0x100]
  samples := [0, 800]
  romimg := [(1, [0x80, 0x81])]
  resolveIds := [0]
  decodeIds := [0]
  extIds := [0]
  gfx := [(0, ⟨4, 1, 2⟩)]
  scr := (List.replicate 256 0).set 0x12 0x48

/-- That instance at power-on. -/
def cold : State := State.powerOn tp

/-- The ranges of space 0 of the test machine. -/
def testEntries : List Entry :=
  [⟨0, 0, 3, .ram, 0, 0⟩, ⟨0, 4, 5, .bankedRom, 0, 0⟩, ⟨0, 6, 6, .readWriteHandler, 0, 0⟩,
    ⟨0, 7, 7, .readWriteHandler, 1, 0⟩, ⟨0, 8, 8, .readWriteHandler, 2, 0⟩,
    ⟨0, 9, 9, .readWriteHandler, 3, 0⟩, ⟨0, 10, 10, .readWriteHandler, 4, 0⟩,
    ⟨0, 11, 11, .readWriteHandler, 5, 0⟩, ⟨0, 12, 12, .readWriteHandler, 6, 0⟩,
    ⟨0, 13, 13, .readWriteHandler, 7, 0⟩]

/-- It in Run with one of everything: CPU 0 and sound device 1, space 0 of 16 bytes with RAM at 0 to 3, a bank
window at 4 and 5, the port kinds EXT to INPUT at 6 to 13, nothing at 14 and 15; a screen of one pixel. -/
def tm : State :=
  { cold with
    phase := .run
    dev := [⟨1, .cpu, 59⟩, ⟨2, .sound, 1⟩]
    lines := [[idleLine, idleLine, idleLine], []]
    carry := [0, 0]
    cpuObs := [[], []]
    regions := [⟨true, 4, false, 0⟩, noRegion]
    mem := [(0, 0x10), (1, 0x11), (2, 0x12), (3, 0x13)]
    banks := [⟨true, 0, 2, 0⟩, noBank]
    spaces := [⟨true, 0, 4⟩, noSpace]
    entries := testEntries
    ports := [⟨true, .ext, 0, 0, 0, 0⟩, ⟨true, .tileram, 0, 0, 0, 0⟩, ⟨true, .banksel, 0, 3, 1, 0⟩,
      ⟨true, .irqack, 0, 0, 0, 0⟩, ⟨true, .scroll, 0, 0, 0, 0⟩, ⟨true, .latch, 0, 1, 0, 1⟩,
      ⟨true, .flip, 0, 0, 0, 0⟩, ⟨true, .input, 0, 0, 0, 0⟩, noPort]
    masterHz := 600
    frameHz := 60
    slices := 1
    sw := 1
    sh := 1
    syscfgDone := true
    layers := [⟨true, 1, 1, 1, 1, 0, 0, .whole, 1⟩, noLayer]
    scroll := [[⟨0x1234, 0x5678⟩], []]
    dirty := [[true], []]
    cache := [[⟨0, 0, false, false, 0⟩], []]
    spr := ⟨true, 0, 0, 2, 1, 0, 0, 1, 1, true, false, 0⟩
    fb := [⟨0, 0⟩]
    palette := [0x00FF00, 0x010101, 0x020202, 0x030303]
    lookup := [0, 1, 2, 3]
    rsteps := [⟨true, .fill, 1, 1, 0⟩, noRStep]
    save := [⟨.flip, 0⟩, ⟨.region, 0⟩] }

/-- The same tables in phase Config. -/
def tc : State := { tm with phase := .config }

/-- It with a command presented. -/
def tq (w : CmdWord) : State := { tm with inq := [⟨w, []⟩] }

/-- It with line l of CPU 0 in a state, with a vector. -/
def tline (l : Nat) (st : LineState) : State := withLine 0 l ⟨st, true, 0x38⟩ tm

/-- It with every 16-bit colour group, and no pen, so that its lookup table is small. -/
def tw : State := { tm with params := { tp with ngroup := 65536, npens := 0 }, lookup := [] }

/-- An environment that answers constants. -/
def te : Env where
  freeByte _ _ := 0xEE
  freePixel _ _ := (0, 0)
  freeTile _ _ _ := ⟨0, 0, false, false, 0⟩
  vecfn _ := none
  resolve _ _ _ := ⟨5, 1, false, false, 0⟩
  gfxPen _ _ _ _ _ := 1
  decode _ _ _ := ⟨2, 0, 0, false, false, 1, 3, 0, true⟩
  cpu _ _ := ⟨none, 12⟩
  cpuBound _ _ := 1
  ext _ _ _ := ⟨0xA1, [encode (.setflip true), encode .reset], 7⟩

/-- The state an outcome leaves. -/
def after (o : Host.Outcome State Fault Refusal) : State :=
  match o with
  | .next t => t
  | .fault _ => cold
  | .refused _ => cold

/-- The state a body leaves as a host command. -/
def ran (s : State) (body : State → Res Answer) : State := endCommand s (body s)

/-! ## One step of each command -/

/-- 95 G1: the handle is R0. -/
theorem test_regdev : (after (exec (.regdev 9 0 5) cold)).r0 = 0 ∧
    (after (exec (.regdev 9 0 5) cold)).lines = [[idleLine, idleLine, idleLine]] := by decide
/-- 95 G1: a reserved kind. -/
theorem test_regdev_bad_kind : (after (exec (.regdev 9 3 5) cold)).cfgErr = 0x15 := by decide
theorem test_lookup : (after (exec (.lookup 2) tm)).r0 = 1 := by decide
/-- 95 G1. -/
theorem test_lookup_absent : (after (exec (.lookup 9) tm)).status = 0x11 := by decide
theorem test_region_image : (after (exec (.region 1 2 1) tc)).mem.drop 4 =
    [(2 ^ 32, 0x80), (2 ^ 32 + 1, 0x81)] := by decide
/-- 95 G2. -/
theorem test_region_overflow : (after (exec (.region 1 1 1) tc)).status = 0x13 := by decide
theorem test_bankdef : (after (exec (.bankdef 1 0 8) tc)).banks = [⟨true, 0, 2, 0⟩, ⟨true, 0, 8, 0⟩] := by
  decide
/-- 95 G2. -/
theorem test_spacedef_aw : (after (exec (.spacedef 1 0 33) tc)).status = 0x17 := by decide
theorem test_syscfg : (after (exec (.syscfg 6 2 4 256 224) tc)).sw = 256 ∧
    (after (exec (.syscfg 6 2 4 256 224) tc)).sh = 224 := by decide
/-- 95 G2. -/
theorem test_syscfg_screen : (after (exec (.syscfg 6 2 4 8 32768) tc)).status = 0x17 := by decide
/-- 95 section 2.2, command 608. -/
theorem test_start : (after (exec .start tc)).events = [.setPc 0 0x100] ∧
    (after (exec .start tc)).phase = .run := by decide
/-- 95 G1. -/
theorem test_start_incomplete : (after (exec .start cold)).status = 0x1C := by decide
/-- 95 H3: level 0 for the active line, then the program counters. -/
theorem test_reset : (after (exec .reset (tline 0 .pending))).events = [.setPc 0 0x100, .irqLine 0 0 false] ∧
    (after (exec .reset (tline 0 .pending))).dirty = [[true], []] := by decide
theorem test_teardown : (after (exec .teardown tm)).phase = .down := by decide
theorem test_map : (after (exec (.map 0 12 15 1 0 0) tc)).entries.drop 10 = [⟨0, 12, 15, .ram, 0, 0⟩] := by
  decide
/-- 95 G2: one byte more than the region has. -/
theorem test_map_overflow : (after (exec (.map 0 0 3 1 0 1) tc)).status = 0x13 := by decide
theorem test_read_ram : (after (exec (.read 0 3) tm)).r0 = 0x13 := by decide
/-- 95 M1: open bus, and an address reduced modulo the space. -/
theorem test_read_unmapped : (after (exec (.read 0 0x1F) tm)).r0 = 0xFF ∧
    (after (exec (.read 0 0x1F) tm)).events = [.diag 0x20 0 15] := by decide
theorem test_write_ram : (after (exec (.write 0 2 0x5A) tm)).mem =
    [(0, 0x10), (1, 0x11), (2, 0x5A), (3, 0x13)] := by decide
/-- 95 M2: LATCH stores, then pulses the NMI. -/
theorem test_write_latch : (after (exec (.write 0 11 7) tm)).latch = [7] ∧
    (after (exec (.write 0 11 7) tm)).events = [.irqLine 0 1 true] := by decide
theorem test_setbank : (after (exec (.setbank 0 2) tm)).banks = [⟨true, 0, 2, 2⟩, noBank] := by decide
theorem test_fetch_bank_wraps : (after (exec (.fetch 0 5) (setBankOffset 0 3 tm))).r0 = 0x10 := by decide
/-- 95 M3: EXT[0] answers a byte, and of its commands the one it may not issue is a diagnostic. -/
theorem test_read_ext : (ran tm (readBody te 0 6)).r0 = 0xA1 ∧ (ran tm (readBody te 0 6)).flip = true ∧
    (ran tm (readBody te 0 6)).events = [.diag 0x19 0x08 0] := by decide
/-- 95 G2: LATCH notify 3. -/
theorem test_portdef_notify : (after (exec (.portdef 8 5 0 3 0 0) tc)).status = 0x16 := by decide
theorem test_portdef : (after (exec (.portdef 8 3 0 1 0 0) tc)).ports.drop 8 = [⟨true, .irqack, 0, 1, 0, 0⟩] := by
  decide
/-- 95 M2: offset = size. -/
theorem test_poke_past : (after (exec (.poke 0 4 0) tm)).status = 0x17 := by decide
theorem test_poke : (after (exec (.poke 0 0 0xAA) tm)).mem.take 1 = [(0, 0xAA)] := by decide
/-- 95 I1, step 6: a level replaces the pulse without a notification. -/
theorem test_assert : lineAt (after (exec (.assert 0 0 0x38 true) (tline 0 .pending))) 0 0 = ⟨.asserted, true, 0x38⟩ ∧
    (after (exec (.assert 0 0 0x38 true) (tline 0 .pending))).events = [] := by decide
/-- 95 I1, step 20: without a vector the stored one is erased. -/
theorem test_assert_no_vector : lineAt (after (exec (.assert 0 0 0xAA false) tm)) 0 0 = ⟨.asserted, false, 0⟩ := by
  decide
/-- 95 I1, step 12: the vector stays. -/
theorem test_clear : lineAt (after (exec (.clear 0 0) (tline 0 .asserted))) 0 0 = ⟨.idle, true, 0x38⟩ ∧
    (after (exec (.clear 0 0) (tline 0 .asserted))).events = [.irqLine 0 0 false] := by decide
theorem test_pulse : lineAt (after (exec (.pulse 0 2) tm)) 0 2 = ⟨.pending, false, 0⟩ ∧
    (after (exec (.pulse 0 2) tm)).cpuObs = [[.irqLine 2 true], []] := by decide
/-- 95 I1, step 15. -/
theorem test_ack : (ran (tline 1 .pending) (ackBody te 0)).r0 = 0x38 ∧
    (ran (tline 1 .pending) (ackBody te 0)).events = [.ack 0 1 0x38, .irqLine 0 1 false] := by decide
/-- 95 I1, step 16: spurious. -/
theorem test_ack_none : (ran tm (ackBody te 0)).r0 = 0xFF ∧ (ran tm (ackBody te 0)).r1 = 0x100 := by decide
/-- 95 I1, step 8. -/
theorem test_lineq : (after (exec (.lineq 0 0) (tline 0 .asserted))).r0 = 3 ∧
    (after (exec (.lineq 0 0) (tline 0 .asserted))).r1 = 0x138 := by decide
/-- 43_scheduler R230 to R238: FC = 10 and the CPU has no cycle; a timer due at 10 fires once. -/
theorem test_runframe :
    (ran { tm with timers := [⟨true, 10, 10, .pulse, 0, 0, 0⟩, disarmedTimer] } (runframeBody te)).events =
      [.samples 1 800, .frame [[0x030303]], .irqLine 0 0 true, .timerFire 0] := by decide
/-- 95 S3: an overrun is carried: 12 cycles for a budget of 5. -/
theorem test_runframe_carry :
    (ran { tm with dev := [⟨1, .cpu, 300⟩, ⟨2, .sound, 1⟩] } (runframeBody te)).carry = [7, 0] := by decide
theorem test_timerset : (after (exec (.timerset 1 5 0 2 0 2 0) { tm with now := 7 })).timers.drop 1 =
    [⟨true, 12, 0, .clear, 0, 2, 0⟩] := by decide
/-- 95 S5: line past the CPU's. -/
theorem test_timerset_line : (after (exec (.timerset 1 5 0 1 0 3 0) tm)).status = 0x16 := by decide
theorem test_tmcreate : (ran tc (tmcreateBody te 1 2 3 8 8 0 0 1 2)).scroll.drop 1 = [[⟨0, 0⟩, ⟨0, 0⟩]] ∧
    (ran tc (tmcreateBody te 1 2 3 8 8 0 0 1 2)).dirty.drop 1 = [List.replicate 6 true] := by decide
/-- 95 G2: W * TW above 65536. -/
theorem test_tmcreate_size : (after (exec (.tmcreate 1 8193 2 8 2 0 0 0 0) tc)).status = 0x17 := by decide
/-- 95 T3: an index past the grid wraps, with its diagnostic. -/
theorem test_markdirty : (after (exec (.markdirty 0 13) (setDirty 0 0 false tm))).dirty = [[true], []] ∧
    (after (exec (.markdirty 0 13) tm)).events = [.diag 0x22 13 1] := by decide
theorem test_setscroll : (after (exec (.setscroll 0 0 3 1) tm)).scroll = [[⟨3, 1⟩], []] := by decide
/-- 95 T1: WHOLE has entry 0 only. -/
theorem test_setscroll_entry : (after (exec (.setscroll 0 1 0 0) tm)).status = 0x17 := by decide
/-- 95 T3: code 5 of 4 wraps to 1 with its diagnostic, at resolve time. -/
theorem test_tmcomposite : (ran tm (tmcompositeBody te 0 0 9 9 0 false 0)).fb = [⟨1, 1⟩] ∧
    (ran tm (tmcompositeBody te 0 0 9 9 0 false 0)).events = [.diag 0x22 5 4] := by decide
/-- 44_tilemap R266: the transparent pen is skipped. -/
theorem test_tmcomposite_pen : (ran tm (tmcompositeBody te 0 0 9 9 0 true 1)).fb = [⟨0, 0⟩] := by decide
/-- 95 G2. -/
theorem test_spcfg_twice : (after (exec (.spcfg 0 0 2 1 0 0 1 1 true false 0) tc)).status = 0x16 := by decide
theorem test_spcfg : (after (exec (.spcfg 0 9 2 1 0 0 3 4 true false 5) { tc with spr := noSpriteCfg })).spr =
    ⟨true, 0, 9, 2, 1, 0, 0, 3, 4, true, false, 5⟩ := by decide
theorem test_spcomposite : (ran tm (spcompositeBody te 0 0 9 9 false 0)).fb = [⟨1, 1⟩] := by decide
/-- 95 B2: another priority is skipped. -/
theorem test_spcomposite_only : (ran tm (spcompositeBody te 0 0 9 9 true 2)).fb = [⟨0, 0⟩] := by decide
/-- 46_frame R312: group 1, pen 1 is lookup entry 3. -/
theorem test_render : (after (exec .render tm)).events = [.frame [[0x030303]]] := by decide
theorem test_setflip : (after (exec (.setflip true) tm)).flip = true := by decide
theorem test_setpen : (after (exec (.setpen 1 0 3) tm)).lookup = [0, 1, 3, 3] := by decide
/-- 95 F1. -/
theorem test_setpen_index : (after (exec (.setpen 1 0 4) tm)).status = 0x17 := by decide
theorem test_setpal : (after (exec (.setpal 2 0x123456) tm)).palette = [0x00FF00, 0x010101, 0x123456, 0x030303] := by
  decide
theorem test_rstep : (after (exec (.rstep 1 1 0 1 5) tc)).rsteps.drop 1 = [⟨true, .layer, 0, 1, 5⟩] := by decide
/-- 95 G2: FILL group NGROUP. -/
theorem test_rstep_group : (after (exec (.rstep 1 0 2 0 0) tc)).status = 0x17 := by decide
theorem test_input : (after (exec (.input 0 0x12) tm)).inp = [0x12] := by decide
/-- 95 M2. -/
theorem test_scramble : (after (exec (.scramble 0x12) tm)).r0 = 0x48 := by decide
/-- 47_host R336: the flip byte, then the four bytes of region 0. -/
theorem test_snapshot : (after (exec .snapshot tm)).payloadOut = [0, 0x10, 0x11, 0x12, 0x13] ∧
    (after (exec .snapshot tm)).r0 = 5 := by decide
theorem test_restore : (after (exec .restore { tm with payloadIn := [1, 9, 8, 7, 6] })).flip = true ∧
    (after (exec .restore { tm with payloadIn := [1, 9, 8, 7, 6] })).mem = [(0, 9), (1, 8), (2, 7), (3, 6)] := by
  decide
/-- 95 H2: FLIP byte 2. -/
theorem test_restore_range : (after (exec .restore { tm with payloadIn := [2, 9, 8, 7, 6] })).status = 0x17 := by
  decide
/-- 47_host R332: FLIP keeps identifier 0. -/
theorem test_savereg : (after (exec (.savereg 3 9) { tc with save := [] })).save = [⟨.flip, 0⟩] := by decide
/-- 95 G2. -/
theorem test_savereg_class : (after (exec (.savereg 8 0) tc)).status = 0x15 := by decide
/-- The step runs the word the host presents. -/
theorem test_step_setflip : (after (step (cold.withFetchWord 264 0x161))).flip = true := by decide

/-! ## Witnesses: states and operands that meet the hypotheses of the statements -/

/-- The tables of `tm` have their sizes. -/
theorem shaped_tm : Shaped tm where
  regions := rfl
  banks := rfl
  spaces := rfl
  ports := rfl
  latch := rfl
  inp := rfl
  timers := rfl
  layers := rfl
  scroll := rfl
  dirty := rfl
  cache := rfl
  palette := rfl
  lookup := rfl
  rsteps := rfl
  dev := by decide
  entries := by decide
  save := by decide
  lines := rfl
  carry := rfl
  cpuObs := rfl
  lineRows := fun c h => by
    match c with
    | 0 => rfl
    | 1 => exact absurd h (by decide)
    | c + 2 => exact absurd (show isCpu tm (c + 2) = false from rfl) (by simp [h])
  layerRows := fun L h => by
    match L with
    | 0 => exact ⟨by decide, rfl, rfl, rfl⟩
    | 1 => exact absurd h (by decide)
    | L + 2 =>
      have hL : ¬(L + 2 < tm.params.nlayer) := by
        change ¬(L + 2 < 2)
        omega
      exact absurd h (by simp [layerOk, hL])
  saved := by decide
  savedOnce := by decide
  screen := fun _ => rfl

/-- So do those of `tw`. -/
theorem shaped_tw : Shaped tw :=
  { regions := rfl, banks := rfl, spaces := rfl, ports := rfl, latch := rfl, inp := rfl, timers := rfl
    layers := rfl, scroll := rfl, dirty := rfl, cache := rfl, palette := rfl
    lookup := rfl
    rsteps := rfl, dev := shaped_tm.dev, entries := shaped_tm.entries, save := shaped_tm.save
    lines := rfl, carry := rfl, cpuObs := rfl
    lineRows := shaped_tm.lineRows
    layerRows := fun L h => ⟨(shaped_tm.layerRows L h).sizes, (shaped_tm.layerRows L h).scroll,
      (shaped_tm.layerRows L h).dirty, (shaped_tm.layerRows L h).cache⟩
    saved := shaped_tm.saved, savedOnce := shaped_tm.savedOnce, screen := fun _ => rfl }

/-- The lines and the lookup of `tm` are legal. -/
theorem lines_tm : linesOk tm ∧ lookupOk tm := by
  constructor
  · unfold linesOk; decide
  · intro v hv
    change v ∈ ([0, 1, 2, 3] : List Word16) at hv
    simp only [List.mem_cons, List.not_mem_nil, or_false] at hv
    rcases hv with rfl | rfl | rfl | rfl <;> decide

/-- The entries of `tm` are as MAP checked them. -/
theorem entries_tm : entriesOk tm := by
  intro e he
  change e ∈ testEntries at he
  simp only [testEntries, List.mem_cons, List.not_mem_nil, or_false] at he
  rcases he with rfl | rfl | rfl | rfl | rfl | rfl | rfl | rfl | rfl | rfl <;>
    (simp only [entryOk]; decide)

theorem witness_DecodeEncode : (encodeBytes (.lookup 1) ++ [7]).length = 34 := by decide
theorem witness_IllegalOpcodes :
    (opcodeOf 0x74 ∈ definedOpcodes ∧ opcodeOf 0 ∉ definedOpcodes ∧ opcodeOf 0x75 ∉ definedOpcodes) ∧
    ((tq 0x75).inq = ⟨0x75, []⟩ :: [] ∧ configOrRun (tq 0x75) ∧ ({ tq 0x75 with phase := .fatal } : State).phase = .fatal ∧
      ({ tq 0x75 with phase := .down } : State).phase = .down) :=
  ⟨by decide, rfl, .inr rfl, rfl, rfl⟩
theorem witness_StepRunsDecoded :
    tm.inq = [] ∧ (tq 0x30).inq = ⟨0x30, []⟩ :: [] ∧ decodeWord 0x30 = .ok .runframe := by
  exact ⟨rfl, rfl, by decide⟩
theorem witness_PhaseLegality :
    ({ tm with phase := .down } : State).phase = .down ∧
    (({ tm with phase := .fatal } : State).phase = .fatal ∧ Instr.render ≠ .teardown) ∧
    (tc.phase = .config ∧ legality .render = .runOnly) ∧ (tm.phase = .run ∧ legality .start = .configOnly) := by decide
theorem witness_LifeCycle :
    (∃ t, step (tq 0x09) = .next t) ∧
    (∃ t, step { tm with cfgErr := 0x10 } = .next t) ∧ ({ tm with cfgErr := 0x10 } : State).cfgErr ≠ 0 ∧
    (∃ t, step { tm with phase := .fatal } = .next t) ∧ (∃ t, step { tm with phase := .down } = .next t) :=
  ⟨⟨_, rfl⟩, ⟨_, rfl⟩, by decide, ⟨_, rfl⟩, ⟨_, rfl⟩⟩
theorem witness_EventsOnlyGrow : ∃ t, step (tq 0x60) = .next t := ⟨_, rfl⟩
theorem witness_ConfigurationFixed : (tq 0x60).phase ≠ .config ∧ ∃ t, step (tq 0x60) = .next t := ⟨by decide, _, rfl⟩
theorem witness_MemoryStaysCanonical : memoryOk (tq 0x73) ∧ ∃ t, step (tq 0x73) = .next t :=
  ⟨by unfold memoryOk; decide, _, rfl⟩
theorem witness_LinesAndLookupStayLegal :
    linesOk (tq 0x73) ∧ lookupOk (tq 0x73) ∧ ∃ t, step (tq 0x73) = .next t :=
  ⟨lines_tm.1, lines_tm.2, _, rfl⟩
theorem witness_TablesStayShaped : Shaped tm ∧ ∃ t, step tm = .next t := ⟨shaped_tm, _, rfl⟩
theorem witness_EntriesStayInBounds : entriesOk tm ∧ ∃ t, step tm = .next t := ⟨entries_tm, _, rfl⟩
/-- The parameters of `tm` are legal. -/
theorem legal_tm : tm.params.Legal := by
  constructor
  case scr => exact List.length_set.trans List.length_replicate
  all_goals decide
theorem witness_EntriesStayInBounds_fit : tm.params.Legal ∧ entriesFit tm ∧ ∃ t, step tm = .next t := by
  refine ⟨legal_tm, fun e he => ⟨entries_tm e he, ?_⟩, _, rfl⟩
  change e ∈ testEntries at he
  simp only [testEntries, List.mem_cons, List.not_mem_nil, or_false] at he
  rcases he with rfl | rfl | rfl | rfl | rfl | rfl | rfl | rfl | rfl | rfl <;> (unfold entryFits; decide)

theorem witness_RegdevAndLookup_errors :
    tc.phase = .config ∧ (∃ d ∈ tc.dev, d.tag = 1) ∧
    ((2 : BitVec 2) ≠ 3 ∧ (∀ d ∈ tc.dev, d.tag ≠ 9) ∧ tc.dev.length = tc.params.ndev) := by decide
theorem witness_RegdevAndLookup_runs :
    (cold.phase = .config ∧ devKindOf 2 = some .other ∧ (∀ d ∈ cold.dev, d.tag ≠ 9) ∧
      cold.dev.length ≠ cold.params.ndev) ∧
    ({ tc with dev := [⟨1, .cpu, 59⟩] } : State).dev.length + 1 = tc.params.ndev := by decide
theorem witness_RegdevAndLookup_lookup :
    configOrRun tm ∧ (tm.dev = [⟨1, .cpu, 59⟩] ++ ⟨2, .sound, 1⟩ :: [] ∧
      (∀ x ∈ ([⟨1, .cpu, 59⟩] : List Device), x.tag ≠ 2)) ∧ (∀ d ∈ tm.dev, d.tag ≠ 9) :=
  ⟨.inr rfl, by decide, by decide⟩
theorem witness_RegionMakesASlot :
    (tc.phase = .config ∧ (1 : Word32).toNat < tc.params.nregion ∧ (regionAt tc 1).valid = false ∧
      (1 : Word32) ≠ 0) ∧
    (tc.params.romimgOf (1 : Word32).toNat = some [0x80, 0x81] ∧
      ([0x80, 0x81] : List Byte).length ≤ (2 : Word32).toNat) ∧
    (([0x80, 0x81] : List Byte)[1]? = some 0x81) ∧
    (tc.params.nregion ≤ (2 : Word32).toNat ∧ (regionAt tc 0).valid = true) ∧
    tc.params.romimgOf (9 : Word32).toNat = none ∧
    (1 : Word32).toNat < ([0x80, 0x81] : List Byte).length := by decide
theorem witness_BankdefAndSpacedef :
    (tc.params.nbank ≤ (2 : Word32).toNat ∧ (bankAt tc 0).valid = true) ∧
    ((1 : Word32).toNat < tc.params.nbank ∧ (bankAt tc 1).valid = false ∧ regionOk tc 1 = false ∧ regionOk tc 0 = true) ∧
    (tc.params.nspace ≤ (2 : Word32).toNat ∧ (spaceAt tc 0).valid = true) ∧
    ((1 : Word32).toNat < tc.params.nspace ∧ (spaceAt tc 1).valid = false ∧ isCpu tc 1 = false ∧ isCpu tc 0 = true) ∧
    (32 < (33 : BitVec 6).toNat ∧ 1 ≤ (1 : BitVec 6).toNat ∧ (32 : BitVec 6).toNat ≤ 32) := by decide
theorem witness_SyscfgWritesTheClocks :
    tc.phase = .config ∧ (1 : Word32) ≠ 0 ∧ (1 : Word16) ≠ 0 ∧ 1 ≤ (1 : Word16).toNat ∧ (32767 : Word16).toNat ≤ 32767 ∧
    32767 < (32768 : Word16).toNat := by decide
theorem witness_StartEntersRun :
    (tc.phase = .config ∧ ({ tc with cfgErr := 0x10 } : State).cfgErr ≠ 0) ∧
    (cold.phase = .config ∧ cold.cfgErr = 0 ∧ cold.syscfgDone = false) ∧
    (tc.cfgErr = 0 ∧ tc.syscfgDone = true ∧ isCpu tc 0 = true) ∧
    (∀ c, isCpu { cold with syscfgDone := true } c = false) :=
  ⟨by decide, by decide, by decide, fun c => by simp [isCpu, cold, State.powerOn]⟩
theorem witness_ResetKeepsTheSaved : tm.phase = .run ∧ linesOk tm := ⟨rfl, lines_tm.1⟩
/-- 40_config R157: one notification for the active line, none where the lines are saved. -/
theorem witness_ResetKeepsTheSaved_notices :
    resetNotices (tline 2 .pending) = [.irqLine 0 2 false] ∧
    resetNotices { tline 2 .pending with save := [⟨.lines, 0⟩] } = [] := by decide
theorem witness_ResetKeepsTheSaved_clauses :
    ((regionAt tm 0).img = true ∨ saved tm .region 0 = true) ∧ isCpu tm 0 = true ∧
    (2 : Nat) < tm.params.nlineOf 0 ∧ saved tm .lines 0 = false ∧ saved tm .bank 0 = false := by decide
theorem witness_TeardownGoesDown :
    tm.phase ≠ .down ∧ tc.phase ≠ .down ∧ ({ tm with phase := .fatal } : State).phase ≠ .down := by decide

theorem witness_MapAppendsAnEntry_runs :
    (tc.phase = .config ∧ spaceOk tc 0 = true ∧ tc.entries.length ≠ tc.params.nentry) ∧
    (accessKindOf 1 = some .ram ∧ (12 : Word32).toNat ≤ (15 : Word32).toNat ∧
      (15 : Word32).toNat < 2 ^ (spaceAt tc 0).aw.toNat ∧ regionOk tc 0 = true ∧ 0 + (15 - 12 + 1) ≤ regionSize tc 0) ∧
    (accessKindOf 2 = some .bankedRom ∧ bankOk tc 0 = true ∧ 1 - 0 + 1 ≤ (bankAt tc 0).size.toNat) ∧
    (accessKindOf 5 = some .readWriteHandler ∧ portOk tc 7 = true) := by decide
theorem witness_MapAppendsAnEntry_errors :
    spaceOk tc 1 = false ∧ 6 ≤ (6 : BitVec 3).toNat ∧
    ((0 : Word32).toNat < (1 : Word32).toNat ∧ 2 ^ (spaceAt tc 0).aw.toNat ≤ (16 : Word32).toNat) ∧
    (regionOk tc 1 = false ∧ regionSize tc 0 < 1 + (3 - 0 + 1)) ∧
    (bankOk tc 1 = false ∧ (bankAt tc 0).size.toNat < 2 - 0 + 1) ∧ portOk tc 8 = false ∧
    ({ tc with entries := testEntries ++ testEntries.take 2 } : State).entries.length = tc.params.nentry := by
  decide
theorem witness_LastRegisteredWins :
    resolveEntry tm 0 3 servesRead = some ⟨0, 0, 3, .ram, 0, 0⟩ ∧ resolveEntry tm 0 14 servesRead = none := by decide
theorem witness_ReadAndFetchGiveTheByte :
    (tm.phase = .run ∧ spaceOk tm 1 = false ∧ spaceOk tm 0 = true) ∧
    resolveEntry tm 0 ((31 : Word32).toNat % 2 ^ (spaceAt tm 0).aw.toNat) servesRead = none ∧
    resolveEntry tm 0 ((3 : Word32).toNat % 2 ^ (spaceAt tm 0).aw.toNat) servesRead = some ⟨0, 0, 3, .ram, 0, 0⟩ ∧
    resolveEntry tm 0 ((5 : Word32).toNat % 2 ^ (spaceAt tm 0).aw.toNat) servesRead = some ⟨0, 4, 5, .bankedRom, 0, 0⟩ ∧
    resolveEntry tm 0 ((8 : Word32).toNat % 2 ^ (spaceAt tm 0).aw.toNat) servesRead =
      some ⟨0, 8, 8, .readWriteHandler, 2, 0⟩ ∧
    (portAt tm 2).pk ∈ ([.banksel, .irqack, .scroll, .flip] : List PortKind) := by decide
theorem witness_ReadOfAPort :
    (tm.phase = .run ∧ tm.inHandler = false ∧ spaceOk tm 0 = true) ∧
    (resolveEntry tm 0 ((7 : Word32).toNat % 2 ^ (spaceAt tm 0).aw.toNat) servesRead =
      some ⟨0, 7, 7, .readWriteHandler, 1, 0⟩ ∧ (portAt tm 1).pk = .tileram) ∧
    (resolveEntry tm 0 11 servesRead = some ⟨0, 11, 11, .readWriteHandler, 5, 0⟩ ∧ (portAt tm 5).pk = .latch) ∧
    (resolveEntry tm 0 13 servesRead = some ⟨0, 13, 13, .readWriteHandler, 7, 0⟩ ∧ (portAt tm 7).pk = .input ∧
      (portAt tm 7).q1.getLsbD 0 = false) ∧
    (1 : Word32).getLsbD 0 = true := by decide
theorem witness_WriteStoresOneByte :
    (tm.phase = .run ∧ spaceOk tm 1 = false ∧ spaceOk tm 0 = true) ∧
    resolveEntry tm 0 ((5 : Word32).toNat % 2 ^ (spaceAt tm 0).aw.toNat) servesWrite = none ∧
    resolveEntry tm 0 ((3 : Word32).toNat % 2 ^ (spaceAt tm 0).aw.toNat) servesWrite = some ⟨0, 0, 3, .ram, 0, 0⟩ ∧
    entriesOk tm ∧
    (resolveEntry tm 0 ((13 : Word32).toNat % 2 ^ (spaceAt tm 0).aw.toNat) servesWrite =
      some ⟨0, 13, 13, .readWriteHandler, 7, 0⟩ ∧ (portAt tm 7).pk = .input) :=
  ⟨by decide, by decide, by decide +kernel, entries_tm, by decide +kernel⟩
theorem witness_WriteToAPort :
    (tm.phase = .run ∧ tm.inHandler = false ∧ spaceOk tm 0 = true) ∧
    (resolveEntry tm 0 ((7 : Word32).toNat % 2 ^ (spaceAt tm 0).aw.toNat) servesWrite =
      some ⟨0, 7, 7, .readWriteHandler, 1, 0⟩ ∧ (portAt tm 1).pk = .tileram ∧ layerOk tm 0 = true ∧
      (7 - 7) >>> (0 % 32) < cellCount (layerAt tm 0) ∧ cellCount (layerAt tm 0) ≤ (8 - 7) >>> (0 % 32)) ∧
    ((portAt tm 2).pk = .banksel ∧ bankOk tm 0 = true) ∧
    ((portAt (tline 0 .asserted) 3).pk = .irqack ∧ lineOk (tline 0 .asserted) 0 0 = true ∧
      (lineAt (tline 0 .asserted) 0 0).st = .asserted ∧ (lineAt (tline 0 .pending) 0 0).st = .pending ∧
      (lineAt tm 0 0).st = .idle) ∧
    (portAt tm 4).pk = .scroll ∧
    ((portAt tm 5).pk = .latch ∧ (portAt tm 5).q1 = 1 ∧ lineOk tm 0 1 = true ∧ (lineAt tm 0 1).st = .idle ∧
      (lineAt (tline 1 .pending) 0 1).st = .pending ∧ (lineAt (tline 1 .asserted) 0 1).st = .asserted) ∧
    (portAt tm 6).pk = .flip := by decide
/-- A LATCH port with notify 2, as PORTDEF makes it. -/
theorem witness_WriteToAPort_latch :
    let s : State := { tm with ports := tm.ports.set 5 ⟨true, .latch, 0, 2, 0, 2⟩ }
    resolveEntry s 0 ((11 : Word32).toNat % 2 ^ (spaceAt s 0).aw.toNat) servesWrite =
      some ⟨0, 11, 11, .readWriteHandler, 5, 0⟩ ∧
    (portAt s 5).pk = .latch ∧ (portAt s 5).q1 = 2 ∧ lineOk s 0 2 = true := by decide
theorem witness_ExtPortRunsItsCommands :
    (tm.phase = .run ∧ spaceOk tm 0 = true ∧ (portAt tm 0).pk = .ext ∧
      resolveEntry tm 0 ((6 : Word32).toNat % 2 ^ (spaceAt tm 0).aw.toNat) servesRead =
        some ⟨0, 6, 6, .readWriteHandler, 0, 0⟩ ∧
      resolveEntry tm 0 ((6 : Word32).toNat % 2 ^ (spaceAt tm 0).aw.toNat) servesWrite =
        some ⟨0, 6, 6, .readWriteHandler, 0, 0⟩) ∧
    (opcodeOf 0x61 ≠ 0x30 ∧ opcodeOf 0x08 ≠ 0x30 ∧ opcodeOf 0x30 = 0x30) := by decide
theorem witness_SetbankSeenByNextRead :
    configOrRun tm ∧ bankOk tm 0 = true ∧ bankOk tm 1 = false ∧ bankOk tm 2 = false ∧ spaceOk tm 0 = true ∧
    resolveEntry tm 0 ((4 : Word32).toNat % 2 ^ (spaceAt tm 0).aw.toNat) servesRead = some ⟨0, 4, 5, .bankedRom, 0, 0⟩ :=
  ⟨.inr rfl, by decide⟩
theorem witness_BusIsolation :
    let s : State := { tm with entries := [⟨0, 0, 1, .ram, 0, 0⟩, ⟨0, 2, 3, .ram, 0, 2⟩] }
    entriesOk s ∧ spaceOk s 0 = true ∧
    resolveEntry s 0 ((1 : Word32).toNat % 2 ^ (spaceAt s 0).aw.toNat) servesWrite = some ⟨0, 0, 1, .ram, 0, 0⟩ ∧
    resolveEntry s 0 ((2 : Word32).toNat % 2 ^ (spaceAt s 0).aw.toNat) servesRead = some ⟨0, 2, 3, .ram, 0, 2⟩ ∧
    (0 : Word32).toNat + (1 - 0) < (2 : Word32).toNat := by
  refine ⟨?_, by decide⟩
  intro e he
  simp only [List.mem_cons, List.not_mem_nil, or_false] at he
  rcases he with rfl | rfl <;> (simp only [entryOk]; decide)
theorem witness_PortdefDefinesAPort :
    (tc.phase = .config ∧ tc.params.nhandler ≤ (9 : Word32).toNat ∧ (portAt tc 0).valid = true) ∧
    ((8 : Word32).toNat < tc.params.nhandler ∧ (portAt tc 8).valid = false) ∧
    (portKindOf 0 = .ext ∧ (0 : Word32).toNat ∈ tc.params.extIds ∧ (1 : Word32).toNat ∉ tc.params.extIds) ∧
    (portKindOf 1 = .tileram ∧ layerOk tc 0 = true ∧ regionOk tc 0 = true ∧ regionOk tc 1 = false) ∧
    (portKindOf 2 = .banksel ∧ bankOk tc 0 = true ∧ bankOk tc 1 = false) ∧
    (portKindOf 3 = .irqack ∧ lineOk tc 0 2 = true ∧ lineOk tc 0 3 = false) ∧
    (portKindOf 4 = .scroll ∧ (0 : Word32).toNat < (layerAt tc 0).nent.toNat ∧
      ¬(1 : Word32).toNat < (layerAt tc 0).nent.toNat) ∧
    (portKindOf 5 = .latch ∧ (0 : Word32).toNat < tc.params.nlatch ∧ ¬(1 : Word32).toNat < tc.params.nlatch) ∧
    portKindOf 6 = .flip ∧ (portKindOf 7 = .input ∧ (0 : Word32).toNat < tc.params.nin) := by decide
theorem witness_PokeStoresOneByte :
    configOrRun tm ∧ regionOk tm 1 = false ∧ regionOk tm 0 = true ∧ regionSize tm 0 ≤ (4 : Word32).toNat ∧
    (3 : Word32).toNat < regionSize tm 0 := ⟨.inr rfl, by decide⟩
theorem witness_HandlerCommands :
    opcodeOf 0x30 = 0x30 ∧ (opcodeOf 0x08 ≠ 0x30 ∧ opcodeOf 0x08 ∉ internalOpcodes) ∧
    (tm.phase = .run ∧ opcodeOf 0x63 ∈ internalOpcodes) := by decide
theorem witness_CpuMayOnlyUseItsOwn :
    opcodeOf 0x30 ∉ ([0x11, 0x12, 0x14, 0x23] : List Byte) ∧
    (opcodeOf 0x11 ∈ ([0x11, 0x14] : List Byte) ∧ spaceOk tm (argOf 0x11 0).toNat = true ∧
      (spaceAt tm (argOf 0x11 0).toNat).owner.toNat ≠ 1) ∧
    opcodeOf 0x12 = 0x12 ∧ (opcodeOf 0x23 = 0x23 ∧ isCpu tm (argOf 0x23 0).toNat = true ∧ (argOf 0x23 0).toNat ≠ 1) ∧
    (opcodeOf 0x111 = 0x11 ∧ spaceOk tm (argOf 0x111 0).toNat = false) ∧
    (opcodeOf 0x112 = 0x12 ∧ spaceOk tm (argOf 0x112 0).toNat = false) ∧
    (opcodeOf 0x123 = 0x23 ∧ isCpu tm (argOf 0x123 0).toNat = false) := by
  decide

theorem witness_CpuMayOnlyUseItsOwn_own :
    (opcodeOf 0x11 ∈ ([0x11, 0x12, 0x14] : List Byte) ∧ opcodeOf 0x12 ∈ ([0x11, 0x12, 0x14] : List Byte) ∧
      (argOf 0x11 0).toNat = 0 ∧ (argOf 0x12 0).toNat = 0 ∧ spaceOk tm 0 = true ∧ (spaceAt tm 0).owner.toNat = 0) ∧
    (opcodeOf 0x23 = 0x23 ∧ (argOf 0x23 0).toNat = 0 ∧ isCpu tm 0 = true) := by decide
theorem witness_AssertClearPulse :
    tm.phase = .run ∧ lineOk tm 0 3 = false ∧ lineOk tm 1 0 = false ∧
    (lineOk tm 0 2 = true ∧ (lineAt tm 0 2).st = .idle) ∧
    (lineOk (tline 2 .pending) 0 2 = true ∧ (lineAt (tline 2 .pending) 0 2).st = .pending) ∧
    (lineOk (tline 2 .asserted) 0 2 = true ∧ (lineAt (tline 2 .asserted) 0 2).st = .asserted) := by decide
theorem witness_AckTakesTheSelectedLine :
    isCpu tm 1 = false ∧ (isCpu tm 0 = true ∧ ∀ l, l < tm.params.nlineOf 0 → lineActive tm 0 l = false) ∧
    (selectLine (tline 2 .pending) 0 = some 2 ∧ (lineAt (tline 2 .pending) 0 2).st = .pending) ∧
    (selectLine (tline 1 .asserted) 0 = some 1 ∧ (lineAt (tline 1 .asserted) 0 1).st = .asserted) := by decide
theorem witness_LineqAnswersTheLine : configOrRun tm ∧ lineOk tm 0 3 = false ∧ lineOk tm 0 2 = true := ⟨.inr rfl, by decide⟩
theorem witness_PulseNotCounted :
    tm.phase = .run ∧ Shaped tm ∧ lineOk tm 0 2 = true ∧
    ∀ m, m < tm.params.nlineOf 0 → (lineAt tm 0 m).st = .idle := ⟨rfl, shaped_tm, by decide, by decide⟩

theorem witness_TimersetArmsASlot :
    tm.params.ntimer ≤ (2 : Word32).toNat ∧ (1 : Word32).toNat < tm.params.ntimer ∧ (1 : Word32) ≠ 0 ∧
    (timerActOf 0 = .pulse ∧ lineOk tm 0 2 = true ∧ ¬lineOk tm 0 3 = true) ∧
    (timerActOf 3 = .callback ∧ (0 : Word32).toNat ∈ tm.params.extIds ∧ (1 : Word32).toNat ∉ tm.params.extIds) := by
  decide
theorem witness_RunframeIdle :
    let s : State := { tm with rsteps := [noRStep, noRStep] }
    s.phase = .run ∧ s.slices ≠ 0 ∧ (∀ d ∈ s.dev, d.clockHz.toNat < s.frameHz.toNat) ∧ (∀ v ∈ s.carry, v = 0) ∧
    (∀ T ∈ s.timers, T.armed = false) ∧ (∀ st ∈ s.rsteps, st.valid = false) := by
  refine ⟨rfl, by decide, by decide, ?_, by decide +kernel, by decide +kernel⟩
  intro v hv
  change v ∈ ([0, 0] : List Word32) at hv
  simp only [List.mem_cons, List.not_mem_nil, or_false] at hv
  rcases hv with rfl | rfl <;> rfl
/-- A CPU unit that asks for one command right after its step began, and an external handler that asks for a
RUNFRAME. -/
def tcpu (cw : CmdWord) : Env :=
  { te with
    cpu := fun _ obs => if obs.length = 1 then ⟨some cw, 0⟩ else ⟨none, 12⟩
    ext := fun _ _ _ => ⟨0, [encode .runframe], 0⟩ }
/-- A READ of RAM, answered before the unit returns; and a READ of the EXT port, which is fatal. -/
theorem witness_SliceBudget_commands :
    let s0 : State := { tm with cpuObs := tm.cpuObs.modify 0 (.step 5 :: ·) }
    (∃ t, CpuIssues (tcpu 0x11) 0 1 s0 t ∧ (tcpu 0x11).cpuBound 0 (s0.cpuObs.getD 0 []) = 1) ∧
    (CpuIssues (tcpu 0x60000000011) 0 0 s0 s0 ∧
      ((tcpu 0x60000000011).cpu 0 (s0.cpuObs.getD 0 [])).cmd = some 0x60000000011 ∧
      ∃ u, cpuCommand (tcpu 0x60000000011) 0 0x60000000011 s0 = .fatal codeReentry u) :=
  ⟨⟨_, .cons rfl rfl (.nil _), rfl⟩, .nil _, rfl, _, rfl⟩
theorem witness_SliceBudget :
    (tm.dev[0]? = some ⟨1, .cpu, 59⟩ ∧ 0 < tm.slices.toNat) ∧
    sliceTarget { tm with carry := [1, 0] } 1 0 0 < carryAt { tm with carry := [1, 0] } 0 ∧
    sliceTarget tm 1 0 0 = carryAt tm 0 ∧
    (let s : State := { tm with dev := [⟨1, .cpu, 60⟩] }
     carryAt s 0 < sliceTarget s 1 0 0 ∧ ∃ t, cpuStep te 0 1 s = .ok 12 t) :=
  ⟨by decide, by decide, by decide +kernel, by decide +kernel, _, rfl⟩
/-- The handles of `tm` that are CPUs. -/
theorem cpus_tm (c : Nat) : c ∈ [0] ↔ isCpu tm c = true := by
  match c with
  | 0 => decide
  | 1 => decide
  | c + 2 => simp [isCpu, tm]
theorem witness_RunframeRunsInOrder_slice :
    ([0] : List Nat).Pairwise (· < ·) ∧ (∀ c, c ∈ [0] ↔ isCpu tm c = true) ∧ (∃ t, CpusRun te 1 0 [0] tm t) ∧
    (([0] : List Nat) = [] ++ 0 :: [] ∧ CpusRun te 1 0 [] { tm with carry := [1, 0] } { tm with carry := [1, 0] } ∧
      ∃ u, sliceCpu te 1 0 0 { tm with carry := [1, 0], i := BitVec.ofNat 8 0 } = .fatal codeNegativeCycles u) :=
  ⟨by decide, cpus_tm, ⟨_, .cons rfl (.nil _)⟩, rfl, .nil _, _, rfl⟩
theorem witness_RunframeRunsInOrder_frame :
    tm.phase = .run ∧ (∃ t u, SlicesRun Config.env 1 [0] { tm with inFrame := true } t ∧
      exec .render t = .next u ∧ u.status = codeOk) ∧
    (0 < tm.slices.toNat ∧ SlicesRun Config.env 1 [] { tm with carry := [1, 0] } { tm with carry := [1, 0] } ∧
      ∃ u, slice Config.env 1 0 { tm with carry := [1, 0], k := BitVec.ofNat 16 0 } = .fatal codeNegativeCycles u) :=
  ⟨rfl, ⟨_, _, .cons rfl (.nil _), rfl, rfl⟩, by decide, .nil _, _, rfl⟩
theorem witness_RunframeRunsInOrder_render :
    let s : State := { tm with params := { tp with ngroup := 0 }, rsteps := [⟨true, .layer, 0, 0, 0⟩, noRStep] }
    s.phase = .run ∧ ∃ t u, SlicesRun Config.env s.slices.toNat (List.range s.slices.toNat) { s with inFrame := true } t ∧
      exec .render t = .next u ∧ u.phase = .fatal :=
  ⟨rfl, _, _, .cons rfl (.nil _), rfl, rfl⟩
theorem witness_TimersAllFire :
    (10 : Word64).toNat + 2 ^ 32 ≤ 2 ^ 64 ∧ (∃ t, endSlice te 10 tm = .ok () t) ∧
    (let s : State := { tm with timers := [⟨true, 10, 1, .pulse, 0, 0, 0⟩, ⟨true, 9, 0, .clear, 0, 2, 0⟩] }
     timerDue s 10 1 = true ∧ timerDue s 10 0 = true ∧
       (timerAt s 1).deadline.toNat < (timerAt s 0).deadline.toNat) :=
  ⟨by decide, ⟨_, rfl⟩, by decide, by decide, by decide⟩
theorem witness_TimerFiresBeforeItActs :
    tm.phase = .run ∧
    ((timerAt tm 0).act = .pulse ∧ lineOk tm (timerAt tm 0).t0.toNat (timerAt tm 0).t1.toNat = true ∧
      (lineAt tm (timerAt tm 0).t0.toNat (timerAt tm 0).t1.toNat).st = .idle) ∧
    (let s : State :=
      { tline 2 .asserted with timers := [⟨true, 1, 0, .assert, 0, 2, 0x1FF⟩, ⟨true, 1, 1, .callback, 0, 0, 0⟩] }
     (timerAt s 0).act = .assert ∧ lineOk s (timerAt s 0).t0.toNat (timerAt s 0).t1.toNat = true ∧
       (lineAt s (timerAt s 0).t0.toNat (timerAt s 0).t1.toNat).st = .asserted ∧ (timerAt s 1).act = .callback) := by
  decide

theorem witness_TmcreateMakesALayer_runs :
    tc.phase = .config ∧ (1 : Word32).toNat < tc.params.nlayer ∧ (layerAt tc 1).valid = false ∧
    (8192 : Word16).toNat * (8 : Word16).toNat ≤ 65536 ∧ (0 : Word32).toNat ∈ tc.params.resolveIds ∧
    (tc.params.gfxOf (0 : Word32).toNat).isSome = true ∧ scrollModeOf 2 = some .cols ∧
    (256 : BitVec 9).toNat ≤ 256 := by decide
theorem witness_TmcreateMakesALayer_errors :
    tc.params.nlayer ≤ (2 : Word32).toNat ∧ (layerAt tc 0).valid = true ∧
    65536 < (8193 : Word16).toNat * (8 : Word16).toNat ∧
    ((1 : Word32).toNat ∉ tc.params.resolveIds ∧ tc.params.gfxOf (1 : Word32).toNat = none) ∧
    256 < (257 : BitVec 9).toNat := by decide
theorem witness_MarkdirtyAndSetscroll :
    configOrRun tm ∧ layerOk tm 1 = false ∧ layerOk tm 0 = true ∧
    ((0 : Word32).toNat < cellCount (layerAt tm 0) ∧ cellCount (layerAt tm 0) ≤ (1 : Word32).toNat) ∧
    ((0 : Word32).toNat < (layerAt tm 0).nent.toNat ∧ (layerAt tm 0).nent.toNat ≤ (1 : Word32).toNat) :=
  ⟨.inr rfl, by decide⟩
/-- A legal instance with every cell clean. -/
theorem witness_TmcompositeDrawsTheLayer_clean :
    let s : State := { tm with dirty := [[false], []] }
    s.phase = .run ∧ layerOk s 0 = true ∧ cellCount (layerAt s 0) = 1 ∧ dirtyAt s 0 0 = false := by decide
/-- The one cell of `tm` at the one pixel, and its place in it, through the scroll value. -/
theorem witness_TmcompositeDrawsTheLayer_geometry :
    (layerAt tm 0).w = 1 ∧ (layerAt tm 0).tw = 1 ∧ (layerAt tm 0).h = 1 ∧ (layerAt tm 0).th = 1 ∧
    (layerAt tm 0).smode = .whole ∧ (0 + (scrollAt tm 0 0).dx.toNat) % (1 * 1) = 0 * 1 + 0 ∧
    (0 + (scrollAt tm 0 0).dy.toNat) % (1 * 1) = 0 * 1 + 0 := by decide
/-- Every 16-bit colour group, with a dirty cell. -/
theorem witness_TmcompositeDrawsTheLayer :
    tw.phase = .run ∧ Shaped tw ∧ layerOk tw 0 = true ∧ dirtyAt tw 0 0 = true ∧
    ∀ c, c < cellCount (layerAt tw 0) → dirtyAt tw 0 c = true →
      (resolvedTile Config.env tw 0 c).color.toNat < tw.params.ngroup :=
  ⟨rfl, shaped_tw, rfl, rfl, fun _ _ _ => BitVec.isLt _⟩
theorem witness_TmcompositeDrawsTheLayer_absent : layerOk tm (1 : Word32).toNat = false := by decide
/-- The one record of `tm`, drawn, in an instance with no colour group. -/
theorem witness_ColorOutOfRange_sprite :
    let s : State := { tm with params := { tp with ngroup := 0 } }
    s.phase = .run ∧ s.fb.length = s.sw.toNat * s.sh.toNat ∧ s.spr.valid = true ∧
      (if s.spr.reverse then (List.range s.spr.count.toNat).reverse else List.range s.spr.count.toNat) =
        [] ++ 0 :: [] ∧
      spriteDrawn te s true 3 0 ∧ s.params.ngroup ≤ (spriteRecord te s 0).color.toNat :=
  ⟨rfl, rfl, rfl, rfl, ⟨rfl, fun _ => rfl⟩, Nat.zero_le _⟩
theorem witness_ColorOutOfRange :
    let s : State := { tm with params := { tp with ngroup := 0 } }
    s.phase = .run ∧ layerOk s 0 = true ∧ 0 < cellCount (layerAt s 0) ∧ dirtyAt s 0 0 = true ∧
    s.params.ngroup ≤ (resolvedTile Config.env s 0 0).color.toNat ∧
    ∀ c, c < 0 → dirtyAt s 0 c = true → (resolvedTile Config.env s 0 c).color.toNat < s.params.ngroup :=
  ⟨rfl, rfl, by decide, rfl, Nat.zero_le _, fun _ h => absurd h (Nat.not_lt_zero _)⟩

/-- `tw` with its one cell clean and its cache as `resolve_fn` says. -/
def tclean : State :=
  { tw with dirty := [[false], []], cache := [[cachedTile tw 0 (resolvedTile Config.env tw 0 0)], []] }

theorem witness_DirtyTrackingUnseen :
    tclean.phase = .run ∧ layerOk tclean 0 = true ∧ cacheCoherent Config.env tclean 0 ∧
    ∃ t, exec (.tmcomposite 0 0 0 0 0 false 0) tclean = .next t ∧ t.status = codeOk := by
  refine ⟨rfl, rfl, ?_, _, rfl, rfl⟩
  intro t ht _
  have ht' : t < 1 := ht
  have h0 : t = 0 := by omega
  subst h0
  exact ⟨rfl, BitVec.isLt _⟩

theorem witness_SpcfgConfigures :
    tc.spr.valid = true ∧ regionOk tc 1 = false ∧
    (let s : State := { tc with spr := noSpriteCfg }
     s.phase = .config ∧ s.spr.valid = false ∧ regionOk s 0 = true ∧ (0 : Word32).toNat ∈ s.params.decodeIds ∧
     (s.params.gfxOf (0 : Word32).toNat).isSome = true ∧ (1 : Word32).toNat ∉ s.params.decodeIds) := by decide
theorem witness_SpcompositeDrawsInOrder :
    tw.phase = .run ∧ tw.fb.length = tw.sw.toNat * tw.sh.toNat ∧ tw.spr.valid = true ∧
    ∀ n, n < tw.spr.count.toNat → (spriteRecord Config.env tw n).color.toNat < tw.params.ngroup :=
  ⟨rfl, rfl, rfl, fun _ _ => BitVec.isLt _⟩
theorem witness_SpcompositeDrawsInOrder_picture :
    0 < tm.spr.stride.toNat ∧ 0 < tm.spr.spw.toNat ∧ 0 < tm.spr.sph.toNat ∧
    ((7 : Nat) : Int) = (7 : Word16).toInt + ((0 : Nat) : Int) ∧
    ∀ c, c < tm.spr.spw.toNat → ¬((7 : Nat) : Int) = (0xFFFF : Word16).toInt + (c : Int) := by decide
theorem witness_RenderFill_steps :
    (∃ t, Drawn (tm.rsteps.filter fun st => st.valid) tm t) ∧
    (let s : State := { tclean with rsteps := [⟨true, .layer, 0, 0, 0⟩, noRStep] }
     ∃ t, Drawn (s.rsteps.filter fun st => st.valid) s t) :=
  ⟨⟨_, .fill rfl (.nil _)⟩, _, .command rfl rfl rfl (.nil _)⟩
theorem witness_RenderFill_fatal :
    let s : State := { tm with params := { tp with ngroup := 0 }, rsteps := [⟨true, .layer, 0, 0, 0⟩, noRStep] }
    (s.rsteps.filter fun st => st.valid) = [] ++ ⟨true, .layer, 0, 0, 0⟩ :: [] ∧ Drawn [] s s ∧
    stepCommand s ⟨true, .layer, 0, 0, 0⟩ = some (.tmcomposite 0 0 0 0 0 false 0) ∧
    ∃ u, exec (.tmcomposite 0 0 0 0 0 false 0) s = .next u ∧ u.phase = .fatal := by
  refine ⟨rfl, .nil _, rfl, _, rfl, ?_⟩
  rfl
theorem witness_RenderFill :
    tm.phase = .run ∧ tm.fb.length = tm.sw.toNat * tm.sh.toNat ∧ (∀ st ∈ tm.rsteps, st.valid = true → st.rk = .fill) := by
  decide
theorem witness_RenderIdempotent : tm.phase = .run ∧ ∃ t, exec .render tm = .next t ∧ t.status = codeOk := ⟨rfl, _, rfl, rfl⟩
theorem witness_SetflipSetpenSetpal :
    configOrRun tm ∧ ((1 : Word32).toNat < tm.params.ngroup ∧ (1 : Word32).toNat < tm.params.npens ∧
      (3 : Word32).toNat < tm.params.npal) ∧
    (tm.params.ngroup ≤ (2 : Word32).toNat ∧ tm.params.npens ≤ (2 : Word32).toNat ∧ tm.params.npal ≤ (4 : Word32).toNat) :=
  ⟨.inr rfl, by decide⟩
theorem witness_RstepDefinesAStep :
    tc.phase = .config ∧ (tc.params.nrstep ≤ (2 : Word32).toNat ∧ (rstepAt tc 0).valid = true) ∧
    ((1 : Word32).toNat < tc.params.nrstep ∧ (rstepAt tc 1).valid = false) ∧
    (tc.params.ngroup ≤ (2 : Word32).toNat ∧ layerOk tc 1 = false ∧ noSpriteCfg.valid = false) ∧
    (renderKindOf 0 = some .fill ∧ (1 : Word32).toNat < tc.params.ngroup ∧ (1 : Word32).toNat < tc.params.npens) ∧
    (renderKindOf 1 = some .layer ∧ layerOk tc 0 = true) ∧ (renderKindOf 2 = some .sprites ∧ tc.spr.valid = true) := by
  decide
theorem witness_InputAndScramble :
    configOrRun tm ∧ (0 : Word32).toNat < tm.params.nin ∧ tm.params.nin ≤ (1 : Word32).toNat := ⟨.inr rfl, by decide⟩
theorem witness_SaveregAppendsAnItem :
    (tc.phase = .config ∧ 7 < (8 : Byte).toNat ∧ saveClassOf 0 = some .region ∧ regionOk tc 0 = true) ∧
    ((⟨.region, 0⟩ : SaveItem) ∈ tc.save ∧ regionOk tc 1 = false ∧ tc.save.length = tc.params.nsave) ∧
    (saveClassOf 7 = some .lookup ∧ (⟨.lookup, 0⟩ : SaveItem) ∉ ({ tc with save := [] } : State).save ∧
      ({ tc with save := [] } : State).save.length ≠ tc.params.nsave) := by decide
theorem witness_SnapshotAnswersAndRestoreRefuses :
    tm.phase = .run ∧ tm.payloadIn.length ≠ snapshotLength tm ∧ itemsOk tm tm.save [2, 0, 0, 0, 0] = false := by
  decide
theorem witness_SnapshotAnswersAndRestoreRefuses_range :
    let s : State := { tm with save := [⟨.lines, 0⟩, ⟨.lookup, 0⟩], payloadIn := [4, 0, 8, 0, 0, 0, 3, 0, 4, 0, 0, 1, 0, 0] }
    s.payloadIn.length = (s.save.map fun it => itemCount s it * itemWidth it.cls).sum ∧
    (s.save = [] ++ ⟨.lines, 0⟩ :: [⟨.lookup, 0⟩] ∧ 1 < s.params.nlineOf 0 ∧ 8 ≤ (s.payloadIn.getD (0 + 2 * 1) 0).toNat) ∧
    (s.save = [⟨.lines, 0⟩] ++ ⟨.lookup, 0⟩ :: [] ∧ 1 < s.params.ngroup * s.params.npens ∧
      s.params.npal ≤ (s.payloadIn.getD (6 + 2 * 1) 0).toNat + 256 * (s.payloadIn.getD (6 + 2 * 1 + 1) 0).toNat) := by
  decide
theorem witness_SnapshotAnswersAndRestoreRefuses_bytes :
    tm.save = [⟨.flip, 0⟩] ++ ⟨.region, 0⟩ :: [] ∧ 3 < regionSize tm 0 := by decide
theorem witness_RestoreOfSnapshot_render :
    Shaped tm ∧ linesOk tm ∧ lookupOk tm ∧ (∀ L, layerOk tm L = true → cacheCoherent Config.env tm L) ∧
    0 < regionSize tm tm.spr.region.toNat ∧
    ∃ a b c, exec .render tm = .next a ∧ a.status = codeOk ∧ exec .snapshot a = .next b ∧
      exec .restore { b with payloadIn := b.payloadOut } = .next c := by
  refine ⟨shaped_tm, lines_tm.1, lines_tm.2, ?_, by decide, _, _, _, rfl, rfl, rfl, rfl⟩
  intro L hL t ht hd
  match L with
  | 0 =>
    have ht' : t < 1 := ht
    obtain rfl : t = 0 := by omega
    exact absurd hd (by decide)
  | 1 => exact absurd hL (by decide)
  | L + 2 =>
    have h2 : ¬(L + 2 < tm.params.nlayer) := by
      change ¬(L + 2 < 2)
      omega
    exact absurd hL (by simp [layerOk, h2])
theorem witness_RestoreOfSnapshot :
    let s : State := { tm with payloadIn := snapshotBytes Config.env tm }
    s.phase = .run ∧ Shaped s ∧ linesOk s ∧ lookupOk s ∧ s.payloadIn = snapshotBytes Config.env s :=
  ⟨rfl,
    { shaped_tm with
      layerRows := fun L h => ⟨(shaped_tm.layerRows L h).sizes, (shaped_tm.layerRows L h).scroll,
        (shaped_tm.layerRows L h).dirty, (shaped_tm.layerRows L h).cache⟩ },
    lines_tm.1, lines_tm.2, rfl⟩
/-- Line 0 of CPU 0 becomes Asserted, line 2 returns to Idle. -/
theorem witness_SnapshotOfRestore_notices :
    let s : State := { tline 2 .pending with save := [⟨.lines, 0⟩], payloadIn := [3, 0, 0, 0, 0, 0] }
    s.payloadIn.length = snapshotLength s ∧ itemsOk s s.save s.payloadIn = true ∧
    (after (exec .restore s)).events = (restoreNotices s (after (exec .restore s))).reverse ∧
    restoreNotices s (after (exec .restore s)) = [.irqLine 0 0 true, .irqLine 0 2 false] := by decide
theorem witness_SnapshotOfRestore :
    let s : State := { tm with payloadIn := [1, 9, 8, 7, 6] }
    s.phase = .run ∧ Shaped s ∧ s.payloadIn.length = snapshotLength s ∧ itemsOk s s.save s.payloadIn = true :=
  ⟨rfl,
    { shaped_tm with
      layerRows := fun L h => ⟨(shaped_tm.layerRows L h).sizes, (shaped_tm.layerRows L h).scroll,
        (shaped_tm.layerRows L h).dirty, (shaped_tm.layerRows L h).cache⟩ },
    by decide, by decide +kernel⟩

end Sys2Proof.Tests
end

/-! PROOFS of the scope family (spec/00_scope.md): what a step does with the commands the host has presented. -/
section

namespace Sys2Proof.Machine

/-! ## Taking a command (R121, log 2) -/

theorem takeCommand_of_nil {s : State} (hq : s.inq = []) : takeCommand s = none := by
  simp [takeCommand, hq]

theorem takeCommand_of_cons {s : State} {c : HostCmd} {rest : List HostCmd} (hq : s.inq = c :: rest) :
    takeCommand s = some (c.word, { s with inq := rest, payloadIn := c.payload }) := by
  simp [takeCommand, hq]

/-! ## The step, by what was taken (R12, R379) -/

theorem step_of_takeCommand_none {s : State} (ht : takeCommand s = none) : step s = .next s := by
  simp only [step, ht]

theorem step_of_decodeWord_ok {s t : State} {w : CmdWord} {i : Instr} (ht : takeCommand s = some (w, t))
    (hd : decodeWord w = .ok i) : step s = exec i t := by
  simp only [step, ht, hd]

/-- Settles O4: the queue is empty or has a first command, and the step follows what `takeCommand` answers
in each case. -/
theorem stepRunsDecoded : Obligations.StepRunsDecoded := by
  intro s
  constructor
  case left =>
    intro hq
    exact step_of_takeCommand_none (takeCommand_of_nil hq)
  case right =>
    intro c rest i hq hd
    exact step_of_decodeWord_ok (takeCommand_of_cons hq) hd

end Sys2Proof.Machine
end

/-! PROOFS of the state family (spec/10_state.md): what every step keeps of the event stream and of the stored
bytes. Each is a relation that holds across every update a step can make (Laws/Kept). -/
section

namespace Sys2Proof.Machine

/-! ## The event stream and the stored bytes (R26, R48) -/

/-- A relation that sees only the event stream and the stored bytes, and holds across the four ways in which an update
writes them: an event is emitted, a byte is stored, the bytes of a region are replaced, bytes are dropped. -/
structure StreamAndBytes (R : State → State → Prop) : Prop where
  of_eq : ∀ s t, t.events = s.events → t.mem = s.mem → R s t
  trans : ∀ s t u, R s t → R t u → R s u
  emit : ∀ s e, R s (emit e s)
  byte : ∀ s r o v, R s (writeRegion r o v s)
  replace : ∀ s r bytes, R s { s with mem := memSetRegion s.mem r bytes }
  drop : ∀ s p, R s { s with mem := s.mem.filter p }

namespace StreamAndBytes

variable {R : State → State → Prop}

theorem restoreItem (H : StreamAndBytes R) (it : SaveItem) (bytes : List Byte) (s : State) :
    R s (restoreItem it bytes s) := by
  unfold Machine.restoreItem
  cases it.cls
  case region => exact H.replace s _ _
  all_goals exact H.of_eq _ _ rfl rfl

theorem makeRegion (H : StreamAndBytes R) (r size : Word32) (img : Bool) (bytes : List Byte) (s : State) :
    R s (makeRegion r size img bytes s) :=
  H.trans _ _ _ (H.replace s r.toNat bytes) (H.of_eq _ _ rfl rfl)

theorem resetFields (H : StreamAndBytes R) (env : Env) (s : State) : R s (resetFields env s) :=
  H.trans _ _ _ (H.drop s fun c => !losesBytes s (c.1 / 2 ^ 32)) (H.of_eq _ _ rfl rfl)

theorem fatalState (H : StreamAndBytes R) (code : Byte) (s : State) : R s (fatalState code s) :=
  H.trans _ { s with fatalCode := code, phase := .fatal } _ (H.of_eq _ _ rfl rfl) (H.emit _ _)

theorem kept (H : StreamAndBytes R) (env : Env) : Kept env R where
  trans := H.trans
  emit := H.emit
  byte := H.byte
  fatal s code _ := H.fatalState code s
  refl _ := H.of_eq _ _ rfl rfl
  observe _ _ _ := H.of_eq _ _ rfl rfl
  line _ _ _ _ _ := H.of_eq _ _ rfl rfl
  bank _ _ _ := H.of_eq _ _ rfl rfl
  scroll _ _ _ _ := H.of_eq _ _ rfl rfl
  latch _ _ _ := H.of_eq _ _ rfl rfl
  flip _ _ := H.of_eq _ _ rfl rfl
  palette _ _ _ := H.of_eq _ _ rfl rfl
  lookup _ _ _ _ := H.of_eq _ _ rfl rfl
  timer _ _ _ := H.of_eq _ _ rfl rfl
  dirty _ _ _ _ := H.of_eq _ _ rfl rfl
  cell _ _ _ _ := H.of_eq _ _ rfl rfl
  fb _ _ _ := H.of_eq _ _ rfl rfl
  inHandler _ _ := H.of_eq _ _ rfl rfl
  ext _ _ := H.of_eq _ _ rfl rfl
  now _ _ := H.of_eq _ _ rfl rfl
  cursorI _ _ := H.of_eq _ _ rfl rfl
  cursorK _ _ := H.of_eq _ _ rfl rfl
  carry _ _ _ := H.of_eq _ _ rfl rfl
  inFrame _ _ := H.of_eq _ _ rfl rfl
  endFrame _ := H.of_eq _ _ rfl rfl

/-- REGION, RESET and RESTORE write the stored bytes; START, RESET and RESTORE emit; no other host command does either
in a body of its own. -/
theorem stepKept (H : StreamAndBytes R) (env : Env) : StepKept env R where
  toKept := H.kept env
  region s _ _ _ _ _ _ h := by
    obtain ⟨_, _, _, img, bytes, _, rfl⟩ := regionBody_ok h
    exact H.makeRegion _ _ img bytes s
  start s _ _ _ h := by
    obtain ⟨-, -, rfl⟩ := startBody_ok h
    exact H.trans _ (enterRun env s) _ (H.of_eq _ _ rfl rfl) ((H.kept env).callAllSetPc _).1
  reset s _ _ _ h := by
    rw [resetBody_ok h]
    have hlines := ((H.kept env).resetLines (cpuHandles s) s).1
    have hfields := H.resetFields env ((cpuHandles s).foldl resetLines s)
    exact H.trans _ _ _ (H.trans _ _ _ hlines hfields) ((H.kept env).callAllSetPc _).1
  restore s _ _ _ h := by
    obtain ⟨-, -, rfl⟩ := restoreBody_ok h
    have hitems : R s (restoreItems s.save s.payloadIn s) :=
      restoreItems_induct _ _ s (H.of_eq _ _ rfl rfl) fun it _ bytes t ht =>
        H.trans _ _ _ ht (H.restoreItem it bytes t)
    have hnotify := ((H.kept env).notifyItems s s.save (restoreItems s.save s.payloadIn s)).1
    exact H.trans _ _ _ (H.trans _ _ _ hitems hnotify) (H.of_eq _ _ rfl rfl)
  answer _ _ _ _ := H.of_eq _ _ rfl rfl
  latchError _ _ := H.of_eq _ _ rfl rfl
  take _ _ _ := H.of_eq _ _ rfl rfl
  payload _ _ := H.of_eq _ _ rfl rfl
  inp _ _ _ := H.of_eq _ _ rfl rfl
  regdev _ _ _ _ _ _ _ h := by
    obtain ⟨_, _, _, _, rfl⟩ := regdevBody_ok h
    exact H.of_eq _ _ rfl rfl
  bankdef _ _ _ _ _ _ _ h := by
    obtain ⟨_, _, _, _, rfl⟩ := bankdefBody_ok h
    exact H.of_eq _ _ rfl rfl
  spacedef _ _ _ _ _ _ _ h := by
    obtain ⟨_, _, _, rfl⟩ := spacedefBody_ok h
    exact H.of_eq _ _ rfl rfl
  syscfg _ _ _ _ _ _ _ _ _ h := by
    rw [syscfgBody_ok h]
    exact H.of_eq _ _ rfl rfl
  teardown _ _ _ _ h := by
    rw [teardownBody_ok h]
    exact H.of_eq _ _ rfl rfl
  map _ _ _ _ _ _ _ _ _ _ h := by
    obtain ⟨_, _, _, _, _, _, rfl⟩ := mapBody_ok h
    exact H.of_eq _ _ rfl rfl
  portdef _ _ _ _ _ _ _ _ _ _ h := by
    obtain ⟨_, _, _, rfl⟩ := portdefBody_ok h
    exact H.of_eq _ _ rfl rfl
  tmcreate _ _ _ _ _ _ _ _ _ _ _ _ _ h := by
    obtain ⟨_, _, _, _, _, _, _, _, _, rfl⟩ := tmcreateBody_ok h
    exact H.of_eq _ _ rfl rfl
  spcfg _ _ _ _ _ _ _ _ _ _ _ _ _ _ _ h := by
    obtain ⟨_, _, rfl⟩ := spcfgBody_ok h
    exact H.of_eq _ _ rfl rfl
  rstep _ _ _ _ _ _ _ _ _ h := by
    obtain ⟨_, _, _, _, _, rfl⟩ := rstepBody_ok h
    exact H.of_eq _ _ rfl rfl
  savereg _ _ _ _ _ _ h := by
    obtain ⟨_, _, _, _, _, rfl⟩ := saveregBody_ok h
    exact H.of_eq _ _ rfl rfl

end StreamAndBytes

/-- An emitted event stands before the stream; every other update leaves the stream as it is. -/
theorem eventsExtend_streamAndBytes : StreamAndBytes fun s t => s.events <:+ t.events where
  of_eq s t he _ := by rw [he]
  trans _ _ _ := List.IsSuffix.trans
  emit s e := List.suffix_cons e s.events
  byte _ _ _ _ := List.suffix_rfl
  replace _ _ _ := List.suffix_rfl
  drop _ _ := List.suffix_rfl

/-- Each way of writing the stored bytes keeps the canonical form. -/
theorem memoryOk_streamAndBytes : StreamAndBytes fun s t => memoryOk s → memoryOk t where
  of_eq s t _ hm hs := by unfold memoryOk; rw [hm]; exact hs
  trans _ _ _ h h' hs := h' (h hs)
  emit _ _ hs := hs
  byte _ _ _ _ hs := memSet_wf hs _ _
  replace _ _ _ hs := memSetRegion_wf hs _ _
  drop _ _ hs := filter_wf hs _

/-- Settles O9: the stored bytes change only in ways that keep the keys strictly rising. -/
theorem memoryStaysCanonical : Obligations.MemoryStaysCanonical := fun s t hs hstep =>
  (memoryOk_streamAndBytes.stepKept Config.env).step_keeps s t hstep hs

/-- Settles O7: the stream before is a tail of the stream after, and what stands before that tail is new. -/
theorem eventsOnlyGrow : Obligations.EventsOnlyGrow := by
  intro s t hstep
  obtain ⟨es, hes⟩ := (eventsExtend_streamAndBytes.stepKept Config.env).step_keeps s t hstep
  exact ⟨es, hes.symm⟩

end Sys2Proof.Machine
end

/-! PROOFS of the state family, second part: the shape of the tables (spec/10_state.md R25 to R49). What `Shaped` says
is a matter of the tables' sizes, so an update that keeps every size keeps the shape; what is left are the six commands
that register something. -/
section

namespace Sys2Proof.Machine

/-! ## Tables and rows as lists -/

theorem getD_set_self {α : Type} {l : List α} {n : Nat} (h : n < l.length) (x d : α) : (l.set n x).getD n d = x := by
  simp [h]

theorem getD_set_ne {α : Type} {n m : Nat} (h : n ≠ m) (l : List α) (x d : α) :
    (l.set n x).getD m d = l.getD m d := by
  simp [h]

/-- A valid slot stays valid where a slot gets a valid thing. -/
theorem valid_getD_set {α : Type} {valid : α → Bool} {x : α} (hx : valid x = true) (l : List α) (d : α)
    (n m : Nat) (hm : valid (l.getD m d) = true) : valid ((l.set n x).getD m d) = true := by
  rcases eq_or_ne n m with rfl | hne
  · rcases Nat.lt_or_ge n l.length with hn | hn
    · rwa [getD_set_self hn]
    · rwa [List.set_eq_of_length_le hn]
  · rwa [getD_set_ne hne]

/-- A row replaced by one of its length: every row keeps its length. -/
theorem map_length_set {α : Type} {rows : List (List α)} {n : Nat} {row : List α}
    (h : row.length = (rows.getD n []).length) : (rows.set n row).map List.length = rows.map List.length := by
  apply List.ext_getElem (by simp)
  intro m hm _
  simp only [List.length_map, List.length_set] at hm
  simp only [List.getElem_map, List.getElem_set]
  split_ifs with hnm
  · subst hnm; rw [h, List.getD_eq_getElem _ _ hm]
  · rfl

theorem map_modify_of_keeps {α β : Type} {f : α → α} {g : α → β} (l : List α) (n : Nat)
    (h : ∀ a, g (f a) = g a) : (l.modify n f).map g = l.map g := by
  apply List.ext_getElem (by simp)
  intro m _ _
  simp only [List.getElem_map, List.getElem_modify]
  split_ifs
  · exact h _
  · rfl

theorem map_mapIdx_of_keeps {α β : Type} {f : Nat → α → α} {g : α → β} (l : List α)
    (h : ∀ n a, g (f n a) = g a) : (l.mapIdx f).map g = l.map g :=
  List.ext_getElem (by simp) fun n _ _ => by simp [h]

/-! ## The sizes of the tables -/

/-- What `Shaped` reads of a state, besides the frame buffer: the parameters, what is registered, and how long each
table and each of its rows is. A region counts with its size, a bank with its validity. -/
structure TableSizes where
  params : Params
  dev : List Device
  regions : List (Bool × Word32)
  banks : List Bool
  layers : List Layer
  save : List SaveItem
  entries : Nat
  spaces : Nat
  ports : Nat
  latch : Nat
  inp : Nat
  timers : Nat
  palette : Nat
  lookup : Nat
  rsteps : Nat
  carry : Nat
  cpuObs : Nat
  lines : List Nat
  scroll : List Nat
  dirty : List Nat
  cache : List Nat

/-- The sizes of the tables of a state. -/
def tableSizes (s : State) : TableSizes where
  params := s.params
  dev := s.dev
  regions := s.regions.map fun r => (r.valid, r.size)
  banks := s.banks.map Bank.valid
  layers := s.layers
  save := s.save
  entries := s.entries.length
  spaces := s.spaces.length
  ports := s.ports.length
  latch := s.latch.length
  inp := s.inp.length
  timers := s.timers.length
  palette := s.palette.length
  lookup := s.lookup.length
  rsteps := s.rsteps.length
  carry := s.carry.length
  cpuObs := s.cpuObs.length
  lines := s.lines.map List.length
  scroll := s.scroll.map List.length
  dirty := s.dirty.map List.length
  cache := s.cache.map List.length

section SameSizes

variable {s t : State}

theorem regionAt_valid_size (s : State) (r : Nat) :
    ((regionAt s r).valid, (regionAt s r).size) = (tableSizes s).regions.getD r (false, 0) :=
  (List.getD_map (l := s.regions) (d := noRegion) fun rg : Region => (rg.valid, rg.size)).symm

theorem bankAt_valid (s : State) (b : Nat) : (bankAt s b).valid = (tableSizes s).banks.getD b false :=
  (List.getD_map (l := s.banks) (d := noBank) Bank.valid).symm

theorem length_getD_row {α : Type} (rows : List (List α)) (n : Nat) :
    (rows.getD n []).length = (rows.map List.length).getD n 0 :=
  (List.getD_map (l := rows) (d := []) List.length).symm

theorem params_of_sizes (h : tableSizes t = tableSizes s) : t.params = s.params := congrArg TableSizes.params h

theorem layerAt_of_sizes (h : tableSizes t = tableSizes s) (L : Nat) : layerAt t L = layerAt s L :=
  congrArg (fun z => z.layers.getD L noLayer) h

theorem layerOk_of_sizes (h : tableSizes t = tableSizes s) (L : Nat) : layerOk t L = layerOk s L := by
  simp only [layerOk, layerAt_of_sizes h, params_of_sizes h]

theorem isCpu_of_sizes (h : tableSizes t = tableSizes s) (c : Nat) : isCpu t c = isCpu s c := by
  have hdev : t.dev = s.dev := congrArg TableSizes.dev h
  simp only [isCpu, hdev]

theorem regionAt_of_sizes (h : tableSizes t = tableSizes s) (r : Nat) :
    (regionAt t r).valid = (regionAt s r).valid ∧ (regionAt t r).size = (regionAt s r).size :=
  Prod.mk.inj (by rw [regionAt_valid_size, regionAt_valid_size, h])

theorem regionOk_of_sizes (h : tableSizes t = tableSizes s) (r : Nat) : regionOk t r = regionOk s r := by
  simp only [regionOk, (regionAt_of_sizes h r).1, params_of_sizes h]

theorem regionSize_of_sizes (h : tableSizes t = tableSizes s) (r : Nat) : regionSize t r = regionSize s r := by
  simp only [regionSize, (regionAt_of_sizes h r).2]

theorem bankOk_of_sizes (h : tableSizes t = tableSizes s) (b : Nat) : bankOk t b = bankOk s b := by
  simp only [bankOk, bankAt_valid, h, params_of_sizes h]

theorem saveTargetOk_of_sizes (h : tableSizes t = tableSizes s) (cls : SaveClass) (id : Word32) :
    saveTargetOk t cls id = saveTargetOk s cls id := by
  cases cls <;> simp only [saveTargetOk, regionOk_of_sizes h, bankOk_of_sizes h, layerOk_of_sizes h, isCpu_of_sizes h]

theorem itemLength_of_sizes (h : tableSizes t = tableSizes s) (it : SaveItem) : itemLength t it = itemLength s it := by
  unfold itemLength itemCount
  cases it.cls <;> simp only [regionSize_of_sizes h, layerAt_of_sizes h, params_of_sizes h]

/-- A layer whose tables keep their sizes keeps its shape. -/
theorem LayerShaped.of_rows {L : Nat} (hs : LayerShaped s L) (hlayer : layerAt t L = layerAt s L)
    (hscroll : (t.scroll.getD L []).length = (s.scroll.getD L []).length)
    (hdirty : (t.dirty.getD L []).length = (s.dirty.getD L []).length)
    (hcache : (t.cache.getD L []).length = (s.cache.getD L []).length) : LayerShaped t L where
  sizes := hlayer ▸ hs.sizes
  scroll := by rw [hscroll, hlayer, hs.scroll]
  dirty := by rw [hdirty, hlayer, hs.dirty]
  cache := by rw [hcache, hlayer, hs.cache]

/-- THE SHAPE IS A MATTER OF SIZES: a state whose tables have the sizes of a shaped one is shaped, if its frame buffer
is. -/
theorem Shaped.of_sizes (hs : Shaped s) (h : tableSizes t = tableSizes s)
    (hscreen : t.phase = .run → t.fb.length = t.sw.toNat * t.sh.toNat) : Shaped t := by
  have hrow : ∀ {α : Type} {rows rows' : List (List α)} (n : Nat), rows.map List.length = rows'.map List.length →
      (rows.getD n []).length = (rows'.getD n []).length := fun n he => by
    rw [length_getD_row, length_getD_row, he]
  have hlen : ∀ {α β : Type} {l l' : List α} {f : α → β}, l.map f = l'.map f → l.length = l'.length :=
    fun he => by simpa using congrArg List.length he
  have hlayer := layerAt_of_sizes h
  have hsave := saveTargetOk_of_sizes h
  have hlayerOk := layerOk_of_sizes h
  have hcpu := isCpu_of_sizes h
  simp only [tableSizes, TableSizes.mk.injEq] at h
  obtain ⟨params, dev, regions, banks, layers, save, entries, spaces, ports, latch, inp, timers, palette, lookup,
    rsteps, carry, cpuObs, lines, scroll, dirty, cache⟩ := h
  exact {
    regions := by rw [hlen regions, params, hs.regions]
    banks := by rw [hlen banks, params, hs.banks]
    spaces := by rw [spaces, params, hs.spaces]
    ports := by rw [ports, params, hs.ports]
    latch := by rw [latch, params, hs.latch]
    inp := by rw [inp, params, hs.inp]
    timers := by rw [timers, params, hs.timers]
    layers := by rw [layers, params, hs.layers]
    scroll := by rw [hlen scroll, params, hs.scroll]
    dirty := by rw [hlen dirty, params, hs.dirty]
    cache := by rw [hlen cache, params, hs.cache]
    palette := by rw [palette, params, hs.palette]
    lookup := by rw [lookup, params, hs.lookup]
    rsteps := by rw [rsteps, params, hs.rsteps]
    dev := by rw [dev, params]; exact hs.dev
    entries := by rw [entries, params]; exact hs.entries
    save := by rw [save, params]; exact hs.save
    lines := by rw [hlen lines, dev, hs.lines]
    carry := by rw [carry, dev, hs.carry]
    cpuObs := by rw [cpuObs, dev, hs.cpuObs]
    lineRows := fun c hc => by rw [hrow c lines, params]; exact hs.lineRows c (hcpu c ▸ hc)
    layerRows := fun L hL =>
      (hs.layerRows L (hlayerOk L ▸ hL)).of_rows (hlayer L) (hrow L scroll) (hrow L dirty) (hrow L cache)
    saved := fun it hit => by rw [hsave]; exact hs.saved it (save ▸ hit)
    savedOnce := save ▸ hs.savedOnce
    screen := hscreen }

end SameSizes


/-! ## Updates that keep every size -/

section Updates

variable {s : State}

/-- An update that leaves the phase and the frame buffer alone and keeps every size keeps the shape. -/
theorem Shaped.of_update {t : State} (hs : Shaped s) (h : tableSizes t = tableSizes s)
    (hf : (t.phase, t.fb.length, t.sw, t.sh) = (s.phase, s.fb.length, s.sw, s.sh)) : Shaped t := by
  simp only [Prod.mk.injEq] at hf
  obtain ⟨hphase, hfb, hsw, hsh⟩ := hf
  exact hs.of_sizes h (by rw [hphase, hfb, hsw, hsh]; exact hs.screen)

/-- Nested work changes what the tables hold and never how large they are. -/
theorem shaped_kept (env : Env) : Kept env fun s t => Shaped s → Shaped t where
  refl _ hs := hs
  trans _ _ _ h h' hs := h' (h hs)
  emit _ _ hs := hs.of_update rfl rfl
  observe _ _ _ hs := hs.of_update (by simp [tableSizes]) rfl
  line _ _ _ _ _ hs := hs.of_update (by simp [tableSizes, map_modify_of_keeps]) rfl
  byte _ _ _ _ hs := hs.of_update rfl rfl
  bank s b off hs := hs.of_update (by simp [tableSizes, map_modify_of_keeps]) rfl
  scroll _ _ _ _ hs := hs.of_update (by simp [tableSizes, map_modify_of_keeps]) rfl
  latch _ _ _ hs := hs.of_update (by simp [tableSizes]) rfl
  flip _ _ hs := hs.of_update rfl rfl
  palette _ _ _ hs := hs.of_update (by simp [tableSizes]) rfl
  lookup _ _ _ _ hs := hs.of_update (by simp [tableSizes]) rfl
  timer _ _ _ hs := hs.of_update (by simp [tableSizes]) rfl
  dirty _ _ _ _ hs := hs.of_update (by simp [tableSizes, map_modify_of_keeps]) rfl
  cell _ _ _ _ hs := hs.of_update (by simp [tableSizes, map_modify_of_keeps]) rfl
  fb _ _ hfb hs := hs.of_update rfl (by simp [hfb])
  inHandler _ _ hs := hs.of_update rfl rfl
  ext _ _ hs := hs.of_update rfl rfl
  now _ _ hs := hs.of_update rfl rfl
  cursorI _ _ hs := hs.of_update rfl rfl
  cursorK _ _ hs := hs.of_update rfl rfl
  carry _ _ _ hs := hs.of_update (by simp [tableSizes]) rfl
  inFrame _ _ hs := hs.of_update rfl rfl
  endFrame _ hs := hs.of_update rfl rfl
  fatal _ _ _ hs := hs.of_sizes rfl (by simp)

@[simp] theorem freshFb_length (env : Env) (s : State) : (freshFb env s).length = s.sw.toNat * s.sh.toNat := by
  simp [freshFb]

@[simp] theorem freshCache_length (env : Env) (s : State) (L n : Nat) : (freshCache env s L n).length = n := by
  simp [freshCache]

theorem shaped_enterRun (env : Env) (hs : Shaped s) : Shaped (enterRun env s) :=
  hs.of_sizes rfl fun _ => freshFb_length env s

theorem tableSizes_resetFields (env : Env) (s : State) : tableSizes (resetFields env s) = tableSizes s := by
  simp only [resetFields, tableSizes, nextDraw, TableSizes.mk.injEq, true_and]
  refine ⟨?regions, ?banks, ?latch, ?timers, ?carry, ?scroll, ?dirty, ?cache⟩
  case regions => exact map_mapIdx_of_keeps _ fun r rg => by split_ifs <;> rfl
  case banks => exact map_mapIdx_of_keeps _ fun b bk => by split_ifs <;> rfl
  case latch => split_ifs <;> simp
  case timers => simp
  case carry => simp
  case scroll => exact map_mapIdx_of_keeps _ fun L row => by split_ifs <;> simp
  case dirty => simp
  case cache => exact map_mapIdx_of_keeps _ fun L row => freshCache_length env s L row.length

theorem shaped_resetFields (env : Env) (hs : Shaped s) : Shaped (resetFields env s) :=
  hs.of_sizes (tableSizes_resetFields env s) fun _ => freshFb_length env s

/-! ## RESTORE (R334) -/

theorem restoreItem_screen (it : SaveItem) (bytes : List Byte) (s : State) :
    ((restoreItem it bytes s).phase, (restoreItem it bytes s).fb.length, (restoreItem it bytes s).sw,
      (restoreItem it bytes s).sh) = (s.phase, s.fb.length, s.sw, s.sh) := by
  unfold restoreItem; split <;> rfl

/-- An item that names an existing thing, restored from as many bytes as it has, keeps every size. -/
theorem tableSizes_restoreItem (hs : Shaped s) {it : SaveItem} (hit : saveTargetOk s it.cls it.id = true)
    {bytes : List Byte} (hlen : bytes.length = itemLength s it) :
    tableSizes (restoreItem it bytes s) = tableSizes s := by
  cases it with | mk cls id
  cases cls <;> simp only [saveTargetOk, itemLength, itemWidth, itemCount] at hit hlen
  case region => rfl
  case flip => rfl
  case bank => simp [restoreItem, tableSizes, map_modify_of_keeps]
  case latches => simp [restoreItem, tableSizes, hs.latch, hlen]
  case palette => simp [restoreItem, tableSizes, itemCount, hs.palette]
  case lookup => simp [restoreItem, tableSizes, itemCount, hs.lookup]
  case scroll =>
    have hrow := (hs.layerRows _ hit).scroll
    simp only [restoreItem, tableSizes, TableSizes.mk.injEq, true_and, and_true]
    exact map_length_set (by rw [hrow]; simp [itemCount])
  case lines =>
    have hrow := hs.lineRows _ hit
    simp only [restoreItem, tableSizes, TableSizes.mk.injEq, true_and, and_true]
    exact map_length_set (by rw [hrow]; simp [itemCount])

/-- The items of a list, restored one after another from bytes enough for all, leave a shaped state. -/
theorem shaped_restoreItems (its : List SaveItem) (bytes : List Byte) (hs : Shaped s)
    (hits : ∀ it ∈ its, saveTargetOk s it.cls it.id = true)
    (hlen : bytes.length = (its.map (itemLength s)).sum) : Shaped (restoreItems its bytes s) := by
  induction its generalizing s bytes with
  | nil => exact hs
  | cons it its ih =>
    simp only [List.map_cons, List.sum_cons] at hlen
    have hsizes := tableSizes_restoreItem hs (hits it (by simp)) (bytes := bytes.take (itemLength s it))
      (by rw [List.length_take]; omega)
    refine ih _ (hs.of_update hsizes (restoreItem_screen _ _ _)) (fun it' hi => ?_) ?_
    · rw [saveTargetOk_of_sizes hsizes]
      exact hits it' (by simp [hi])
    · rw [funext (itemLength_of_sizes hsizes), List.length_drop]
      omega

theorem shaped_allDirty (hs : Shaped s) : Shaped (allDirty s) :=
  hs.of_update (by simp [allDirty, tableSizes]) rfl

end Updates

/-! ## Commands that register something -/

section Registering

variable {s t : State}

/-- The save list stays right where nothing that existed is gone. -/
theorem Shaped.saved_of_mono (hs : Shaped s) (hsave : t.save = s.save)
    (hregion : ∀ r, regionOk s r = true → regionOk t r = true)
    (hbank : ∀ b, bankOk s b = true → bankOk t b = true) (hlayer : ∀ L, layerOk s L = true → layerOk t L = true)
    (hcpu : ∀ c, isCpu s c = true → isCpu t c = true) :
    ∀ it ∈ t.save, saveTargetOk t it.cls it.id = true ∧ it.id = saveId it.cls it.id := by
  intro it hit
  obtain ⟨hok, hid⟩ := hs.saved it (hsave ▸ hit)
  refine ⟨?_, hid⟩
  obtain ⟨cls, id⟩ := it
  cases cls
  case region => exact hregion _ hok
  case bank => exact hbank _ hok
  case scroll => exact hlayer _ hok
  case lines => exact hcpu _ hok
  all_goals rfl

/-- The identifier a save item keeps names the same thing (R332). -/
theorem saveTargetOk_saveId (s : State) (cls : SaveClass) (id : Word32) :
    saveTargetOk s cls (saveId cls id) = saveTargetOk s cls id := by
  cases cls <;> rfl

theorem saveId_saveId (cls : SaveClass) (id : Word32) : saveId cls (saveId cls id) = saveId cls id := by
  cases cls <;> rfl

theorem newLines_length {kind : DevKind} (p : Params) (c : Nat) (h : kind = .cpu) :
    (newLines p c kind).length = p.nlineOf c := by
  subst h; simp [newLines]

theorem regionOk_of_set {n : Nat} {rg : Region} (hp : t.params = s.params) (hset : t.regions = s.regions.set n rg)
    (hvalid : rg.valid = true) (r : Nat) (h : regionOk s r = true) : regionOk t r = true := by
  simp only [regionOk, regionAt, Bool.and_eq_true, hp, hset] at h ⊢
  exact ⟨h.1, valid_getD_set hvalid _ _ _ _ h.2⟩

theorem bankOk_of_set {n : Nat} {bk : Bank} (hp : t.params = s.params) (hset : t.banks = s.banks.set n bk)
    (hvalid : bk.valid = true) (b : Nat) (h : bankOk s b = true) : bankOk t b = true := by
  simp only [bankOk, bankAt, Bool.and_eq_true, hp, hset] at h ⊢
  exact ⟨h.1, valid_getD_set hvalid _ _ _ _ h.2⟩

theorem layerOk_of_set {n : Nat} {ly : Layer} (hp : t.params = s.params) (hset : t.layers = s.layers.set n ly)
    (hvalid : ly.valid = true) (L : Nat) (h : layerOk s L = true) : layerOk t L = true := by
  simp only [layerOk, layerAt, Bool.and_eq_true, hp, hset] at h ⊢
  exact ⟨h.1, valid_getD_set hvalid _ _ _ _ h.2⟩

theorem isCpu_of_dev_append {ds : List Device} (hdev : t.dev = s.dev ++ ds) (c : Nat) (h : isCpu s c = true) :
    isCpu t c = true := by
  have hc : c < s.dev.length := by
    by_contra hge
    simp [isCpu, List.getElem?_eq_none (Nat.not_lt.1 hge)] at h
  rwa [isCpu, hdev, List.getElem?_append_left hc]

/-- The CPUs before keep their rows of lines, a new one gets its own (R150). -/
theorem lineRow_of_dev_append {d : Device} (hs : Shaped s) (hdev : t.dev = s.dev ++ [d])
    (hlines : t.lines = s.lines ++ [newLines s.params s.dev.length d.kind]) (c : Nat) (hc : isCpu t c = true) :
    (t.lines.getD c []).length = s.params.nlineOf c := by
  rw [isCpu, hdev] at hc
  rw [hlines]
  rcases Nat.lt_trichotomy c s.dev.length with hlt | rfl | hgt
  · rw [List.getElem?_append_left hlt] at hc
    rw [List.getD_append _ _ _ _ (hs.lines ▸ hlt)]
    exact hs.lineRows c hc
  · have hkind : d.kind = .cpu := by simpa using hc
    rw [← hs.lines, List.getD_append_right _ _ _ _ le_rfl, hs.lines]
    simp [newLines_length _ _ hkind]
  · simp [hgt] at hc

/-- REGDEV: there was room for one more device, which gets its row, carry and record (R150). -/
theorem shaped_regdev {tag hz : Word32} {kind : BitVec 2} {a : Answer} (hs : Shaped s)
    (h : regdevBody tag kind hz s = .ok a t) : Shaped t := by
  obtain ⟨kd, -, -, hroom, rfl⟩ := regdevBody_ok h
  have hdev := hs.dev
  exact { hs with
    dev := by simp; omega
    lines := by simp [hs.lines]
    carry := by simp [hs.carry]
    cpuObs := by simp [hs.cpuObs]
    lineRows := lineRow_of_dev_append (s := s) hs rfl rfl
    layerRows := fun L hL => (hs.layerRows L hL).of_rows rfl rfl rfl rfl
    saved := hs.saved_of_mono rfl (fun _ h => h) (fun _ h => h) (fun _ h => h) (isCpu_of_dev_append rfl) }

/-- REGION: one more slot is valid (R152). -/
theorem shaped_region {r size j : Word32} {a : Answer} (hs : Shaped s) (h : regionBody r size j s = .ok a t) :
    Shaped t := by
  obtain ⟨-, -, -, img, bytes, -, rfl⟩ := regionBody_ok h
  exact { hs with
    regions := by simp [makeRegion, hs.regions]
    layerRows := fun L hL => (hs.layerRows L hL).of_rows rfl rfl rfl rfl
    saved := hs.saved_of_mono rfl (regionOk_of_set rfl rfl rfl) (fun _ h => h) (fun _ h => h) (fun _ h => h) }

/-- BANKDEF: one more slot is valid (R153). -/
theorem shaped_bankdef {b r n : Word32} {a : Answer} (hs : Shaped s) (h : bankdefBody b r n s = .ok a t) :
    Shaped t := by
  obtain ⟨-, -, -, -, rfl⟩ := bankdefBody_ok h
  exact { hs with
    banks := by simp [hs.banks]
    layerRows := fun L hL => (hs.layerRows L hL).of_rows rfl rfl rfl rfl
    saved := hs.saved_of_mono rfl (fun _ h => h) (bankOk_of_set rfl rfl rfl) (fun _ h => h) (fun _ h => h) }

/-- MAP: there was room for one more entry (R170). -/
theorem shaped_map {sp x y p q : Word32} {k : BitVec 3} {a : Answer} (hs : Shaped s)
    (h : mapBody sp x y k p q s = .ok a t) : Shaped t := by
  obtain ⟨_, -, -, -, -, hroom, rfl⟩ := mapBody_ok h
  have hentries := hs.entries
  exact { hs with
    entries := by simp; omega
    layerRows := fun L hL => (hs.layerRows L hL).of_rows rfl rfl rfl rfl }

/-- SAVEREG: there was room for one more item, it was not in the list, and what it names exists (R332). -/
theorem shaped_savereg {c : Byte} {id : Word32} {a : Answer} (hs : Shaped s) (h : saveregBody c id s = .ok a t) :
    Shaped t := by
  obtain ⟨kd, -, hok, hnew, hroom, rfl⟩ := saveregBody_ok h
  have hsave := hs.save
  exact { hs with
    save := by simp; omega
    layerRows := fun L hL => (hs.layerRows L hL).of_rows rfl rfl rfl rfl
    saved := fun it hit => by
      rcases List.mem_append.1 hit with hold | hit
      · exact hs.saved it hold
      · obtain rfl := List.mem_singleton.1 hit
        exact ⟨(saveTargetOk_saveId s kd id).trans hok, (saveId_saveId kd id).symm⟩
    savedOnce := List.concat_eq_append ▸ hs.savedOnce.concat hnew }

/-- The new layer gets tables of its own sizes, the others keep theirs (R260). -/
theorem layerShaped_makeLayer (env : Env) {L : Nat} {ly : Layer} (hs : Shaped s) (hL : L < s.params.nlayer)
    (hsizes : 0 < ly.w.toNat ∧ 0 < ly.h.toNat ∧ 0 < ly.tw.toNat ∧ 0 < ly.th.toNat ∧ 0 < ly.nent.toNat) (M : Nat)
    (hM : layerOk (makeLayer env L ly s) M = true) : LayerShaped (makeLayer env L ly s) M := by
  rcases eq_or_ne L M with rfl | hne
  · have hlayer : layerAt (makeLayer env L ly s) L = ly := getD_set_self (hs.layers ▸ hL) _ _
    exact {
      sizes := by rw [hlayer]; exact hsizes
      scroll := by rw [hlayer, makeLayer, nextDraw_scroll, getD_set_self (hs.scroll ▸ hL), List.length_replicate]
      dirty := by
        rw [hlayer, makeLayer, nextDraw_dirty, getD_set_self (hs.dirty ▸ hL), List.length_replicate, cellCount]
      cache := by
        rw [hlayer, makeLayer, nextDraw_cache, getD_set_self (hs.cache ▸ hL), freshCache_length, cellCount] }
  · have hlayer : layerAt (makeLayer env L ly s) M = layerAt s M := getD_set_ne hne _ _ _
    have hold : layerOk s M = true := by rwa [layerOk, hlayer] at hM
    exact (hs.layerRows M hold).of_rows hlayer (congrArg _ (getD_set_ne hne _ _ _))
      (congrArg _ (getD_set_ne hne _ _ _)) (congrArg _ (getD_set_ne hne _ _ _))

/-- TMCREATE: the sizes it was given are not 0 (R260). -/
theorem shaped_tmcreate {env : Env} {L rf g : Word32} {w h tw th : Word16} {m : BitVec 2} {n : BitVec 9} {a : Answer}
    (hs : Shaped s) (hb : tmcreateBody env L w h tw th rf g m n s = .ok a t) : Shaped t := by
  obtain ⟨sm, -, hL, -, hw, hh, htw, hth, hn, rfl⟩ := tmcreateBody_ok hb
  have hpos {k : Nat} {v : BitVec k} : v ≠ 0 → 0 < v.toNat := BitVec.toNat_pos_of_ne_zero
  exact { hs with
    layers := by simp [makeLayer, hs.layers]
    scroll := by simp [makeLayer, hs.scroll]
    dirty := by simp [makeLayer, hs.dirty]
    cache := by simp [makeLayer, hs.cache]
    layerRows := layerShaped_makeLayer env hs hL ⟨hpos hw, hpos hh, hpos htw, hpos hth, hpos hn⟩
    saved := hs.saved_of_mono rfl (fun _ h => h) (fun _ h => h) (layerOk_of_set rfl rfl rfl) (fun _ h => h) }

/-- The shape is kept across nested work and across every host command. -/
theorem shaped_stepKept (env : Env) : StepKept env fun s t => Shaped s → Shaped t where
  toKept := shaped_kept env
  answer _ _ _ _ hs := hs.of_update rfl rfl
  latchError _ _ hs := hs.of_update rfl rfl
  take _ _ _ hs := hs.of_update rfl rfl
  payload _ _ hs := hs.of_update rfl rfl
  inp _ _ _ hs := hs.of_update (by simp [tableSizes]) rfl
  regdev _ _ _ _ _ _ _ h hs := shaped_regdev hs h
  region _ _ _ _ _ _ _ h hs := shaped_region hs h
  bankdef _ _ _ _ _ _ _ h hs := shaped_bankdef hs h
  map _ _ _ _ _ _ _ _ _ _ h hs := shaped_map hs h
  tmcreate _ _ _ _ _ _ _ _ _ _ _ _ _ h hs := shaped_tmcreate hs h
  savereg _ _ _ _ _ _ h hs := shaped_savereg hs h
  spacedef _ _ _ _ _ _ _ h hs := by
    obtain ⟨-, -, -, rfl⟩ := spacedefBody_ok h
    exact hs.of_update (by simp [tableSizes]) rfl
  portdef _ _ _ _ _ _ _ _ _ _ h hs := by
    obtain ⟨-, -, -, rfl⟩ := portdefBody_ok h
    exact hs.of_update (by simp [tableSizes]) rfl
  rstep _ _ _ _ _ _ _ _ _ h hs := by
    obtain ⟨_, -, -, -, -, rfl⟩ := rstepBody_ok h
    exact hs.of_update (by simp [tableSizes]) rfl
  spcfg _ _ _ _ _ _ _ _ _ _ _ _ _ _ _ h hs := by
    obtain ⟨-, -, rfl⟩ := spcfgBody_ok h
    exact hs.of_update rfl rfl
  syscfg _ _ _ _ _ _ _ _ hconfig h hs := by
    rw [syscfgBody_ok h]
    exact hs.of_sizes rfl (by simp [hconfig])
  start s _ _ _ h hs := by
    obtain ⟨-, -, rfl⟩ := startBody_ok h
    exact ((shaped_kept env).callAllSetPc (enterRun env s)).1 (shaped_enterRun env hs)
  reset s _ _ _ h hs := by
    rw [resetBody_ok h]
    have hlines := ((shaped_kept env).resetLines (cpuHandles s) s).1 hs
    exact ((shaped_kept env).callAllSetPc _).1 (shaped_resetFields env hlines)
  teardown _ _ _ _ h hs := by
    rw [teardownBody_ok h]
    exact hs.of_sizes (by simp [tableSizes]) (by simp)
  restore s _ _ _ h hs := by
    obtain ⟨hlen, -, rfl⟩ := restoreBody_ok h
    have hitems := shaped_restoreItems s.save s.payloadIn hs (fun it hit => (hs.saved it hit).1) hlen
    exact shaped_allDirty (((shaped_kept env).notifyItems s s.save _).1 hitems)

end Registering

/-- Settles O11: nested work and most commands keep every size; the six that register something add what the shape asks
of a new device, region, bank, entry, layer or save item. -/
theorem tablesStayShaped : Obligations.TablesStayShaped := fun s t hs hstep =>
  (shaped_stepKept Config.env).step_keeps s t hstep hs

end Sys2Proof.Machine
end

/-! PROOFS of the memory family (spec/20_memory.md): what a step does to the configuration. Nothing that exists is lost,
an entry that is added passes MAP's checks, and outside phase Config nothing is registered (R84, R91). -/
section

namespace Sys2Proof.Machine

/-! ## The configuration a state shows -/

/-- What `entryOk` and `entryFits` read: the parameters and the slots an entry can name, a region without its bytes and a
bank without its offset. -/
structure SlotsView where
  params : Params
  regions : List (Bool × Word32 × Bool)
  banks : List (Bool × Byte × Word32)
  spaces : List Space
  ports : List Port

/-- What `SameConfig` reads. -/
structure ConfigView where
  slots : SlotsView
  dev : List Device
  entries : List Entry
  layers : List Layer
  spr : SpriteCfg
  rsteps : List RStep
  save : List SaveItem
  clocks : Word32 × Word32 × Word16
  screen : BitVec 15 × BitVec 15
  syscfgDone : Bool

/-- The parameters and the slots of a state. -/
def slotsView (s : State) : SlotsView where
  params := s.params
  regions := s.regions.map fun r => (r.valid, r.size, r.img)
  banks := s.banks.map fun b => (b.valid, b.region, b.size)
  spaces := s.spaces
  ports := s.ports

/-- The configuration of a state. -/
def configView (s : State) : ConfigView where
  slots := slotsView s
  dev := s.dev
  entries := s.entries
  layers := s.layers
  spr := s.spr
  rsteps := s.rsteps
  save := s.save
  clocks := (s.masterHz, s.frameHz, s.slices)
  screen := (s.sw, s.sh)
  syscfgDone := s.syscfgDone

section Views

variable {s t : State}

theorem regionAt_slotsView (s : State) (r : Nat) :
    ((regionAt s r).valid, (regionAt s r).size, (regionAt s r).img) =
      (slotsView s).regions.getD r (false, 0, false) :=
  (List.getD_map (l := s.regions) (d := noRegion) fun rg : Region => (rg.valid, rg.size, rg.img)).symm

theorem bankAt_slotsView (s : State) (b : Nat) :
    ((bankAt s b).valid, (bankAt s b).region, (bankAt s b).size) = (slotsView s).banks.getD b (false, 0, 0) :=
  (List.getD_map (l := s.banks) (d := noBank) fun bk : Bank => (bk.valid, bk.region, bk.size)).symm

theorem regionAt_of_slots (h : slotsView t = slotsView s) (r : Nat) :
    (regionAt t r).valid = (regionAt s r).valid ∧ (regionAt t r).size = (regionAt s r).size ∧
      (regionAt t r).img = (regionAt s r).img := by
  have hr := regionAt_slotsView t r
  rw [h, ← regionAt_slotsView] at hr
  simpa only [Prod.mk.injEq] using hr

theorem bankAt_of_slots (h : slotsView t = slotsView s) (b : Nat) :
    (bankAt t b).valid = (bankAt s b).valid ∧ (bankAt t b).region = (bankAt s b).region ∧
      (bankAt t b).size = (bankAt s b).size := by
  have hb := bankAt_slotsView t b
  rw [h, ← bankAt_slotsView] at hb
  simpa only [Prod.mk.injEq] using hb

theorem spaceAt_of_slots (h : slotsView t = slotsView s) (n : Nat) : spaceAt t n = spaceAt s n :=
  congrArg (fun z => z.spaces.getD n noSpace) h

theorem portAt_of_slots (h : slotsView t = slotsView s) (n : Nat) : portAt t n = portAt s n :=
  congrArg (fun z => z.ports.getD n noPort) h

/-- The view determines everything Config registers. -/
theorem SameConfig.of_configView (h : configView t = configView s) : SameConfig s t := by
  have hslots : slotsView t = slotsView s := congrArg ConfigView.slots h
  have hclocks := congrArg ConfigView.clocks h
  have hscreen := congrArg ConfigView.screen h
  simp only [configView, Prod.mk.injEq] at hclocks hscreen
  exact {
    params := congrArg SlotsView.params hslots
    dev := congrArg ConfigView.dev h
    spaces := congrArg SlotsView.spaces hslots
    entries := congrArg ConfigView.entries h
    ports := congrArg SlotsView.ports hslots
    layers := congrArg ConfigView.layers h
    spr := congrArg ConfigView.spr h
    rsteps := congrArg ConfigView.rsteps h
    save := congrArg ConfigView.save h
    clocks := hclocks
    screen := hscreen
    syscfg := congrArg ConfigView.syscfgDone h
    regions := regionAt_of_slots hslots
    banks := bankAt_of_slots hslots }

end Views

/-! ## What exists stays -/

/-- Every slot that is valid in s is the same in t, as far as an entry's checks read it. -/
structure SlotsKept (s t : State) : Prop where
  params : t.params = s.params
  region : ∀ r, (regionAt s r).valid = true →
    (regionAt t r).valid = true ∧ (regionAt t r).size = (regionAt s r).size
  bank : ∀ b, (bankAt s b).valid = true → (bankAt t b).valid = true ∧ (bankAt t b).size = (bankAt s b).size
  space : ∀ n, (spaceAt s n).valid = true → spaceAt t n = spaceAt s n
  port : ∀ h, (portAt s h).valid = true → portAt t h = portAt s h

namespace SlotsKept

variable {s t u : State}

theorem of_slots (h : slotsView t = slotsView s) : SlotsKept s t where
  params := congrArg SlotsView.params h
  region r hr := by
    obtain ⟨hvalid, hsize, -⟩ := regionAt_of_slots h r
    exact ⟨hvalid.trans hr, hsize⟩
  bank b hb := by
    obtain ⟨hvalid, -, hsize⟩ := bankAt_of_slots h b
    exact ⟨hvalid.trans hb, hsize⟩
  space n _ := spaceAt_of_slots h n
  port n _ := portAt_of_slots h n

theorem trans (h : SlotsKept s t) (h' : SlotsKept t u) : SlotsKept s u where
  params := h'.params.trans h.params
  region r hr := by
    obtain ⟨hvalid, hsize⟩ := h.region r hr
    obtain ⟨hvalid', hsize'⟩ := h'.region r hvalid
    exact ⟨hvalid', hsize'.trans hsize⟩
  bank b hb := by
    obtain ⟨hvalid, hsize⟩ := h.bank b hb
    obtain ⟨hvalid', hsize'⟩ := h'.bank b hvalid
    exact ⟨hvalid', hsize'.trans hsize⟩
  space n hn := by
    have hsp := h.space n hn
    exact (h'.space n (hsp ▸ hn)).trans hsp
  port n hn := by
    have hpt := h.port n hn
    exact (h'.port n (hpt ▸ hn)).trans hpt

theorem regionOk (h : SlotsKept s t) {r : Nat} (hr : regionOk s r = true) :
    Machine.regionOk t r = true ∧ regionSize t r = regionSize s r := by
  simp only [Machine.regionOk, Bool.and_eq_true, h.params] at hr ⊢
  obtain ⟨hvalid, hsize⟩ := h.region r hr.2
  exact ⟨⟨hr.1, hvalid⟩, congrArg BitVec.toNat hsize⟩

theorem bankOk (h : SlotsKept s t) {b : Nat} (hb : bankOk s b = true) :
    Machine.bankOk t b = true ∧ (bankAt t b).size = (bankAt s b).size := by
  simp only [Machine.bankOk, Bool.and_eq_true, h.params] at hb ⊢
  obtain ⟨hvalid, hsize⟩ := h.bank b hb.2
  exact ⟨⟨hb.1, hvalid⟩, hsize⟩

theorem spaceOk (h : SlotsKept s t) {n : Nat} (hn : spaceOk s n = true) :
    Machine.spaceOk t n = true ∧ spaceAt t n = spaceAt s n := by
  simp only [Machine.spaceOk, Bool.and_eq_true, h.params] at hn ⊢
  have hsp := h.space n hn.2
  exact ⟨⟨hn.1, hsp ▸ hn.2⟩, hsp⟩

theorem portOk (h : SlotsKept s t) {n : Nat} (hn : portOk s n = true) : Machine.portOk t n = true := by
  simp only [Machine.portOk, Bool.and_eq_true, h.params] at hn ⊢
  exact ⟨hn.1, h.port n hn.2 ▸ hn.2⟩

/-- What MAP checked of an entry stays true where what exists stays. -/
theorem entryOk (h : SlotsKept s t) {e : Entry} (he : entryOk s e) : entryOk t e := by
  unfold Machine.entryOk at he ⊢
  obtain ⟨hrange, htarget⟩ := he
  refine ⟨hrange, ?_⟩
  have hregion (hr : Machine.regionOk s e.p0.toNat = true ∧
      e.p1.toNat + (e.stop.toNat - e.start.toNat + 1) ≤ regionSize s e.p0.toNat) :
      Machine.regionOk t e.p0.toNat = true ∧
        e.p1.toNat + (e.stop.toNat - e.start.toNat + 1) ≤ regionSize t e.p0.toNat := by
    obtain ⟨hok, hsize⟩ := h.regionOk hr.1
    exact ⟨hok, hsize ▸ hr.2⟩
  cases hk : e.kind <;> simp only [hk] at htarget ⊢
  case rom | ram => exact hregion htarget
  case bankedRom => exact (h.bankOk htarget).1
  case readHandler | writeHandler | readWriteHandler => exact h.portOk htarget

/-- So does the rest; a BankedROM entry's bank exists, which `entryOk` says. -/
theorem entryFits (h : SlotsKept s t) {e : Entry} (hok : Machine.entryOk s e) (he : entryFits s e) :
    entryFits t e := by
  obtain ⟨hspace, hstop, hwindow⟩ := he
  obtain ⟨hspace', hsp⟩ := h.spaceOk hspace
  refine ⟨hspace', hsp ▸ hstop, fun hk => ?_⟩
  have hbank : Machine.bankOk s e.p0.toNat = true := by simpa only [Machine.entryOk, hk] using hok.2
  rw [(h.bankOk hbank).2]
  exact hwindow hk

/-! ## A new slot -/

/-- A slot that was free is not one that exists: the slots that exist stay where it is taken. -/
theorem getD_set_of_free {α : Type} {valid : α → Bool} {l : List α} {d x : α} {n m : Nat}
    (hfree : valid (l.getD n d) = false) (hm : valid (l.getD m d) = true) : (l.set n x).getD m d = l.getD m d := by
  refine getD_set_ne ?_ l x d
  rintro rfl
  exact absurd hm (by rw [hfree]; decide)

theorem makeRegion {r size : Word32} {img : Bool} {bytes : List Byte}
    (hfree : (regionAt s r.toNat).valid = false) : SlotsKept s (makeRegion r size img bytes s) :=
  { of_slots (rfl : slotsView s = slotsView s) with
    region := fun m hm => by
      have hsame : regionAt (Machine.makeRegion r size img bytes s) m = regionAt s m :=
        getD_set_of_free (valid := Region.valid) hfree hm
      rw [hsame]
      exact ⟨hm, rfl⟩ }

theorem setBank {b : Nat} {bk : Bank} (hfree : (bankAt s b).valid = false) :
    SlotsKept s { s with banks := s.banks.set b bk } :=
  { of_slots (rfl : slotsView s = slotsView s) with
    bank := fun m hm => by
      have hsame : bankAt { s with banks := s.banks.set b bk } m = bankAt s m :=
        getD_set_of_free (valid := Bank.valid) hfree hm
      rw [hsame]
      exact ⟨hm, rfl⟩ }

theorem setSpace {n : Nat} {sp : Space} (hfree : (spaceAt s n).valid = false) :
    SlotsKept s { s with spaces := s.spaces.set n sp } :=
  { of_slots (rfl : slotsView s = slotsView s) with
    space := fun _ hm => getD_set_of_free (valid := Space.valid) hfree hm }

theorem setPort {n : Nat} {P : Port} (hfree : (portAt s n).valid = false) :
    SlotsKept s { s with ports := s.ports.set n P } :=
  { of_slots (rfl : slotsView s = slotsView s) with
    port := fun _ hm => getD_set_of_free (valid := Port.valid) hfree hm }

end SlotsKept

/-! ## What a step does to the configuration -/

/-- What exists in s stays in t, an entry of t that is not one of s passes MAP's checks (under legal parameters all
of them), and a step from outside Config registers nothing and does not go back there. -/
structure ConfigGrows (s t : State) : Prop where
  slots : SlotsKept s t
  entry : ∀ e ∈ t.entries, e ∈ s.entries ∨ entryOk t e ∧ (t.params.Legal → entryFits t e)
  fixed : s.phase ≠ .config → configView t = configView s ∧ t.phase ≠ .config

namespace ConfigGrows

variable {s t u : State}

/-- An update that the view does not see, and that does not enter Config. -/
theorem of_configView (h : configView t = configView s) (hp : t.phase = .config → s.phase = .config) :
    ConfigGrows s t where
  slots := .of_slots (congrArg ConfigView.slots h)
  entry _ he :=
    have hentries : t.entries = s.entries := congrArg ConfigView.entries h
    .inl (hentries ▸ he)
  fixed hs := ⟨h, fun ht => hs (hp ht)⟩

/-- A command of phase Config that adds no entry. -/
theorem of_config (hs : s.phase = .config) (hslots : SlotsKept s t) (hentries : t.entries = s.entries) :
    ConfigGrows s t where
  slots := hslots
  entry _ he := .inl (hentries ▸ he)
  fixed hne := absurd hs hne

theorem trans (h : ConfigGrows s t) (h' : ConfigGrows t u) : ConfigGrows s u where
  slots := h.slots.trans h'.slots
  entry e he := by
    rcases h'.entry e he with hold | hnew
    · rcases h.entry e hold with hold | ⟨hok, hfits⟩
      · exact .inl hold
      · exact .inr ⟨h'.slots.entryOk hok, fun hl => h'.slots.entryFits hok (hfits (h'.slots.params ▸ hl))⟩
    · exact .inr hnew
  fixed hs := by
    obtain ⟨hview, hphase⟩ := h.fixed hs
    obtain ⟨hview', hphase'⟩ := h'.fixed hphase
    exact ⟨hview'.trans hview, hphase'⟩

end ConfigGrows

/-! ## Updates that the view does not see -/

theorem configView_setBankOffset (b : Nat) (off : Word32) (s : State) :
    configView (setBankOffset b off s) = configView s := by
  simp [configView, slotsView, map_modify_of_keeps]

theorem configView_resetFields (env : Env) (s : State) : configView (resetFields env s) = configView s := by
  simp only [configView, slotsView, resetFields, nextDraw, ConfigView.mk.injEq, SlotsView.mk.injEq, and_true, true_and]
  exact ⟨map_mapIdx_of_keeps _ fun _ _ => by split_ifs <;> rfl, map_mapIdx_of_keeps _ fun _ _ => by split_ifs <;> rfl⟩

theorem configView_restoreItem (it : SaveItem) (bytes : List Byte) (s : State) :
    configView (restoreItem it bytes s) = configView s := by
  unfold restoreItem
  cases it.cls
  case bank => simp [configView, slotsView, map_modify_of_keeps]
  all_goals rfl

theorem restoreItem_phase (it : SaveItem) (bytes : List Byte) (s : State) :
    (restoreItem it bytes s).phase = s.phase :=
  congrArg Prod.fst (restoreItem_screen it bytes s)

theorem configGrows_kept (env : Env) : Kept env ConfigGrows where
  trans _ _ _ := ConfigGrows.trans
  bank s b off := .of_configView (configView_setBankOffset b off s) id
  fatal _ _ _ := .of_configView rfl (by simp)
  refl _ := .of_configView rfl id
  emit _ _ := .of_configView rfl id
  observe _ _ _ := .of_configView rfl id
  line _ _ _ _ _ := .of_configView rfl id
  byte _ _ _ _ := .of_configView rfl id
  scroll _ _ _ _ := .of_configView rfl id
  latch _ _ _ := .of_configView rfl id
  flip _ _ := .of_configView rfl id
  palette _ _ _ := .of_configView rfl id
  lookup _ _ _ _ := .of_configView rfl id
  timer _ _ _ := .of_configView rfl id
  dirty _ _ _ _ := .of_configView rfl id
  cell _ _ _ _ := .of_configView rfl id
  fb _ _ _ := .of_configView rfl id
  inHandler _ _ := .of_configView rfl id
  ext _ _ := .of_configView rfl id
  now _ _ := .of_configView rfl id
  cursorI _ _ := .of_configView rfl id
  cursorK _ _ := .of_configView rfl id
  carry _ _ _ := .of_configView rfl id
  inFrame _ _ := .of_configView rfl id
  endFrame _ := .of_configView rfl id

/-! ## MAP (R170) -/

section Map

variable {s t : State} {a : Answer}

/-- MAP's check of the range against its space. -/
theorem mapBody_ok_stop_lt {sp x z p q : Word32} {kind : BitVec 3} (h : mapBody sp x z kind p q s = .ok a t) :
    z.toNat < 2 ^ (spaceAt s sp.toNat).aw.toNat := by
  obtain ⟨kd, hk, hsp, -, -, -, -⟩ := mapBody_ok h
  by_contra hge
  simp [mapBody, hsp, hk, Nat.not_lt.1 hge] at h

/-- A target MAP accepts is one that `entryOk` accepts. -/
theorem entryOk_of_mapTargetError {e : Entry} (hrange : e.start.toNat ≤ e.stop.toNat)
    (h : mapTargetError s e.kind (e.stop.toNat - e.start.toNat + 1) e.p0 e.p1 = none) : entryOk s e := by
  refine ⟨hrange, ?_⟩
  unfold mapTargetError at h
  cases hk : e.kind <;> simp only [hk] at h ⊢
  case rom | ram =>
    split_ifs at h with hregion hsize
    exact ⟨by simpa using hregion, Nat.not_lt.1 hsize⟩
  case bankedRom =>
    split_ifs at h with hbank
    simpa using hbank
  case readHandler | writeHandler | readWriteHandler =>
    split_ifs at h with hport
    simpa using hport

/-- A BankedROM range MAP accepts is no longer than the window. -/
theorem mapTargetError_bankedRom {len : Nat} {p q : Word32} (h : mapTargetError s .bankedRom len p q = none) :
    len ≤ (bankAt s p.toNat).size.toNat := by
  simp only [mapTargetError] at h
  split_ifs at h with _ hlen
  exact Nat.not_lt.1 hlen

/-- Under legal parameters an identifier of a space loses nothing in the entry's field (log 26). -/
theorem spaceOk_setWidth {sp : Word32} (hl : s.params.Legal) (h : spaceOk s sp.toNat = true) :
    (sp.setWidth 8).toNat = sp.toNat := by
  have hlt : sp.toNat < s.params.nspace := by
    simp only [spaceOk, Bool.and_eq_true, decide_eq_true_eq] at h
    exact h.1
  have hmax := hl.nspace.2
  rw [BitVec.toNat_setWidth]
  exact Nat.mod_eq_of_lt (by omega)

/-- MAP adds one entry, which passes its checks. -/
theorem configGrows_map {sp x z p q : Word32} {kind : BitVec 3} (hs : s.phase = .config)
    (h : mapBody sp x z kind p q s = .ok a t) : ConfigGrows s t := by
  have hstop := mapBody_ok_stop_lt h
  obtain ⟨kd, -, hspace, hrange, htarget, -, rfl⟩ := mapBody_ok h
  have hslots : SlotsKept s { s with entries := s.entries ++ [⟨sp.setWidth 8, x, z, kd, p, q⟩] } := .of_slots rfl
  refine ⟨hslots, fun e he => ?_, fun hne => absurd hs hne⟩
  rcases List.mem_append.1 he with hold | hnew
  · exact .inl hold
  · obtain rfl := List.mem_singleton.1 hnew
    have hok : entryOk s ⟨sp.setWidth 8, x, z, kd, p, q⟩ := entryOk_of_mapTargetError hrange htarget
    refine .inr ⟨hslots.entryOk hok, fun hl => hslots.entryFits hok ⟨?_, ?_, ?_⟩⟩
    · simpa only [spaceOk_setWidth hl hspace] using hspace
    · simpa only [spaceOk_setWidth hl hspace] using hstop
    · rintro rfl
      exact mapTargetError_bankedRom htarget

end Map

/-! ## The step -/

/-- The host's own commands: those of Config register something, the others write nothing that the view sees. -/
theorem configGrows_stepKept (env : Env) : StepKept env ConfigGrows where
  toKept := configGrows_kept env
  answer _ _ _ _ := .of_configView rfl id
  latchError _ _ := .of_configView rfl id
  take _ _ _ := .of_configView rfl id
  payload _ _ := .of_configView rfl id
  inp _ _ _ := .of_configView rfl id
  map _ _ _ _ _ _ _ _ _ hs h := configGrows_map hs h
  region _ _ _ _ _ _ hs h := by
    obtain ⟨-, hfree, -, _, _, -, rfl⟩ := regionBody_ok h
    exact .of_config hs (.makeRegion hfree) rfl
  bankdef _ _ _ _ _ _ hs h := by
    obtain ⟨-, hfree, -, -, rfl⟩ := bankdefBody_ok h
    exact .of_config hs (.setBank hfree) rfl
  spacedef _ _ _ _ _ _ hs h := by
    obtain ⟨-, hfree, -, rfl⟩ := spacedefBody_ok h
    exact .of_config hs (.setSpace hfree) rfl
  portdef _ _ _ _ _ _ _ _ _ hs h := by
    obtain ⟨-, hfree, -, rfl⟩ := portdefBody_ok h
    exact .of_config hs (.setPort hfree) rfl
  regdev _ _ _ _ _ _ hs h := by
    obtain ⟨_, -, -, -, rfl⟩ := regdevBody_ok h
    exact .of_config hs (.of_slots rfl) rfl
  syscfg _ _ _ _ _ _ _ _ hs h := by
    rw [syscfgBody_ok h]
    exact .of_config hs (.of_slots rfl) rfl
  tmcreate _ _ _ _ _ _ _ _ _ _ _ _ hs h := by
    obtain ⟨_, -, -, -, -, -, -, -, -, rfl⟩ := tmcreateBody_ok h
    exact .of_config hs (.of_slots rfl) rfl
  spcfg _ _ _ _ _ _ _ _ _ _ _ _ _ _ hs h := by
    obtain ⟨-, -, rfl⟩ := spcfgBody_ok h
    exact .of_config hs (.of_slots rfl) rfl
  rstep _ _ _ _ _ _ _ _ hs h := by
    obtain ⟨_, -, -, -, -, rfl⟩ := rstepBody_ok h
    exact .of_config hs (.of_slots rfl) rfl
  savereg _ _ _ _ _ hs h := by
    obtain ⟨_, -, -, -, -, rfl⟩ := saveregBody_ok h
    exact .of_config hs (.of_slots rfl) rfl
  start s _ _ _ h := by
    obtain ⟨-, -, rfl⟩ := startBody_ok h
    have henter : ConfigGrows s (enterRun env s) := .of_configView rfl (by simp [enterRun])
    exact henter.trans ((configGrows_kept env).callAllSetPc _).1
  reset s _ _ _ h := by
    rw [resetBody_ok h]
    have hlines := ((configGrows_kept env).resetLines (cpuHandles s) s).1
    have hfields : ConfigGrows _ (resetFields env ((cpuHandles s).foldl resetLines s)) :=
      .of_configView (configView_resetFields env _) id
    exact (hlines.trans hfields).trans ((configGrows_kept env).callAllSetPc _).1
  teardown _ _ _ _ h := by
    rw [teardownBody_ok h]
    exact .of_configView rfl (by simp)
  restore s _ _ _ h := by
    obtain ⟨-, -, rfl⟩ := restoreBody_ok h
    have hitems : ConfigGrows s (restoreItems s.save s.payloadIn s) :=
      restoreItems_induct _ _ s (.of_configView rfl id) fun it _ bytes t ht =>
        ht.trans (.of_configView (configView_restoreItem it bytes t) (restoreItem_phase it bytes t ▸ id))
    have hnotify := ((configGrows_kept env).notifyItems s s.save (restoreItems s.save s.payloadIn s)).1
    exact (hitems.trans hnotify).trans (.of_configView rfl id)

theorem step_configGrows {s t : State} (h : step s = .next t) : ConfigGrows s t :=
  (configGrows_stepKept Config.env).step_keeps s t h

/-- Settles O12: an entry of the state after the step is an old one, whose target still exists, or one that MAP just
checked. -/
theorem entriesStayInBounds : Obligations.EntriesStayInBounds := by
  refine ⟨fun s t hs hstep e he => ?_, fun s t hl hs hstep => ?_⟩
  · have hg := step_configGrows hstep
    rcases hg.entry e he with hold | ⟨hok, -⟩
    · exact hg.slots.entryOk (hs e hold)
    · exact hok
  · have hg := step_configGrows hstep
    refine ⟨hg.slots.params, fun e he => ?_⟩
    rcases hg.entry e he with hold | ⟨hok, hfits⟩
    · obtain ⟨hok, hfits⟩ := hs e hold
      exact ⟨hg.slots.entryOk hok, hg.slots.entryFits hok hfits⟩
    · exact ⟨hok, hfits (hg.slots.params ▸ hl)⟩

/-- Settles O8: outside Config a step keeps the view, and the view determines everything Config registers. -/
theorem configurationFixed : Obligations.ConfigurationFixed := by
  intro s t hs hstep
  obtain ⟨hview, hphase⟩ := (step_configGrows hstep).fixed hs
  exact ⟨.of_configView hview, hphase⟩

end Sys2Proof.Machine
end

/-! PROOFS of the memory family, second part: resolution, READ, FETCH and WRITE (spec/20_memory.md R81 to R87,
spec/41_address_space.md R171, R172, R174). -/
section

namespace Sys2Proof.Machine

/-! ## Resolution (R82, R83) -/

theorem covers_iff {e : Entry} {sp a : Nat} :
    covers e sp a = true ↔ e.space.toNat = sp ∧ e.start.toNat ≤ a ∧ a ≤ e.stop.toNat := by
  simp [covers, and_assoc]

/-- An entry is resolved exactly when it covers and serves, and no entry registered after it does. -/
theorem resolveEntry_eq_some_iff {s : State} {sp a : Nat} {serves : AccessKind → Bool} {e : Entry} :
    resolveEntry s sp a serves = some e ↔
      ∃ l r, s.entries = l ++ e :: r ∧ (covers e sp a = true ∧ serves e.kind = true) ∧
        ∀ x ∈ r, (covers x sp a && serves x.kind) = false := by
  constructor
  · intro h
    obtain ⟨he, before, after, hsplit, hbefore⟩ := List.find?_eq_some_iff_append.1 h
    refine ⟨after.reverse, before.reverse, ?_, by simpa using he, fun x hx => ?_⟩
    · simpa using congrArg List.reverse hsplit
    · exact (Bool.not_eq_true' _).mp (hbefore x (List.mem_reverse.1 hx))
  · rintro ⟨l, r, hsplit, he, hr⟩
    exact resolveEntry_last l r e hsplit he hr

/-- Settles O23: the search from the last entry back stops at the entry that nothing after it replaces; the kinds are
R82's table. -/
theorem lastRegisteredWins : Obligations.LastRegisteredWins := by
  constructor
  · intro s sp a serves e
    have hqualifies (x : Entry) : (covers x sp a && serves x.kind) = true ↔
        x.space.toNat = sp ∧ x.start.toNat ≤ a ∧ a ≤ x.stop.toNat ∧ serves x.kind = true := by
      rw [Bool.and_eq_true, covers_iff, and_assoc, and_assoc]
    simp only [resolveEntry_eq_some_iff, ← Bool.and_eq_true, ← Bool.not_eq_true, hqualifies]
  · intro k
    cases k <;> decide

/-! ## The primitives by what they reach (R84, R85, R86) -/

section Access

variable {env : Env} {s : State} {e : Entry}

theorem memRead_of_resolve_none {sp a : Nat} (h : resolveEntry s sp (busAddress s sp a) servesRead = none) :
    memRead env sp a s =
      .ok s.params.openBus (emit (.diag codeUnmappedRead sp (busAddress s sp a)) s) := by
  simp only [memRead, h, soft_eq]

theorem memRead_of_resolve_some {sp a : Nat} (h : resolveEntry s sp (busAddress s sp a) servesRead = some e) :
    memRead env sp a s = entryRead env e (busAddress s sp a) s := by
  simp only [memRead, h]

theorem memWrite_of_resolve_none {sp a : Nat} {v : Byte}
    (h : resolveEntry s sp (busAddress s sp a) servesWrite = none) :
    memWrite env sp a v s = .ok () (emit (.diag codeUnmappedWrite sp (busAddress s sp a)) s) := by
  simp only [memWrite, h, soft_eq]

theorem memWrite_of_resolve_some {sp a : Nat} {v : Byte}
    (h : resolveEntry s sp (busAddress s sp a) servesWrite = some e) :
    memWrite env sp a v s = entryWrite env e (busAddress s sp a) v s := by
  simp only [memWrite, h]

theorem entryRead_of_rom_ram (a : Nat) (h : e.kind = .rom ∨ e.kind = .ram) :
    entryRead env e a s = .ok (readRegion env s e.p0.toNat (e.p1.toNat + (a - e.start.toNat))) s := by
  rcases h with h | h <;> simp only [entryRead, h]

theorem entryRead_of_bankedRom (a : Nat) (h : e.kind = .bankedRom) :
    entryRead env e a s =
      .ok (readRegion env s (bankAt s e.p0.toNat).region.toNat
        (bankedOffset s (bankAt s e.p0.toNat) (a - e.start.toNat))) s := by
  simp only [entryRead, h]

theorem entryRead_of_handler (a : Nat) (h : e.kind = .readHandler ∨ e.kind = .readWriteHandler) :
    entryRead env e a s = handlerRead env e.p0.toNat a (a - e.start.toNat) s := by
  rcases h with h | h <;> simp only [entryRead, h]

theorem entryWrite_of_ram (a : Nat) (v : Byte) (h : e.kind = .ram) :
    entryWrite env e a v s = .ok () (writeRegion e.p0.toNat (e.p1.toNat + (a - e.start.toNat)) v s) := by
  simp only [entryWrite, h]

theorem entryWrite_of_handler (a : Nat) (v : Byte) (h : e.kind = .writeHandler ∨ e.kind = .readWriteHandler) :
    entryWrite env e a v s = handlerWrite env e.p0.toNat a (a - e.start.toNat) v s := by
  rcases h with h | h <;> simp only [entryWrite, h]

/-- Four port kinds serve no read (R180). -/
theorem portRead_eq_none {P : Port} (h : P.pk ∈ ([.banksel, .irqack, .scroll, .flip] : List PortKind)) (a o : Nat) :
    portRead env P a o = none := by
  simp only [List.mem_cons, List.not_mem_nil, or_false] at h
  rcases h with h | h | h | h <;> simp only [portRead, h]

/-- INPUT serves no write (R180). -/
theorem portWrite_eq_none {P : Port} (h : P.pk = .input) (a o : Nat) (v : Byte) : portWrite env P a o v = none := by
  simp only [portWrite, h]

theorem handlerRead_of_unserved {h a o : Nat} (hp : portRead env (portAt s h) a o = none) :
    handlerRead env h a o s = .ok s.params.openBus (emit (.diag codeUnmappedRead a h) s) := by
  simp only [handlerRead, hp, soft_eq]

theorem handlerWrite_of_unserved {h a o : Nat} {v : Byte} (hp : portWrite env (portAt s h) a o v = none) :
    handlerWrite env h a o v s = .ok () (emit (.diag codeUnmappedWrite a h) s) := by
  simp only [handlerWrite, hp, soft_eq]

/-- Where a resolved address lies in its entry. -/
theorem resolveEntry_range {sp a : Nat} {serves : AccessKind → Bool} (h : resolveEntry s sp a serves = some e) :
    e.start.toNat ≤ a ∧ a ≤ e.stop.toNat := by
  obtain ⟨-, hcovers, -⟩ := resolveEntry_some h
  exact (covers_iff.1 hcovers).2

/-- A byte that a ROM or RAM entry reaches lies in its region, so it has a key of its own (R84). -/
theorem entryOffset_lt {sp a : Nat} {serves : AccessKind → Bool} (hs : entriesOk s)
    (h : resolveEntry s sp a serves = some e) (hk : e.kind = .rom ∨ e.kind = .ram) :
    e.p1.toNat + (a - e.start.toNat) < 2 ^ 32 := by
  obtain ⟨hmem, -⟩ := resolveEntry_some h
  obtain ⟨hlo, hhi⟩ := resolveEntry_range h
  have hfits : e.p1.toNat + (e.stop.toNat - e.start.toNat + 1) ≤ regionSize s e.p0.toNat := by
    have hok := hs e hmem
    rcases hk with hk | hk <;> simp only [entryOk, hk] at hok <;> exact hok.2.2
  have hsize := regionSize_lt s e.p0.toNat
  omega

/-- Entries whose backing byte ranges lie in different regions or do not intersect reach different bytes (R87). -/
theorem backingByte_ne {e f : Entry} {x y : Nat} (hx : e.start.toNat ≤ x ∧ x ≤ e.stop.toNat)
    (hy : f.start.toNat ≤ y ∧ y ≤ f.stop.toNat)
    (h : e.p0 ≠ f.p0 ∨ e.p1.toNat + (e.stop.toNat - e.start.toNat) < f.p1.toNat ∨
      f.p1.toNat + (f.stop.toNat - f.start.toNat) < e.p1.toNat) :
    ¬(e.p0.toNat = f.p0.toNat ∧ e.p1.toNat + (x - e.start.toNat) = f.p1.toNat + (y - f.start.toNat)) := by
  rintro ⟨hregion, hoffset⟩
  rcases h with hne | hbefore | hafter
  · exact hne (BitVec.eq_of_toNat_eq hregion)
  · omega
  · omega

end Access

/-! ## READ, FETCH and WRITE in Run (R171, R172, R174) -/

section Commands

variable {s : State}

/-- READ and FETCH in Run are one body. -/
theorem exec_read_or_fetch {op : Word32 → Word32 → Instr} (hop : op = .read ∨ op = .fetch) (sp a : Word32)
    (hs : s.phase = .run) : exec (op sp a) s = .next (endCommand s (readBody Config.env sp a s)) := by
  have hlegal : legalIn .runOnly s.phase = true := legalIn_runOnly.2 hs
  rcases hop with rfl | rfl
  · exact congrArg _ (hostCommand_legal (readBody Config.env sp a) hlegal)
  · exact congrArg _ (hostCommand_legal (fetchBody Config.env sp a) hlegal)

theorem exec_write_run (sp a : Word32) (v : Byte) (hs : s.phase = .run) :
    exec (.write sp a v) s = .next (endCommand s (writeBody Config.env sp a v s)) :=
  congrArg _ (hostCommand_legal (writeBody Config.env sp a v) (legalIn_runOnly.2 hs))

theorem exec_read_badSpace {op : Word32 → Word32 → Instr} (hop : op = .read ∨ op = .fetch) (sp a : Word32)
    (hs : s.phase = .run) (hsp : spaceOk s sp.toNat = false) :
    exec (op sp a) s = .next (refusedWith codeBadId s) := by
  rw [exec_read_or_fetch hop sp a hs, readBody, if_pos hsp, endCommand_refuse, refusedWith]

theorem exec_write_badSpace (sp a : Word32) (v : Byte) (hs : s.phase = .run) (hsp : spaceOk s sp.toNat = false) :
    exec (.write sp a v) s = .next (refusedWith codeBadId s) := by
  rw [exec_write_run sp a v hs, writeBody, if_pos hsp, endCommand_refuse, refusedWith]

/-- A read that completes answers its byte in R0. -/
theorem exec_read_of_memRead {op : Word32 → Word32 → Instr} (hop : op = .read ∨ op = .fetch) {sp a : Word32}
    (hs : s.phase = .run) (hsp : spaceOk s sp.toNat = true) {v : Byte} {t : State}
    (h : memRead Config.env sp.toNat a.toNat s = .ok v t) :
    exec (op sp a) s = .next (completedR0 (v.setWidth 32) t) := by
  rw [exec_read_or_fetch hop sp a hs, readBody, hsp, if_neg (by decide), h, andThen_ok, endCommand_doneR0, completedR0]

theorem exec_write_of_memWrite {sp a : Word32} {v : Byte} (hs : s.phase = .run) (hsp : spaceOk s sp.toNat = true)
    {t : State} (h : memWrite Config.env sp.toNat a.toNat v s = .ok () t) :
    exec (.write sp a v) s = .next (completed t) := by
  rw [exec_write_run sp a v hs, writeBody, hsp, if_neg (by decide), h, andThen_ok, endCommand_done, completed]

/-- A READ or FETCH that resolves to a ROM or RAM entry (R84). -/
theorem exec_read_rom_ram {op : Word32 → Word32 → Instr} (hop : op = .read ∨ op = .fetch) {sp a : Word32} {e : Entry}
    (hs : s.phase = .run) (hsp : spaceOk s sp.toNat = true)
    (he : resolveEntry s sp.toNat (busAddress s sp.toNat a.toNat) servesRead = some e)
    (hk : e.kind = .rom ∨ e.kind = .ram) :
    exec (op sp a) s = .next (completedR0 ((readRegion Config.env s e.p0.toNat
      (e.p1.toNat + (busAddress s sp.toNat a.toNat - e.start.toNat))).setWidth 32) s) :=
  exec_read_of_memRead hop hs hsp ((memRead_of_resolve_some he).trans (entryRead_of_rom_ram _ hk))

/-- A WRITE that resolves to a RAM entry (R85). -/
theorem exec_write_ram {sp a : Word32} {v : Byte} {e : Entry} (hs : s.phase = .run)
    (hsp : spaceOk s sp.toNat = true)
    (he : resolveEntry s sp.toNat (busAddress s sp.toNat a.toNat) servesWrite = some e) (hk : e.kind = .ram) :
    exec (.write sp a v) s = .next (completed (writeRegion e.p0.toNat
      (e.p1.toNat + (busAddress s sp.toNat a.toNat - e.start.toNat)) v s)) :=
  exec_write_of_memWrite hs hsp ((memWrite_of_resolve_some he).trans (entryWrite_of_ram _ v hk))

end Commands

/-- Settles O24: the space is missing, nothing is resolved, or the resolved entry's kind says which byte it is. -/
theorem readAndFetchGiveTheByte : Obligations.ReadAndFetchGiveTheByte := by
  intro op hop sp a s hs
  refine ⟨exec_read_badSpace hop sp a hs, fun hsp => ⟨fun hnone => ?unmapped, fun e he => ⟨?region, ?bank, ?port⟩⟩⟩
  case unmapped => exact exec_read_of_memRead hop hs hsp (memRead_of_resolve_none hnone)
  case region => exact exec_read_rom_ram hop hs hsp he
  case bank =>
    intro hk
    exact exec_read_of_memRead hop hs hsp ((memRead_of_resolve_some he).trans (entryRead_of_bankedRom _ hk))
  case port =>
    intro hk hpk
    have hread := (entryRead_of_handler (env := Config.env) (s := s) (busAddress s sp.toNat a.toNat) hk).trans
      (handlerRead_of_unserved (portRead_eq_none hpk _ _))
    exact exec_read_of_memRead hop hs hsp ((memRead_of_resolve_some he).trans hread)

/-- Settles O26: a WRITE to RAM is one store, at a byte that lies in its region; every other byte has another key. -/
theorem writeStoresOneByte : Obligations.WriteStoresOneByte := by
  intro sp a v s hs
  refine ⟨exec_write_badSpace sp a v hs, fun hsp => ⟨fun hnone => ?unmapped, fun e he => ⟨?ram, ?port⟩⟩⟩
  case unmapped => exact exec_write_of_memWrite hs hsp (memWrite_of_resolve_none hnone)
  case ram =>
    intro hk hok
    refine ⟨_, exec_write_ram hs hsp he hk, rfl, fun r o ho => ?_⟩
    have hoff := entryOffset_lt hok he (.inr hk)
    split_ifs with hsame
    · obtain ⟨rfl, rfl⟩ := hsame
      exact readRegion_writeRegion_same _ _ _ _ _
    · exact readRegion_writeRegion_other _ _ _ hoff ho fun h => hsame ⟨h.1.symm, h.2.symm⟩
  case port =>
    intro hk hpk
    have hwrite := (entryWrite_of_handler (env := Config.env) (s := s) (busAddress s sp.toNat a.toNat) v hk).trans
      (handlerWrite_of_unserved (portWrite_eq_none hpk _ _ _))
    exact exec_write_of_memWrite hs hsp ((memWrite_of_resolve_some he).trans hwrite)

/-- Settles O29: the two bytes lie in different regions or at different offsets of one, and a WRITE to RAM changes
neither the entries nor the space, so the second READ resolves as the first. -/
theorem busIsolation : Obligations.BusIsolation := by
  intro sp a b v s e f hs hok hsp he hf hek hfk hdisjoint
  change resolveEntry s sp.toNat (busAddress s sp.toNat a.toNat) servesWrite = some e at he
  change resolveEntry s sp.toNat (busAddress s sp.toNat b.toNat) servesRead = some f at hf
  have hfk' : f.kind = .rom ∨ f.kind = .ram := hfk.symm
  have hother := backingByte_ne (resolveEntry_range he) (resolveEntry_range hf) hdisjoint
  have hsame := readRegion_writeRegion_other Config.env s v (entryOffset_lt hok he (.inr hek))
    (entryOffset_lt hok hf hfk') hother
  refine ⟨_, _, exec_write_ram hs hsp he hek, exec_read_rom_ram (.inl rfl) hs hsp hf hfk', ?_⟩
  rw [← hsame]
  exact exec_read_rom_ram (s := completed (writeRegion _ _ v s)) (.inl rfl) hs hsp hf hfk'

end Sys2Proof.Machine
end

/-! PROOFS of the encoding family (spec/30_encoding.md): the decoder undoes the encoder, on command words and on
bytes (R120, R122, R133, R134), and it accepts exactly the opcodes of R122 (R123). -/
section

namespace Sys2Proof

/-! ## Operand fields of an argument (R122, R133) -/

/-- A field that an argument carries in its low bits is read back. -/
theorem extractLsb'_setWidth_self {n m : Nat} (x : BitVec n) (hn : n ≤ m) : (x.setWidth m).extractLsb' 0 n = x := by
  rw [BitVec.extractLsb'_setWidth_of_le (by omega), BitVec.extractLsb'_eq_self]

@[simp] theorem byteArg_setWidth (b : Byte) : byteArg (b.setWidth 32) = b := extractLsb'_setWidth_self b (by decide)

@[simp] theorem loHalf_halves (hi lo : Word16) : loHalf (halves hi lo) = lo := BitVec.extractLsb'_append_eq_right

@[simp] theorem hiHalf_halves (hi lo : Word16) : hiHalf (halves hi lo) = hi := BitVec.extractLsb'_append_eq_left

/-- A field within the low half of an argument is a field of that half. -/
theorem extractLsb'_halves_lo (hi lo : Word16) {k n : Nat} (h : k + n ≤ 16) :
    (halves hi lo).extractLsb' k n = lo.extractLsb' k n := BitVec.extractLsb'_append_eq_of_add_le h

/-- A field within the high half of an argument is a field of that half. -/
theorem extractLsb'_halves_hi (hi lo : Word16) (k n : Nat) :
    (halves hi lo).extractLsb' (16 + k) n = hi.extractLsb' k n := by
  rw [halves, BitVec.extractLsb'_append_eq_of_le (by omega), Nat.add_sub_cancel_left]

/-- A bit of the low half of an argument is a bit of that half. -/
theorem getLsbD_halves_lo (hi lo : Word16) {k : Nat} (h : k < 16) :
    (halves hi lo).getLsbD k = lo.getLsbD k := BitVec.getLsbD_append.trans (if_pos h)

/-- A flag in bit 0 is read back. -/
theorem getLsbD_setWidth_ofBool {m : Nat} (b : Bool) (hm : 0 < m) : ((BitVec.ofBool b).setWidth m).getLsbD 0 = b := by
  simp [hm]

/-! ### The packed arguments of ASSERT, TMCREATE, SPCFG and SPCOMPOSITE -/

theorem assertArg_vector (vector : Byte) (hasVector : Bool) :
    byteArg ((0#23 ++ BitVec.ofBool hasVector) ++ vector) = vector := BitVec.extractLsb'_append_eq_right

theorem assertArg_hasVector (vector : Byte) (hasVector : Bool) :
    ((0#23 ++ BitVec.ofBool hasVector) ++ vector : BitVec (23 + 1 + 8)).getLsbD 8 = hasVector := by
  refine BitVec.getLsbD_append.trans ?_
  cases hasVector <;> rfl

theorem tmcreateArg_smode (nent : BitVec 9) (smode : BitVec 2) :
    (halves (nent.setWidth 16) (smode.setWidth 16)).extractLsb' 0 2 = smode :=
  (extractLsb'_halves_lo _ _ (by decide)).trans (extractLsb'_setWidth_self smode (by decide))

theorem tmcreateArg_nent (nent : BitVec 9) (smode : BitVec 2) :
    (halves (nent.setWidth 16) (smode.setWidth 16)).extractLsb' 16 9 = nent :=
  (extractLsb'_halves_hi _ _ 0 9).trans (extractLsb'_setWidth_self nent (by decide))

theorem spcfgArg_reverse (tpen : Word16) (hasTpen reverse : Bool) :
    (halves tpen ((BitVec.ofBool hasTpen ++ BitVec.ofBool reverse).setWidth 16)).getLsbD 0 = reverse := by
  rw [getLsbD_halves_lo _ _ (by decide)]
  cases hasTpen <;> cases reverse <;> rfl

theorem spcfgArg_hasTpen (tpen : Word16) (hasTpen reverse : Bool) :
    (halves tpen ((BitVec.ofBool hasTpen ++ BitVec.ofBool reverse).setWidth 16)).getLsbD 1 = hasTpen := by
  rw [getLsbD_halves_lo _ _ (by decide)]
  cases hasTpen <;> cases reverse <;> rfl

theorem spcompositeArg_only (hi : Word16) (p : Byte) (only : Bool) :
    (halves hi (p ++ (BitVec.ofBool only).setWidth 8)).getLsbD 0 = only :=
  (getLsbD_halves_lo _ _ (by decide)).trans
    (BitVec.getLsbD_append.trans (getLsbD_setWidth_ofBool only (by decide)))

theorem spcompositeArg_p (hi : Word16) (p : Byte) (only : Bool) :
    (halves hi (p ++ (BitVec.ofBool only).setWidth 8)).extractLsb' 8 8 = p :=
  (extractLsb'_halves_lo _ _ (by decide)).trans BitVec.extractLsb'_append_eq_left

/-! ## The arguments of a command word (R120) -/

/-- An argument stands in its own 32 bits and leaves those of the others 0. -/
theorem getLsbD_placeArg {m n k : Nat} (a : Word32) (hn : n < 8) (hk : k < 32) :
    (placeArg m a).getLsbD (8 + 32 * n + k) = (decide (m = n) && a.getLsbD k) := by
  have hbit : 8 + 32 * n + k < 264 := by omega
  simp only [placeArg, BitVec.getLsbD_shiftLeft, BitVec.getLsbD_setWidth]
  rcases Nat.lt_trichotomy m n with hlt | rfl | hgt
  · rw [BitVec.getLsbD_of_ge a _ (by omega)]
    simp [hlt.ne]
  · simp [hbit, show k < 264 by omega]
  · simp [hgt.ne', show 8 + 32 * n + k < 8 + 32 * m by omega]

/-- The arguments of an assembled word are the ones it was assembled from. -/
theorem argOf_packWord (op : Byte) (A : Nat → Word32) {n : Nat} (hn : n < 8) : argOf (packWord op A) n = A n := by
  apply BitVec.eq_of_getLsbD_eq
  intro k hk
  have hop : (op.setWidth 264).getLsbD (8 + 32 * n + k) = false := by
    rw [BitVec.getLsbD_setWidth, BitVec.getLsbD_of_ge op _ (by omega), Bool.and_false]
  simp only [argOf, packWord, BitVec.getLsbD_extractLsb', hk, BitVec.getLsbD_or, hop, getLsbD_placeArg _ hn hk]
  interval_cases n <;> simp

/-- A command word has no ninth argument. -/
theorem argOf_of_ge (w : CmdWord) {n : Nat} (hn : 8 ≤ n) : argOf w n = 0 := by
  apply BitVec.eq_of_getLsbD_eq
  intro k hk
  simp [argOf, show 264 ≤ 8 + 32 * n + k by omega]

theorem args_length_le (i : Instr) : i.args.length ≤ 8 := by
  cases i <;> simp [Instr.args]

@[simp] theorem opcodeOf_encode (i : Instr) : opcodeOf (encode i) = i.opcode := Laws.opcodeOf_packWord _ _

/-- The arguments of a command's word are the ones it names, and 0 for the rest. -/
theorem argOf_encode (i : Instr) : argOf (encode i) = fun n => i.args.getD n 0 := by
  funext n
  rcases Nat.lt_or_ge n 8 with hn | hn
  · exact argOf_packWord _ _ hn
  · have hlen := args_length_le i
    rw [argOf_of_ge _ hn, List.getD_eq_default _ _ (by omega)]

/-! ## Decoding the word of a command -/

/-- The arguments a command names give the command back under its opcode: an operand that fills its argument as it is,
a narrower one by the lemma about its field. -/
theorem decodeArgs_args (i : Instr) : decodeArgs i.opcode (fun n => i.args.getD n 0) = some i := by
  cases i <;>
    simp [-BitVec.getLsbD_eq_getElem, decodeArgs, Instr.opcode, Instr.args, extractLsb'_setWidth_self,
      assertArg_vector, assertArg_hasVector, tmcreateArg_smode, tmcreateArg_nent,
      spcfgArg_reverse, spcfgArg_hasTpen, spcompositeArg_only, spcompositeArg_p]

/-- Decoding undoes encoding on command words (R120, R122). -/
theorem decodeWord_encode (i : Instr) : decodeWord (encode i) = .ok i := by
  rw [decodeWord, opcodeOf_encode, argOf_encode, decodeArgs_args]

/-! ## Decoding the bytes of a command (R88, R134) -/

@[simp] theorem natToLe_length (n v : Nat) : (natToLe n v).length = n := by
  induction n generalizing v with
  | zero => rfl
  | succ n ih => rw [natToLe, List.length_cons, ih]

/-- Reading back the bytes of a number gives what of it fits them. -/
theorem leNat_natToLe (n v : Nat) : leNat (natToLe n v) = v % 256 ^ n := by
  induction n generalizing v with
  | zero => rw [natToLe, leNat, Nat.pow_zero, Nat.mod_one]
  | succ n ih => rw [natToLe, leNat, ih, Nat.pow_succ', Nat.mod_mul, BitVec.toNat_ofNat]

/-- A command's 33 bytes stand for its word, whatever follows them. -/
theorem wordOf_encodeBytes (i : Instr) (rest : List Byte) : wordOf (encodeBytes i ++ rest) = encode i := by
  have htake : (encodeBytes i ++ rest).take 33 = encodeBytes i := List.take_left' (natToLe_length _ _)
  have hlt : (encode i).toNat < 256 ^ 33 := (encode i).isLt.trans_eq (pow_mul 2 8 33)
  rw [wordOf, htake, encodeBytes, leNat_natToLe, Nat.mod_eq_of_lt hlt, BitVec.ofNat_toNat, BitVec.setWidth_eq]

/-- Decoding undoes encoding on bytes and leaves the ones that follow (R134). -/
theorem decode_encodeBytes (i : Instr) (rest : List Byte) : decode (encodeBytes i ++ rest) = .ok (i, rest) := by
  have hlen : ¬(encodeBytes i ++ rest).length < 33 := by simp [encodeBytes]
  have hdrop : (encodeBytes i ++ rest).drop 33 = rest := List.drop_left' (natToLe_length _ _)
  rw [decode, if_neg hlen, wordOf_encodeBytes, decodeWord_encode, hdrop]

end Sys2Proof

namespace Sys2Proof.Machine

/-- Settles O1: every argument stands in its own bits of the word and every operand in its own bits of its argument,
and the bytes of the word read back as the word. -/
theorem decodeEncode : Obligations.DecodeEncode := ⟨decodeWord_encode, decode_encodeBytes⟩

/-- Settles O3: the four words are closed, and the decoder evaluates on them. -/
theorem wordsDecode : Obligations.WordsDecode := ⟨by decide, by decide, by decide, by decide⟩

end Sys2Proof.Machine
end

/-! PROOFS of the encoding family, second part: which opcodes decode (R122, R123), and what a command in the wrong
phase leaves (R124, spec/60_exceptions.md R352, R355). -/
section

namespace Sys2Proof

/-! ## The opcodes of the table (R122, R123) -/

theorem opcode_mem_definedOpcodes (i : Instr) : i.opcode ∈ Machine.definedOpcodes := by
  cases i <;> simp [Instr.opcode, Machine.definedOpcodes]

/-- What the decoder answers has the opcode it was given. -/
theorem opcode_of_decodeArgs {op : Byte} {A : Nat → Word32} {i : Instr} (h : decodeArgs op A = some i) :
    i.opcode = op := by
  unfold decodeArgs at h
  split at h
  case h_40 => cases h
  all_goals
    next hop =>
    cases h
    exact BitVec.eq_of_toNat_eq hop.symm

/-- Whether an opcode decodes does not depend on the arguments. -/
theorem decodeArgs_isSome (op : Byte) (A B : Nat → Word32) : (decodeArgs op A).isSome = (decodeArgs op B).isSome := by
  unfold decodeArgs
  split <;> rfl

theorem decodeArgs_of_mem {op : Byte} (hop : op ∈ Machine.definedOpcodes) (A : Nat → Word32) :
    ∃ i, decodeArgs op A = some i := by
  have hzero : ∀ op ∈ Machine.definedOpcodes, (decodeArgs op fun _ => 0).isSome = true :=
    List.forall_iff_forall_mem.1 (by decide)
  exact Option.isSome_iff_exists.1 ((decodeArgs_isSome op A _).trans (hzero op hop))

theorem decodeArgs_of_not_mem {op : Byte} (hop : op ∉ Machine.definedOpcodes) (A : Nat → Word32) :
    decodeArgs op A = none := by
  cases h : decodeArgs op A with
  | none => rfl
  | some i => exact absurd (opcode_of_decodeArgs h ▸ opcode_mem_definedOpcodes i) hop

theorem decodeWord_of_decodeArgs {w : CmdWord} {i : Instr} (h : decodeArgs (opcodeOf w) (argOf w) = some i) :
    decodeWord w = .ok i := by
  rw [decodeWord, h]

theorem decodeWord_of_not_mem {w : CmdWord} (h : opcodeOf w ∉ Machine.definedOpcodes) :
    decodeWord w = .error (.illegalOpcode (opcodeOf w)) := by
  rw [decodeWord, decodeArgs_of_not_mem h]

theorem opcode_of_decodeWord {w : CmdWord} {i : Instr} (h : decodeWord w = .ok i) : i.opcode = opcodeOf w := by
  unfold decodeWord at h
  split at h
  · next hi =>
    cases h
    exact opcode_of_decodeArgs hi
  · cases h

end Sys2Proof

namespace Sys2Proof.Machine

/-! ## A word that decodes to nothing (R123, R355) -/

theorem step_of_decodeWord_error {s t : State} {w : CmdWord} {e : DecodeError} (ht : takeCommand s = some (w, t))
    (hd : decodeWord w = .error e) : step s = .next (rejectIllegal t) := by
  simp only [step, ht, hd]

theorem rejectIllegal_configOrRun {s : State} (h : configOrRun s) :
    rejectIllegal s = refusedWith codeIllegalOpcode s := by
  rcases h with h | h <;> simp only [rejectIllegal, h, refusedWith]

theorem rejectIllegal_fatal {s : State} (h : s.phase = .fatal) : rejectIllegal s = refusedWith s.fatalCode s := by
  simp only [rejectIllegal, h, refusedWith]

theorem rejectIllegal_down {s : State} (h : s.phase = .down) : rejectIllegal s = refusedWith codeDown s := by
  simp only [rejectIllegal, h, refusedWith]

/-- Settles O2: the decoder's table has a row for exactly the opcodes of R122, and the step of a word without one is
`rejectIllegal`, whose answer each phase gives. -/
theorem illegalOpcodes : Obligations.IllegalOpcodes := by
  refine ⟨fun w => ⟨fun hop => ?decodes, decodeWord_of_not_mem⟩, fun s c rest hq hop => ?refused⟩
  case decodes =>
    obtain ⟨i, hi⟩ := decodeArgs_of_mem hop (argOf w)
    exact ⟨i, decodeWord_of_decodeArgs hi, opcode_of_decodeArgs hi⟩
  case refused =>
    rw [step_of_decodeWord_error (takeCommand_of_cons hq) (decodeWord_of_not_mem hop)]
    exact ⟨fun hp => congrArg _ (rejectIllegal_configOrRun hp), fun hp => congrArg _ (rejectIllegal_fatal hp),
      fun hp => congrArg _ (rejectIllegal_down hp)⟩

/-! ## Commands in the wrong phase (R124, R352) -/

/-- Every command is a host command of its own legality. -/
theorem exec_eq_hostCommand (i : Instr) (s : State) :
    ∃ body, exec i s = .next (hostCommand (legality i) body s) := by
  cases i <;> exact ⟨_, rfl⟩

/-- R124's table, by opcode. -/
def opcodeLegality (op : Byte) : Legality :=
  if op ∈ ([0x01, 0x03, 0x04, 0x05, 0x06, 0x07, 0x10, 0x15, 0x40, 0x50, 0x64, 0x74] : List Byte) then .configOnly
  else if op ∈ ([0x02, 0x13, 0x16, 0x24, 0x41, 0x42, 0x61, 0x62, 0x63, 0x70, 0x71] : List Byte) then .configRun
  else if op = 0x09 then .untilDown
  else .runOnly

theorem legality_eq_opcodeLegality (i : Instr) : legality i = opcodeLegality i.opcode := by
  cases i <;> rfl

theorem legality_untilDown {i : Instr} (h : legality i = .untilDown) : i = .teardown := by
  cases i <;> simp [legality] at h ⊢

section WrongPhase

variable {legal : Legality} {s : State} (body : State → Res Answer)

theorem hostCommand_down (h : s.phase = .down) : hostCommand legal body s = refusedWith codeDown s := by
  simp only [hostCommand, h, refusedWith]

theorem hostCommand_fatal (h : s.phase = .fatal) (hl : legal ≠ .untilDown) :
    hostCommand legal body s = refusedWith s.fatalCode s := by
  have hillegal : legalIn legal .fatal = false := by cases legal <;> simp [legalIn] at hl ⊢
  simp [hostCommand, h, hillegal, refusedWith]

theorem hostCommand_config_runOnly (h : s.phase = .config) :
    hostCommand .runOnly body s = refusedWith codePhaseError s := by
  simp [hostCommand, h, legalIn, refusedWith]

theorem hostCommand_run_configOnly (h : s.phase = .run) :
    hostCommand .configOnly body s = refusedWith codePhaseError s := by
  simp [hostCommand, h, legalIn, refusedWith]

end WrongPhase

/-- Settles O5: a command's legality is a function of its opcode, compared with R124's lists at each of the 39
opcodes; every command is a host command of its legality, and the phase checks of `hostCommand` turn it away. -/
theorem phaseLegality : Obligations.PhaseLegality := by
  refine ⟨fun i => ?table, fun i s => ?refused⟩
  case table =>
    rw [legality_eq_opcodeLegality]
    have hmem := opcode_mem_definedOpcodes i
    generalize i.opcode = op at hmem ⊢
    revert op
    exact List.forall_iff_forall_mem.1 (by decide)
  case refused =>
    obtain ⟨body, hexec⟩ := exec_eq_hostCommand i s
    rw [hexec]
    exact ⟨fun hp => congrArg _ (hostCommand_down body hp),
      fun hp hi => congrArg _ (hostCommand_fatal body hp fun hl => hi (legality_untilDown hl)),
      fun hp hl => by rw [hl, hostCommand_config_runOnly body hp],
      fun hp hl => by rw [hl, hostCommand_run_configOnly body hp]⟩

end Sys2Proof.Machine
end

/-! PROOFS of the encoding family, third part: the commands a CPU may issue (spec/30_encoding.md R125). The work of a
bus access or an acknowledge writes no result register and cannot be refused, so the host and the CPU see it end the
same way (R171, R172, R174, R203, spec/60_exceptions.md R352, R354). -/
section

namespace Sys2Proof.Machine

/-! ## What nested work cannot do -/

/-- STATUS, R0 and R1 are the same. -/
def SameResults (s t : State) : Prop := t.status = s.status ∧ t.r0 = s.r0 ∧ t.r1 = s.r1

/-- Only the end of a host command writes STATUS, R0 and R1 (10_state R22). -/
theorem sameResults_kept (env : Env) : Kept env SameResults where
  refl _ := ⟨rfl, rfl, rfl⟩
  trans _ _ _ h h' := ⟨h'.1.trans h.1, h'.2.1.trans h.2.1, h'.2.2.trans h.2.2⟩
  emit _ _ := ⟨rfl, rfl, rfl⟩
  observe _ _ _ := ⟨rfl, rfl, rfl⟩
  line _ _ _ _ _ := ⟨rfl, rfl, rfl⟩
  byte _ _ _ _ := ⟨rfl, rfl, rfl⟩
  bank _ _ _ := ⟨rfl, rfl, rfl⟩
  scroll _ _ _ _ := ⟨rfl, rfl, rfl⟩
  latch _ _ _ := ⟨rfl, rfl, rfl⟩
  flip _ _ := ⟨rfl, rfl, rfl⟩
  palette _ _ _ := ⟨rfl, rfl, rfl⟩
  lookup _ _ _ _ := ⟨rfl, rfl, rfl⟩
  timer _ _ _ := ⟨rfl, rfl, rfl⟩
  dirty _ _ _ _ := ⟨rfl, rfl, rfl⟩
  cell _ _ _ _ := ⟨rfl, rfl, rfl⟩
  fb _ _ _ := ⟨rfl, rfl, rfl⟩
  inHandler _ _ := ⟨rfl, rfl, rfl⟩
  ext _ _ := ⟨rfl, rfl, rfl⟩
  now _ _ := ⟨rfl, rfl, rfl⟩
  cursorI _ _ := ⟨rfl, rfl, rfl⟩
  cursorK _ _ := ⟨rfl, rfl, rfl⟩
  carry _ _ _ := ⟨rfl, rfl, rfl⟩
  inFrame _ _ := ⟨rfl, rfl, rfl⟩
  endFrame _ := ⟨rfl, rfl, rfl⟩
  fatal _ _ _ := ⟨rfl, rfl, rfl⟩

/-- The work completes, or it ends in the fatal error Reentry; it raises no configuration error and no refusal. -/
def Res.OkOrReentry {α : Type} : Res α → Prop
  | .ok _ _ => True
  | .config _ => False
  | .refuse _ => False
  | .fatal code t => code = codeReentry ∧ t.phase = .fatal

/-- No command that a handler may issue ends in a fatal error (41_address_space R182). -/
theorem internalBody_ne_fatal {i : Instr} {body : State → Res Answer} (h : internalBody i = some body)
    (s t : State) (code : Byte) : body s ≠ .fatal code t := by
  cases i <;> simp only [internalBody, Option.some.injEq, reduceCtorEq] at h <;> subst h
  case setbank => unfold setbankBody done; split_ifs <;> simp
  case poke => unfold pokeBody done; split_ifs <;> simp
  case assert => unfold assertBody done; split_ifs <;> simp
  case clear => unfold clearBody done; split_ifs <;> simp
  case pulse => unfold pulseBody done; split_ifs <;> simp
  case timerset => unfold timersetBody done; split_ifs <;> simp
  case markdirty => unfold markdirtyBody done; split_ifs <;> simp
  case setscroll => unfold setscrollBody done; split_ifs <;> simp
  case setflip => unfold setflipBody done; simp
  case setpen => unfold setpenBody done; split_ifs <;> simp
  case setpal => unfold setpalBody done; split_ifs <;> simp

namespace Res.OkOrReentry

variable {α β : Type} {env : Env}

theorem seq {x : Res α} {f : α → State → Res β} (hx : x.OkOrReentry) (hf : ∀ v t, (f v t).OkOrReentry) :
    (andThen x f).OkOrReentry := by
  cases x with
  | ok v t => exact hf v t
  | config => exact hx
  | refuse => exact hx
  | fatal => exact hx

/-! ### Internal commands and handlers (R181, R182) -/

theorem runInternal (legal : Legality) (op a0 : Nat) {body : State → Res Answer}
    (hbody : ∀ s t code, body s ≠ .fatal code t) (s : State) : (runInternal legal op a0 body s).OkOrReentry := by
  unfold Machine.runInternal
  split_ifs
  · trivial
  · cases hb : body s with
    | ok => trivial
    | config => trivial
    | refuse => trivial
    | fatal code t => exact absurd hb (hbody s t code)

theorem issueInternal (i : Instr) (s : State) : (issueInternal i s).OkOrReentry := by
  unfold Machine.issueInternal
  cases hb : internalBody i with
  | none => trivial
  | some body => exact runInternal _ _ _ (internalBody_ne_fatal hb) s

theorem execInternal (cw : CmdWord) (s : State) : (execInternal cw s).OkOrReentry := by
  unfold Machine.execInternal
  cases decodeWord cw with
  | error => trivial
  | ok i =>
    simp only
    split_ifs
    · exact ⟨rfl, rfl⟩
    · cases hb : internalBody i with
      | none => trivial
      | some body => exact runInternal _ _ _ (internalBody_ne_fatal hb) s

theorem execInternals (cws : List CmdWord) (s : State) : (execInternals cws s).OkOrReentry := by
  induction cws generalizing s with
  | nil => trivial
  | cons cw cws ih => exact seq (execInternal cw s) fun _ t => ih t

theorem callExt (e : Nat) (event : ExtEvent) (s : State) : (callExt env e event s).OkOrReentry :=
  seq (execInternals _ _) fun _ _ => trivial

theorem insideHandler {work : State → Res α} (hwork : ∀ s, (work s).OkOrReentry) (s : State) :
    (insideHandler work s).OkOrReentry :=
  seq (hwork _) fun _ _ => trivial

/-! ### Ports and the bus (R84, R85, R183, R184) -/

theorem portRead {P : Port} {a o : Nat} {work : State → Res Byte} (h : portRead env P a o = some work) (s : State) :
    (work s).OkOrReentry := by
  unfold Machine.portRead at h
  cases hk : P.pk <;> simp only [hk, Option.some.injEq, reduceCtorEq] at h <;> subst h
  case ext => exact callExt _ _ s
  case tileram => trivial
  case latch => trivial
  case input => trivial

theorem portWrite {P : Port} {a o : Nat} {w : Byte} {work : State → Res Unit} (h : portWrite env P a o w = some work)
    (s : State) : (work s).OkOrReentry := by
  unfold Machine.portWrite at h
  cases hk : P.pk <;> simp only [hk, Option.some.injEq, reduceCtorEq] at h <;> subst h
  case ext => exact seq (callExt _ _ s) fun _ _ => trivial
  case tileram => exact issueInternal _ _
  case banksel => exact issueInternal _ s
  case irqack => exact issueInternal _ s
  case scroll => trivial
  case latch =>
    cases latchSignal P with
    | none => trivial
    | some i => exact issueInternal i _
  case flip => trivial

theorem handlerRead (h a o : Nat) (s : State) : (handlerRead env h a o s).OkOrReentry := by
  unfold Machine.handlerRead
  cases hp : Machine.portRead env (portAt s h) a o with
  | none => trivial
  | some work => exact insideHandler (portRead hp) s

theorem handlerWrite (h a o : Nat) (w : Byte) (s : State) : (handlerWrite env h a o w s).OkOrReentry := by
  unfold Machine.handlerWrite
  cases hp : Machine.portWrite env (portAt s h) a o w with
  | none => trivial
  | some work => exact insideHandler (portWrite hp) s

theorem memRead (sp a : Nat) (s : State) : (memRead env sp a s).OkOrReentry := by
  unfold Machine.memRead
  cases resolveEntry s sp (busAddress s sp a) servesRead with
  | none => trivial
  | some e =>
    simp only [entryRead]
    cases e.kind
    case rom | ram | bankedRom => trivial
    case readHandler | writeHandler | readWriteHandler => exact handlerRead _ _ _ s

theorem memWrite (sp a : Nat) (v : Byte) (s : State) : (memWrite env sp a v s).OkOrReentry := by
  unfold Machine.memWrite
  cases resolveEntry s sp (busAddress s sp a) servesWrite with
  | none => trivial
  | some e =>
    simp only [entryWrite]
    cases e.kind
    case rom | ram | bankedRom => trivial
    case readHandler | writeHandler | readWriteHandler => exact handlerWrite _ _ _ _ s

theorem acknowledge {c : Nat} {s : State} (hc : isCpu s c = true) : (acknowledge env c s).OkOrReentry := by
  rcases acknowledge_cases env c s with ⟨hno, -⟩ | ⟨-, -, h⟩ | ⟨l, -, -, h⟩
  · exact absurd (hc.symm.trans hno) (by decide)
  · rw [h]; trivial
  · rw [h]; trivial

end Res.OkOrReentry

/-! ## A CPU's command beside the host's (R125, R233) -/

/-- What a CPU that may issue the word observes, from the results the host gets for it (R171, R172, R174, R203). -/
def cpuReply (op : Byte) (t : State) : CpuObs :=
  if op = 0x12 then .writeReply
  else if op = 0x23 then .ackReply (t.r0.setWidth 8) t.r1
  else .readReply (t.r0.setWidth 8)

/-- From `s`, the CPU's command ends in `x` as the host's ends in `t`: completed, without STATUS, R0 and R1, or in the
fatal error Reentry. -/
def SameEnd (op : Byte) (s t : State) (x : Res CpuObs) : Prop :=
  (t.status = codeOk ∧ ∃ o u, x = .ok o u ∧ t = { u with status := codeOk, r0 := t.r0, r1 := t.r1 } ∧
      u.status = s.status ∧ u.r0 = s.r0 ∧ u.r1 = s.r1 ∧ o = cpuReply op t) ∨
    t.phase = .fatal ∧ t.status = codeReentry ∧ x = .fatal codeReentry { t with status := s.status }

/-- The word is a command, and CPU c's and the host's end the same way from `s`. -/
def SameCommand (c : Nat) (cw : CmdWord) (s : State) : Prop :=
  ∃ i t, decodeWord cw = .ok i ∧ i.opcode = opcodeOf cw ∧ exec i s = .next t ∧
    SameEnd (opcodeOf cw) s t (cpuCommand Config.env c cw s)

/-- Work that keeps the results and can only complete or be fatal ends the same way for the host, who is answered by
`answer`, and for the CPU, which observes `obs`. -/
theorem sameEnd_of_work {α : Type} {op : Byte} {s : State} {x : Res α} (hkeeps : x.Keeps SameResults s)
    (hends : x.OkOrReentry) {answer : α → Answer} {obs : α → CpuObs}
    (hreply : ∀ v u, obs v = cpuReply op (endCommand s (.ok (answer v) u))) :
    SameEnd op s (endCommand s (andThen x fun v u => .ok (answer v) u)) (andThen x fun v u => .ok (obs v) u) := by
  cases x with
  | ok v u =>
    obtain ⟨⟨hstatus, hr0, hr1⟩, -⟩ := hkeeps
    exact .inl ⟨rfl, _, u, rfl, rfl, hstatus, hr0, hr1, hreply v u⟩
  | config => exact hends.elim
  | refuse => exact hends.elim
  | fatal code u =>
    obtain ⟨rfl, hphase⟩ := hends
    refine .inr ⟨hphase, rfl, ?_⟩
    change Res.fatal codeReentry u = .fatal codeReentry { u with status := s.status }
    rw [← hkeeps.1]

/-! ### The words of the four commands -/

section Words

variable {env : Env} {c : Nat} {cw : CmdWord} {s : State}

theorem decodeWord_read (h : opcodeOf cw = 0x11) : decodeWord cw = .ok (.read (argOf cw 0) (argOf cw 1)) :=
  decodeWord_of_decodeArgs (by rw [h]; rfl)

theorem decodeWord_write (h : opcodeOf cw = 0x12) :
    decodeWord cw = .ok (.write (argOf cw 0) (argOf cw 1) (byteArg (argOf cw 2))) :=
  decodeWord_of_decodeArgs (by rw [h]; rfl)

theorem decodeWord_fetch (h : opcodeOf cw = 0x14) : decodeWord cw = .ok (.fetch (argOf cw 0) (argOf cw 1)) :=
  decodeWord_of_decodeArgs (by rw [h]; rfl)

theorem decodeWord_ack (h : opcodeOf cw = 0x23) : decodeWord cw = .ok (.ack (argOf cw 0)) :=
  decodeWord_of_decodeArgs (by rw [h]; rfl)

theorem cpuCommand_of_cpuBody {i : Instr} {work : State → Res CpuObs} (hd : decodeWord cw = .ok i)
    (hw : cpuBody env c (opcodeOf cw).toNat i = some work) : cpuCommand env c cw s = work s := by
  simp only [cpuCommand, hd, hw]

theorem cpuCommand_read (h : opcodeOf cw = 0x11 ∨ opcodeOf cw = 0x14) :
    cpuCommand env c cw s = cpuRead env c (opcodeOf cw).toNat (argOf cw 0) (argOf cw 1) s := by
  rcases h with h | h
  · exact cpuCommand_of_cpuBody (decodeWord_read h) rfl
  · exact cpuCommand_of_cpuBody (decodeWord_fetch h) rfl

theorem cpuCommand_write (h : opcodeOf cw = 0x12) :
    cpuCommand env c cw s = cpuWrite env c (opcodeOf cw).toNat (argOf cw 0) (argOf cw 1) (byteArg (argOf cw 2)) s :=
  cpuCommand_of_cpuBody (decodeWord_write h) rfl

theorem cpuCommand_ack (h : opcodeOf cw = 0x23) :
    cpuCommand env c cw s = cpuAck env c (opcodeOf cw).toNat (argOf cw 0) s :=
  cpuCommand_of_cpuBody (decodeWord_ack h) rfl

theorem cpuBody_eq_none {op : Nat} {i : Instr} (h : i.opcode ∉ ([0x11, 0x12, 0x14, 0x23] : List Byte)) :
    cpuBody env c op i = none := by
  cases i
  case read | write | fetch | ack => simp [Instr.opcode] at h
  all_goals rfl

/-- A word of no command, or of a command that is not a CPU's, is rejected (R125, R352). -/
theorem cpuCommand_of_not_mem (h : opcodeOf cw ∉ ([0x11, 0x12, 0x14, 0x23] : List Byte)) :
    cpuCommand env c cw s = cpuRejected cw s := by
  cases hd : decodeWord cw with
  | error e => simp only [cpuCommand, hd]
  | ok i =>
    have hnone : cpuBody env c (opcodeOf cw).toNat i = none := cpuBody_eq_none (opcode_of_decodeWord hd ▸ h)
    simp only [cpuCommand, hd, hnone]

end Words

/-! ### On its own space, for itself -/

section Own

variable {c : Nat} {cw : CmdWord} {s : State}

theorem exec_ack_run (cpu : Word32) (hs : s.phase = .run) :
    exec (.ack cpu) s = .next (endCommand s (ackBody Config.env cpu s)) :=
  congrArg _ (hostCommand_legal (ackBody Config.env cpu) (legalIn_runOnly.2 hs))

/-- READ and FETCH: the work is one MemRead. -/
theorem sameCommand_read {op : Word32 → Word32 → Instr} (hop : op = .read ∨ op = .fetch)
    (hcw : opcodeOf cw = 0x11 ∨ opcodeOf cw = 0x14) (hd : decodeWord cw = .ok (op (argOf cw 0) (argOf cw 1)))
    (hs : s.phase = .run) (hsp : spaceOk s (argOf cw 0).toNat = true)
    (hown : (spaceAt s (argOf cw 0).toNat).owner.toNat = c) : SameCommand c cw s := by
  have hbad : ¬spaceOk s (argOf cw 0).toNat = false := by simp [hsp]
  have hreply : ∀ t, cpuReply (opcodeOf cw) t = .readReply (t.r0.setWidth 8) := fun t => by
    rcases hcw with h | h <;> simp [cpuReply, h]
  refine ⟨_, _, hd, opcode_of_decodeWord hd, exec_read_or_fetch hop _ _ hs, ?_⟩
  rw [cpuCommand_read hcw, cpuRead, if_neg hbad, if_neg (not_not_intro hown), readBody, if_neg hbad]
  exact sameEnd_of_work ((sameResults_kept _).memRead _ _ s hs) (.memRead _ _ s) fun v u => by simp [hreply]

/-- WRITE: the work is one MemWrite. -/
theorem sameCommand_write (hcw : opcodeOf cw = 0x12) (hs : s.phase = .run)
    (hsp : spaceOk s (argOf cw 0).toNat = true) (hown : (spaceAt s (argOf cw 0).toNat).owner.toNat = c) :
    SameCommand c cw s := by
  have hbad : ¬spaceOk s (argOf cw 0).toNat = false := by simp [hsp]
  have hd := decodeWord_write hcw
  refine ⟨_, _, hd, opcode_of_decodeWord hd, exec_write_run _ _ _ hs, ?_⟩
  rw [cpuCommand_write hcw, cpuWrite, if_neg hbad, if_neg (not_not_intro hown), writeBody, if_neg hbad]
  exact sameEnd_of_work ((sameResults_kept _).memWrite _ _ _ s hs) (.memWrite _ _ _ s) fun v u => by
    simp [cpuReply, hcw]

/-- ACK: the work is one acknowledge, which is not refused because the CPU exists. -/
theorem sameCommand_ack (hcw : opcodeOf cw = 0x23) (hs : s.phase = .run)
    (hcpu : isCpu s (argOf cw 0).toNat = true) (hself : (argOf cw 0).toNat = c) : SameCommand c cw s := by
  have hd := decodeWord_ack hcw
  refine ⟨_, _, hd, opcode_of_decodeWord hd, exec_ack_run _ hs, ?_⟩
  rw [cpuCommand_ack hcw, cpuAck, if_neg (by simp [hcpu]), if_neg (not_not_intro hself), ackBody]
  exact sameEnd_of_work ((sameResults_kept _).acknowledge _ s) (.acknowledge hcpu) fun v u => by
    simp [cpuReply, hcw]

end Own

/-- Settles O33: on its own space and for itself a CPU's command and the host's are the same work; for any other word
the checks of `cpuRead`, `cpuWrite` and `cpuAck` emit one diagnostic and do nothing. -/
theorem cpuMayOnlyUseItsOwn : Obligations.CpuMayOnlyUseItsOwn := by
  refine ⟨fun c cw s hs hown => ?own,
    fun env c cw s => ⟨cpuCommand_of_not_mem, fun hop => ?read, fun hop => ?write, fun hop => ?ack⟩⟩
  case own =>
    rcases hown with ⟨hop, hsp, howner⟩ | ⟨hop, hcpu, hself⟩
    · simp only [List.mem_cons, List.not_mem_nil, or_false] at hop
      rcases hop with hop | hop | hop
      · exact sameCommand_read (.inl rfl) (.inl hop) (decodeWord_read hop) hs hsp howner
      · exact sameCommand_write hop hs hsp howner
      · exact sameCommand_read (.inr rfl) (.inr hop) (decodeWord_fetch hop) hs hsp howner
    · exact sameCommand_ack hop hs hcpu hself
  case read =>
    have hread : opcodeOf cw = 0x11 ∨ opcodeOf cw = 0x14 := by simpa using hop
    rw [cpuCommand_read hread, cpuRead]
    exact ⟨fun hsp => if_pos hsp, fun hsp howner => by rw [hsp, if_neg (by decide), if_pos howner, soft_eq]⟩
  case write =>
    rw [cpuCommand_write hop, cpuWrite]
    exact ⟨fun hsp => if_pos hsp, fun hsp howner => by rw [hsp, if_neg (by decide), if_pos howner, soft_eq]⟩
  case ack =>
    rw [cpuCommand_ack hop, cpuAck]
    exact ⟨fun hcpu => if_pos hcpu, fun hcpu hself => by rw [hcpu, if_neg (by decide), if_pos hself, soft_eq]⟩

end Sys2Proof.Machine
end

/-! PROOFS of the configuration family (spec/40_config.md): the commands that register devices, regions, banks and
spaces, SYSCFG, START and TEARDOWN (R150 to R156, R158). Each is its body in the phases it is legal in, and each body
has one equation per way in which its checks end. -/
section

namespace Sys2Proof.Machine

/-! ## A command in a phase it is legal in (R124) -/

section Legal

variable {s : State} {body : State → Res Answer}

theorem next_configOnly (hs : s.phase = .config) :
    (.next (hostCommand .configOnly body s) : Host.Outcome State Fault Refusal) = .next (endCommand s (body s)) :=
  congrArg _ (hostCommand_legal body (legalIn_configOnly.2 hs))

theorem exec_regdev_config {tag hz : Word32} {kind : BitVec 2} (hs : s.phase = .config) :
    exec (.regdev tag kind hz) s = .next (endCommand s (regdevBody tag kind hz s)) := next_configOnly hs

theorem exec_region_config {r size j : Word32} (hs : s.phase = .config) :
    exec (.region r size j) s = .next (endCommand s (regionBody r size j s)) := next_configOnly hs

theorem exec_bankdef_config {b r size : Word32} (hs : s.phase = .config) :
    exec (.bankdef b r size) s = .next (endCommand s (bankdefBody b r size s)) := next_configOnly hs

theorem exec_spacedef_config {n c : Word32} {aw : BitVec 6} (hs : s.phase = .config) :
    exec (.spacedef n c aw) s = .next (endCommand s (spacedefBody n c aw s)) := next_configOnly hs

theorem exec_syscfg_config {m f : Word32} {n w h : Word16} (hs : s.phase = .config) :
    exec (.syscfg m f n w h) s = .next (endCommand s (syscfgBody m f n w h s)) := next_configOnly hs

theorem exec_start_config (hs : s.phase = .config) :
    exec .start s = .next (endCommand s (startBody Config.env s)) := next_configOnly hs

theorem exec_lookup_configOrRun {tag : Word32} (hs : configOrRun s) :
    exec (.lookup tag) s = .next (endCommand s (lookupBody tag s)) :=
  congrArg _ (hostCommand_legal (lookupBody tag) (legalIn_configRun.2 hs))

theorem exec_teardown_untilDown (hs : s.phase ≠ .down) :
    exec .teardown s = .next (endCommand s (teardownBody s)) :=
  congrArg _ (hostCommand_legal teardownBody (legalIn_untilDown.2 hs))

theorem endCommand_config_eq (code : Byte) : endCommand s (.config code) = configErrorWith code s := rfl
theorem endCommand_refuse_eq (code : Byte) : endCommand s (.refuse code) = refusedWith code s := rfl
theorem endCommand_done_eq (t : State) : endCommand s (done t) = completed t := rfl
theorem endCommand_doneR0_eq (v : Word32) (t : State) : endCommand s (doneR0 v t) = completedR0 v t := rfl

end Legal

/-! ## REGDEV and LOOKUP (R127, R150, R151) -/

section Registry

variable {s : State} {tag hz : Word32} {kind : BitVec 2} {kd : DevKind}

/-- Code 3 is the reserved one (R127). -/
theorem devKindOf_eq_none_iff {kind : BitVec 2} : devKindOf kind = none ↔ kind = 3 := by
  revert kind
  decide

theorem exists_devKindOf (h : kind ≠ 3) : ∃ kd, devKindOf kind = some kd :=
  Option.ne_none_iff_exists'.1 (mt devKindOf_eq_none_iff.1 h)

theorem newLines_eq (p : Params) (c : Nat) (kd : DevKind) :
    newLines p c kd = if kd = .cpu then List.replicate (p.nlineOf c) idleLine else [] := by
  cases kd <;> rfl

theorem regdevBody_of_reserved (h : devKindOf kind = none) : regdevBody tag kind hz s = .config codeBadKind := by
  simp only [regdevBody, h]

theorem regdevBody_of_duplicate (hk : devKindOf kind = some kd) (h : ∃ d ∈ s.dev, d.tag = tag) :
    regdevBody tag kind hz s = .config codeDuplicateTag := by
  have hany : s.dev.any (fun d => d.tag == tag) = true := by simpa using h
  simp only [regdevBody, hk, hany, if_true]

/-- A new tag is refused by a full registry and gets the next handle otherwise (R150). -/
theorem regdevBody_of_fresh (hk : devKindOf kind = some kd) (h : ∀ d ∈ s.dev, d.tag ≠ tag) :
    regdevBody tag kind hz s =
      if s.dev.length = s.params.ndev then .config codeBadId
      else doneR0 (BitVec.ofNat 32 s.dev.length)
        { s with
          dev := s.dev ++ [⟨tag, kd, hz⟩]
          lines := s.lines ++ [newLines s.params s.dev.length kd]
          carry := s.carry ++ [0]
          cpuObs := s.cpuObs ++ [[]] } := by
  have hany : s.dev.any (fun d => d.tag == tag) = false := by simpa using h
  simp only [regdevBody, hk, hany, Bool.false_eq_true, if_false]

theorem lookupBody_of_first {l r : List Device} {d : Device} (hdev : s.dev = l ++ d :: r) (hd : d.tag = tag)
    (hl : ∀ x ∈ l, x.tag ≠ tag) : lookupBody tag s = doneR0 (BitVec.ofNat 32 l.length) s := by
  have hfind : s.dev.findIdx? (fun x => x.tag == tag) = some l.length := by
    have hnone : l.findIdx? (fun x => x.tag == tag) = none := List.findIdx?_eq_none_iff.2 (by simpa using hl)
    rw [hdev, List.findIdx?_append, hnone, List.findIdx?_cons]
    simp [hd]
  simp only [lookupBody, hfind]

theorem lookupBody_of_absent (h : ∀ d ∈ s.dev, d.tag ≠ tag) : lookupBody tag s = .refuse codeUnknownDevice := by
  have hfind : s.dev.findIdx? (fun x => x.tag == tag) = none := List.findIdx?_eq_none_iff.2 (by simpa using h)
  simp only [lookupBody, hfind]

end Registry

/-- Settles O15: REGDEV ends at the first of its checks that fails, and LOOKUP at the first device with the tag. -/
theorem regdevAndLookup : Obligations.RegdevAndLookup := by
  refine ⟨by decide, fun tag hz kind s hs => ?regdev, fun tag s hs => ?lookup⟩
  case regdev =>
    rw [exec_regdev_config hs]
    refine ⟨fun h3 => ?reserved, fun h3 hdup => ?duplicate, fun h3 hnew hfull => ?full, fun kd hk hnew hroom => ?room⟩
    case reserved => rw [regdevBody_of_reserved (devKindOf_eq_none_iff.2 h3), endCommand_config_eq]
    case duplicate =>
      obtain ⟨kd, hk⟩ := exists_devKindOf h3
      rw [regdevBody_of_duplicate hk hdup, endCommand_config_eq]
    case full =>
      obtain ⟨kd, hk⟩ := exists_devKindOf h3
      rw [regdevBody_of_fresh hk hnew, if_pos hfull, endCommand_config_eq]
    case room => rw [regdevBody_of_fresh hk hnew, if_neg hroom, endCommand_doneR0_eq, newLines_eq]
  case lookup =>
    rw [exec_lookup_configOrRun hs]
    refine ⟨fun l r d hdev hd hl => ?first, fun h => ?absent⟩
    case first => rw [lookupBody_of_first hdev hd hl, endCommand_doneR0_eq]
    case absent => rw [lookupBody_of_absent h, endCommand_refuse_eq]

/-! ## REGION (R152) -/

section RegionSlot

variable {s : State} {r size j : Word32}

/-- The number names a slot of the table, and the slot is free: the first check of REGION, BANKDEF and SPACEDEF. -/
theorem not_badSlot {id capacity : Nat} {valid : Bool} (hid : id < capacity) (hfree : valid = false) :
    ¬(capacity ≤ id ∨ valid = true) := by
  simp [hid, hfree]

theorem regionBody_of_badSlot (h : s.params.nregion ≤ r.toNat ∨ (regionAt s r.toNat).valid = true) :
    regionBody r size j s = .config codeBadId := if_pos h

theorem regionBody_of_noSize (hr : r.toNat < s.params.nregion) (hfree : (regionAt s r.toNat).valid = false) :
    regionBody r 0 j s = .config codeBadParam := by
  rw [regionBody, if_neg (not_badSlot hr hfree), if_pos rfl]

theorem regionBody_of_fits {bytes : List Byte} (hr : r.toNat < s.params.nregion)
    (hfree : (regionAt s r.toNat).valid = false) (hsize : size ≠ 0)
    (himg : j = 0 ∧ bytes = [] ∨ j ≠ 0 ∧ s.params.romimgOf j.toNat = some bytes ∧ bytes.length ≤ size.toNat) :
    regionBody r size j s = done (makeRegion r size (decide (j ≠ 0)) bytes s) := by
  rw [regionBody, if_neg (not_badSlot hr hfree), if_neg hsize]
  rcases himg with ⟨rfl, rfl⟩ | ⟨hj, himg, hfit⟩
  · rfl
  · simp only [if_neg hj, himg, if_neg (Nat.not_lt.2 hfit), decide_eq_true hj]

theorem regionBody_of_noImage (hr : r.toNat < s.params.nregion) (hfree : (regionAt s r.toNat).valid = false)
    (hsize : size ≠ 0) (hj : j ≠ 0) (himg : s.params.romimgOf j.toNat = none) :
    regionBody r size j s = .config codeBadId := by
  simp only [regionBody, if_neg (not_badSlot hr hfree), if_neg hsize, if_neg hj, himg]

theorem regionBody_of_overflow {bytes : List Byte} (hr : r.toNat < s.params.nregion)
    (hfree : (regionAt s r.toNat).valid = false) (hsize : size ≠ 0) (hj : j ≠ 0)
    (himg : s.params.romimgOf j.toNat = some bytes) (hlong : size.toNat < bytes.length) :
    regionBody r size j s = .config codeRegionOverflow := by
  simp only [regionBody, if_neg (not_badSlot hr hfree), if_neg hsize, if_neg hj, himg, if_pos hlong]

theorem makeRegion_mem (img : Bool) (bytes : List Byte) :
    (makeRegion r size img bytes s).mem = memSetRegion s.mem r.toNat bytes := rfl

/-- The bytes of the image stand from offset 0 on. -/
theorem readRegion_makeRegion_image (env : Env) {img : Bool} {bytes : List Byte} {o : Nat} {v : Byte}
    (hfit : bytes.length ≤ size.toNat) (hv : bytes[o]? = some v) :
    readRegion env (makeRegion r size img bytes s) r.toNat o = v := by
  have ho : o < 2 ^ 32 := by
    obtain ⟨hlen, -⟩ := List.getElem?_eq_some_iff.1 hv
    exact lt_of_lt_of_le hlen (le_trans hfit size.isLt.le)
  rw [readRegion, makeRegion_mem, memFind_memSetRegion _ _ _ ho, if_pos rfl, hv, Option.getD_some]

/-- No other region is touched. -/
theorem readRegion_makeRegion_other (env : Env) {img : Bool} {bytes : List Byte} {r' o : Nat} (hne : r' ≠ r.toNat)
    (ho : o < 2 ^ 32) : readRegion env (makeRegion r size img bytes s) r' o = readRegion env s r' o := by
  have hslot : regionAt (makeRegion r size img bytes s) r' = regionAt s r' := getD_set_ne hne.symm _ _ _
  rw [readRegion, readRegion, hslot, makeRegion_mem, memFind_memSetRegion _ _ _ ho, if_neg hne]

end RegionSlot

/-- Settles O16: a completed REGION is `makeRegion`, which replaces what memory lists for the one region. -/
theorem regionMakesASlot : Obligations.RegionMakesASlot := by
  refine ⟨fun r size j bytes s hs hr hfree hsize himg => ?makes, fun r size j s hs => ?errors⟩
  case makes =>
    have hfit : bytes.length ≤ size.toNat := by
      rcases himg with ⟨-, rfl⟩ | ⟨-, -, hfit⟩
      · exact Nat.zero_le _
      · exact hfit
    refine ⟨completed (makeRegion r size (decide (j ≠ 0)) bytes s), ?_, rfl, fun o v hv => ?_, fun r' o hne ho => ?_⟩
    · rw [exec_region_config hs, regionBody_of_fits hr hfree hsize himg, endCommand_done_eq]
    · exact readRegion_makeRegion_image Config.env hfit hv
    · exact readRegion_makeRegion_other Config.env hne ho
  case errors =>
    rw [exec_region_config hs]
    refine ⟨fun hslot => ?slot, fun hr hfree => ⟨fun hsize => ?size, fun hsize hj himg => ?image,
      fun bytes hsize hj himg hlong => ?overflow⟩⟩
    case slot => rw [regionBody_of_badSlot hslot, endCommand_config_eq]
    case size => rw [hsize, regionBody_of_noSize hr hfree, endCommand_config_eq]
    case image => rw [regionBody_of_noImage hr hfree hsize hj himg, endCommand_config_eq]
    case overflow => rw [regionBody_of_overflow hr hfree hsize hj himg hlong, endCommand_config_eq]

/-! ## BANKDEF and SPACEDEF (R153, R154) -/

section BankAndSpace

variable {s : State} {b n r c size : Word32} {aw : BitVec 6}

theorem bankdefBody_of_badSlot (h : s.params.nbank ≤ b.toNat ∨ (bankAt s b.toNat).valid = true) :
    bankdefBody b r size s = .config codeBadId := if_pos h

/-- What is left of BANKDEF's checks when the slot is free. -/
theorem bankdefBody_of_free (hb : b.toNat < s.params.nbank) (hfree : (bankAt s b.toNat).valid = false) :
    bankdefBody b r size s =
      if regionOk s r.toNat = false then .config codeUnresolvableBank
      else if size = 0 then .config codeBadParam
      else done { s with banks := s.banks.set b.toNat ⟨true, r.setWidth 8, size, 0⟩ } :=
  if_neg (not_badSlot hb hfree)

theorem spacedefBody_of_badSlot (h : s.params.nspace ≤ n.toNat ∨ (spaceAt s n.toNat).valid = true) :
    spacedefBody n c aw s = .config codeBadId := if_pos h

/-- What is left of SPACEDEF's checks when the slot is free. -/
theorem spacedefBody_of_free (hn : n.toNat < s.params.nspace) (hfree : (spaceAt s n.toNat).valid = false) :
    spacedefBody n c aw s =
      if isCpu s c.toNat = false then .config codeBadId
      else if aw = 0 ∨ 32 < aw.toNat then .config codeBadParam
      else done { s with spaces := s.spaces.set n.toNat ⟨true, c.setWidth 8, aw⟩ } :=
  if_neg (not_badSlot hn hfree)

/-- A number of at least 1 is not 0. -/
theorem bitVec_ne_zero_of_one_le {k : Nat} {x : BitVec k} (h : 1 ≤ x.toNat) : x ≠ 0 := by
  rintro rfl
  simp at h

end BankAndSpace

/-- Settles O17: each command goes through its checks in their order, the slot first. -/
theorem bankdefAndSpacedef : Obligations.BankdefAndSpacedef := by
  refine ⟨fun _ _ _ => ⟨rfl, rfl, rfl, fun _ _ => rfl⟩, fun _ _ _ => ⟨rfl, rfl, rfl, fun _ _ => rfl⟩,
    fun b r size s hs => ?bank, fun n c aw s hs => ?space⟩
  case bank =>
    rw [exec_bankdef_config hs]
    refine ⟨fun hslot => by rw [bankdefBody_of_badSlot hslot, endCommand_config_eq], fun hb hfree => ?_⟩
    rw [bankdefBody_of_free hb hfree]
    refine ⟨fun hr => ?_, fun hr hsize => ?_, fun hr hsize => ?_⟩
    · rw [if_pos hr, endCommand_config_eq]
    · rw [if_neg (by simp [hr]), if_pos hsize, endCommand_config_eq]
    · rw [if_neg (by simp [hr]), if_neg hsize, endCommand_done_eq]
  case space =>
    rw [exec_spacedef_config hs]
    refine ⟨fun hslot => by rw [spacedefBody_of_badSlot hslot, endCommand_config_eq], fun hn hfree => ?_⟩
    rw [spacedefBody_of_free hn hfree]
    refine ⟨fun hc => ?_, fun hc haw => ?_, fun hc hlo hhi => ?_⟩
    · rw [if_pos hc, endCommand_config_eq]
    · rw [if_neg (by simp [hc]), if_pos haw, endCommand_config_eq]
    · have haw : ¬(aw = 0 ∨ 32 < aw.toNat) := not_or.2 ⟨bitVec_ne_zero_of_one_le hlo, Nat.not_lt.2 hhi⟩
      rw [if_neg (by simp [hc]), if_neg haw, endCommand_done_eq]

/-! ## SYSCFG and TEARDOWN (R155, R158) -/

/-- SYSCFG's two checks raise the same error. -/
theorem syscfgBody_of_badParam {s : State} {m f : Word32} {n w h : Word16}
    (hbad : m = 0 ∨ f = 0 ∨ n = 0 ∨ w = 0 ∨ 32767 < w.toNat ∨ h = 0 ∨ 32767 < h.toNat) :
    syscfgBody m f n w h s = .config codeBadParam := by
  unfold syscfgBody
  split_ifs with hclocks hscreen
  · rfl
  · rfl
  · tauto

theorem syscfgBody_of_inRange {s : State} {m f : Word32} {n w h : Word16} (hm : m ≠ 0) (hf : f ≠ 0) (hn : n ≠ 0)
    (hw : 1 ≤ w.toNat) (hw' : w.toNat ≤ 32767) (hh : 1 ≤ h.toNat) (hh' : h.toNat ≤ 32767) :
    syscfgBody m f n w h s = done { s with
      masterHz := m, frameHz := f, slices := n, sw := w.setWidth 15, sh := h.setWidth 15, syscfgDone := true } := by
  have hclocks : ¬(m = 0 ∨ f = 0 ∨ n = 0) := not_or.2 ⟨hm, not_or.2 ⟨hf, hn⟩⟩
  have hscreen : ¬(w = 0 ∨ 32767 < w.toNat ∨ h = 0 ∨ 32767 < h.toNat) := by
    have := bitVec_ne_zero_of_one_le hw
    have := bitVec_ne_zero_of_one_le hh
    rintro (h0 | h0 | h0 | h0)
    · contradiction
    · omega
    · contradiction
    · omega
  rw [syscfgBody, if_neg hclocks, if_neg hscreen]

/-- Settles O18: the two checks of SYSCFG are the complement of the legal ranges. -/
theorem syscfgWritesTheClocks : Obligations.SyscfgWritesTheClocks := by
  refine ⟨fun _ _ _ _ _ => ⟨rfl, rfl, rfl, fun _ _ => rfl⟩, fun m f n w h s hs => ?_⟩
  rw [exec_syscfg_config hs]
  refine ⟨fun hm hf hn hw hw' hh hh' => ?_, fun hbad => ?_⟩
  · rw [syscfgBody_of_inRange hm hf hn hw hw' hh hh', endCommand_done_eq]
  · rw [syscfgBody_of_badParam hbad, endCommand_config_eq]

/-- Settles O21: TEARDOWN has no check but that of the phase. -/
theorem teardownGoesDown : Obligations.TeardownGoesDown :=
  ⟨⟨rfl, rfl, rfl, fun _ _ => rfl⟩, fun s hs => by rw [exec_teardown_untilDown hs, teardownBody, endCommand_done_eq]⟩

/-! ## START (R156) -/

theorem mem_cpuHandles {s : State} {c : Nat} : c ∈ cpuHandles s ↔ isCpu s c = true := by
  have hlt (h : isCpu s c = true) : c < s.dev.length := by
    by_contra hge
    simp [isCpu, List.getElem?_eq_none (Nat.not_lt.1 hge)] at h
  simp only [cpuHandles, List.mem_filter, List.mem_range]
  exact ⟨And.right, fun h => ⟨hlt h, h⟩⟩

theorem cpuHandles_eq_nil_iff {s : State} : cpuHandles s = [] ↔ ∀ c, isCpu s c = false := by
  simp only [List.eq_nil_iff_forall_not_mem, mem_cpuHandles, Bool.not_eq_true]

/-- `set_pc` on the CPUs of a list emits one event for each and writes nothing but the CPUs' records. -/
theorem foldl_callSetPc (cs : List Nat) (s : State) :
    ∃ obs, cs.foldl callSetPc s =
      { s with
        events := cs.reverse.map (fun c => Event.setPc c (s.params.resetPcOf c)) ++ s.events, cpuObs := obs } := by
  induction cs generalizing s with
  | nil => exact ⟨_, rfl⟩
  | cons c cs ih =>
    obtain ⟨obs, h⟩ := ih (callSetPc s c)
    refine ⟨obs, h.trans ?_⟩
    simp [emit, observe]

theorem callAllSetPc_eq_update (s : State) :
    ∃ obs, callAllSetPc s =
      { s with
        events := (cpuHandles s).reverse.map (fun c => Event.setPc c (s.params.resetPcOf c)) ++ s.events
        cpuObs := obs } := foldl_callSetPc (cpuHandles s) s

theorem startBody_of_cfgErr {env : Env} {s : State} (h : s.cfgErr ≠ 0) : startBody env s = .refuse s.cfgErr := if_pos h

theorem startBody_of_incomplete {env : Env} {s : State} (h : s.cfgErr = 0)
    (hmiss : s.syscfgDone = false ∨ cpuHandles s = []) : startBody env s = .refuse codeIncomplete := by
  rw [startBody, if_neg (not_not_intro h), if_pos hmiss]

theorem startBody_of_complete {env : Env} {s : State} (h : s.cfgErr = 0) (hdone : s.syscfgDone = true)
    (hcpu : cpuHandles s ≠ []) : startBody env s = done (callAllSetPc (enterRun env s)) := by
  rw [startBody, if_neg (not_not_intro h), if_neg (by simp [hdone, hcpu])]

/-- Settles O19: the frame buffer is made before the calls of `set_pc`, which leave it as it is. -/
theorem startEntersRun : Obligations.StartEntersRun := by
  intro s hs
  rw [exec_start_config hs]
  refine ⟨fun herr => ?latched, fun herr hmiss => ?incomplete, fun herr hdone hcpu => ?complete⟩
  case latched => rw [startBody_of_cfgErr herr, endCommand_refuse_eq]
  case incomplete =>
    rw [startBody_of_incomplete herr (hmiss.imp_right cpuHandles_eq_nil_iff.2), endCommand_refuse_eq]
  case complete =>
    have hne : cpuHandles s ≠ [] := List.ne_nil_of_mem (mem_cpuHandles.2 hcpu.choose_spec)
    obtain ⟨obs, hcalls⟩ := callAllSetPc_eq_update (enterRun Config.env s)
    rw [startBody_of_complete herr hdone hne, endCommand_done_eq, hcalls]
    exact ⟨_, rfl, rfl, freshFb_length Config.env s, rfl⟩

end Sys2Proof.Machine
end

/-! PROOFS of the configuration family, second part: RESET (spec/40_config.md R157). It returns lines to Idle one after
another, then writes the other fields, then calls `set_pc`; the three parts see each other only through the lines, the
event stream and the CPUs' records. -/
section

namespace Sys2Proof.Machine

/-! ## Lines returned to Idle (42_interrupt R204, R207) -/

/-- The lines of a list, each as its CPU and its number, go to (Idle, 0, 0) one after another. -/
def idleLines (ps : List (Nat × Nat)) (s : State) : State := ps.foldl (fun t p => putLine p.1 p.2 idleLine t) s

/-- The line is not Idle, so that its return to Idle is notified (R207). -/
def busy (s : State) (p : Nat × Nat) : Bool := decide ((lineAt s p.1 p.2).st ≠ .idle)

/-- The notification of a line's return to Idle. -/
def idleNotice (p : Nat × Nat) : Event := .irqLine p.1 p.2 false

theorem lineAt_modify_set_idle (s : State) (c l c' l' : Nat) :
    ((s.lines.modify c fun row => row.set l idleLine).getD c' []).getD l' idleLine =
      if (c', l') = (c, l) then idleLine else lineAt s c' l' := by
  unfold lineAt
  simp only [List.getD_eq_getElem?_getD, List.getElem?_modify, Prod.mk.injEq]
  rcases eq_or_ne c c' with rfl | hc
  · cases hrow : s.lines[c]? with
    | none => simp
    | some row =>
      rcases eq_or_ne l l' with rfl | hl
      · by_cases hlt : l < row.length <;> simp [hlt]
      · simp [hl, hl.symm]
  · simp [hc, hc.symm]

theorem lineAt_putLine_idle (s : State) (c l c' l' : Nat) :
    lineAt (putLine c l idleLine s) c' l' = if (c', l') = (c, l) then idleLine else lineAt s c' l' := by
  rw [← lineAt_modify_set_idle, lineAt, putLine_lines]

/-- One line returned to Idle: a notification if it was not Idle, and nothing else but the CPU's record of it. -/
theorem putLine_idle_eq_update (c l : Nat) (s : State) :
    ∃ obs, putLine c l idleLine s =
      { s with
        lines := s.lines.modify c fun row => row.set l idleLine
        events := ([(c, l)].filter (busy s)).map idleNotice ++ s.events
        cpuObs := obs } := by
  unfold putLine
  by_cases hidle : (lineAt s c l).st = .idle
  · have hlevel : lineLevel (lineAt s c l).st idleLine.st = none := by rw [hidle]; rfl
    have hbusy : busy s (c, l) = false := by simp [busy, hidle]
    refine ⟨s.cpuObs, ?_⟩
    simp only [hlevel, List.filter_cons, hbusy, Bool.false_eq_true, if_false, List.filter_nil, List.map_nil,
      List.nil_append]
  · have hlevel : lineLevel (lineAt s c l).st idleLine.st = some false := by simp [lineLevel, idleLine, hidle]
    have hbusy : busy s (c, l) = true := by simp [busy, hidle]
    refine ⟨s.cpuObs.modify c (.irqLine l false :: ·), ?_⟩
    simp only [hlevel, List.filter_cons, hbusy, if_true, List.filter_nil, List.map_cons, List.map_nil]
    rfl

theorem lineAt_idleLines (ps : List (Nat × Nat)) (s : State) (c l : Nat) :
    lineAt (idleLines ps s) c l = if (c, l) ∈ ps then idleLine else lineAt s c l := by
  induction ps generalizing s with
  | nil => simp [idleLines]
  | cons p ps ih =>
    refine (ih (putLine p.1 p.2 idleLine s)).trans ?_
    rw [lineAt_putLine_idle]
    by_cases hmem : (c, l) ∈ ps <;> simp [hmem]

/-- Different lines returned to Idle: one notification for each that was not Idle, in their order. -/
theorem idleLines_eq_update {ps : List (Nat × Nat)} (hps : ps.Nodup) (s : State) :
    ∃ lines obs, idleLines ps s =
      { s with
        lines := lines
        events := ((ps.filter (busy s)).map idleNotice).reverse ++ s.events
        cpuObs := obs } := by
  induction ps generalizing s with
  | nil => exact ⟨_, _, rfl⟩
  | cons p ps ih =>
    obtain ⟨hp, hps⟩ := List.nodup_cons.1 hps
    obtain ⟨lines, obs, hrest⟩ := ih hps (putLine p.1 p.2 idleLine s)
    obtain ⟨obs', hfirst⟩ := putLine_idle_eq_update p.1 p.2 s
    have hsame : ps.filter (busy (putLine p.1 p.2 idleLine s)) = ps.filter (busy s) :=
      List.filter_congr fun q hq => by
        have hne : q ≠ p := fun h => hp (h ▸ hq)
        rw [busy, busy, lineAt_putLine_idle, if_neg hne]
    have hevents : ((ps.filter (busy s)).map idleNotice).reverse ++ (([p].filter (busy s)).map idleNotice ++ s.events) =
        (((p :: ps).filter (busy s)).map idleNotice).reverse ++ s.events := by
      by_cases hbusy : busy s p = true <;> simp [hbusy]
    refine ⟨lines, obs, hrest.trans ?_⟩
    rw [hsame, hfirst]
    exact congrArg (fun es => { s with lines := lines, events := es, cpuObs := obs }) hevents

/-! ## The lines that RESET returns to Idle (R157) -/

/-- The lines of CPU c that RESET returns to Idle: none when they are saved. -/
def linesToReset (s : State) (c : Nat) : List (Nat × Nat) :=
  if saved s .lines c then [] else (List.range (s.params.nlineOf c)).map fun l => (c, l)

/-- The lines that RESET returns to Idle, in its order. -/
def allLinesToReset (s : State) : List (Nat × Nat) := (cpuHandles s).flatMap (linesToReset s)

theorem resetLines_eq_idleLines (s : State) (c : Nat) : resetLines s c = idleLines (linesToReset s c) s := by
  unfold resetLines linesToReset idleLines
  split_ifs
  · rfl
  · rw [List.foldl_map]

theorem mem_linesToReset {s : State} {c : Nat} {p : Nat × Nat} :
    p ∈ linesToReset s c ↔ saved s .lines c = false ∧ p.2 < s.params.nlineOf c ∧ p.1 = c := by
  unfold linesToReset
  split_ifs with hsaved
  · simp [hsaved]
  · simp only [hsaved, true_and, List.mem_map, List.mem_range]
    constructor
    · rintro ⟨l, hl, rfl⟩
      exact ⟨hl, rfl⟩
    · rintro ⟨hl, rfl⟩
      exact ⟨p.2, hl, rfl⟩

theorem mem_allLinesToReset {s : State} {c l : Nat} :
    (c, l) ∈ allLinesToReset s ↔ isCpu s c = true ∧ saved s .lines c = false ∧ l < s.params.nlineOf c := by
  simp only [allLinesToReset, List.mem_flatMap, mem_cpuHandles, mem_linesToReset]
  constructor
  · rintro ⟨_, hcpu, hsaved, hl, rfl⟩
    exact ⟨hcpu, hsaved, hl⟩
  · rintro ⟨hcpu, hsaved, hl⟩
    exact ⟨c, hcpu, hsaved, hl, rfl⟩

theorem nodup_linesToReset (s : State) (c : Nat) : (linesToReset s c).Nodup := by
  unfold linesToReset
  split_ifs
  · exact List.nodup_nil
  · exact List.nodup_range.map fun _ _ h => (Prod.mk.inj h).2

theorem nodup_cpuHandles (s : State) : (cpuHandles s).Nodup := List.nodup_range.filter _

/-- No line is returned to Idle twice: the CPUs are different, and so are the lines of one CPU. -/
theorem nodup_allLinesToReset (s : State) : (allLinesToReset s).Nodup := by
  refine List.nodup_flatMap.2 ⟨fun c _ => nodup_linesToReset s c, (nodup_cpuHandles s).imp fun hne p hp hq => ?_⟩
  obtain ⟨-, -, h⟩ := mem_linesToReset.1 hp
  obtain ⟨-, -, h'⟩ := mem_linesToReset.1 hq
  exact hne (h.symm.trans h')

/-- CPU by CPU, the lines of the whole list are returned to Idle: which ones they are does not change on the way. -/
theorem foldl_resetLines (cs : List Nat) (s : State) :
    cs.foldl resetLines s = idleLines (cs.flatMap (linesToReset s)) s := by
  induction cs generalizing s with
  | nil => rfl
  | cons c cs ih =>
    obtain ⟨lines, obs, hfirst⟩ := idleLines_eq_update (nodup_linesToReset s c) s
    have hsame : linesToReset (idleLines (linesToReset s c) s) = linesToReset s := by rw [hfirst]; rfl
    rw [List.foldl_cons, resetLines_eq_idleLines, ih, hsame, List.flatMap_cons]
    exact (List.foldl_append ..).symm

theorem lineAt_ne_acknowledged {s : State} (hs : linesOk s) (c l : Nat) : (lineAt s c l).st ≠ .acknowledged := by
  unfold lineAt
  simp only [List.getD_eq_getElem?_getD]
  cases hrow : s.lines[c]? with
  | none => simp [idleLine]
  | some row =>
    cases hline : row[l]? with
    | none => simp [hline, idleLine]
    | some ln => simpa [hline] using hs row (List.mem_of_getElem? hrow) ln (List.mem_of_getElem? hline)

/-- Between commands a line is not Idle exactly when it is active (R204, R207). -/
theorem busy_eq_lineActive {s : State} (hs : linesOk s) (p : Nat × Nat) : busy s p = lineActive s p.1 p.2 := by
  have hack := lineAt_ne_acknowledged hs p.1 p.2
  unfold busy lineActive active
  cases hst : (lineAt s p.1 p.2).st
  case acknowledged => exact absurd hst hack
  all_goals rfl

/-- The notifications of the lines that RESET returns to Idle are `resetNotices`. -/
theorem resetNotices_eq {s : State} (hs : linesOk s) :
    ((allLinesToReset s).filter (busy s)).map idleNotice = resetNotices s := by
  rw [allLinesToReset, List.filter_flatMap, List.map_flatMap, resetNotices]
  refine List.flatMap_congr fun c _ => ?_
  unfold linesToReset
  split_ifs
  · rfl
  · rw [List.filter_map, List.map_map]
    exact congrArg (List.map _) (List.filter_congr fun l _ => busy_eq_lineActive hs (c, l))

/-! ## The other fields (R157) -/

/-- A table changed slot by slot, read at a slot: past the end the default has to stay the default. -/
theorem getD_mapIdx {α : Type} {l : List α} {f : Nat → α → α} {n : Nat} {d : α} (h : f n d = d) :
    (l.mapIdx f).getD n d = f n (l.getD n d) := by
  rcases Nat.lt_or_ge n l.length with hn | hn
  · simp [hn]
  · simp [hn, h]

/-- RESET of a bank slot: an unsaved window goes back to offset 0. -/
def resetBank (s : State) (b : Nat) (bk : Bank) : Bank :=
  if bk.valid && !saved s .bank b then { bk with offset := 0 } else bk

/-- RESET of a layer's scroll entries: unsaved ones go back to 0. -/
def resetScrollRow (s : State) (L : Nat) (row : List Scroll) : List Scroll :=
  if saved s .scroll L then row else row.map fun _ => ⟨0, 0⟩

/-- RESET of a region slot: one that loses its bytes gets another draw. -/
def resetRegion (s : State) (r : Nat) (rg : Region) : Region :=
  if losesBytes s r then { rg with gen := s.freeCtr } else rg

section ResetFields

variable (env : Env) (s : State)

theorem resetFields_banks : (resetFields env s).banks = s.banks.mapIdx (resetBank s) := rfl
theorem resetFields_scroll : (resetFields env s).scroll = s.scroll.mapIdx (resetScrollRow s) := rfl
theorem resetFields_regions : (resetFields env s).regions = s.regions.mapIdx (resetRegion s) := rfl
theorem resetFields_mem :
    (resetFields env s).mem = s.mem.filter fun c => !losesBytes s (c.1 / 2 ^ 32) := rfl

theorem bankAt_resetFields (b : Nat) : bankAt (resetFields env s) b = resetBank s b (bankAt s b) := by
  rw [bankAt, resetFields_banks, getD_mapIdx rfl, bankAt]

theorem scrollAt_resetFields (L e : Nat) :
    scrollAt (resetFields env s) L e = if saved s .scroll L then scrollAt s L e else ⟨0, 0⟩ := by
  rw [scrollAt, resetFields_scroll, getD_mapIdx (by simp [resetScrollRow]), resetScrollRow]
  split_ifs
  · rfl
  · simp only [List.getD_eq_getElem?_getD, List.getElem?_map]
    cases (s.scroll[L]?.getD [])[e]? <;> rfl

variable {s}

/-- A region that keeps its bytes keeps its draw and everything memory lists for it. -/
theorem readRegion_resetFields {r o : Nat} (hkeeps : losesBytes s r = false) (ho : o < 2 ^ 32) :
    readRegion env (resetFields env s) r o = readRegion env s r o := by
  have hreset (rg : Region) : resetRegion s r rg = rg := by rw [resetRegion, hkeeps, if_neg Bool.false_ne_true]
  have hslot : regionAt (resetFields env s) r = regionAt s r := by
    rw [regionAt, resetFields_regions, getD_mapIdx (hreset _), hreset, regionAt]
  have hmem : memFind (resetFields env s).mem (memKey r o) = memFind s.mem (memKey r o) := by
    rw [resetFields_mem, memFind_filter (fun k => !losesBytes s (k / 2 ^ 32)), memKey_div ho, hkeeps]
    rfl
  rw [readRegion, readRegion, hslot, hmem]

end ResetFields

/-- An image and a saved region keep their bytes. -/
theorem losesBytes_eq_false {s : State} {r : Nat} (h : (regionAt s r).img = true ∨ saved s .region r = true) :
    losesBytes s r = false := by
  rcases h with h | h <;> simp [losesBytes, h]

/-! ## The command -/

/-- RESET as three updates: the lines that go to Idle, the other fields, the calls of `set_pc`. -/
theorem exec_reset_run {s : State} (hs : s.phase = .run) :
    exec .reset s = .next (completed (callAllSetPc (resetFields Config.env (idleLines (allLinesToReset s) s)))) := by
  refine (congrArg _ (hostCommand_legal (resetBody Config.env) (legalIn_runOnly.2 hs))).trans ?_
  rw [resetBody, foldl_resetLines, endCommand_done_eq, allLinesToReset]

/-- Settles O20: each of the three updates says what it writes, and the save list, the CPUs and the parameters are the
same for all of them. -/
theorem resetKeepsTheSaved : Obligations.ResetKeepsTheSaved := by
  intro s hs
  have hlineAt := lineAt_idleLines (allLinesToReset s) s
  have hexec := exec_reset_run hs
  obtain ⟨lines, obs, hidle⟩ := idleLines_eq_update (nodup_allLinesToReset s) s
  rw [hidle] at hlineAt hexec
  generalize hnotices : ((allLinesToReset s).filter (busy s)).map idleNotice = notices at hlineAt hexec
  set u : State := { s with lines := lines, events := notices.reverse ++ s.events, cpuObs := obs }
  obtain ⟨obs', hcalls⟩ := callAllSetPc_eq_update (resetFields Config.env u)
  rw [hcalls] at hexec
  refine ⟨_, hexec, rfl, fun b => ?bank, fun c l hl hcpu => ?line, fun L e => ?scroll, fun r => ?region,
    fun r o ho hkept => ?byte, fun hok => ?events⟩
  case bank => exact bankAt_resetFields Config.env u b
  case line =>
    refine (hlineAt c l).trans ?_
    cases hsaved : saved s .lines c
    case false => exact if_pos (mem_allLinesToReset.2 ⟨hcpu, hsaved, hl⟩)
    case true =>
      have hkept : (c, l) ∉ allLinesToReset s := fun h => by simpa [hsaved] using mem_allLinesToReset.1 h
      exact if_neg hkept
  case scroll => exact scrollAt_resetFields Config.env u L e
  case region => exact (SameConfig.of_configView (configView_resetFields Config.env u)).regions r
  case byte => exact readRegion_resetFields (s := u) Config.env (losesBytes_eq_false hkept) ho
  case events =>
    have hall : notices = resetNotices s := hnotices.symm.trans (resetNotices_eq hok)
    rw [← hall]
    exact (List.append_assoc ..).symm

end Sys2Proof.Machine
end

/-! PROOFS of the address-space family (spec/41_address_space.md): MAP, SETBANK, PORTDEF and POKE (R170, R173, R175,
R178). Each is its body in the phases it is legal in, and the checks of the body decide how it ends. -/
section

namespace Sys2Proof.Machine

/-! ## Tables as lists -/

/-- A modified slot is a replaced one, past the end too. -/
theorem modify_eq_set_getD {α : Type} (l : List α) (n : Nat) (f : α → α) (d : α) :
    l.modify n f = l.set n (f (l.getD n d)) := by
  rcases Nat.lt_or_ge n l.length with hn | hn
  · rw [List.modify_eq_set_get f hn, List.getD_eq_getElem l d hn, List.get_eq_getElem]
  · rw [List.modify_eq_self hn, List.set_eq_of_length_le hn]

/-- A slot replaced by what it holds. -/
theorem set_getD_self {α : Type} (l : List α) (n : Nat) (d : α) : l.set n (l.getD n d) = l := by
  rcases Nat.lt_or_ge n l.length with hn | hn
  · rw [List.getD_eq_getElem l d hn, List.set_getElem_self]
  · rw [List.set_eq_of_length_le hn]

/-! ## MAP (R126, R170) -/

section MapCommand

variable {s : State} {sp a z p q : Word32} {kind : BitVec 3} {kd : AccessKind} {len : Nat}

theorem exec_map_config (hs : s.phase = .config) :
    exec (.map sp a z kind p q) s = .next (endCommand s (mapBody sp a z kind p q s)) := next_configOnly hs

theorem exec_map_error {code : Byte} (hs : s.phase = .config) (h : mapBody sp a z kind p q s = .config code) :
    exec (.map sp a z kind p q) s = .next (configErrorWith code s) := by
  rw [exec_map_config hs, h, endCommand_config_eq]

/-- Codes 6 and 7 are the reserved ones (R126). -/
theorem accessKindOf_of_reserved {kind : BitVec 3} (h : 6 ≤ kind.toNat) : accessKindOf kind = none := by
  revert kind
  decide

theorem mapTargetError_of_rom_ram (hkd : kd = .rom ∨ kd = .ram) :
    mapTargetError s kd len p q =
      if regionOk s p.toNat = false then some codeBadId
      else if regionSize s p.toNat < q.toNat + len then some codeRegionOverflow
      else none := by
  rcases hkd with rfl | rfl <;> rfl

theorem mapTargetError_of_bankedRom (hkd : kd = .bankedRom) :
    mapTargetError s kd len p q =
      if bankOk s p.toNat = false then some codeUnresolvableBank
      else if (bankAt s p.toNat).size.toNat < len then some codeBadRange
      else none := by
  subst hkd; rfl

theorem mapTargetError_of_handler (hkd : kd = .readHandler ∨ kd = .writeHandler ∨ kd = .readWriteHandler) :
    mapTargetError s kd len p q = if portOk s p.toNat = false then some codeBadId else none := by
  rcases hkd with rfl | rfl | rfl <;> rfl

/-- What an entry of each kind has to name (R170). -/
theorem mapTargetError_eq_none
    (h : (kd = .rom ∨ kd = .ram) ∧ regionOk s p.toNat = true ∧ q.toNat + len ≤ regionSize s p.toNat ∨
      kd = .bankedRom ∧ bankOk s p.toNat = true ∧ len ≤ (bankAt s p.toNat).size.toNat ∨
      (kd = .readHandler ∨ kd = .writeHandler ∨ kd = .readWriteHandler) ∧ portOk s p.toNat = true) :
    mapTargetError s kd len p q = none := by
  rcases h with ⟨hkd, hregion, hfits⟩ | ⟨hkd, hbank, hfits⟩ | ⟨hkd, hport⟩
  · rw [mapTargetError_of_rom_ram hkd, if_neg (by simp [hregion]), if_neg (Nat.not_lt.2 hfits)]
  · rw [mapTargetError_of_bankedRom hkd, if_neg (by simp [hbank]), if_neg (Nat.not_lt.2 hfits)]
  · rw [mapTargetError_of_handler hkd, if_neg (by simp [hport])]

theorem mapBody_of_badSpace (hsp : spaceOk s sp.toNat = false) : mapBody sp a z kind p q s = .config codeBadId :=
  if_pos hsp

theorem mapBody_of_reserved (hsp : spaceOk s sp.toNat = true) (hkind : accessKindOf kind = none) :
    mapBody sp a z kind p q s = .config codeBadKind := by
  simp only [mapBody, hsp, hkind, Bool.true_eq_false, if_false]

theorem mapBody_of_badRange (hsp : spaceOk s sp.toNat = true) (hkind : accessKindOf kind = some kd)
    (hrange : z.toNat < a.toNat ∨ 2 ^ (spaceAt s sp.toNat).aw.toNat ≤ z.toNat) :
    mapBody sp a z kind p q s = .config codeBadRange := by
  simp only [mapBody, hsp, hkind, Bool.true_eq_false, if_false, if_pos hrange]

theorem mapBody_of_badTarget {code : Byte} (hsp : spaceOk s sp.toNat = true) (hkind : accessKindOf kind = some kd)
    (hle : a.toNat ≤ z.toNat) (hlt : z.toNat < 2 ^ (spaceAt s sp.toNat).aw.toNat)
    (herror : mapTargetError s kd (z.toNat - a.toNat + 1) p q = some code) :
    mapBody sp a z kind p q s = .config code := by
  have hrange : ¬(z.toNat < a.toNat ∨ 2 ^ (spaceAt s sp.toNat).aw.toNat ≤ z.toNat) := by omega
  simp only [mapBody, hsp, hkind, Bool.true_eq_false, if_false, if_neg hrange, herror]

/-- After its other checks MAP fails on a full table and appends the entry otherwise (R170). -/
theorem mapBody_of_goodTarget (hsp : spaceOk s sp.toNat = true) (hkind : accessKindOf kind = some kd)
    (hle : a.toNat ≤ z.toNat) (hlt : z.toNat < 2 ^ (spaceAt s sp.toNat).aw.toNat)
    (htarget : mapTargetError s kd (z.toNat - a.toNat + 1) p q = none) :
    mapBody sp a z kind p q s =
      if s.entries.length = s.params.nentry then .config codeBadId
      else done { s with entries := s.entries ++ [⟨sp.setWidth 8, a, z, kd, p, q⟩] } := by
  have hrange : ¬(z.toNat < a.toNat ∨ 2 ^ (spaceAt s sp.toNat).aw.toNat ≤ z.toNat) := by omega
  simp only [mapBody, hsp, hkind, Bool.true_eq_false, if_false, if_neg hrange, htarget]

end MapCommand

/-- Settles O22: MAP ends at the first of its checks that fails; what the kind of the entry asks of its target is
`mapTargetError`. -/
theorem mapAppendsAnEntry : Obligations.MapAppendsAnEntry := by
  refine ⟨fun _ _ _ _ _ _ => ⟨rfl, rfl, rfl, fun _ _ => rfl⟩, by decide,
    fun sp a z p q kind kd s hs hsp hkind hle hlt hroom hfits => ?appends, fun sp a z p q kind s hs => ?errors⟩
  case appends =>
    rw [exec_map_config hs, mapBody_of_goodTarget hsp hkind hle hlt (mapTargetError_eq_none hfits), if_neg hroom,
      endCommand_done_eq]
  case errors =>
    refine ⟨fun hsp => exec_map_error hs (mapBody_of_badSpace hsp),
      fun hsp hreserved => exec_map_error hs (mapBody_of_reserved hsp (accessKindOf_of_reserved hreserved)),
      fun kd hsp hkind => ⟨fun hrange => exec_map_error hs (mapBody_of_badRange hsp hkind hrange), fun hle hlt => ?_⟩⟩
    have hends {code : Byte} (herror : mapTargetError s kd (z.toNat - a.toNat + 1) p q = some code) :=
      exec_map_error hs (mapBody_of_badTarget hsp hkind hle hlt herror)
    refine ⟨fun hkd hregion => hends ?region, fun hkd hregion hlong => hends ?overflow, fun hkd hbank => hends ?bank,
      fun hkd hbank hlong => hends ?window, fun hkd hport => hends ?port,
      fun hfits hfull => exec_map_error hs ?full⟩
    case region => rw [mapTargetError_of_rom_ram hkd, if_pos hregion]
    case overflow => rw [mapTargetError_of_rom_ram hkd, if_neg (by simp [hregion]), if_pos hlong]
    case bank => rw [mapTargetError_of_bankedRom hkd, if_pos hbank]
    case window => rw [mapTargetError_of_bankedRom hkd, if_neg (by simp [hbank]), if_pos hlong]
    case port => rw [mapTargetError_of_handler hkd, if_pos hport]
    case full => rw [mapBody_of_goodTarget hsp hkind hle hlt (mapTargetError_eq_none hfits), if_pos hfull]

/-! ## PORTDEF (R131, R175, R180) -/

section PortdefCommand

variable {s : State} {h q0 q1 q2 q3 : Word32} {pk : BitVec 3}

theorem exec_portdef_config (hs : s.phase = .config) :
    exec (.portdef h pk q0 q1 q2 q3) s = .next (endCommand s (portdefBody h pk q0 q1 q2 q3 s)) := next_configOnly hs

theorem portdefBody_of_badSlot (hslot : s.params.nhandler ≤ h.toNat ∨ (portAt s h.toNat).valid = true) :
    portdefBody h pk q0 q1 q2 q3 s = .config codeBadId := if_pos hslot

/-- What is left of PORTDEF's checks when the slot is free. -/
theorem portdefBody_of_free (hh : h.toNat < s.params.nhandler) (hfree : (portAt s h.toNat).valid = false) :
    portdefBody h pk q0 q1 q2 q3 s =
      if portParamsOk s (portKindOf pk) q0 q1 q2 q3 = false then .config codeBadId
      else done { s with ports := s.ports.set h.toNat ⟨true, portKindOf pk, q0, q1, q2, q3⟩ } :=
  if_neg (not_badSlot hh hfree)

end PortdefCommand

/-- Settles O30: the slot is taken or free, and for each port kind `portParamsOk` is R180's column. -/
theorem portdefDefinesAPort : Obligations.PortdefDefinesAPort := by
  refine ⟨fun _ _ _ _ _ _ => ⟨rfl, rfl, rfl, fun _ _ => rfl⟩, by decide, fun h q0 q1 q2 q3 pk s hs => ?_⟩
  rw [exec_portdef_config hs]
  refine ⟨fun hslot => by rw [portdefBody_of_badSlot hslot, endCommand_config_eq], fun hh hfree => ?_⟩
  intro legal
  have hlegal : portParamsOk s (portKindOf pk) q0 q1 q2 q3 = true ↔ legal := by
    cases hpk : portKindOf pk <;> simp [legal, hpk, portParamsOk, and_assoc]
  rw [portdefBody_of_free hh hfree]
  refine ⟨fun hok => ?_, fun hbad => ?_⟩
  · rw [if_neg (by simp [hlegal.2 hok]), endCommand_done_eq]
  · rw [if_pos (Bool.eq_false_iff.2 fun hok => hbad (hlegal.1 hok)), endCommand_config_eq]

/-! ## POKE (R178) -/

section PokeCommand

variable {s : State} {r o : Word32} {v : Byte}

theorem exec_poke_configOrRun (hs : configOrRun s) :
    exec (.poke r o v) s = .next (endCommand s (pokeBody r o v s)) :=
  congrArg _ (hostCommand_legal (pokeBody r o v) (legalIn_configRun.2 hs))

theorem pokeBody_of_noRegion (hr : regionOk s r.toNat = false) : pokeBody r o v s = .refuse codeBadId := if_pos hr

theorem pokeBody_of_region (hr : regionOk s r.toNat = true) :
    pokeBody r o v s =
      if regionSize s r.toNat ≤ o.toNat then .refuse codeBadParam else done (writeRegion r.toNat o.toNat v s) :=
  if_neg (by simp [hr])

/-- What every byte is after a store at an offset that has a key of its own (10_state R26). -/
theorem readRegion_writeRegion (env : Env) (s : State) {r o r' o' : Nat} (v : Byte) (ho : o < 2 ^ 32)
    (ho' : o' < 2 ^ 32) :
    readRegion env (writeRegion r o v s) r' o' = if r' = r ∧ o' = o then v else readRegion env s r' o' := by
  split_ifs with hsame
  · obtain ⟨rfl, rfl⟩ := hsame
    exact readRegion_writeRegion_same env s r' o' v
  · exact readRegion_writeRegion_other env s v ho ho' fun h => hsame ⟨h.1.symm, h.2.symm⟩

end PokeCommand

/-- Settles O31: a completed POKE is one store, and STATUS is no part of what a read sees. -/
theorem pokeStoresOneByte : Obligations.PokeStoresOneByte := by
  refine ⟨fun _ _ _ => ⟨rfl, rfl, rfl, fun _ _ => rfl⟩, fun r o v s hs => ?_⟩
  rw [exec_poke_configOrRun hs]
  refine ⟨fun hr => ?_, fun hr hpast => ?_, fun hr hin => ⟨completed (writeRegion r.toNat o.toNat v s), ?_, rfl, ?_⟩⟩
  · rw [pokeBody_of_noRegion hr, endCommand_refuse_eq]
  · rw [pokeBody_of_region hr, if_pos hpast, endCommand_refuse_eq]
  · rw [pokeBody_of_region hr, if_neg (Nat.not_le.2 hin), endCommand_done_eq]
  · intro r' o' ho'
    exact readRegion_writeRegion Config.env s v o.isLt ho'

/-! ## SETBANK (R173) -/

section SetbankCommand

variable {s : State} {b off : Word32}

theorem exec_setbank_configOrRun (hs : configOrRun s) :
    exec (.setbank b off) s = .next (endCommand s (setbankBody b off s)) :=
  congrArg _ (hostCommand_legal (setbankBody b off) (legalIn_configRun.2 hs))

theorem setbankBody_of_noBank (hb : bankOk s b.toNat = false) : setbankBody b off s = .refuse codeBadId := if_pos hb

theorem setbankBody_of_bank (hb : bankOk s b.toNat = true) :
    setbankBody b off s = done (setBankOffset b.toNat off s) := if_neg (by simp [hb])

/-- A bank that exists has a slot in the table. -/
theorem lt_banks_length_of_bankOk {b : Nat} (hb : bankOk s b = true) : b < s.banks.length := by
  by_contra hpast
  have hnone : bankAt s b = noBank := List.getD_eq_default _ _ (Nat.not_lt.1 hpast)
  simp [bankOk, hnone, noBank] at hb

/-- The bank's slot is replaced by itself with the new offset. -/
theorem setBankOffset_eq_set (b : Nat) (off : Word32) (s : State) :
    setBankOffset b off s = { s with banks := s.banks.set b { bankAt s b with offset := off } } :=
  congrArg (fun banks => { s with banks := banks }) (modify_eq_set_getD s.banks b _ noBank)

theorem bankAt_setBankOffset {b : Nat} (hb : bankOk s b = true) (off : Word32) :
    bankAt (setBankOffset b off s) b = { bankAt s b with offset := off } := by
  rw [setBankOffset_eq_set]
  exact getD_set_self (lt_banks_length_of_bankOk hb) _ _

theorem exec_setbank_bank (hs : configOrRun s) (hb : bankOk s b.toNat = true) :
    exec (.setbank b off) s = .next (completed (setBankOffset b.toNat off s)) := by
  rw [exec_setbank_configOrRun hs, setbankBody_of_bank hb, endCommand_done_eq]

/-- A READ or FETCH that resolves to a bank's window (R84). -/
theorem exec_read_bankedRom {op : Word32 → Word32 → Instr} (hop : op = .read ∨ op = .fetch) {sp a : Word32} {e : Entry}
    (hs : s.phase = .run) (hsp : spaceOk s sp.toNat = true)
    (he : resolveEntry s sp.toNat (busAddress s sp.toNat a.toNat) servesRead = some e) (hk : e.kind = .bankedRom) :
    exec (op sp a) s = .next (completedR0 ((readRegion Config.env s (bankAt s e.p0.toNat).region.toNat
      (bankedOffset s (bankAt s e.p0.toNat) (busAddress s sp.toNat a.toNat - e.start.toNat))).setWidth 32) s) :=
  exec_read_of_memRead hop hs hsp ((memRead_of_resolve_some he).trans (entryRead_of_bankedRom _ hk))

end SetbankCommand

/-- Settles O28: SETBANK changes the one slot; a READ afterwards resolves as before, because neither entries nor
spaces changed, and takes the offset from that slot. -/
theorem setbankSeenByNextRead : Obligations.SetbankSeenByNextRead := by
  refine ⟨fun _ _ => ⟨rfl, rfl, rfl, fun _ _ => rfl⟩, fun b off s hs => ⟨fun hb => ?sets, fun hb => ?refused⟩,
    fun b off sp a s e hs hb hsp he hk hp0 => ?seen⟩
  case sets => rw [exec_setbank_bank hs hb, setBankOffset_eq_set]
  case refused => rw [exec_setbank_configOrRun hs, setbankBody_of_noBank hb, endCommand_refuse_eq]
  case seen =>
    refine ⟨completed (setBankOffset b.toNat off s), exec_setbank_bank (.inr hs) hb, ?_⟩
    have hread := exec_read_bankedRom (s := completed (setBankOffset b.toNat off s)) (.inl rfl) hs hsp he hk
    have hbank : bankAt (completed (setBankOffset b.toNat off s)) e.p0.toNat = { bankAt s b.toNat with offset := off } :=
      hp0 ▸ bankAt_setBankOffset hb off
    rw [hbank] at hread
    exact hread

end Sys2Proof.Machine
end

/-! PROOFS of the address-space family, second part: the commands that handlers issue (spec/41_address_space.md R182)
and external handlers (R181, R183, R184). A permitted command's body completes without a result or is refused, so the
host and the handler see it end the same way (spec/60_exceptions.md R352). -/
section

namespace Sys2Proof.Machine

/-! ## The bodies that handlers may run (R125, R182) -/

/-- The commands a handler may issue, by opcode (R182). -/
theorem internalBody_isSome_iff (i : Instr) : (internalBody i).isSome = true ↔ i.opcode ∈ internalOpcodes := by
  cases i <;> simp [internalBody, Instr.opcode, internalOpcodes]

theorem internalBody_eq_none {i : Instr} (h : i.opcode ∉ internalOpcodes) : internalBody i = none := by
  rwa [← internalBody_isSome_iff, Bool.not_eq_true, Option.isSome_eq_false_iff, Option.isNone_iff_eq_none] at h

theorem exists_internalBody {i : Instr} (h : i.opcode ∈ internalOpcodes) : ∃ body, internalBody i = some body :=
  Option.isSome_iff_exists.1 ((internalBody_isSome_iff i).2 h)

/-- The body that a handler runs is the host's. -/
theorem exec_of_internalBody {i : Instr} {body : State → Res Answer} (h : internalBody i = some body) (s : State) :
    exec i s = .next (hostCommand (legality i) body s) := by
  cases i <;> simp only [internalBody, Option.some.injEq, reduceCtorEq] at h <;> subst h <;> rfl

/-- Every command that a handler may issue is legal in Run (R124). -/
theorem legalIn_run_of_internalBody {i : Instr} {body : State → Res Answer} (h : internalBody i = some body) :
    legalIn (legality i) .run = true := by
  cases i <;> simp only [internalBody, reduceCtorEq] at h <;> rfl

/-- The body completes without a result, or it is refused. -/
def Res.DoneOrRefused (x : Res Answer) : Prop := (∃ t, x = done t) ∨ ∃ code, code ≠ codeOk ∧ x = .refuse code

theorem Res.DoneOrRefused.of_done (t : State) : (done t).DoneOrRefused := .inl ⟨t, rfl⟩

/-- A check before the rest of a body. -/
theorem Res.DoneOrRefused.check {fails : Prop} [Decidable fails] {code : Byte} {rest : Res Answer}
    (hcode : code ≠ codeOk) (hrest : rest.DoneOrRefused) :
    (if fails then .refuse code else rest : Res Answer).DoneOrRefused := by
  split_ifs
  · exact .inr ⟨code, hcode, rfl⟩
  · exact hrest

/-- A body that a handler may run is a list of checks with a completion after them. -/
theorem doneOrRefused_of_internalBody {i : Instr} {body : State → Res Answer} (h : internalBody i = some body)
    (s : State) : (body s).DoneOrRefused := by
  cases i <;> simp only [internalBody, Option.some.injEq, reduceCtorEq] at h <;> subst h
  case setbank => exact .check (by decide) (.of_done _)
  case poke => exact .check (by decide) (.check (by decide) (.of_done _))
  case assert => exact .check (by decide) (.of_done _)
  case clear => exact .check (by decide) (.of_done _)
  case pulse => exact .check (by decide) (.of_done _)
  case timerset => exact .check (by decide) (.check (by decide) (.check (by decide) (.of_done _)))
  case markdirty => exact .check (by decide) (.of_done _)
  case setscroll => exact .check (by decide) (.check (by decide) (.of_done _))
  case setflip => exact .of_done _
  case setpen => exact .check (by decide) (.of_done _)
  case setpal => exact .check (by decide) (.of_done _)

/-! ## A permitted command, run by a handler (R182, R352) -/

section RunInternal

variable {s t : State} {i : Instr} {legal : Legality} {op a0 : Nat} {body : State → Res Answer} {code : Byte}

theorem runInternal_of_done (hlegal : legalIn legal s.phase = true) (hbody : body s = done t) :
    runInternal legal op a0 body s = .ok () t := by
  simp only [runInternal, hlegal, Bool.true_eq_false, if_false, hbody, done]

theorem runInternal_of_refuse (hlegal : legalIn legal s.phase = true) (hbody : body s = .refuse code) :
    runInternal legal op a0 body s = .ok () (emit (.diag code op a0) s) := by
  simp only [runInternal, hlegal, Bool.true_eq_false, if_false, hbody, soft_eq]

/-- In a phase the command is not legal in there is a diagnostic, and in another one the body is not fatal. -/
theorem runInternal_completes (hbody : (body s).DoneOrRefused) : ∃ t, runInternal legal op a0 body s = .ok () t := by
  cases hlegal : legalIn legal s.phase with
  | false => exact ⟨_, if_pos hlegal⟩
  | true =>
    rcases hbody with ⟨t, hdone⟩ | ⟨code, -, hrefused⟩
    · exact ⟨_, runInternal_of_done hlegal hdone⟩
    · exact ⟨_, runInternal_of_refuse hlegal hrefused⟩

/-- A command of a built-in port or a timer that passes its checks. -/
theorem issueInternal_of_done (hs : s.phase = .run) (hi : internalBody i = some body) (hbody : body s = done t) :
    issueInternal i s = .ok () t := by
  simp only [issueInternal, hi]
  exact runInternal_of_done (hs ▸ legalIn_run_of_internalBody hi) hbody

end RunInternal

/-! ## A command word that a handler issues (R182) -/

section HandlerWord

variable {cw : CmdWord} {s : State}

theorem decodeWord_runframe (h : opcodeOf cw = 0x30) : decodeWord cw = .ok .runframe :=
  decodeWord_of_decodeArgs (by rw [h]; rfl)

theorem execInternal_of_runframe (h : opcodeOf cw = 0x30) (s : State) :
    execInternal cw s = .fatal codeReentry (fatalState codeReentry s) := by
  simp only [execInternal, decodeWord_runframe h, if_true, raiseFatal]

/-- A word of no command or of a command that only others may issue. -/
theorem execInternal_of_not_mem (hrun : opcodeOf cw ≠ 0x30) (h : opcodeOf cw ∉ internalOpcodes) (s : State) :
    execInternal cw s = .ok () (emit (.diag codeNotPermitted (opcodeOf cw).toNat 0) s) := by
  cases hd : decodeWord cw with
  | error e => simp only [execInternal, hd, soft_eq]
  | ok i =>
    have hop := opcode_of_decodeWord hd
    have hi : i ≠ .runframe := by rintro rfl; exact hrun hop.symm
    have hnone : internalBody i = none := internalBody_eq_none (hop ▸ h)
    simp only [execInternal, hd, if_neg hi, hnone, soft_eq]

theorem internalOpcodes_subset_definedOpcodes : internalOpcodes ⊆ definedOpcodes := by decide

/-- A permitted word is a command with a body, which runs. -/
theorem execInternal_of_mem (h : opcodeOf cw ∈ internalOpcodes) :
    ∃ i body, decodeWord cw = .ok i ∧ internalBody i = some body ∧
      ∀ s, execInternal cw s = runInternal (legality i) (opcodeOf cw).toNat (argOf cw 0).toNat body s := by
  obtain ⟨i, hargs⟩ := decodeArgs_of_mem (internalOpcodes_subset_definedOpcodes h) (argOf cw)
  have hd := decodeWord_of_decodeArgs hargs
  obtain ⟨body, hbody⟩ := exists_internalBody (opcode_of_decodeWord hd ▸ h)
  have hi : i ≠ .runframe := by rintro rfl; cases hbody
  exact ⟨i, body, hd, hbody, fun s => by simp only [execInternal, hd, if_neg hi, hbody]⟩

/-- Only RUNFRAME is fatal (R182, R354). -/
theorem execInternal_completes (hrun : opcodeOf cw ≠ 0x30) (s : State) : ∃ t, execInternal cw s = .ok () t := by
  by_cases h : opcodeOf cw ∈ internalOpcodes
  · obtain ⟨i, body, -, hbody, hexec⟩ := execInternal_of_mem h
    rw [hexec]
    exact runInternal_completes (doneOrRefused_of_internalBody hbody s)
  · exact ⟨_, execInternal_of_not_mem hrun h s⟩

end HandlerWord

/-- Settles O32: in Run the host and the handler run one body; where it completes they differ in STATUS alone, and
where it is refused the host gets the code and the handler's diagnostic carries it. -/
theorem handlerCommands : Obligations.HandlerCommands := by
  refine fun cw s => ⟨fun h => execInternal_of_runframe h s, fun hrun h => execInternal_of_not_mem hrun h s,
    fun hs h => ?permitted⟩
  obtain ⟨i, body, hd, hbody, hexec⟩ := execInternal_of_mem h
  have hlegal : legalIn (legality i) s.phase = true := hs ▸ legalIn_run_of_internalBody hbody
  have hhost : exec i s = .next (endCommand s (body s)) :=
    (exec_of_internalBody hbody s).trans (congrArg _ (hostCommand_legal body hlegal))
  refine ⟨i, _, hd, hhost, ?_⟩
  rw [hexec]
  rcases doneOrRefused_of_internalBody hbody s with ⟨u, hdone⟩ | ⟨code, hcode, hrefused⟩
  · obtain ⟨hstatus, hr0, hr1⟩ : SameResults s u := by
      have hkeeps := (sameResults_kept Config.env).internalBody i body hbody s
      rw [hdone] at hkeeps
      exact hkeeps.1
    rw [hdone, endCommand_done]
    exact ⟨fun _ => ⟨u, runInternal_of_done hlegal hdone, rfl, hstatus, hr0, hr1⟩, fun hno => absurd rfl hno⟩
  · rw [hrefused, endCommand_refuse]
    exact ⟨fun hok => absurd hok hcode, fun _ => runInternal_of_refuse hlegal hrefused⟩

/-! ## Command lists (R182) -/

section CommandLists

theorem andThen_assoc {α β γ : Type} (x : Res α) (f : α → State → Res β) (g : β → State → Res γ) :
    andThen (andThen x f) g = andThen x fun v t => andThen (f v t) g := by
  cases x <;> rfl

/-- Nothing after the last command. -/
theorem andThen_ok_right {α : Type} (x : Res α) : (andThen x fun v t => .ok v t) = x := by
  cases x <;> rfl

theorem execInternals_nil (s : State) : execInternals [] s = .ok () s := rfl

theorem execInternals_cons (cw : CmdWord) (cws : List CmdWord) (s : State) :
    execInternals (cw :: cws) s = andThen (execInternal cw s) fun _ t => execInternals cws t := rfl

theorem execInternals_singleton (cw : CmdWord) (s : State) : execInternals [cw] s = execInternal cw s :=
  andThen_ok_right (execInternal cw s)

theorem execInternals_append (pre post : List CmdWord) (s : State) :
    execInternals (pre ++ post) s = andThen (execInternals pre s) fun _ t => execInternals post t := by
  induction pre generalizing s with
  | nil => rfl
  | cons cw pre ih => simp only [List.cons_append, execInternals_cons, andThen_assoc, ih]

theorem execInternals_completes {cws : List CmdWord} (h : ∀ cw ∈ cws, opcodeOf cw ≠ 0x30) (s : State) :
    ∃ t, execInternals cws s = .ok () t := by
  induction cws generalizing s with
  | nil => exact ⟨s, rfl⟩
  | cons cw cws ih =>
    obtain ⟨t, hfirst⟩ := execInternal_completes (h cw List.mem_cons_self) s
    obtain ⟨u, hrest⟩ := ih (fun x hx => h x (List.mem_cons_of_mem cw hx)) t
    exact ⟨u, by rw [execInternals_cons, hfirst, andThen_ok, hrest]⟩

/-- The first RUNFRAME of a list ends it in the state that the commands before it left. -/
theorem execInternals_runframe {pre post : List CmdWord} {cw : CmdWord} {s t : State}
    (hpre : execInternals pre s = .ok () t) (hcw : opcodeOf cw = 0x30) :
    execInternals (pre ++ cw :: post) s = .fatal codeReentry (fatalState codeReentry t) := by
  rw [execInternals_append, hpre, andThen_ok, execInternals_cons, execInternal_of_runframe hcw, andThen_fatal]

/-- A list completes or ends in the fatal error Reentry. -/
theorem execInternals_ends (cws : List CmdWord) (s : State) :
    (∃ t, execInternals cws s = .ok () t) ∨ ∃ t, execInternals cws s = .fatal codeReentry t := by
  have hends := Res.OkOrReentry.execInternals cws s
  cases h : execInternals cws s with
  | ok v t => exact .inl ⟨t, rfl⟩
  | config => rw [h] at hends; exact hends.elim
  | refuse => rw [h] at hends; exact hends.elim
  | fatal code t =>
    rw [h] at hends
    obtain ⟨rfl, -⟩ := hends
    exact .inr ⟨t, rfl⟩

end CommandLists

/-! ## External handlers (R181, R183, R184) -/

section ExternalHandlers

variable {env : Env} {s t : State} {n x o : Nat} {v : Byte} {e : Entry} {sp a : Word32} {code : Byte}

/-- What the oracle answers to a port's event, asked with `in_handler` set (R181, R183, R184). -/
def extReply (env : Env) (n : Nat) (event : ExtEvent) (s : State) : ExtReply :=
  env.ext (portAt s n).q0.toNat event { s with inHandler := true }

/-- The run of the command list of that answer. -/
def extWork (env : Env) (n : Nat) (event : ExtEvent) (s : State) : Res Unit :=
  execInternals (extReply env n event s).cmds { s with inHandler := true, extMem := (extReply env n event s).mem }

/-- The oracle's list runs inside the handler, and its byte is the answer. -/
theorem handlerRead_ext (hpk : (portAt s n).pk = .ext) :
    handlerRead env n x o s = andThen (extWork env n (.read x o) s) fun _ t =>
      .ok (extReply env n (.read x o) s).v { t with inHandler := false } := by
  simp only [handlerRead, portRead, hpk, insideHandler, callExt, andThen_assoc, andThen_ok, extWork, extReply]

theorem handlerWrite_ext (hpk : (portAt s n).pk = .ext) :
    handlerWrite env n x o v s = andThen (extWork env n (.write x o v) s) fun _ t =>
      .ok () { t with inHandler := false } := by
  simp only [handlerWrite, portWrite, hpk, insideHandler, callExt, andThen_assoc, andThen_ok, extWork, extReply]

/-- A READ or FETCH that resolves to a handler's entry is the handler's read. -/
theorem memRead_handler (he : resolveEntry s sp.toNat (busAddress s sp.toNat a.toNat) servesRead = some e)
    (hk : e.kind = .readHandler ∨ e.kind = .readWriteHandler) :
    memRead env sp.toNat a.toNat s = handlerRead env e.p0.toNat (busAddress s sp.toNat a.toNat)
      (busAddress s sp.toNat a.toNat - e.start.toNat) s :=
  (memRead_of_resolve_some he).trans (entryRead_of_handler _ hk)

theorem memWrite_handler (he : resolveEntry s sp.toNat (busAddress s sp.toNat a.toNat) servesWrite = some e)
    (hk : e.kind = .writeHandler ∨ e.kind = .readWriteHandler) :
    memWrite env sp.toNat a.toNat v s = handlerWrite env e.p0.toNat (busAddress s sp.toNat a.toNat)
      (busAddress s sp.toNat a.toNat - e.start.toNat) v s :=
  (memWrite_of_resolve_some he).trans (entryWrite_of_handler _ v hk)

/-- A fatal error inside a READ or FETCH writes its code to STATUS (R354). -/
theorem exec_read_of_memRead_fatal {op : Word32 → Word32 → Instr} (hop : op = .read ∨ op = .fetch)
    (hs : s.phase = .run) (hsp : spaceOk s sp.toNat = true)
    (h : memRead Config.env sp.toNat a.toNat s = .fatal code t) :
    exec (op sp a) s = .next { t with status := code } := by
  rw [exec_read_or_fetch hop sp a hs, readBody, hsp, if_neg (by decide), h, andThen_fatal, endCommand_fatal]

theorem exec_write_of_memWrite_fatal (hs : s.phase = .run) (hsp : spaceOk s sp.toNat = true)
    (h : memWrite Config.env sp.toNat a.toNat v s = .fatal code t) :
    exec (.write sp a v) s = .next { t with status := code } := by
  rw [exec_write_run sp a v hs, writeBody, hsp, if_neg (by decide), h, andThen_fatal, endCommand_fatal]

theorem extWork_ends (env : Env) (n : Nat) (event : ExtEvent) (s : State) :
    (∃ t, extWork env n event s = .ok () t) ∨ ∃ t, extWork env n event s = .fatal codeReentry t :=
  execInternals_ends _ _

/-- READ and FETCH through an EXT port: the list completes and the byte is answered, or it holds a RUNFRAME. -/
theorem exec_read_ext {op : Word32 → Word32 → Instr} (hop : op = .read ∨ op = .fetch) (hs : s.phase = .run)
    (hsp : spaceOk s sp.toNat = true)
    (he : resolveEntry s sp.toNat (busAddress s sp.toNat a.toNat) servesRead = some e)
    (hk : e.kind = .readHandler ∨ e.kind = .readWriteHandler) (hpk : (portAt s e.p0.toNat).pk = .ext)
    {event : ExtEvent}
    (hevent : event = .read (busAddress s sp.toNat a.toNat) (busAddress s sp.toNat a.toNat - e.start.toNat)) :
    (∃ t, extWork Config.env e.p0.toNat event s = .ok () t ∧
      exec (op sp a) s = .next (completedR0 ((extReply Config.env e.p0.toNat event s).v.setWidth 32)
        { t with inHandler := false })) ∨
    ∃ t, extWork Config.env e.p0.toNat event s = .fatal codeReentry t ∧
      exec (op sp a) s = .next { t with status := codeReentry } := by
  have hread := (memRead_handler (env := Config.env) he hk).trans (handlerRead_ext hpk)
  rw [← hevent] at hread
  rcases extWork_ends Config.env e.p0.toNat event s with ⟨t, ht⟩ | ⟨t, ht⟩
  · exact .inl ⟨t, ht, exec_read_of_memRead hop hs hsp (hread.trans (by rw [ht, andThen_ok]))⟩
  · exact .inr ⟨t, ht, exec_read_of_memRead_fatal hop hs hsp (hread.trans (by rw [ht, andThen_fatal]))⟩

theorem exec_write_ext (hs : s.phase = .run) (hsp : spaceOk s sp.toNat = true)
    (he : resolveEntry s sp.toNat (busAddress s sp.toNat a.toNat) servesWrite = some e)
    (hk : e.kind = .writeHandler ∨ e.kind = .readWriteHandler) (hpk : (portAt s e.p0.toNat).pk = .ext)
    {event : ExtEvent}
    (hevent : event = .write (busAddress s sp.toNat a.toNat) (busAddress s sp.toNat a.toNat - e.start.toNat) v) :
    (∃ t, extWork Config.env e.p0.toNat event s = .ok () t ∧
      exec (.write sp a v) s = .next (completed { t with inHandler := false })) ∨
    ∃ t, extWork Config.env e.p0.toNat event s = .fatal codeReentry t ∧
      exec (.write sp a v) s = .next { t with status := codeReentry } := by
  have hwrite := (memWrite_handler (env := Config.env) (v := v) he hk).trans (handlerWrite_ext hpk)
  rw [← hevent] at hwrite
  rcases extWork_ends Config.env e.p0.toNat event s with ⟨t, ht⟩ | ⟨t, ht⟩
  · exact .inl ⟨t, ht, exec_write_of_memWrite hs hsp (hwrite.trans (by rw [ht, andThen_ok]))⟩
  · exact .inr ⟨t, ht, exec_write_of_memWrite_fatal hs hsp (hwrite.trans (by rw [ht, andThen_fatal]))⟩

end ExternalHandlers

/-- Settles O59: the access is the run of the oracle's list between setting and clearing `in_handler`, and that run
completes or ends in the fatal error Reentry; a list is its commands one after another. -/
theorem extPortRunsItsCommands : Obligations.ExtPortRunsItsCommands := by
  refine ⟨fun sp a v s e hs hsp => ?access, execInternals_nil, execInternals_singleton, execInternals_append,
    fun pre post cw s hpre => ?reentry⟩
  case access =>
    intro x called works hpk
    exact ⟨fun op hop he hk => exec_read_ext hop hs hsp he hk hpk rfl,
      fun he hk => exec_write_ext hs hsp he hk hpk rfl⟩
  case reentry =>
    obtain ⟨t, ht⟩ := execInternals_completes hpre s
    exact ⟨t, ht, execInternals_runframe ht⟩

end Sys2Proof.Machine
end

/-! PROOFS of the address-space family, third part: the built-in ports (spec/41_address_space.md R183 to R191). A port
that issues a command runs that command's body inside the handler, so what a WRITE does at a port is what the body does
in each state of the thing the port names. -/
section

namespace Sys2Proof.Machine

/-! ## The bodies of the commands that ports issue (44_tilemap R264, 42_interrupt R200 to R207) -/

section Bodies

variable {s : State}

theorem reduceIndex_of_ge (policy : OorPolicy) {v n : Nat} (h : n ≤ v) :
    reduceIndex policy v n = if policy = .wrap then v % n else n - 1 := by
  cases policy <;> exact if_neg (Nat.not_lt.2 h)

theorem markdirtyBody_of_layer {L t : Word32} (hL : layerOk s L.toNat = true) :
    markdirtyBody L t s = done (setDirty L.toNat
      (reduceIndex s.params.oorPolicy t.toNat (cellCount (layerAt s L.toNat))) true
      (noteIndex t.toNat (cellCount (layerAt s L.toNat)) s)) :=
  if_neg (by simp [hL])

theorem markdirtyBody_inGrid {L t : Word32} {cell : Nat} (hL : layerOk s L.toNat = true) (ht : t.toNat = cell)
    (hcell : cell < cellCount (layerAt s L.toNat)) : markdirtyBody L t s = done (setDirty L.toNat cell true s) := by
  rw [markdirtyBody_of_layer hL, ht, reduceIndex_of_lt _ hcell, noteIndex, if_pos hcell]

theorem markdirtyBody_pastGrid {L t : Word32} {cell : Nat} (hL : layerOk s L.toNat = true) (ht : t.toNat = cell)
    (hcell : cellCount (layerAt s L.toNat) ≤ cell) :
    markdirtyBody L t s = done (setDirty L.toNat
      (if s.params.oorPolicy = .wrap then cell % cellCount (layerAt s L.toNat) else cellCount (layerAt s L.toNat) - 1)
      true (emit (.diag codeIndexOutOfRange cell (cellCount (layerAt s L.toNat))) s)) := by
  rw [markdirtyBody_of_layer hL, ht, reduceIndex_of_ge _ hcell, noteIndex, if_neg (Nat.not_lt.2 hcell), soft_eq]

/-- A change that does not cross Idle is not notified (R207). -/
theorem putLine_of_quiet {c l : Nat} {ln : Line} (h : lineLevel (lineAt s c l).st ln.st = none) :
    putLine c l ln s = withLine c l ln s := by
  simp only [putLine, h, withLine]

theorem putLine_of_level {c l : Nat} {ln : Line} {level : Bool} (h : lineLevel (lineAt s c l).st ln.st = some level) :
    putLine c l ln s = notify c l level (withLine c l ln s) := by
  simp only [putLine, h, withLine]

/-- A line stored as it is. -/
theorem withLine_self (c l : Nat) (s : State) : withLine c l (lineAt s c l) s = s := by
  have hlines : s.lines.modify c (fun row => row.set l (lineAt s c l)) = s.lines := by
    rw [modify_eq_set_getD _ _ _ [], lineAt, set_getD_self, set_getD_self]
  rw [withLine, hlines]

variable {c l : Word32}

theorem clearBody_of_line (hline : lineOk s c.toNat l.toNat = true) :
    clearBody c l s = done (putLine c.toNat l.toNat (clearedLine (lineAt s c.toNat l.toNat)) s) :=
  if_neg (by simp [hline])

theorem pulseBody_of_line (hline : lineOk s c.toNat l.toNat = true) :
    pulseBody c l s = done (putLine c.toNat l.toNat (pulsedLine (lineAt s c.toNat l.toNat)) s) :=
  if_neg (by simp [hline])

theorem assertBody_of_line {vector : Byte} {hasVector : Bool} (hline : lineOk s c.toNat l.toNat = true) :
    assertBody c l vector hasVector s = done (putLine c.toNat l.toNat (assertedLine vector hasVector) s) :=
  if_neg (by simp [hline])

theorem clearedLine_of_idle {ln : Line} (h : ln.st = .idle) : clearedLine ln = ln := by
  rw [clearedLine, ← h]

theorem pulsedLine_of_idle {ln : Line} (h : ln.st = .idle) : pulsedLine ln = { ln with st := .pending } := by
  simp only [pulsedLine, h]

theorem pulsedLine_of_active {ln : Line} (h : ln.st = .pending ∨ ln.st = .asserted) : pulsedLine ln = ln := by
  rcases h with h | h <;> simp only [pulsedLine, h]

theorem clearBody_of_idle (hline : lineOk s c.toNat l.toNat = true) (hst : (lineAt s c.toNat l.toNat).st = .idle) :
    clearBody c l s = done s := by
  rw [clearBody_of_line hline, clearedLine_of_idle hst, putLine_of_quiet (by rw [hst]; rfl), withLine_self]

theorem clearBody_of_active (hline : lineOk s c.toNat l.toNat = true)
    (hst : (lineAt s c.toNat l.toNat).st = .pending ∨ (lineAt s c.toNat l.toNat).st = .asserted) :
    clearBody c l s = done (notify c.toNat l.toNat false
      (withLine c.toNat l.toNat { lineAt s c.toNat l.toNat with st := .idle } s)) := by
  have hlevel : lineLevel (lineAt s c.toNat l.toNat).st .idle = some false := by
    rcases hst with hst | hst <;> rw [hst] <;> rfl
  rw [clearBody_of_line hline, clearedLine, putLine_of_level hlevel]

theorem pulseBody_of_idle (hline : lineOk s c.toNat l.toNat = true) (hst : (lineAt s c.toNat l.toNat).st = .idle) :
    pulseBody c l s = done (notify c.toNat l.toNat true
      (withLine c.toNat l.toNat { lineAt s c.toNat l.toNat with st := .pending } s)) := by
  rw [pulseBody_of_line hline, pulsedLine_of_idle hst, putLine_of_level (by rw [hst]; rfl)]

theorem pulseBody_of_active (hline : lineOk s c.toNat l.toNat = true)
    (hst : (lineAt s c.toNat l.toNat).st = .pending ∨ (lineAt s c.toNat l.toNat).st = .asserted) :
    pulseBody c l s = done s := by
  have hquiet : lineLevel (lineAt s c.toNat l.toNat).st (lineAt s c.toNat l.toNat).st = none := by
    rcases hst with hst | hst <;> rw [hst] <;> rfl
  rw [pulseBody_of_line hline, pulsedLine_of_active hst, putLine_of_quiet hquiet, withLine_self]

theorem assertBody_of_idle {vector : Byte} {hasVector : Bool} (hline : lineOk s c.toNat l.toNat = true)
    (hst : (lineAt s c.toNat l.toNat).st = .idle) :
    assertBody c l vector hasVector s = done (notify c.toNat l.toNat true
      (withLine c.toNat l.toNat (assertedLine vector hasVector) s)) := by
  rw [assertBody_of_line hline, putLine_of_level (by rw [hst]; rfl)]

theorem assertBody_of_active {vector : Byte} {hasVector : Bool} (hline : lineOk s c.toNat l.toNat = true)
    (hst : (lineAt s c.toNat l.toNat).st = .pending ∨ (lineAt s c.toNat l.toNat).st = .asserted) :
    assertBody c l vector hasVector s =
      done (withLine c.toNat l.toNat (assertedLine vector hasVector) s) := by
  have hquiet : lineLevel (lineAt s c.toNat l.toNat).st (assertedLine vector hasVector).st = none := by
    rcases hst with hst | hst <;> rw [hst] <;> rfl
  rw [assertBody_of_line hline, putLine_of_quiet hquiet]

end Bodies

/-! ## The work of each port kind (R183, R185 to R191) -/

section PortWork

variable {env : Env} {P : Port} {x o : Nat} {v : Byte}

theorem portRead_tileram (hpk : P.pk = .tileram) :
    portRead env P x o = some fun s => .ok (readRegion env s P.q1.toNat (tileramOffset s P o)) s := by
  simp only [portRead, hpk]

theorem portRead_latch (hpk : P.pk = .latch) :
    portRead env P x o = some fun s => .ok (s.latch.getD P.q0.toNat 0) s := by
  simp only [portRead, hpk]

theorem portRead_input (hpk : P.pk = .input) :
    portRead env P x o = some fun s =>
      .ok (if P.q1.getLsbD 0 then s.params.scrOf (s.inp.getD P.q0.toNat 0) else s.inp.getD P.q0.toNat 0) s := by
  simp only [portRead, hpk]

theorem portWrite_tileram (hpk : P.pk = .tileram) :
    portWrite env P x o v = some fun s => issueInternal (.markdirty P.q0 (BitVec.ofNat 32 (o >>> (P.q3.toNat % 32))))
      (writeRegion P.q1.toNat (tileramOffset s P o) v s) := by
  simp only [portWrite, hpk]

theorem portWrite_banksel (hpk : P.pk = .banksel) :
    portWrite env P x o v = some fun s =>
      issueInternal (.setbank P.q0 ((v &&& P.q1.extractLsb' 0 8).setWidth 32 * P.q2)) s := by
  simp only [portWrite, hpk]

theorem portWrite_irqack (hpk : P.pk = .irqack) :
    portWrite env P x o v = some fun s => issueInternal (.clear P.q0 P.q1) s := by
  simp only [portWrite, hpk]

theorem portWrite_scroll (hpk : P.pk = .scroll) :
    portWrite env P x o v = some fun s => .ok () (setScrollEntry P.q0.toNat P.q1.toNat
      (scrollWritten P.q2 v (scrollAt s P.q0.toNat P.q1.toNat)) s) := by
  simp only [portWrite, hpk]

theorem portWrite_latch_silent (hpk : P.pk = .latch) (hsignal : latchSignal P = none) :
    portWrite env P x o v = some fun s => .ok () (setLatch P.q0.toNat v s) := by
  simp only [portWrite, hpk, hsignal]

theorem portWrite_latch_signal {i : Instr} (hpk : P.pk = .latch) (hsignal : latchSignal P = some i) :
    portWrite env P x o v = some fun s => issueInternal i (setLatch P.q0.toNat v s) := by
  simp only [portWrite, hpk, hsignal]

theorem portWrite_flip (hpk : P.pk = .flip) :
    portWrite env P x o v = some fun s => .ok () { s with flip := v.getLsbD (P.q0.toNat % 8) } := by
  simp only [portWrite, hpk]

theorem latchSignal_silent (h : P.q1 = 0) : latchSignal P = none := by
  rw [latchSignal, h, if_neg (by decide), if_neg (by decide)]

theorem latchSignal_pulse (h : P.q1 = 1) : latchSignal P = some (.pulse P.q2 P.q3) := if_pos h

theorem latchSignal_assert (h : P.q1 = 2) : latchSignal P = some (.assert P.q2 P.q3 0 false) := by
  rw [latchSignal, h, if_neg (by decide), if_pos rfl]

/-- The offset that BANKSEL sets, as a number (R186). -/
theorem bankselOffset_eq (v : Byte) (q1 q2 : Word32) :
    (v &&& q1.extractLsb' 0 8).setWidth 32 * q2 = BitVec.ofNat 32 ((v.toNat &&& (q1.toNat % 256)) * q2.toNat) := by
  have hmask : (v &&& q1.extractLsb' 0 8).toNat = v.toNat &&& (q1.toNat % 256) := by
    rw [BitVec.toNat_and, BitVec.extractLsb'_toNat, Nat.shiftRight_zero]
  rw [← hmask, BitVec.ofNat_mul, BitVec.ofNat_toNat, BitVec.ofNat_toNat, BitVec.setWidth_eq]

end PortWork

/-! ## Inside the handler (R183, R184) -/

section Handler

variable {α : Type} {env : Env} {s t : State} {n x o : Nat} {v : Byte}

/-- The work of a handler sees `in_handler` set, and only the work sees it. -/
theorem insideHandler_of_ok {work : State → Res α} {r : α} (ht : t.inHandler = false)
    (h : work { s with inHandler := true } = .ok r { t with inHandler := true }) :
    insideHandler work s = .ok r t := by
  rw [insideHandler, h, andThen_ok, ← ht]

theorem handlerRead_of_work {work : State → Res Byte} (hport : portRead env (portAt s n) x o = some work)
    (ht : t.inHandler = false) (h : work { s with inHandler := true } = .ok v { t with inHandler := true }) :
    handlerRead env n x o s = .ok v t := by
  simp only [handlerRead, hport]
  exact insideHandler_of_ok ht h

theorem handlerWrite_of_work {work : State → Res Unit} (hport : portWrite env (portAt s n) x o v = some work)
    (ht : t.inHandler = false) (h : work { s with inHandler := true } = .ok () { t with inHandler := true }) :
    handlerWrite env n x o v s = .ok () t := by
  simp only [handlerWrite, hport]
  exact insideHandler_of_ok ht h

end Handler

/-! ## READ and FETCH of a port (R183, R191) -/

section ReadPort

variable {s : State} {e : Entry} {sp a : Word32} {v : Byte}

theorem exec_read_handler {op : Word32 → Word32 → Instr} (hop : op = .read ∨ op = .fetch) (hs : s.phase = .run)
    (hsp : spaceOk s sp.toNat = true)
    (he : resolveEntry s sp.toNat (busAddress s sp.toNat a.toNat) servesRead = some e)
    (hk : e.kind = .readHandler ∨ e.kind = .readWriteHandler) {work : State → Res Byte}
    (hport : portRead Config.env (portAt s e.p0.toNat) (busAddress s sp.toNat a.toNat)
      (busAddress s sp.toNat a.toNat - e.start.toNat) = some work)
    (hin : s.inHandler = false) (h : work { s with inHandler := true } = .ok v { s with inHandler := true }) :
    exec (op sp a) s = .next (completedR0 (v.setWidth 32) s) :=
  exec_read_of_memRead hop hs hsp ((memRead_handler he hk).trans (handlerRead_of_work hport hin h))

end ReadPort

/-- Settles O25: each of the three port kinds answers from the state it is given, which the handler does not change. -/
theorem readOfAPort : Obligations.ReadOfAPort := by
  intro op hop sp a s e P hs hin hsp he hk hP
  subst hP
  refine ⟨fun hpk => ?tileram, fun hpk => ?latch, fun hpk hplain => ?input, fun hpk hscrambled => ?scrambled⟩
  case tileram => exact exec_read_handler hop hs hsp he hk (portRead_tileram hpk) hin rfl
  case latch => exact exec_read_handler hop hs hsp he hk (portRead_latch hpk) hin rfl
  case input =>
    exact exec_read_handler hop hs hsp he hk (portRead_input hpk) hin (by rw [hplain, if_neg (by decide)])
  case scrambled =>
    exact exec_read_handler hop hs hsp he hk (portRead_input hpk) hin (by rw [hscrambled, if_pos rfl])

/-! ## WRITE to a port (R184 to R190) -/

section WritePort

variable {s t : State} {e : Entry} {sp a : Word32} {v : Byte} {n x o : Nat} {env : Env}

theorem exec_write_handler (hs : s.phase = .run) (hsp : spaceOk s sp.toNat = true)
    (he : resolveEntry s sp.toNat (busAddress s sp.toNat a.toNat) servesWrite = some e)
    (hk : e.kind = .writeHandler ∨ e.kind = .readWriteHandler)
    (h : handlerWrite Config.env e.p0.toNat (busAddress s sp.toNat a.toNat)
      (busAddress s sp.toNat a.toNat - e.start.toNat) v s = .ok () t) :
    exec (.write sp a v) s = .next (completed t) :=
  exec_write_of_memWrite hs hsp ((memWrite_handler he hk).trans h)

/-- The cell that a TILERAM write reaches is a 32-bit number (R185). -/
theorem toNat_cell (k : Nat) (ho : o < 2 ^ 32) : (BitVec.ofNat 32 (o >>> k)).toNat = o >>> k :=
  Nat.mod_eq_of_lt (lt_of_le_of_lt (Nat.shiftRight_le o k) ho)

theorem handlerWrite_tileram_inGrid (hs : s.phase = .run) (hin : s.inHandler = false)
    (hpk : (portAt s n).pk = .tileram) (hL : layerOk s (portAt s n).q0.toNat = true) (ho : o < 2 ^ 32)
    (hcell : o >>> ((portAt s n).q3.toNat % 32) < cellCount (layerAt s (portAt s n).q0.toNat)) :
    handlerWrite env n x o v s = .ok () (setDirty (portAt s n).q0.toNat (o >>> ((portAt s n).q3.toNat % 32)) true
      (writeRegion (portAt s n).q1.toNat (tileramOffset s (portAt s n) o) v s)) :=
  handlerWrite_of_work (portWrite_tileram hpk) hin
    (issueInternal_of_done hs rfl (markdirtyBody_inGrid hL (toNat_cell _ ho) hcell))

theorem handlerWrite_tileram_pastGrid (hs : s.phase = .run) (hin : s.inHandler = false)
    (hpk : (portAt s n).pk = .tileram) (hL : layerOk s (portAt s n).q0.toNat = true) (ho : o < 2 ^ 32)
    (hcell : cellCount (layerAt s (portAt s n).q0.toNat) ≤ o >>> ((portAt s n).q3.toNat % 32)) :
    handlerWrite env n x o v s = .ok () (setDirty (portAt s n).q0.toNat
      (if s.params.oorPolicy = .wrap then
        (o >>> ((portAt s n).q3.toNat % 32)) % cellCount (layerAt s (portAt s n).q0.toNat)
      else cellCount (layerAt s (portAt s n).q0.toNat) - 1) true
      (emit (.diag codeIndexOutOfRange (o >>> ((portAt s n).q3.toNat % 32))
        (cellCount (layerAt s (portAt s n).q0.toNat)))
        (writeRegion (portAt s n).q1.toNat (tileramOffset s (portAt s n) o) v s))) :=
  handlerWrite_of_work (portWrite_tileram hpk) hin
    (issueInternal_of_done hs rfl (markdirtyBody_pastGrid hL (toNat_cell _ ho) hcell))

theorem handlerWrite_banksel (hs : s.phase = .run) (hin : s.inHandler = false)
    (hpk : (portAt s n).pk = .banksel) (hb : bankOk s (portAt s n).q0.toNat = true) :
    handlerWrite env n x o v s = .ok () (setBankOffset (portAt s n).q0.toNat
      ((v &&& (portAt s n).q1.extractLsb' 0 8).setWidth 32 * (portAt s n).q2) s) :=
  handlerWrite_of_work (portWrite_banksel hpk) hin (issueInternal_of_done hs rfl (setbankBody_of_bank hb))

theorem handlerWrite_irqack (hs : s.phase = .run) (ht : t.inHandler = false) (hpk : (portAt s n).pk = .irqack)
    (hclear : clearBody (portAt s n).q0 (portAt s n).q1 { s with inHandler := true } =
      done { t with inHandler := true }) :
    handlerWrite env n x o v s = .ok () t :=
  handlerWrite_of_work (portWrite_irqack hpk) ht (issueInternal_of_done hs rfl hclear)

theorem handlerWrite_scroll (hin : s.inHandler = false) (hpk : (portAt s n).pk = .scroll) :
    handlerWrite env n x o v s = .ok () (setScrollEntry (portAt s n).q0.toNat (portAt s n).q1.toNat
      (scrollWritten (portAt s n).q2 v (scrollAt s (portAt s n).q0.toNat (portAt s n).q1.toNat)) s) :=
  handlerWrite_of_work (portWrite_scroll hpk) hin rfl

theorem handlerWrite_latch_silent (hin : s.inHandler = false) (hpk : (portAt s n).pk = .latch)
    (hnotify : (portAt s n).q1 = 0) :
    handlerWrite env n x o v s = .ok () (setLatch (portAt s n).q0.toNat v s) :=
  handlerWrite_of_work (portWrite_latch_silent hpk (latchSignal_silent hnotify)) hin rfl

theorem handlerWrite_latch_signal {i : Instr} {body : State → Res Answer} (hs : s.phase = .run)
    (ht : t.inHandler = false) (hpk : (portAt s n).pk = .latch) (hsignal : latchSignal (portAt s n) = some i)
    (hi : internalBody i = some body)
    (hbody : body { setLatch (portAt s n).q0.toNat v s with inHandler := true } = done { t with inHandler := true }) :
    handlerWrite env n x o v s = .ok () t :=
  handlerWrite_of_work (portWrite_latch_signal hpk hsignal) ht (issueInternal_of_done hs hi hbody)

theorem handlerWrite_flip (hin : s.inHandler = false) (hpk : (portAt s n).pk = .flip) :
    handlerWrite env n x o v s = .ok () { s with flip := v.getLsbD ((portAt s n).q0.toNat % 8) } :=
  handlerWrite_of_work (portWrite_flip hpk) hin rfl

/-- An offset in a resolved entry is a 32-bit number. -/
theorem busOffset_lt (s : State) (sp : Nat) (a : Word32) (first : Nat) :
    busAddress s sp a.toNat - first < 2 ^ 32 :=
  lt_of_le_of_lt ((Nat.sub_le _ _).trans (Nat.mod_le _ _)) a.isLt

end WritePort

/-- Settles O27: each port kind's write is an update of its own or the body of the command it issues, and that body is
known in each state of the layer, bank or line it names. -/
theorem writeToAPort : Obligations.WriteToAPort := by
  intro sp a v s e P hs hin hsp he hk hP o
  subst hP
  have hexec {t : State} (h : handlerWrite Config.env e.p0.toNat (busAddress s sp.toNat a.toNat) o v s = .ok () t) :
      exec (.write sp a v) s = .next (completed t) := exec_write_handler hs hsp he hk h
  have ho : o < 2 ^ 32 := busOffset_lt s sp.toNat a e.start.toNat
  refine ⟨fun hpk hL => ?tileram, fun hpk hb => ?banksel, fun hpk hline => ?irqack, fun hpk => ?scroll,
    fun hpk => ?latch, fun hpk => ?flip⟩
  case tileram =>
    exact ⟨fun hcell => hexec (handlerWrite_tileram_inGrid hs hin hpk hL ho hcell),
      fun hcell => hexec (handlerWrite_tileram_pastGrid hs hin hpk hL ho hcell)⟩
  case banksel =>
    rw [← bankselOffset_eq]
    exact hexec (handlerWrite_banksel hs hin hpk hb)
  case irqack =>
    exact ⟨fun hst => hexec (handlerWrite_irqack hs hin hpk (clearBody_of_idle hline hst)),
      fun hst => hexec (handlerWrite_irqack hs hin hpk (clearBody_of_active hline hst))⟩
  case scroll =>
    intro old written
    have hwritten : scrollWritten (portAt s e.p0.toNat).q2 v old = written := by
      simp only [scrollWritten, replaceByte, written]
      cases (portAt s e.p0.toNat).q2.getLsbD 0 <;> cases (portAt s e.p0.toNat).q2.getLsbD 1 <;> rfl
    rw [← hwritten]
    exact hexec (handlerWrite_scroll hin hpk)
  case latch =>
    refine ⟨fun hsilent => hexec (handlerWrite_latch_silent hin hpk hsilent), fun hpulse hline => ?_,
      fun hassert hline => ?_⟩
    · have hsignal := latchSignal_pulse hpulse
      exact ⟨fun hst => hexec (handlerWrite_latch_signal hs hin hpk hsignal rfl (pulseBody_of_idle hline hst)),
        fun hst => hexec (handlerWrite_latch_signal hs hin hpk hsignal rfl (pulseBody_of_active hline hst))⟩
    · have hsignal := latchSignal_assert hassert
      exact ⟨fun hst => hexec (handlerWrite_latch_signal hs hin hpk hsignal rfl (assertBody_of_idle hline hst)),
        fun hst => hexec (handlerWrite_latch_signal hs hin hpk hsignal rfl (assertBody_of_active hline hst))⟩
  case flip => exact hexec (handlerWrite_flip hin hpk)

end Sys2Proof.Machine
end

/-! PROOFS of the interrupt family (spec/42_interrupt.md): no line is left Acknowledged (R204, R205), and every lookup
entry stays a palette index (spec/10_state.md R46). A step writes lines in four ways, and lookup entries in two; the
rest of what it does is not seen by either invariant. -/
section

namespace Sys2Proof.Machine

/-! ## What the two invariants read -/

/-- Both invariants pass from one state to the other. -/
structure StaysLegal (s t : State) : Prop where
  lines : linesOk s → linesOk t
  lookup : lookupOk s → lookupOk t

section Invariants

variable {s t u : State}

theorem StaysLegal.trans (h : StaysLegal s t) (h' : StaysLegal t u) : StaysLegal s u :=
  ⟨h'.lines ∘ h.lines, h'.lookup ∘ h.lookup⟩

theorem lookupOk_of_eq (hlookup : t.lookup = s.lookup) (hparams : t.params = s.params) (hs : lookupOk s) :
    lookupOk t := by
  rw [lookupOk, hlookup, hparams]
  exact hs

theorem linesOk_of_eq (hlines : t.lines = s.lines) (hs : linesOk s) : linesOk t := by
  rw [linesOk, hlines]
  exact hs

/-- Most updates write neither the lines nor the lookup table nor the parameters. -/
theorem StaysLegal.of_eq (hlines : t.lines = s.lines) (hlookup : t.lookup = s.lookup)
    (hparams : t.params = s.params) : StaysLegal s t :=
  ⟨linesOk_of_eq hlines, lookupOk_of_eq hlookup hparams⟩

/-! ## Lines are written row by row -/

theorem st_ne_acknowledged_of_mem_row (hs : linesOk s) {c : Nat} {ln : Line} (hln : ln ∈ s.lines.getD c []) :
    ln.st ≠ .acknowledged := by
  rcases Nat.lt_or_ge c s.lines.length with hc | hc
  · rw [List.getD_eq_getElem _ _ hc] at hln
    exact hs _ (List.getElem_mem hc) ln hln
  · rw [List.getD_eq_default _ _ hc] at hln
    cases hln

/-- One row replaced by a row without an Acknowledged line. -/
theorem linesOk_of_set_row {c : Nat} {row : List Line} (hs : linesOk s) (hlines : t.lines = s.lines.set c row)
    (hrow : ∀ ln ∈ row, ln.st ≠ .acknowledged) : linesOk t := by
  intro r hr
  rw [hlines] at hr
  rcases List.mem_or_eq_of_mem_set hr with hold | rfl
  · exact hs r hold
  · exact hrow

/-- One line replaced: it becomes Acknowledged only where it was, which is nowhere (R204). -/
theorem linesOk_of_set_line {c l : Nat} {ln : Line} (hs : linesOk s)
    (hlines : t.lines = s.lines.modify c fun row => row.set l ln)
    (hln : ln.st = .acknowledged → (lineAt s c l).st = .acknowledged) : linesOk t := by
  refine linesOk_of_set_row hs (hlines.trans (modify_eq_set_getD _ _ _ [])) fun x hx => ?_
  rcases List.mem_or_eq_of_mem_set hx with hold | rfl
  · exact st_ne_acknowledged_of_mem_row hs hold
  · exact fun hack => lineAt_ne_acknowledged hs c l (hln hack)

theorem newLines_idle {p : Params} {c : Nat} {kind : DevKind} : ∀ ln ∈ newLines p c kind, ln = idleLine := by
  cases kind
  case cpu => exact fun ln hln => List.eq_of_mem_replicate hln
  case sound => simp [newLines]
  case other => simp [newLines]

/-- REGDEV adds a row of Idle lines (R150). -/
theorem linesOk_of_append_newLines {c : Nat} {kind : DevKind} (hs : linesOk s)
    (hlines : t.lines = s.lines ++ [newLines s.params c kind]) : linesOk t := by
  intro row hrow ln hln
  rw [hlines] at hrow
  rcases List.mem_append.1 hrow with hold | hnew
  · exact hs row hold ln hln
  · obtain rfl := List.mem_singleton.1 hnew
    rw [newLines_idle ln hln]
    decide

/-! ## Lookup entries -/

/-- One entry replaced by a palette index: SETPEN (46_frame R314). -/
theorem lookupOk_of_set {n : Nat} {v : Word16} (hs : lookupOk s) (hlookup : t.lookup = s.lookup.set n v)
    (hparams : t.params = s.params) (hv : v.toNat < s.params.npal) : lookupOk t := by
  intro w hw
  rw [hlookup] at hw
  rw [hparams]
  rcases List.mem_or_eq_of_mem_set hw with hold | rfl
  · exact hs w hold
  · exact hv

/-! ## RESTORE (47_host R334) -/

theorem lineStateOf_ne_acknowledged {n : Nat} (h : n ≠ 2) : lineStateOf n ≠ .acknowledged := by
  unfold lineStateOf
  split
  case h_3 => exact absurd rfl h
  all_goals simp

/-- The check of RESTORE turns a payload with an Acknowledged line away. -/
theorem lineFrom_ne_acknowledged {bytes : List Byte} {n : Nat} (h : elementOk s .lines bytes n = true) :
    (lineFrom bytes (2 * n)).st ≠ .acknowledged := by
  simp only [elementOk, Bool.and_eq_true, decide_eq_true_eq] at h
  exact lineStateOf_ne_acknowledged h.2

/-- The check of RESTORE turns a payload with a lookup value of NPAL or more away. -/
theorem lookupFrom_lt_npal {bytes : List Byte} {n : Nat} (h : elementOk s .lookup bytes n = true) :
    (BitVec.ofNat 16 (numberAt bytes (2 * n) 2)).toNat < s.params.npal := by
  rw [BitVec.toNat_ofNat]
  exact lt_of_le_of_lt (Nat.mod_le _ _) (of_decide_eq_true h)

theorem elementOk_of_itemOk {it : SaveItem} {bytes : List Byte} (h : itemOk s it bytes = true) {n : Nat}
    (hn : n < itemCount s it) : elementOk s it.cls bytes n = true :=
  List.all_eq_true.1 h n (List.mem_range.2 hn)

/-- An item whose bytes passed the check restores legal lines and legal lookup entries. -/
theorem staysLegal_restoreItem {it : SaveItem} {bytes : List Byte} (h : itemOk s it bytes = true) :
    StaysLegal s (restoreItem it bytes s) := by
  have helement {n : Nat} := elementOk_of_itemOk h (n := n)
  obtain ⟨cls, id⟩ := it
  cases cls
  case lines =>
    refine ⟨fun hs => linesOk_of_set_row hs rfl fun ln hln => ?_, lookupOk_of_eq rfl rfl⟩
    obtain ⟨l, hl, rfl⟩ := List.mem_map.1 hln
    exact lineFrom_ne_acknowledged (helement (List.mem_range.1 hl))
  case lookup =>
    refine ⟨linesOk_of_eq rfl, fun _ v hv => ?_⟩
    obtain ⟨n, hn, rfl⟩ := List.mem_map.1 hv
    exact lookupFrom_lt_npal (helement (List.mem_range.1 hn))
  all_goals exact .of_eq rfl rfl rfl

/-! What the check reads of a state is the configuration, which restoring an item leaves as it is. -/

theorem itemCount_of_configView (h : configView t = configView s) (it : SaveItem) :
    itemCount t it = itemCount s it := by
  have hconfig := SameConfig.of_configView h
  have hlayer (L : Nat) : layerAt t L = layerAt s L := congrArg (·.getD L noLayer) hconfig.layers
  unfold itemCount
  cases it.cls <;> simp only [regionSize, (hconfig.regions _).2.1, hlayer, hconfig.params]

theorem itemLength_of_configView (h : configView t = configView s) (it : SaveItem) :
    itemLength t it = itemLength s it := by
  rw [itemLength, itemLength, itemCount_of_configView h]

theorem itemOk_of_configView (h : configView t = configView s) (it : SaveItem) (bytes : List Byte) :
    itemOk t it bytes = itemOk s it bytes := by
  have helement : elementOk t it.cls bytes = elementOk s it.cls bytes := by
    funext n
    cases it.cls <;> simp only [elementOk, (SameConfig.of_configView h).params]
  rw [itemOk, itemOk, itemCount_of_configView h, helement]

theorem itemsOk_of_configView (h : configView t = configView s) (its : List SaveItem) (bytes : List Byte) :
    itemsOk t its bytes = itemsOk s its bytes := by
  induction its generalizing bytes with
  | nil => rfl
  | cons it its ih => rw [itemsOk, itemsOk, itemLength_of_configView h, itemOk_of_configView h, ih]

/-- Items that all passed the check are restored one after another. -/
theorem staysLegal_restoreItems {its : List SaveItem} {bytes : List Byte} (h : itemsOk s its bytes = true) :
    StaysLegal s (restoreItems its bytes s) := by
  induction its generalizing s bytes with
  | nil => exact .of_eq rfl rfl rfl
  | cons it its ih =>
    obtain ⟨hfirst, hrest⟩ := Bool.and_eq_true_iff.1 h
    refine (staysLegal_restoreItem hfirst).trans (ih ?_)
    rw [itemsOk_of_configView (configView_restoreItem it _ s)]
    exact hrest

end Invariants

/-! ## The step -/

/-- Nested work writes lines one by one and lookup entries by SETPEN. -/
theorem staysLegal_kept (env : Env) : Kept env StaysLegal where
  trans _ _ _ := StaysLegal.trans
  line _ _ _ _ hln := ⟨fun hs => linesOk_of_set_line hs rfl hln, lookupOk_of_eq rfl rfl⟩
  lookup _ _ _ hv := ⟨linesOk_of_eq rfl, fun hs => lookupOk_of_set hs rfl rfl hv⟩
  refl _ := .of_eq rfl rfl rfl
  emit _ _ := .of_eq rfl rfl rfl
  observe _ _ _ := .of_eq rfl rfl rfl
  byte _ _ _ _ := .of_eq rfl rfl rfl
  bank _ _ _ := .of_eq rfl rfl rfl
  scroll _ _ _ _ := .of_eq rfl rfl rfl
  latch _ _ _ := .of_eq rfl rfl rfl
  flip _ _ := .of_eq rfl rfl rfl
  palette _ _ _ := .of_eq rfl rfl rfl
  timer _ _ _ := .of_eq rfl rfl rfl
  dirty _ _ _ _ := .of_eq rfl rfl rfl
  cell _ _ _ _ := .of_eq rfl rfl rfl
  fb _ _ _ := .of_eq rfl rfl rfl
  inHandler _ _ := .of_eq rfl rfl rfl
  ext _ _ := .of_eq rfl rfl rfl
  now _ _ := .of_eq rfl rfl rfl
  cursorI _ _ := .of_eq rfl rfl rfl
  cursorK _ _ := .of_eq rfl rfl rfl
  carry _ _ _ := .of_eq rfl rfl rfl
  inFrame _ _ := .of_eq rfl rfl rfl
  endFrame _ := .of_eq rfl rfl rfl
  fatal _ _ _ := .of_eq rfl rfl rfl

/-- Of the host's own commands REGDEV, RESET and RESTORE write lines, and RESTORE the lookup table. -/
theorem staysLegal_stepKept (env : Env) : StepKept env StaysLegal where
  toKept := staysLegal_kept env
  regdev _ _ _ _ _ _ _ h := by
    obtain ⟨_, -, -, -, rfl⟩ := regdevBody_ok h
    exact ⟨fun hs => linesOk_of_append_newLines hs rfl, lookupOk_of_eq rfl rfl⟩
  reset s _ _ _ h := by
    rw [resetBody_ok h]
    have hlines := ((staysLegal_kept env).resetLines (cpuHandles s) s).1
    have hfields : StaysLegal ((cpuHandles s).foldl resetLines s)
        (resetFields env ((cpuHandles s).foldl resetLines s)) := .of_eq rfl rfl rfl
    exact (hlines.trans hfields).trans ((staysLegal_kept env).callAllSetPc _).1
  restore s _ _ _ h := by
    obtain ⟨-, hok, rfl⟩ := restoreBody_ok h
    have hnotify := ((staysLegal_kept env).notifyItems s s.save (restoreItems s.save s.payloadIn s)).1
    exact ((staysLegal_restoreItems hok).trans hnotify).trans (.of_eq rfl rfl rfl)
  start s _ _ _ h := by
    obtain ⟨-, -, rfl⟩ := startBody_ok h
    have henter : StaysLegal s (enterRun env s) := .of_eq rfl rfl rfl
    exact henter.trans ((staysLegal_kept env).callAllSetPc _).1
  answer _ _ _ _ := .of_eq rfl rfl rfl
  latchError _ _ := .of_eq rfl rfl rfl
  take _ _ _ := .of_eq rfl rfl rfl
  payload _ _ := .of_eq rfl rfl rfl
  inp _ _ _ := .of_eq rfl rfl rfl
  region _ _ _ _ _ _ _ h := by
    obtain ⟨-, -, -, _, _, -, rfl⟩ := regionBody_ok h
    exact .of_eq rfl rfl rfl
  bankdef _ _ _ _ _ _ _ h := by
    obtain ⟨-, -, -, -, rfl⟩ := bankdefBody_ok h
    exact .of_eq rfl rfl rfl
  spacedef _ _ _ _ _ _ _ h := by
    obtain ⟨-, -, -, rfl⟩ := spacedefBody_ok h
    exact .of_eq rfl rfl rfl
  syscfg _ _ _ _ _ _ _ _ _ h := by
    rw [syscfgBody_ok h]
    exact .of_eq rfl rfl rfl
  teardown _ _ _ _ h := by
    rw [teardownBody_ok h]
    exact .of_eq rfl rfl rfl
  map _ _ _ _ _ _ _ _ _ _ h := by
    obtain ⟨_, -, -, -, -, -, rfl⟩ := mapBody_ok h
    exact .of_eq rfl rfl rfl
  portdef _ _ _ _ _ _ _ _ _ _ h := by
    obtain ⟨-, -, -, rfl⟩ := portdefBody_ok h
    exact .of_eq rfl rfl rfl
  tmcreate _ _ _ _ _ _ _ _ _ _ _ _ _ h := by
    obtain ⟨_, -, -, -, -, -, -, -, -, rfl⟩ := tmcreateBody_ok h
    exact .of_eq rfl rfl rfl
  spcfg _ _ _ _ _ _ _ _ _ _ _ _ _ _ _ h := by
    obtain ⟨-, -, rfl⟩ := spcfgBody_ok h
    exact .of_eq rfl rfl rfl
  rstep _ _ _ _ _ _ _ _ _ h := by
    obtain ⟨_, -, -, -, -, rfl⟩ := rstepBody_ok h
    exact .of_eq rfl rfl rfl
  savereg _ _ _ _ _ _ h := by
    obtain ⟨_, -, -, -, -, rfl⟩ := saveregBody_ok h
    exact .of_eq rfl rfl rfl

/-- Settles O10: each way of writing a line or a lookup entry writes a legal one, and no other update is seen. -/
theorem linesAndLookupStayLegal : Obligations.LinesAndLookupStayLegal :=
  ⟨fun s t hs hstep => ((staysLegal_stepKept Config.env).step_keeps s t hstep).lines hs,
    fun s t hs hstep => ((staysLegal_stepKept Config.env).step_keeps s t hstep).lookup hs⟩

end Sys2Proof.Machine
end

/-! PROOFS of the interrupt family, second part: the commands of the dispatcher (spec/42_interrupt.md R200 to R207).
Each is its body in the phases it is legal in; the bodies of ASSERT, CLEAR and PULSE in each state of a line stand with
the built-in ports, which issue the same commands. -/
section

namespace Sys2Proof.Machine

/-! ## ASSERT, CLEAR and PULSE (R200, R201, R202, R204) -/

section LineCommands

variable {s : State}

/-- What a handler may issue the host may issue in Run, and it ends as the body does (R124). -/
theorem exec_run_of_internalBody {i : Instr} {body : State → Res Answer} (hi : internalBody i = some body)
    (hs : s.phase = .run) : exec i s = .next (endCommand s (body s)) := by
  rw [exec_of_internalBody hi, hostCommand_legal body (hs ▸ legalIn_run_of_internalBody hi)]

theorem exec_run_of_done {i : Instr} {body : State → Res Answer} {t : State} (hi : internalBody i = some body)
    (hs : s.phase = .run) (h : body s = done t) : exec i s = .next (completed t) := by
  rw [exec_run_of_internalBody hi hs, h, endCommand_done_eq]

theorem exec_run_of_refuse {i : Instr} {body : State → Res Answer} {code : Byte} (hi : internalBody i = some body)
    (hs : s.phase = .run) (h : body s = .refuse code) : exec i s = .next (refusedWith code s) := by
  rw [exec_run_of_internalBody hi hs, h, endCommand_refuse_eq]

variable {c l : Word32} {v : Byte} {hv : Bool}

theorem assertBody_of_noLine (h : lineOk s c.toNat l.toNat = false) : assertBody c l v hv s = .refuse codeBadId :=
  if_pos h

theorem clearBody_of_noLine (h : lineOk s c.toNat l.toNat = false) : clearBody c l s = .refuse codeBadId := if_pos h

theorem pulseBody_of_noLine (h : lineOk s c.toNat l.toNat = false) : pulseBody c l s = .refuse codeBadId := if_pos h

end LineCommands

/-- Settles O34: the three bodies are known for no line, for an Idle line and for an active one, and in Run a command
ends as its body does. -/
theorem assertClearPulse : Obligations.AssertClearPulse := by
  intro c l v hv s hs ln asserted
  refine ⟨fun hnone => ?noLine, fun hline hidle => ?idle, fun hline hactive => ?active⟩
  case noLine =>
    exact ⟨exec_run_of_refuse rfl hs (assertBody_of_noLine hnone),
      exec_run_of_refuse rfl hs (clearBody_of_noLine hnone),
      exec_run_of_refuse rfl hs (pulseBody_of_noLine hnone)⟩
  case idle =>
    exact ⟨exec_run_of_done rfl hs (assertBody_of_idle hline hidle),
      exec_run_of_done rfl hs (clearBody_of_idle hline hidle),
      exec_run_of_done rfl hs (pulseBody_of_idle hline hidle)⟩
  case active =>
    exact ⟨exec_run_of_done rfl hs (assertBody_of_active hline hactive),
      exec_run_of_done rfl hs (clearBody_of_active hline hactive),
      exec_run_of_done rfl hs (pulseBody_of_active hline hactive)⟩

/-! ## LINEQ (R205) -/

section Lineq

variable {s : State} {c l : Word32}

theorem endCommand_doneR01_eq (v w : Word32) (t : State) : endCommand s (doneR01 v w t) = completedR01 v w t := rfl

theorem exec_lineq_configOrRun (hs : configOrRun s) :
    exec (.lineq c l) s = .next (endCommand s (lineqBody c l s)) :=
  congrArg _ (hostCommand_legal (lineqBody c l) (legalIn_configRun.2 hs))

theorem lineqBody_of_noLine (h : lineOk s c.toNat l.toNat = false) : lineqBody c l s = .refuse codeBadId := if_pos h

theorem lineqBody_of_line (h : lineOk s c.toNat l.toNat = true) :
    lineqBody c l s = doneR01 (BitVec.ofNat 32 (lineStateCode (lineAt s c.toNat l.toNat).st))
      (lineVecWord (lineAt s c.toNat l.toNat)) s :=
  if_neg (by simp [h])

theorem exec_lineq_line (hs : configOrRun s) (h : lineOk s c.toNat l.toNat = true) :
    exec (.lineq c l) s = .next (completedR01 (BitVec.ofNat 32 (lineStateCode (lineAt s c.toNat l.toNat).st))
      (lineVecWord (lineAt s c.toNat l.toNat)) s) := by
  rw [exec_lineq_configOrRun hs, lineqBody_of_line h, endCommand_doneR01_eq]

/-- `hasvec` in bit 8 and `vec` below it, as a number. -/
theorem lineVecWord_eq (ln : Line) : lineVecWord ln = BitVec.ofNat 32 (ln.hasvec.toNat * 256 + ln.vec.toNat) := by
  apply BitVec.eq_of_toNat_eq
  rw [lineVecWord, BitVec.toNat_setWidth, BitVec.toNat_append, BitVec.toNat_ofBool, BitVec.toNat_ofNat,
    ← Nat.shiftLeft_add_eq_or_of_lt ln.vec.isLt, Nat.shiftLeft_eq]

end Lineq

/-- Settles O36: LINEQ reads the one line, and the word it makes of the vector is the number R205 gives. -/
theorem lineqAnswersTheLine : Obligations.LineqAnswersTheLine := by
  refine ⟨fun _ _ => ⟨rfl, rfl, rfl, fun _ _ => rfl⟩,
    fun c l s hs => ⟨fun hnone => ?refused, fun hline => ?answered⟩⟩
  case refused => rw [exec_lineq_configOrRun hs, lineqBody_of_noLine hnone, endCommand_refuse_eq]
  case answered =>
    rw [exec_lineq_line hs hline, lineVecWord_eq]
    cases (lineAt s c.toNat l.toNat).st <;> rfl

/-! ## The selected line and the acknowledge (R203, R207) -/

section Acknowledge

variable {s : State} {c l : Nat}

theorem lineActive_iff :
    lineActive s c l = true ↔ (lineAt s c l).st = .pending ∨ (lineAt s c l).st = .asserted := by
  unfold lineActive active
  cases (lineAt s c l).st <;> simp

theorem lineActive_of_idle (h : (lineAt s c l).st = .idle) : lineActive s c l = false := by
  rw [lineActive, h, active]

/-- The selection finds a line if one is active. -/
theorem exists_selectLine (hl : l < s.params.nlineOf c) (hactive : lineActive s c l = true) :
    ∃ m, selectLine s c = some m := by
  refine Option.isSome_iff_exists.1 (List.find?_isSome.2 ⟨l, ?_, by simp [hl, hactive]⟩)
  simp [hl]

theorem selectLine_of_quiet (h : ∀ l, l < s.params.nlineOf c → lineActive s c l = false) :
    selectLine s c = none := by
  refine List.find?_eq_none.2 fun l _ => ?_
  by_cases hl : l < s.params.nlineOf c <;> simp [hl, h]

/-- Line 1 is looked at first, then line 0, then every line in ascending order: an active line 1 would have been found,
and a smaller active line would have been found before (R203). -/
theorem selectLine_least (h : selectLine s c = some l) {m : Nat} (hm : m < s.params.nlineOf c)
    (hactive : lineActive s c m = true) : l = 1 ∨ m ≠ 1 ∧ l ≤ m := by
  have hnot_one : l ≠ 1 → m ≠ 1 := by
    rintro hl rfl
    have hfirst : selectLine s c = some 1 := by simp [selectLine, hm, hactive]
    exact hl (Option.some.inj (h.symm.trans hfirst))
  refine or_iff_not_imp_left.2 fun hl => ⟨hnot_one hl, ?_⟩
  by_contra hlt
  unfold selectLine at h
  rw [List.find?_cons] at h
  split at h
  · exact hl (Option.some.inj h).symm
  · rw [List.find?_cons] at h
    split at h
    · have := Option.some.inj h
      omega
    · have hbefore := (List.find?_range_eq_some.1 h).2.2 m (Nat.not_le.1 hlt)
      simp [hm, hactive] at hbefore

/-- The selected line is the active line 1, else the least active line (R203). -/
theorem selectLine_eq_some_iff : selectLine s c = some l ↔
    l < s.params.nlineOf c ∧ lineActive s c l = true ∧
      ∀ m, m < s.params.nlineOf c → lineActive s c m = true → l = 1 ∨ m ≠ 1 ∧ l ≤ m := by
  constructor
  case mp =>
    intro h
    obtain ⟨hl, hactive⟩ := selectLine_active h
    exact ⟨hl, hactive, fun m => selectLine_least h⟩
  case mpr =>
    rintro ⟨hl, hactive, hleast⟩
    obtain ⟨m, hm⟩ := exists_selectLine hl hactive
    obtain ⟨hlt, hmactive⟩ := selectLine_active hm
    have hle := hleast m hlt hmactive
    have hge := selectLine_least hm hl hactive
    obtain rfl : m = l := by omega
    exact hm

theorem acknowledge_of_quiet (env : Env) (hcpu : isCpu s c = true) (h : selectLine s c = none) :
    acknowledge env c s = .ok (s.params.openBus, 0x100) s := by
  simp only [acknowledge, hcpu, h, Bool.true_eq_false, if_false]

theorem acknowledge_of_selected (env : Env) (hcpu : isCpu s c = true) (h : selectLine s c = some l) :
    acknowledge env c s = .ok (vectorByte env s c l, BitVec.ofNat 32 l)
      (emit (.ack c l (vectorByte env s c l)) (putLine c l (acknowledgedLine (lineAt s c l)) s)) := by
  simp only [acknowledge, hcpu, h, Bool.true_eq_false, if_false]

/-- A Pending line is consumed, and its CPU is notified (R203, R204). -/
theorem putLine_acknowledged_of_pending (h : (lineAt s c l).st = .pending) :
    putLine c l (acknowledgedLine (lineAt s c l)) s =
      notify c l false (withLine c l { lineAt s c l with st := .idle } s) := by
  have hline : acknowledgedLine (lineAt s c l) = { lineAt s c l with st := .idle } := by
    simp only [acknowledgedLine, h]
  rw [hline, putLine_of_level (by rw [h]; rfl)]

/-- An Asserted line stays as it is (R203, R204). -/
theorem putLine_acknowledged_of_asserted (h : (lineAt s c l).st = .asserted) :
    putLine c l (acknowledgedLine (lineAt s c l)) s = s := by
  have hline : acknowledgedLine (lineAt s c l) = lineAt s c l := by simp only [acknowledgedLine, h]
  rw [hline, putLine_of_quiet (by rw [h]; rfl), withLine_self]

end Acknowledge

/-! ## ACK (R203) -/

section Ack

variable {s : State} {c : Word32} {l : Nat}

theorem exec_ack_noCpu (hs : s.phase = .run) (hcpu : isCpu s c.toNat = false) :
    exec (.ack c) s = .next (refusedWith codeBadId s) := by
  have hbody : ackBody Config.env c s = .refuse codeBadId := by simp only [ackBody, acknowledge, hcpu, if_true, andThen]
  rw [exec_ack_run c hs, hbody, endCommand_refuse_eq]

/-- ACK ends with what the acknowledge answers. -/
theorem exec_ack_of_acknowledge {v : Byte} {r1 : Word32} {t : State} (hs : s.phase = .run)
    (h : acknowledge Config.env c.toNat s = .ok (v, r1) t) :
    exec (.ack c) s = .next (completedR01 (v.setWidth 32) r1 t) := by
  rw [exec_ack_run c hs, ackBody, h, andThen_ok, endCommand_doneR01_eq]

theorem exec_ack_quiet (hs : s.phase = .run) (hcpu : isCpu s c.toNat = true)
    (h : ∀ l, l < s.params.nlineOf c.toNat → lineActive s c.toNat l = false) :
    exec (.ack c) s = .next (completedR01 (s.params.openBus.setWidth 32) 0x100 s) :=
  exec_ack_of_acknowledge hs (acknowledge_of_quiet _ hcpu (selectLine_of_quiet h))

theorem exec_ack_pending (hs : s.phase = .run) (hcpu : isCpu s c.toNat = true)
    (hl : selectLine s c.toNat = some l) (hst : (lineAt s c.toNat l).st = .pending) :
    exec (.ack c) s =
      .next (completedR01 ((vectorByte Config.env s c.toNat l).setWidth 32) (BitVec.ofNat 32 l)
        (emit (.ack c.toNat l (vectorByte Config.env s c.toNat l)) (notify c.toNat l false
          (withLine c.toNat l { lineAt s c.toNat l with st := .idle } s)))) := by
  rw [exec_ack_of_acknowledge hs (acknowledge_of_selected _ hcpu hl), putLine_acknowledged_of_pending hst]

theorem exec_ack_asserted (hs : s.phase = .run) (hcpu : isCpu s c.toNat = true)
    (hl : selectLine s c.toNat = some l) (hst : (lineAt s c.toNat l).st = .asserted) :
    exec (.ack c) s =
      .next (completedR01 ((vectorByte Config.env s c.toNat l).setWidth 32) (BitVec.ofNat 32 l)
        (emit (.ack c.toNat l (vectorByte Config.env s c.toNat l)) s)) := by
  rw [exec_ack_of_acknowledge hs (acknowledge_of_selected _ hcpu hl), putLine_acknowledged_of_asserted hst]

end Ack

/-- Settles O35: the acknowledge takes the selected line, and that line's state decides what is stored and notified. -/
theorem ackTakesTheSelectedLine : Obligations.AckTakesTheSelectedLine := by
  refine ⟨fun s c l => ⟨lineActive_iff, (testBit_sum_pow (lineActive s c) _ l).1⟩,
    fun s c l => selectLine_eq_some_iff,
    fun c s hs => ⟨exec_ack_noCpu hs, fun hcpu => ⟨?quiet, fun l hl => ?selected⟩⟩⟩
  case quiet => exact exec_ack_quiet hs hcpu
  case selected => exact ⟨exec_ack_pending hs hcpu hl, exec_ack_asserted hs hcpu hl⟩

/-! ## PULSE before ACK (R202, property P5) -/

section PulseBeforeAck

variable {s : State} {c l : Nat}

/-- A stored line is read back, and every other line is as it was. -/
theorem lineAt_withLine (hl : l < (s.lines.getD c []).length) (ln : Line) (m : Nat) :
    lineAt (withLine c l ln s) c m = if m = l then ln else lineAt s c m := by
  have hc : c < s.lines.length := by
    by_contra hge
    rw [List.getD_eq_default _ _ (Nat.not_lt.1 hge)] at hl
    exact Nat.not_lt_zero _ hl
  have hrow : (withLine c l ln s).lines.getD c [] = (s.lines.getD c []).set l ln := by
    rw [withLine, modify_eq_set_getD _ _ _ [], getD_set_self hc]
  rw [lineAt, hrow]
  split_ifs with hm
  · rw [hm, getD_set_self hl]
  · exact getD_set_ne (Ne.symm hm) _ _ _

theorem length_row_withLine (ln : Line) :
    ((withLine c l ln s).lines.getD c []).length = (s.lines.getD c []).length := by
  rw [length_getD_row, length_getD_row, withLine, map_modify_of_keeps _ _ fun row => List.length_set]

/-- In Run, line l of CPU c is in state st, and every other line of the CPU is Idle. -/
structure OnlyLine (s : State) (c l : Nat) (st : LineState) : Prop where
  run : s.phase = .run
  line : lineOk s c l = true
  stored : l < (s.lines.getD c []).length
  state : (lineAt s c l).st = st
  others : ∀ m, m < s.params.nlineOf c → m ≠ l → (lineAt s c m).st = .idle

namespace OnlyLine

variable {st st' : LineState}

theorem isCpu (h : OnlyLine s c l st) : isCpu s c = true := (Bool.and_eq_true_iff.1 h.line).1

theorem lt_nline (h : OnlyLine s c l st) : l < s.params.nlineOf c :=
  of_decide_eq_true (Bool.and_eq_true_iff.1 h.line).2

/-- The end of a command that writes no line. -/
theorem completedR01 (h : OnlyLine s c l st) (v w : Word32) : OnlyLine (completedR01 v w s) c l st :=
  ⟨h.run, h.line, h.stored, h.state, h.others⟩

theorem completed (h : OnlyLine s c l st) : OnlyLine (completed s) c l st :=
  ⟨h.run, h.line, h.stored, h.state, h.others⟩

theorem emit (h : OnlyLine s c l st) (e : Event) : OnlyLine (emit e s) c l st :=
  ⟨h.run, h.line, h.stored, h.state, h.others⟩

theorem notify (h : OnlyLine s c l st) (level : Bool) : OnlyLine (notify c l level s) c l st :=
  ⟨h.run, h.line, h.stored, h.state, h.others⟩

theorem withLine (h : OnlyLine s c l st) {ln : Line} (hln : ln.st = st') : OnlyLine (withLine c l ln s) c l st' where
  run := h.run
  line := h.line
  stored := by rw [length_row_withLine]; exact h.stored
  state := by rw [lineAt_withLine h.stored, if_pos rfl, hln]
  others := fun m hm hne => by rw [lineAt_withLine h.stored, if_neg hne]; exact h.others m hm hne

theorem quiet (h : OnlyLine s c l .idle) (m : Nat) (hm : m < s.params.nlineOf c) : lineActive s c m = false := by
  rcases eq_or_ne m l with rfl | hne
  · exact lineActive_of_idle h.state
  · exact lineActive_of_idle (h.others m hm hne)

/-- A Pending line among Idle ones is selected. -/
theorem selected (h : OnlyLine s c l .pending) : selectLine s c = some l := by
  refine selectLine_eq_some_iff.2 ⟨h.lt_nline, lineActive_iff.2 (.inl h.state), fun m hm hactive => ?_⟩
  rcases eq_or_ne m l with rfl | hne
  · omega
  · rw [lineActive_of_idle (h.others m hm hne)] at hactive
    cases hactive

end OnlyLine

end PulseBeforeAck

section PulseCommands

variable {s : State} {c l : Word32} {st : LineState}

/-- The first PULSE makes the line Pending. -/
theorem OnlyLine.pulse_idle (h : OnlyLine s c.toNat l.toNat .idle) :
    ∃ t, exec (.pulse c l) s = .next t ∧ OnlyLine t c.toNat l.toNat .pending :=
  ⟨_, exec_run_of_done rfl h.run (pulseBody_of_idle h.line h.state), ((h.withLine rfl).notify true).completed⟩

/-- The second PULSE finds it Pending and leaves it so: it is not counted. -/
theorem OnlyLine.pulse_pending (h : OnlyLine s c.toNat l.toNat .pending) :
    ∃ t, exec (.pulse c l) s = .next t ∧ OnlyLine t c.toNat l.toNat .pending :=
  ⟨_, exec_run_of_done rfl h.run (pulseBody_of_active h.line (.inl h.state)), h.completed⟩

theorem OnlyLine.lineq (h : OnlyLine s c.toNat l.toNat st) :
    ∃ t, exec (.lineq c l) s = .next t ∧ t.r0 = BitVec.ofNat 32 (lineStateCode st) ∧
      OnlyLine t c.toNat l.toNat st :=
  ⟨_, exec_lineq_line (.inr h.run) h.line, by rw [h.state]; rfl, h.completedR01 _ _⟩

/-- ACK takes the Pending line and returns it to Idle. -/
theorem OnlyLine.ack_pending (h : OnlyLine s c.toNat l.toNat .pending) :
    ∃ t, exec (.ack c) s = .next t ∧ t.r1 = l ∧ OnlyLine t c.toNat l.toNat .idle :=
  ⟨_, exec_ack_pending h.run h.isCpu h.selected h.state, BitVec.ofNat_toNat 32 l,
    (((h.withLine rfl).notify false).emit _).completedR01 _ _⟩

theorem OnlyLine.ack_idle (h : OnlyLine s c.toNat l.toNat .idle) :
    ∃ t, exec (.ack c) s = .next t ∧ t.r1 = 0x100 :=
  ⟨_, exec_ack_quiet h.run h.isCpu h.quiet, rfl⟩

end PulseCommands

/-- Settles O37: the two PULSEs leave one Pending line, the first ACK consumes it, and the second finds none. -/
theorem pulseNotCounted : Obligations.PulseNotCounted := by
  intro c l s hs hshaped hline hidle
  obtain ⟨hcpu, hl⟩ := Bool.and_eq_true_iff.1 hline
  have hlt : l.toNat < s.params.nlineOf c.toNat := of_decide_eq_true hl
  have h0 : OnlyLine s c.toNat l.toNat .idle :=
    ⟨hs, hline, hshaped.lineRows _ hcpu ▸ hlt, hidle _ hlt, fun m hm _ => hidle m hm⟩
  obtain ⟨s1, hpulse1, h1⟩ := h0.pulse_idle
  obtain ⟨s2, hpulse2, h2⟩ := h1.pulse_pending
  obtain ⟨s3, hlineq1, hr0, h3⟩ := h2.lineq
  obtain ⟨s4, hack1, hr1, h4⟩ := h3.ack_pending
  obtain ⟨s5, hlineq2, hr0', h5⟩ := h4.lineq
  obtain ⟨s6, hack2, hr1'⟩ := h5.ack_idle
  exact ⟨s1, s2, s3, s4, s5, s6, hpulse1, hpulse2, hlineq1, hr0, hack1, hr1, hlineq2, hr0', hack2, hr1'⟩

end Sys2Proof.Machine
end

/-! PROOFS of the scheduler family, first part: arming a timer and its firing (spec/43_scheduler.md R234, R235). A
firing writes its slot and reports before it acts, and neither touches a line, so its action is the command's body on
lines as they were. -/
section

namespace Sys2Proof.Machine

/-! ## TIMERSET (R130, R234) -/

section Arming

variable {s : State} {n delay period t0 t1 t2 : Word32} {act : BitVec 2}

theorem timersetBody_of_noSlot (hn : s.params.ntimer ≤ n.toNat) :
    timersetBody n delay period act t0 t1 t2 s = .refuse codeBadId := if_pos hn

theorem timersetBody_of_noDelay (hn : n.toNat < s.params.ntimer) (hdelay : delay = 0) :
    timersetBody n delay period act t0 t1 t2 s = .refuse codeBadParam := by
  rw [timersetBody, if_neg (Nat.not_le.2 hn), if_pos hdelay]

theorem timersetBody_of_noTarget (hn : n.toNat < s.params.ntimer) (hdelay : delay ≠ 0)
    (htarget : timerTargetOk s (timerActOf act) t0 t1 = false) :
    timersetBody n delay period act t0 t1 t2 s = .refuse codeBadId := by
  rw [timersetBody, if_neg (Nat.not_le.2 hn), if_neg hdelay, if_pos htarget]

theorem timersetBody_of_target (hn : n.toNat < s.params.ntimer) (hdelay : delay ≠ 0)
    (htarget : timerTargetOk s (timerActOf act) t0 t1 = true) :
    timersetBody n delay period act t0 t1 t2 s = done { s with
      timers := s.timers.set n.toNat ⟨true, s.now + delay.setWidth 64, period, timerActOf act, t0, t1, t2⟩ } := by
  rw [timersetBody, if_neg (Nat.not_le.2 hn), if_neg hdelay, if_neg (by simp [htarget])]

end Arming

/-- Settles O38: the four outcomes of the body's checks, each the end of the command in Run. -/
theorem timersetArmsASlot : Obligations.TimersetArmsASlot := by
  refine ⟨fun n d p act t0 t1 t2 => ⟨rfl, rfl, rfl, fun _ _ => rfl⟩, ⟨rfl, rfl, rfl, rfl⟩, ?arming⟩
  intro n delay period t0 t1 t2 act s hs target
  have htarget : timerTargetOk s (timerActOf act) t0 t1 = true ↔ target := by
    simp only [target, timerTargetOk]
    cases timerActOf act with
    | pulse | assert | clear => exact Iff.rfl
    | callback => exact List.contains_iff_mem
  refine ⟨fun hn => ?_, fun hn hd => ?_, fun hn hd hno => ?_, fun hn hd hyes => ?_⟩
  · exact exec_run_of_refuse rfl hs (timersetBody_of_noSlot hn)
  · exact exec_run_of_refuse rfl hs (timersetBody_of_noDelay hn hd)
  · exact exec_run_of_refuse rfl hs
      (timersetBody_of_noTarget hn hd (Bool.eq_false_iff.2 fun h => hno (htarget.1 h)))
  · exact exec_run_of_done rfl hs (timersetBody_of_target hn hd (htarget.2 hyes))

/-! ## A firing (R235) -/

section Firing

variable {env : Env} {s u : State} {n : Nat} {T : Timer}

/-- The state in which a firing acts: the slot is written and the firing reported. -/
def firedState (n : Nat) (s : State) : State :=
  emit (.timerFire n) { s with timers := s.timers.set n (rearmed (timerAt s n)) }

theorem fireTimer_eq_timerAction (env : Env) (n : Nat) (s : State) :
    fireTimer env n s = timerAction env n (timerAt s n) (firedState n s) := rfl

/-- A line action issues its command. -/
theorem timerAction_pulse (hact : T.act = .pulse) :
    timerAction env n T u = issueInternal (.pulse T.t0 T.t1) u := by
  rw [timerAction, hact]

theorem timerAction_assert (hact : T.act = .assert) :
    timerAction env n T u =
      issueInternal (.assert T.t0 T.t1 (T.t2.extractLsb' 0 8) (T.t2.getLsbD 8)) u := by
  rw [timerAction, hact]

theorem timerAction_clear (hact : T.act = .clear) :
    timerAction env n T u = issueInternal (.clear T.t0 T.t1) u := by
  rw [timerAction, hact]

/-- A callback runs the oracle's list inside the handler and drops its byte. -/
theorem timerAction_callback (hact : T.act = .callback) :
    timerAction env n T u =
      andThen (execInternals (env.ext T.t0.toNat (.timer n) { u with inHandler := true }).cmds
        { u with
          inHandler := true, extMem := (env.ext T.t0.toNat (.timer n) { u with inHandler := true }).mem })
        fun _ t => .ok () { t with inHandler := false } := by
  simp only [timerAction, hact, insideHandler, callExt, andThen_assoc, andThen_ok]

/-- The list of a callback completes, or it holds a RUNFRAME. -/
theorem timerAction_callback_ends (hact : T.act = .callback) {works : Res Unit}
    (hworks : works = execInternals (env.ext T.t0.toNat (.timer n) { u with inHandler := true }).cmds
      { u with inHandler := true, extMem := (env.ext T.t0.toNat (.timer n) { u with inHandler := true }).mem }) :
    (∃ t, works = .ok () t ∧ timerAction env n T u = .ok () { t with inHandler := false }) ∨
      ∃ t, works = .fatal codeReentry t ∧ timerAction env n T u = .fatal codeReentry t := by
  have hends : (∃ t, works = .ok () t) ∨ ∃ t, works = .fatal codeReentry t := hworks ▸ execInternals_ends _ _
  rw [timerAction_callback hact, ← hworks]
  rcases hends with ⟨t, ht⟩ | ⟨t, ht⟩
  · exact .inl ⟨t, ht, by rw [ht, andThen_ok]⟩
  · exact .inr ⟨t, ht, by rw [ht, andThen_fatal]⟩

end Firing

/-- Settles O42: the action runs in the fired state, which has the lines of the state before it. -/
theorem timerFiresBeforeItActs : Obligations.TimerFiresBeforeItActs := by
  intro env n s hs T c l ln u asserted
  have hfire : fireTimer env n s = timerAction env n T u := fireTimer_eq_timerAction env n s
  have hu : u.phase = .run := hs
  refine ⟨fun hline hidle => ?idle, fun hline hactive => ?active, fun hact => ?callback⟩
  case idle =>
    have hlineU : lineOk u c l = true := hline
    have hidleU : (lineAt u c l).st = .idle := hidle
    refine ⟨fun hact => ?_, fun hact => ?_, fun hact => ?_⟩
    · rw [hfire, timerAction_pulse hact]
      exact issueInternal_of_done hu rfl (pulseBody_of_idle hlineU hidleU)
    · rw [hfire, timerAction_assert hact]
      exact issueInternal_of_done hu rfl (assertBody_of_idle hlineU hidleU)
    · rw [hfire, timerAction_clear hact]
      exact issueInternal_of_done hu rfl (clearBody_of_idle hlineU hidleU)
  case active =>
    have hlineU : lineOk u c l = true := hline
    have hactiveU : (lineAt u c l).st = .pending ∨ (lineAt u c l).st = .asserted := hactive
    refine ⟨fun hact => ?_, fun hact => ?_, fun hact => ?_⟩
    · rw [hfire, timerAction_pulse hact]
      exact issueInternal_of_done hu rfl (pulseBody_of_active hlineU hactiveU)
    · rw [hfire, timerAction_assert hact]
      exact issueInternal_of_done hu rfl (assertBody_of_active hlineU hactiveU)
    · rw [hfire, timerAction_clear hact]
      exact issueInternal_of_done hu rfl (clearBody_of_active hlineU hactiveU)
  case callback =>
    intro reply works
    rw [hfire]
    exact timerAction_callback_ends hact rfl

end Sys2Proof.Machine
end

/-! PROOFS of the scheduler family, second part: the commands, the budget and the carried overrun of a CPU in a slice
(spec/43_scheduler.md R231, R232, R233, R238). -/
section

namespace Sys2Proof.Machine

/-! ## A CPU's step (R233) -/

section CpuStep

variable {env : Env} {c n : Nat} {budget : Word32} {s t u : State}

theorem cpuStep_eq_cpuTurns (env : Env) (c : Nat) (budget : Word32) (s : State) :
    cpuStep env c budget s =
      cpuTurns env c (env.cpuBound c (obsOf (observe c (.step budget) s) c)) (observe c (.step budget) s) := rfl

/-- The turns end where the unit asks for no command, or at its own bound on them. -/
theorem cpuTurns_ends {bound : Nat} (hissues : CpuIssues env c n s t)
    (hlast : n ≤ bound ∧ (env.cpu c (t.cpuObs.getD c [])).cmd = none ∨ n = bound) :
    cpuTurns env c bound s = .ok (env.cpu c (t.cpuObs.getD c [])).consumed t := by
  rcases hlast with ⟨hn, hnone⟩ | rfl
  · obtain ⟨m, rfl⟩ := Nat.exists_eq_add_of_le hn
    rw [cpuTurns_after_issues hissues, cpuTurns_return hnone]
  · exact (cpuTurns_after_issues hissues 0).trans rfl

/-- A fatal command ends the turns. -/
theorem cpuTurns_fatal {bound : Nat} {cw : CmdWord} {code : Byte} (hissues : CpuIssues env c n s t) (hn : n < bound)
    (hasked : (env.cpu c (t.cpuObs.getD c [])).cmd = some cw) (hfatal : cpuCommand env c cw t = .fatal code u) :
    cpuTurns env c bound s = .fatal code u := by
  obtain ⟨m, rfl⟩ := Nat.exists_eq_add_of_lt hn
  rw [Nat.add_assoc, cpuTurns_after_issues hissues, cpuTurns, obsOf, hasked]
  simp only [hfatal, andThen_fatal]

end CpuStep

/-! ## Targets and the ends of slices (R232, R238) -/

section Targets

variable {s : State} {c : Nat} {d : Device}

theorem cpuCycles_of_device (hd : s.dev[c]? = some d) : cpuCycles s c = d.clockHz.toNat / s.frameHz.toNat := by
  rw [cpuCycles, hd, Option.map_some, Option.getD_some]

/-- The targets of a frame are the differences of a rising sequence from 0 to the CPU's cycles. -/
theorem sum_sliceTarget (s : State) (c : Nat) {S : Nat} (hS : 0 < S) :
    ((List.range S).map (sliceTarget s S c)).sum = cpuCycles s c := by
  have hmono : Monotone fun k => cpuCycles s c * k / S := fun j k hjk =>
    Nat.div_le_div_right (Nat.mul_le_mul_left _ hjk)
  calc ((List.range S).map (sliceTarget s S c)).sum
      = ∑ k ∈ Finset.range S, (cpuCycles s c * (k + 1) / S - cpuCycles s c * k / S) := rfl
    _ = cpuCycles s c * S / S - cpuCycles s c * 0 / S := Finset.sum_range_tsub hmono S
    _ = cpuCycles s c := by rw [Nat.mul_div_cancel _ hS, Nat.mul_zero, Nat.zero_div, Nat.sub_zero]

/-- The last slice ends with the frame. -/
theorem sliceEnd_last (s : State) {S : Nat} (hS : 0 < S) :
    sliceEnd s S (S - 1) = s.frameStart + BitVec.ofNat 64 (frameCycles s) := by
  rw [sliceEnd, Nat.sub_add_cancel hS, Nat.mul_div_cancel _ hS]

end Targets

/-! ## A CPU's part of a slice (R231) -/

section SliceCpu

variable {env : Env} {S k c : Nat} {s t : State} {consumed : Word32}

theorem sliceCpu_of_negative (h : sliceTarget s S c k < carryAt s c) :
    sliceCpu env S k c s = .fatal codeNegativeCycles (fatalState codeNegativeCycles s) := if_pos h

theorem sliceCpu_of_zero (h : sliceTarget s S c k = carryAt s c) : sliceCpu env S k c s = .ok () (setCarry c 0 s) := by
  rw [sliceCpu, if_neg (by omega), if_pos h]

theorem sliceCpu_of_step (h : carryAt s c < sliceTarget s S c k)
    (hstep : cpuStep env c (BitVec.ofNat 32 (sliceTarget s S c k - carryAt s c)) s = .ok consumed t) :
    sliceCpu env S k c s = .ok () (setCarry c (consumed.toNat - (sliceTarget s S c k - carryAt s c)) t) := by
  rw [sliceCpu, if_neg (by omega), if_neg (by omega), hstep, andThen_ok]

/-- The overrun, as a difference of integers cut at 0. -/
theorem overrun_eq {target carried : Nat} (h : carried < target) (used : Nat) :
    used - (target - carried) = (max ((used : Int) - (target - carried)) 0).toNat := by omega

end SliceCpu

/-- Settles O40: the turns by the commands issued, the sums by telescoping, and the three cases of the budget. -/
theorem sliceBudget : Obligations.SliceBudget := by
  refine ⟨fun env c budget s => ?step, fun S k c d s hd => ?targets, fun S k s => ?ends, fun env S k c s => ?budget⟩
  case step =>
    intro s0 bound
    rw [cpuStep_eq_cpuTurns]
    exact ⟨fun n t hissues hlast => cpuTurns_ends hissues hlast,
      fun n t cw code u hissues hn hasked hfatal => cpuTurns_fatal hissues hn hasked hfatal⟩
  case targets =>
    intro cf
    have hcf : cpuCycles s c = cf := cpuCycles_of_device hd
    exact ⟨by rw [sliceTarget, hcf], fun hS => by rw [sum_sliceTarget s c hS, hcf]⟩
  case ends => exact ⟨rfl, fun hS => sliceEnd_last s hS⟩
  case budget =>
    refine ⟨sliceCpu_of_negative, sliceCpu_of_zero, fun consumed t hlt hstep => ?_⟩
    exact ⟨_, sliceCpu_of_step hlt hstep, rfl, by rw [setCarry_carry, overrun_eq hlt]⟩

end Sys2Proof.Machine
end

/-! PROOFS of the scheduler family, third part: what handlers and timers leave of the clock and of the timers, and why
the firing at a slice end ends (spec/43_scheduler.md R235). A firing moves its slot on or disarms it, and a TIMERSET
inside it arms only past the clock, so the work left falls with every firing. -/
section

namespace Sys2Proof.Machine

/-! ## What completed work leads to -/

section Leads

variable {α β : Type} {R : State → State → Prop} {s t : State}

/-- Where the work completes, its state is related to the one it began in. -/
def Res.Leads (R : State → State → Prop) (s : State) (x : Res α) : Prop := ∀ v t, x = .ok v t → R s t

theorem Res.Leads.ok (h : R s t) (v : α) : (Res.ok v t).Leads R s := by
  rintro w u ⟨⟩
  exact h

theorem Res.Leads.of_refuse (code : Byte) : (Res.refuse code : Res α).Leads R s := by
  intro v t h
  cases h

theorem Res.Leads.of_fatal (code : Byte) (t : State) : (Res.fatal code t : Res α).Leads R s := by
  intro v u h
  cases h

/-- A check before the rest of a body. -/
theorem Res.Leads.check {fails : Prop} [Decidable fails] {code : Byte} {rest : Res α} (h : rest.Leads R s) :
    (if fails then .refuse code else rest : Res α).Leads R s := by
  split_ifs
  · exact .of_refuse code
  · exact h

theorem Res.Leads.seq (htrans : ∀ s t u, R s t → R t u → R s u) {x : Res α} {f : α → State → Res β}
    (hx : x.Leads R s) (hf : ∀ v t, (f v t).Leads R t) : (andThen x f).Leads R s := by
  intro w u h
  obtain ⟨v, t, hfirst, hrest⟩ := andThen_eq_ok.1 h
  exact htrans s t u (hx v t hfirst) (hf v t w u hrest)

theorem Res.Leads.after (htrans : ∀ s t u, R s t → R t u → R s u) {x : Res α} (h : R s t) (hx : x.Leads R t) :
    x.Leads R s := fun v u hu => htrans s t u h (hx v u hu)

/-- Two continuations that agree where the first part completes. -/
theorem andThen_congr {x : Res α} {f g : α → State → Res β} (h : ∀ v t, x = .ok v t → f v t = g v t) :
    andThen x f = andThen x g := by
  cases x with
  | ok v t => exact h v t rfl
  | config => rfl
  | refuse => rfl
  | fatal => rfl

end Leads

/-! ## The commands of handlers (R182, R234) -/

/-- The start and the number of the frame. -/
def frameClock (s : State) : Word64 × Word32 := (s.frameStart, s.frameCount)

/-- The clock and the frame's start and number are the same, and a timer is written only as TIMERSET writes it, with
a deadline counted from the clock. -/
structure ClockKept (s t : State) : Prop where
  now : t.now = s.now
  frame : frameClock t = frameClock s
  timers : t.timers = s.timers ∨ ∃ n T, t.timers = s.timers.set n T ∧
    ∃ delay : Word32, delay ≠ 0 ∧ T.deadline = s.now + delay.setWidth 64

section ClockKept

variable {s t : State}

theorem ClockKept.of_eq (hnow : t.now = s.now) (hframe : frameClock t = frameClock s) (htimers : t.timers = s.timers) :
    ClockKept s t := ⟨hnow, hframe, .inl htimers⟩

theorem clockKept_putLine (c l : Nat) (ln : Line) (s : State) : ClockKept s (putLine c l ln s) := by
  rcases putLine_cases c l ln s with h | ⟨level, -, h⟩ <;> rw [h] <;> exact .of_eq rfl rfl rfl

theorem clockKept_noteIndex (v n : Nat) (s : State) : ClockKept s (noteIndex v n s) := by
  rcases noteIndex_cases v n s with h | h <;> rw [h] <;> exact .of_eq rfl rfl rfl

theorem clockKept_timerset (id delay period : Word32) (act : BitVec 2) (t0 t1 t2 : Word32) (s : State) :
    (timersetBody id delay period act t0 t1 t2 s).Leads ClockKept s := by
  unfold timersetBody
  split_ifs with hslot hdelay htarget
  · exact .of_refuse _
  · exact .of_refuse _
  · exact .of_refuse _
  · exact .ok ⟨rfl, rfl, .inr ⟨_, _, rfl, delay, hdelay, rfl⟩⟩ _

/-- Every command a handler may issue leaves the clock, and TIMERSET alone writes a timer. -/
theorem clockKept_internalBody {i : Instr} {body : State → Res Answer} (h : internalBody i = some body) (s : State) :
    (body s).Leads ClockKept s := by
  have hupdate : ∀ {t : State}, t.now = s.now → frameClock t = frameClock s → t.timers = s.timers →
      (done t).Leads ClockKept s := fun hnow hframe htimers => .ok (.of_eq hnow hframe htimers) _
  cases i <;> simp only [internalBody, Option.some.injEq, reduceCtorEq] at h <;> subst h
  case setbank => exact .check (hupdate rfl rfl rfl)
  case poke => exact .check (.check (hupdate rfl rfl rfl))
  case assert => exact .check (.ok (clockKept_putLine _ _ _ s) _)
  case clear => exact .check (.ok (clockKept_putLine _ _ _ s) _)
  case pulse => exact .check (.ok (clockKept_putLine _ _ _ s) _)
  case timerset => exact clockKept_timerset _ _ _ _ _ _ _ s
  case markdirty =>
    obtain ⟨hnow, hframe, htimers⟩ := clockKept_noteIndex _ _ s
    exact .check (.ok ⟨hnow, hframe, htimers⟩ _)
  case setscroll => exact .check (.check (hupdate rfl rfl rfl))
  case setflip => exact hupdate rfl rfl rfl
  case setpen => exact .check (hupdate rfl rfl rfl)
  case setpal => exact .check (hupdate rfl rfl rfl)

end ClockKept

/-- A relation that composes and holds across all that a handler or a timer's action does: its commands, the reports,
and the marks of the handler itself. -/
structure HandlerKept (R : State → State → Prop) : Prop where
  refl : ∀ s, R s s
  trans : ∀ s t u, R s t → R t u → R s u
  emit : ∀ s e, R s (emit e s)
  inHandler : ∀ s b, R s { s with inHandler := b }
  ext : ∀ s n, R s { s with extMem := n }
  command : ∀ s t, ClockKept s t → R s t

namespace HandlerKept

variable {α : Type} {env : Env} {R : State → State → Prop}

theorem runInternal (H : HandlerKept R) {i : Instr} {body : State → Res Answer} (h : internalBody i = some body)
    (legal : Legality) (op a0 : Nat) (s : State) : (runInternal legal op a0 body s).Leads R s := by
  unfold Machine.runInternal
  split_ifs
  · exact .ok (H.emit s _) _
  · cases hb : body s with
    | ok a t => exact .ok (H.command s t (clockKept_internalBody h s a t hb)) _
    | config => exact .ok (H.emit s _) _
    | refuse => exact .ok (H.emit s _) _
    | fatal => exact .of_fatal _ _

theorem issueInternal (H : HandlerKept R) (i : Instr) (s : State) : (issueInternal i s).Leads R s := by
  unfold Machine.issueInternal
  cases hb : internalBody i with
  | none => exact .ok (H.emit s _) _
  | some body => exact H.runInternal hb _ _ _ s

theorem execInternal (H : HandlerKept R) (cw : CmdWord) (s : State) : (execInternal cw s).Leads R s := by
  unfold Machine.execInternal
  cases decodeWord cw with
  | error => exact .ok (H.emit s _) _
  | ok i =>
    simp only
    split_ifs
    · exact .of_fatal _ _
    · cases hb : internalBody i with
      | none => exact .ok (H.emit s _) _
      | some body => exact H.runInternal hb _ _ _ s

theorem execInternals (H : HandlerKept R) (cws : List CmdWord) (s : State) : (execInternals cws s).Leads R s := by
  induction cws generalizing s with
  | nil => exact .ok (H.refl _) _
  | cons cw cws ih => exact .seq H.trans (H.execInternal cw s) fun _ t => ih t

theorem callExt (H : HandlerKept R) (e : Nat) (event : ExtEvent) (s : State) : (callExt env e event s).Leads R s :=
  .seq H.trans (.after H.trans (H.ext s _) (H.execInternals _ _)) fun _ _ => .ok (H.refl _) _

theorem insideHandler (H : HandlerKept R) {work : State → Res α} (hwork : ∀ s, (work s).Leads R s) (s : State) :
    (insideHandler work s).Leads R s :=
  .seq H.trans (.after H.trans (H.inHandler s true) (hwork _)) fun _ t => .ok (H.inHandler t false) _

theorem timerAction (H : HandlerKept R) (n : Nat) (T : Timer) (s : State) : (timerAction env n T s).Leads R s := by
  unfold Machine.timerAction
  cases T.act with
  | pulse | assert | clear => exact H.issueInternal _ s
  | callback => exact .seq H.trans (H.insideHandler (H.callExt _ _) s) fun _ _ => .ok (H.refl _) _

end HandlerKept

/-! ## The timers that are due (R235) -/

section Due

variable {s t : State} {tEnd : Word64} {n m : Nat}

theorem lt_length_of_timerDue (h : timerDue s tEnd n = true) : n < s.timers.length := by
  by_contra hge
  simp [timerDue, timerAt, List.getElem?_eq_none (Nat.not_lt.1 hge), disarmedTimer] at h

theorem mem_dueTimers : n ∈ dueTimers s tEnd ↔ timerDue s tEnd n = true := by
  simp only [dueTimers, List.mem_filter, List.mem_range]
  exact ⟨And.right, fun h => ⟨lt_length_of_timerDue h, h⟩⟩

theorem dueTimers_eq_nil_iff : dueTimers s tEnd = [] ↔ ∀ n, timerDue s tEnd n = false := by
  simp only [List.eq_nil_iff_forall_not_mem, mem_dueTimers, Bool.not_eq_true]

theorem timerDue_congr (h : timerAt t n = timerAt s n) : timerDue t tEnd n = timerDue s tEnd n := by
  rw [timerDue, timerDue, h]

theorem timerAt_set_self {T : Timer} (h : n < s.timers.length) (ht : t.timers = s.timers.set n T) :
    timerAt t n = T := by
  rw [timerAt, ht, getD_set_self h]

theorem timerAt_set_ne {T : Timer} (h : n ≠ m) (ht : t.timers = s.timers.set n T) : timerAt t m = timerAt s m := by
  rw [timerAt, ht, getD_set_ne h, timerAt]

/-- Of equal deadlines the least slot is taken. -/
theorem earliest_least {ns : List Nat} (hns : ns.Pairwise (· < ·)) (h : earliest s ns = some n) :
    ∀ m ∈ ns, (timerAt s m).deadline = (timerAt s n).deadline → n ≤ m := by
  induction ns generalizing n with
  | nil => nofun
  | cons x ns ih =>
    obtain ⟨hx, hns⟩ := List.pairwise_cons.1 hns
    simp only [earliest] at h
    split at h
    next hnone =>
      cases earliest_none hnone
      cases h
      simp
    next y hy =>
      split_ifs at h with hle <;> cases h
      · intro m hm _
        rcases List.mem_cons.1 hm with rfl | hm
        · exact le_rfl
        · exact (hx m hm).le
      · intro m hm heq
        rcases List.mem_cons.1 hm with rfl | hm
        · exact absurd (congrArg BitVec.toNat heq).le hle
        · exact ih hns hy m hm heq

/-- The timer that fires next is the one with the least deadline, among equals the least slot. -/
theorem earliest_dueTimers (hn : timerDue s tEnd n = true)
    (hleast : ∀ m, timerDue s tEnd m = true → (timerAt s n).deadline.toNat < (timerAt s m).deadline.toNat ∨
      (timerAt s n).deadline = (timerAt s m).deadline ∧ n ≤ m) :
    earliest s (dueTimers s tEnd) = some n := by
  have hsorted : (dueTimers s tEnd).Pairwise (· < ·) := List.pairwise_lt_range.filter _
  cases h : earliest s (dueTimers s tEnd) with
  | none => exact absurd (earliest_none h ▸ mem_dueTimers.2 hn) List.not_mem_nil
  | some m =>
    obtain ⟨hm, hmle⟩ := earliest_some h
    have hmn := hmle n (mem_dueTimers.2 hn)
    rcases hleast m (mem_dueTimers.1 hm) with hlt | ⟨heq, hnm⟩
    · omega
    · exact congrArg some (le_antisymm (earliest_least hsorted h n (mem_dueTimers.2 hn) heq) hnm)

end Due

/-! ## The work left at a slice end (R235, log 15) -/

section Work

variable {s t : State} {tEnd : Word64} {n m : Nat}

/-- A slot's part of the bound on the firings. -/
def dueCost (s : State) (tEnd : Word64) (n : Nat) : Nat :=
  if timerDue s tEnd n then tEnd.toNat - (timerAt s n).deadline.toNat + 1 else 0

theorem dueCost_congr (h : timerAt t n = timerAt s n) : dueCost t tEnd n = dueCost s tEnd n := by
  rw [dueCost, dueCost, timerDue_congr h, h]

theorem dueCost_of_not_due (h : timerDue s tEnd n = false) : dueCost s tEnd n = 0 := if_neg (by simp [h])

theorem sum_map_filter_eq (l : List Nat) (p : Nat → Bool) (f : Nat → Nat) :
    ((l.filter p).map f).sum = (l.map fun n => if p n then f n else 0).sum := by
  induction l with
  | nil => rfl
  | cons x l ih => cases hx : p x <;> simp [hx, ih]

theorem firingBound_eq_sum (s : State) (tEnd : Word64) :
    firingBound s tEnd = ((List.range s.timers.length).map (dueCost s tEnd)).sum :=
  sum_map_filter_eq _ _ _

theorem firingBound_eq_zero_iff : firingBound s tEnd = 0 ↔ ∀ n, timerDue s tEnd n = false := by
  rw [← dueTimers_eq_nil_iff, firingBound]
  cases dueTimers s tEnd <;> simp

/-- The clock stays, and each slot stays or is not due at the clock. -/
structure DueSettle (s t : State) : Prop where
  now : t.now = s.now
  length : t.timers.length = s.timers.length
  slot : ∀ n, timerAt t n = timerAt s n ∨ timerDue t s.now n = false

theorem DueSettle.of_eq (hnow : t.now = s.now) (htimers : t.timers = s.timers) : DueSettle s t :=
  ⟨hnow, congrArg _ htimers, fun n => .inl (congrArg (List.getD · n disarmedTimer) htimers)⟩

theorem DueSettle.trans {u : State} (h : DueSettle s t) (h' : DueSettle t u) : DueSettle s u := by
  refine ⟨h'.now.trans h.now, h'.length.trans h.length, fun n => ?_⟩
  have hnow := h.now
  rcases h'.slot n with hu | hu
  · rcases h.slot n with ht | ht
    · exact .inl (hu.trans ht)
    · exact .inr ((timerDue_congr hu).trans ht)
  · exact .inr (hnow ▸ hu)

theorem toNat_add_setWidth {a : Word64} (ha : a.toNat + 2 ^ 32 ≤ 2 ^ 64) (b : Word32) :
    (a + b.setWidth 64).toNat = a.toNat + b.toNat := by
  have hb := b.isLt
  rw [BitVec.toNat_add, BitVec.toNat_setWidth]
  omega

/-- A TIMERSET inside a handler arms past the clock. -/
theorem DueSettle.of_clockKept (hnow : s.now.toNat + 2 ^ 32 ≤ 2 ^ 64) (h : ClockKept s t) : DueSettle s t := by
  rcases h.timers with htimers | ⟨n, T, htimers, delay, hdelay, hT⟩
  · exact .of_eq h.now htimers
  · refine ⟨h.now, by rw [htimers, List.length_set], fun m => ?_⟩
    rcases eq_or_ne n m with rfl | hne
    · rcases Nat.lt_or_ge n s.timers.length with hn | hn
      · have hpast : s.now.toNat < T.deadline.toNat := by
          have hpos : delay.toNat ≠ 0 := fun h0 => hdelay (BitVec.eq_of_toNat_eq h0)
          rw [hT, toNat_add_setWidth hnow]
          omega
        exact .inr (by simp [timerDue, timerAt_set_self hn htimers, hpast])
      · exact .inl (by rw [timerAt, htimers, List.set_eq_of_length_le hn, timerAt])
    · exact .inl (timerAt_set_ne hne htimers)

/-- Handlers and timer actions settle what is due, for a clock not within 2^32 of its end. -/
theorem dueSettle_handlerKept :
    HandlerKept fun s t => s.now.toNat + 2 ^ 32 ≤ 2 ^ 64 → DueSettle s t where
  refl _ _ := .of_eq rfl rfl
  trans _ _ _ h h' hnow := (h hnow).trans (h' ((h hnow).now ▸ hnow))
  emit _ _ _ := .of_eq rfl rfl
  inHandler _ _ _ := .of_eq rfl rfl
  ext _ _ _ := .of_eq rfl rfl
  command _ _ h hnow := .of_clockKept hnow h

/-- What is settled costs no firing more. -/
theorem DueSettle.firingBound_le (h : DueSettle s t) : firingBound t s.now ≤ firingBound s s.now := by
  rw [firingBound_eq_sum, firingBound_eq_sum, h.length]
  refine List.sum_le_sum fun n _ => ?_
  rcases h.slot n with heq | hnot
  · exact (dueCost_congr heq).le
  · exact (dueCost_of_not_due hnot).trans_le (Nat.zero_le _)

/-- A timer that fires is disarmed, or moved on by at least 1. -/
theorem dueCost_rearmed_lt (hend : tEnd.toNat + 2 ^ 32 ≤ 2 ^ 64) (hn : timerDue s tEnd n = true)
    (ht : timerAt t n = rearmed (timerAt s n)) : dueCost t tEnd n < dueCost s tEnd n := by
  obtain ⟨-, hdue⟩ := Bool.and_eq_true_iff.1 hn
  have hle : (timerAt s n).deadline.toNat ≤ tEnd.toNat := of_decide_eq_true hdue
  have hcost : dueCost s tEnd n = tEnd.toNat - (timerAt s n).deadline.toNat + 1 := if_pos hn
  rw [hcost]
  by_cases hperiod : (timerAt s n).period = 0
  · have hnot : timerDue t tEnd n = false := by simp [timerDue, ht, rearmed, hperiod]
    rw [dueCost_of_not_due hnot]
    exact Nat.succ_pos _
  · have hpos : (timerAt s n).period.toNat ≠ 0 := fun h0 => hperiod (BitVec.eq_of_toNat_eq h0)
    have hmoved : (timerAt t n).deadline.toNat = (timerAt s n).deadline.toNat + (timerAt s n).period.toNat := by
      rw [ht, rearmed, if_neg hperiod]
      exact toNat_add_setWidth (by omega) _
    unfold dueCost
    split_ifs with hagain
    · obtain ⟨-, hdue'⟩ := Bool.and_eq_true_iff.1 hagain
      have hle' : (timerAt t n).deadline.toNat ≤ tEnd.toNat := of_decide_eq_true hdue'
      omega
    · exact Nat.succ_pos _

/-- Writing the slot of a firing leaves less work. -/
theorem firingBound_firedState_lt (hend : tEnd.toNat + 2 ^ 32 ≤ 2 ^ 64) (hn : timerDue s tEnd n = true) :
    firingBound (firedState n s) tEnd < firingBound s tEnd := by
  have hlt := lt_length_of_timerDue hn
  have htimers : (firedState n s).timers = s.timers.set n (rearmed (timerAt s n)) := rfl
  have hself : dueCost (firedState n s) tEnd n < dueCost s tEnd n :=
    dueCost_rearmed_lt hend hn (timerAt_set_self hlt htimers)
  rw [firingBound_eq_sum, firingBound_eq_sum, htimers, List.length_set]
  refine List.sum_lt_sum _ _ (fun m _ => ?_) ⟨n, List.mem_range.2 hlt, hself⟩
  rcases eq_or_ne n m with rfl | hne
  · exact hself.le
  · exact (dueCost_congr (timerAt_set_ne hne htimers)).le

/-- A completed firing at the clock leaves the clock and less work. -/
theorem fireTimer_progress {env : Env} {v : Unit} (hnow : s.now = tEnd) (hend : tEnd.toNat + 2 ^ 32 ≤ 2 ^ 64)
    (hn : timerDue s tEnd n = true) (h : fireTimer env n s = .ok v t) :
    t.now = tEnd ∧ firingBound t tEnd < firingBound s tEnd := by
  subst hnow
  have hsettle : DueSettle (firedState n s) t := dueSettle_handlerKept.timerAction n _ (firedState n s) v t h hend
  exact ⟨hsettle.now, hsettle.firingBound_le.trans_lt (firingBound_firedState_lt hend hn)⟩

end Work

/-! ## The firing at a slice end (R235) -/

section FireTimers

variable {env : Env} {s t : State} {tEnd : Word64} {n fuel : Nat}

theorem earliest_of_none_due (h : ∀ n, timerDue s tEnd n = false) : earliest s (dueTimers s tEnd) = none := by
  rw [dueTimers_eq_nil_iff.2 h, earliest]

theorem none_due_of_earliest (h : earliest s (dueTimers s tEnd) = none) : ∀ n, timerDue s tEnd n = false :=
  dueTimers_eq_nil_iff.1 (earliest_none h)

theorem due_of_earliest (h : earliest s (dueTimers s tEnd) = some n) : timerDue s tEnd n = true :=
  mem_dueTimers.1 (earliest_some h).1

theorem firingBound_pos (h : timerDue s tEnd n = true) : 0 < firingBound s tEnd :=
  Nat.pos_of_ne_zero fun h0 => by simp [firingBound_eq_zero_iff.1 h0 n] at h

theorem fireTimers_of_none_due (h : ∀ n, timerDue s tEnd n = false) (fuel : Nat) :
    fireTimers env tEnd fuel s = .ok () s := by
  cases fuel with
  | zero => rfl
  | succ fuel => rw [fireTimers, earliest_of_none_due h]

theorem fireTimers_succ_of_earliest (h : earliest s (dueTimers s tEnd) = some n) (fuel : Nat) :
    fireTimers env tEnd (fuel + 1) s = andThen (fireTimer env n s) fun _ t => fireTimers env tEnd fuel t := by
  rw [fireTimers, h]

/-- More fuel than the bound changes nothing. -/
theorem fireTimers_of_enough (hend : tEnd.toNat + 2 ^ 32 ≤ 2 ^ 64) {other : Nat} (hnow : s.now = tEnd)
    (hfuel : firingBound s tEnd ≤ fuel) (hother : firingBound s tEnd ≤ other) :
    fireTimers env tEnd fuel s = fireTimers env tEnd other s := by
  induction fuel generalizing s other with
  | zero => rw [fireTimers_of_none_due (firingBound_eq_zero_iff.1 (Nat.le_zero.1 hfuel)) other, fireTimers]
  | succ fuel ih =>
    cases h : earliest s (dueTimers s tEnd) with
    | none => rw [fireTimers_of_none_due (none_due_of_earliest h), fireTimers_of_none_due (none_due_of_earliest h)]
    | some n =>
      have hn := due_of_earliest h
      obtain ⟨other, rfl⟩ := Nat.exists_eq_add_one.2 ((firingBound_pos hn).trans_le hother)
      rw [fireTimers_succ_of_earliest h, fireTimers_succ_of_earliest h]
      refine andThen_congr fun v t ht => ?_
      obtain ⟨hnow', hless⟩ := fireTimer_progress hnow hend hn ht
      exact ih hnow' (by omega) (by omega)

/-- With enough fuel the firing goes on until no timer is due. -/
theorem none_due_of_fireTimers (hend : tEnd.toNat + 2 ^ 32 ≤ 2 ^ 64) (hnow : s.now = tEnd)
    (hfuel : firingBound s tEnd ≤ fuel) (h : fireTimers env tEnd fuel s = .ok () t) :
    ∀ n, timerDue t tEnd n = false := by
  induction fuel generalizing s with
  | zero =>
    cases h
    exact firingBound_eq_zero_iff.1 (Nat.le_zero.1 hfuel)
  | succ fuel ih =>
    cases hnext : earliest s (dueTimers s tEnd) with
    | none =>
      rw [fireTimers_of_none_due (none_due_of_earliest hnext)] at h
      cases h
      exact none_due_of_earliest hnext
    | some n =>
      rw [fireTimers_succ_of_earliest hnext] at h
      obtain ⟨v, u, hfire, hrest⟩ := andThen_eq_ok.1 h
      obtain ⟨hnow', hless⟩ := fireTimer_progress hnow hend (due_of_earliest hnext) hfire
      exact ih hnow' (by omega) hrest

theorem endSlice_eq_fireTimers (hnow : s.now = tEnd) :
    endSlice env tEnd s = fireTimers env tEnd (firingBound s tEnd) s := by
  subst hnow
  rfl

theorem endSlice_of_none_due (hnow : s.now = tEnd) (h : ∀ n, timerDue s tEnd n = false) :
    endSlice env tEnd s = .ok () s := by
  rw [endSlice_eq_fireTimers hnow, fireTimers_of_none_due h]

theorem endSlice_of_earliest (hend : tEnd.toNat + 2 ^ 32 ≤ 2 ^ 64) (hnow : s.now = tEnd)
    (h : earliest s (dueTimers s tEnd) = some n) :
    endSlice env tEnd s = andThen (fireTimer env n s) fun _ t => endSlice env tEnd t := by
  have hn := due_of_earliest h
  obtain ⟨fuel, hfuel⟩ := Nat.exists_eq_add_one.2 (firingBound_pos hn)
  rw [endSlice_eq_fireTimers hnow, hfuel, fireTimers_succ_of_earliest h]
  refine andThen_congr fun v t ht => ?_
  obtain ⟨hnow', hless⟩ := fireTimer_progress hnow hend hn ht
  rw [endSlice_eq_fireTimers hnow']
  exact fireTimers_of_enough hend hnow' (by omega) le_rfl

end FireTimers

/-- Settles O41: each firing leaves less work, so the bound of the loop is never what ends it. -/
theorem timersAllFire : Obligations.TimersAllFire := by
  intro env tEnd s hend
  let moved : State := { s with now := tEnd }
  have hnow : moved.now = tEnd := rfl
  refine ⟨fun hnone => ?none_due, fun n hn hleast => ?next, fun t ht => ?none_left⟩
  case none_due => exact endSlice_of_none_due (s := moved) hnow hnone
  case next => exact endSlice_of_earliest hend hnow (earliest_dueTimers (s := moved) hn hleast)
  case none_left => exact none_due_of_fireTimers (s := moved) hend hnow le_rfl ht

end Sys2Proof.Machine
end

/-! PROOFS of the scheduler family, fourth part: a slice and a frame (spec/43_scheduler.md R230, R231, R236). Only the
end of a frame writes its start and its number, so the frame that ends is the one that began. -/
section

namespace Sys2Proof.Machine

/-! ## What the work inside a frame leaves of it (R230) -/

/-- The frame's start and number are the same. -/
def SameFrame (s t : State) : Prop := frameClock t = frameClock s

namespace SameFrame

variable {env : Env}

theorem refl (s : State) : SameFrame s s := rfl

theorem trans (s t u : State) (h : SameFrame s t) (h' : SameFrame t u) : SameFrame s u := Eq.trans h' h

theorem handlerKept : HandlerKept SameFrame where
  refl := refl
  trans := trans
  emit _ _ := rfl
  inHandler _ _ := rfl
  ext _ _ := rfl
  command _ _ h := h.frame

theorem ok_self {α : Type} (v : α) (s : State) : (Res.ok v s).Leads SameFrame s := .ok (refl s) v

theorem update {α : Type} {s t : State} (h : frameClock t = frameClock s) (v : α) :
    (Res.ok v t).Leads SameFrame s := .ok h v

theorem seq {α β : Type} {s : State} {x : Res α} {f : α → State → Res β} (hx : x.Leads SameFrame s)
    (hf : ∀ v t, (f v t).Leads SameFrame t) : (andThen x f).Leads SameFrame s := .seq trans hx hf

theorem after {α : Type} {s t : State} {x : Res α} (h : SameFrame s t) (hx : x.Leads SameFrame t) :
    x.Leads SameFrame s := .after trans h hx

/-! ### The bus (R84, R85, R183, R184) -/

theorem portRead {P : Port} {a o : Nat} {work : State → Res Byte} (h : portRead env P a o = some work) (s : State) :
    (work s).Leads SameFrame s := by
  unfold Machine.portRead at h
  cases hk : P.pk <;> simp only [hk, Option.some.injEq, reduceCtorEq] at h <;> subst h
  case ext => exact handlerKept.callExt _ _ s
  case tileram | latch | input => exact ok_self _ s

theorem portWrite {P : Port} {a o : Nat} {w : Byte} {work : State → Res Unit} (h : portWrite env P a o w = some work)
    (s : State) : (work s).Leads SameFrame s := by
  unfold Machine.portWrite at h
  cases hk : P.pk <;> simp only [hk, Option.some.injEq, reduceCtorEq] at h <;> subst h
  case ext => exact seq (handlerKept.callExt _ _ s) fun _ t => ok_self _ t
  case tileram => exact after rfl (handlerKept.issueInternal _ _)
  case banksel | irqack => exact handlerKept.issueInternal _ s
  case scroll | flip => exact update rfl _
  case latch =>
    cases latchSignal P with
    | none => exact update rfl _
    | some i => exact after rfl (handlerKept.issueInternal i _)

theorem handlerRead (h a o : Nat) (s : State) : (handlerRead env h a o s).Leads SameFrame s := by
  unfold Machine.handlerRead
  cases hp : Machine.portRead env (portAt s h) a o with
  | none => exact update rfl _
  | some work => exact handlerKept.insideHandler (portRead hp) s

theorem handlerWrite (h a o : Nat) (w : Byte) (s : State) : (handlerWrite env h a o w s).Leads SameFrame s := by
  unfold Machine.handlerWrite
  cases hp : Machine.portWrite env (portAt s h) a o w with
  | none => exact update rfl _
  | some work => exact handlerKept.insideHandler (portWrite hp) s

theorem memRead (sp a : Nat) (s : State) : (memRead env sp a s).Leads SameFrame s := by
  unfold Machine.memRead
  cases resolveEntry s sp (busAddress s sp a) servesRead with
  | none => exact update rfl _
  | some e =>
    simp only [entryRead]
    cases e.kind
    case rom | ram | bankedRom => exact ok_self _ s
    case readHandler | writeHandler | readWriteHandler => exact handlerRead _ _ _ s

theorem memWrite (sp a : Nat) (v : Byte) (s : State) : (memWrite env sp a v s).Leads SameFrame s := by
  unfold Machine.memWrite
  cases resolveEntry s sp (busAddress s sp a) servesWrite with
  | none => exact update rfl _
  | some e =>
    simp only [entryWrite]
    cases e.kind
    case rom | bankedRom => exact ok_self _ s
    case ram => exact update rfl _
    case readHandler | writeHandler | readWriteHandler => exact handlerWrite _ _ _ _ s

/-! ### The CPUs (R125, R233) -/

theorem acknowledge (c : Nat) (s : State) : (acknowledge env c s).Leads SameFrame s := by
  rcases acknowledge_cases env c s with ⟨-, h⟩ | ⟨-, -, h⟩ | ⟨l, -, -, h⟩ <;> rw [h]
  · exact .of_refuse _
  · exact ok_self _ s
  · exact .ok (clockKept_putLine c l _ s).frame _

theorem cpuRead (c op : Nat) (sp a : Word32) (s : State) : (cpuRead env c op sp a s).Leads SameFrame s := by
  unfold Machine.cpuRead
  split_ifs
  · exact update rfl _
  · exact update rfl _
  · exact seq (memRead _ _ s) fun _ t => ok_self _ t

theorem cpuWrite (c op : Nat) (sp a : Word32) (v : Byte) (s : State) :
    (cpuWrite env c op sp a v s).Leads SameFrame s := by
  unfold Machine.cpuWrite
  split_ifs
  · exact update rfl _
  · exact update rfl _
  · exact seq (memWrite _ _ _ s) fun _ t => ok_self _ t

theorem cpuAck (c op : Nat) (cpu : Word32) (s : State) : (cpuAck env c op cpu s).Leads SameFrame s := by
  unfold Machine.cpuAck
  split_ifs
  · exact update rfl _
  · exact update rfl _
  · exact seq (acknowledge _ s) fun _ t => ok_self _ t

theorem cpuCommand (c : Nat) (cw : CmdWord) (s : State) : (cpuCommand env c cw s).Leads SameFrame s := by
  unfold Machine.cpuCommand
  cases decodeWord cw with
  | error => exact update rfl _
  | ok i =>
    cases hb : cpuBody env c (opcodeOf cw).toNat i with
    | none =>
      simp only [hb]
      exact update rfl _
    | some work =>
      simp only [hb]
      cases i <;> simp only [cpuBody, Option.some.injEq, reduceCtorEq] at hb <;> subst hb
      case read | fetch => exact cpuRead _ _ _ _ s
      case write => exact cpuWrite _ _ _ _ _ s
      case ack => exact cpuAck _ _ _ s

theorem cpuTurns (c fuel : Nat) (s : State) : (cpuTurns env c fuel s).Leads SameFrame s := by
  induction fuel generalizing s with
  | zero => exact ok_self _ s
  | succ fuel ih =>
    unfold Machine.cpuTurns
    cases (env.cpu c (obsOf s c)).cmd with
    | none => exact ok_self _ s
    | some cw => exact seq (cpuCommand c cw s) fun o t => after rfl (ih (observe c o t))

theorem sliceCpu (S k c : Nat) (s : State) : (sliceCpu env S k c s).Leads SameFrame s := by
  unfold Machine.sliceCpu
  split_ifs
  · exact .of_fatal _ _
  · exact update rfl _
  · exact seq (after rfl (cpuTurns _ _ _)) fun _ _ => update rfl _

theorem sliceCpus (S k : Nat) (cs : List Nat) (s : State) : (sliceCpus env S k cs s).Leads SameFrame s := by
  induction cs generalizing s with
  | nil => exact ok_self _ s
  | cons c cs ih => exact seq (after rfl (sliceCpu S k c { s with i := BitVec.ofNat 8 c })) fun _ t => ih t

/-! ### The timers and the slices (R231, R235) -/

theorem fireTimer (n : Nat) (s : State) : (fireTimer env n s).Leads SameFrame s :=
  after rfl (handlerKept.timerAction n (timerAt s n) (firedState n s))

theorem fireTimers (tEnd : Word64) (fuel : Nat) (s : State) : (fireTimers env tEnd fuel s).Leads SameFrame s := by
  induction fuel generalizing s with
  | zero => exact ok_self _ s
  | succ fuel ih =>
    unfold Machine.fireTimers
    cases earliest s (dueTimers s tEnd) with
    | none => exact ok_self _ s
    | some n => exact seq (fireTimer n s) fun _ t => ih t

theorem slice (S k : Nat) (s : State) : (slice env S k s).Leads SameFrame s :=
  seq (sliceCpus S k _ s) fun _ t => after rfl (fireTimers _ _ { t with now := sliceEnd s S k })

theorem slicesFrom (S : Nat) (ks : List Nat) (s : State) : (slicesFrom env S ks s).Leads SameFrame s := by
  induction ks generalizing s with
  | nil => exact ok_self _ s
  | cons k ks ih => exact seq (after rfl (slice S k { s with k := BitVec.ofNat 16 k })) fun _ t => ih t

end SameFrame

/-! ## How drawing ends (R310, R354) -/

/-- Drawing completes in the same frame, or it ends in the fatal error ColorOutOfRange. -/
def Res.Draws {α : Type} (s : State) : Res α → Prop
  | .ok _ t => SameFrame s t
  | .config _ => False
  | .refuse _ => False
  | .fatal code _ => code = codeColorOutOfRange

namespace Res.Draws

variable {α β : Type} {env : Env}

theorem seq {s : State} {x : Res α} {f : α → State → Res β} (hx : x.Draws s) (hf : ∀ v t, (f v t).Draws t) :
    (andThen x f).Draws s := by
  cases x with
  | ok v t =>
    have hrest := hf v t
    rw [andThen_ok]
    cases hy : f v t with
    | ok w u =>
      rw [hy] at hrest
      exact SameFrame.trans s t u hx hrest
    | config => rw [hy] at hrest; exact hrest
    | refuse => rw [hy] at hrest; exact hrest
    | fatal => rw [hy] at hrest; exact hrest
  | config => exact hx
  | refuse => exact hx
  | fatal => exact hx

theorem resolveCell (L t : Nat) (s : State) : (resolveCell env L t s).Draws s := by
  unfold Machine.resolveCell
  split_ifs
  · exact SameFrame.refl s
  · exact rfl
  · exact (clockKept_noteIndex _ _ s).frame

theorem resolveCells (L : Nat) (ts : List Nat) (s : State) : (resolveCells env L ts s).Draws s := by
  induction ts generalizing s with
  | nil => exact SameFrame.refl s
  | cons t ts ih => exact seq (resolveCell L t s) fun _ u => ih u

theorem drawSprite (clip : Clip) (only : Bool) (p : Byte) (n : Nat) (s : State) :
    (drawSprite env clip only p n s).Draws s := by
  unfold Machine.drawSprite
  simp only
  split_ifs
  · exact SameFrame.refl s
  · exact rfl
  · exact SameFrame.trans _ _ _ (clockKept_noteIndex _ _ s).frame (clockKept_noteIndex _ _ _).frame

theorem drawSprites (clip : Clip) (only : Bool) (p : Byte) (ns : List Nat) (s : State) :
    (drawSprites env clip only p ns s).Draws s := by
  induction ns generalizing s with
  | nil => exact SameFrame.refl s
  | cons n ns ih => exact seq (drawSprite clip only p n s) fun _ t => ih t

/-- A compositor that is refused draws nothing (log 16). -/
theorem nestedDraw {s : State} {x : Res Answer} (hx : (∃ code, x = .refuse code) ∨ x.Draws s) :
    (nestedDraw s x).Draws s := by
  rcases hx with ⟨code, rfl⟩ | hx
  · exact SameFrame.refl s
  · cases x with
    | ok => exact hx
    | config => exact hx.elim
    | refuse => exact hx.elim
    | fatal => exact hx

theorem renderStep (st : RStep) (s : State) : (renderStep env st s).Draws s := by
  unfold Machine.renderStep
  cases st.rk with
  | fill => exact SameFrame.refl s
  | layer =>
    refine nestedDraw ?_
    unfold tmcompositeBody
    split_ifs
    · exact .inl ⟨_, rfl⟩
    · exact .inr (seq (resolveCells _ _ s) fun _ t => SameFrame.refl t)
  | sprites =>
    refine nestedDraw ?_
    unfold spcompositeBody
    split_ifs
    · exact .inl ⟨_, rfl⟩
    · exact .inr (seq (drawSprites _ _ _ _ s) fun _ t => SameFrame.refl t)

theorem renderSteps (sts : List RStep) (s : State) : (renderSteps env sts s).Draws s := by
  induction sts generalizing s with
  | nil => exact SameFrame.refl s
  | cons st sts ih => exact seq (renderStep st s) fun _ t => ih t

theorem renderFrame (s : State) : (renderFrame env s).Draws s :=
  seq (renderSteps _ s) fun _ t => SameFrame.refl t

end Res.Draws

/-! ## Lists of CPUs and of slices (R230, R231) -/

section Lists

variable {env : Env} {S k c : Nat} {s t u : State} {code : Byte}

theorem sliceCpus_of_cpusRun {cs : List Nat} (h : CpusRun env S k cs s t) : sliceCpus env S k cs s = .ok () t := by
  induction h with
  | nil => rfl
  | cons first _ ih => rw [sliceCpus, first, andThen_ok, ih]

theorem sliceCpus_append (pre post : List Nat) (s : State) :
    sliceCpus env S k (pre ++ post) s = andThen (sliceCpus env S k pre s) fun _ t => sliceCpus env S k post t := by
  induction pre generalizing s with
  | nil => rfl
  | cons c pre ih => simp only [List.cons_append, sliceCpus, andThen_assoc, ih]

/-- A fatal error of a CPU's part ends the list. -/
theorem sliceCpus_fatal {pre post : List Nat} (hpre : CpusRun env S k pre s t)
    (hfatal : sliceCpu env S k c { t with i := BitVec.ofNat 8 c } = .fatal code u) :
    sliceCpus env S k (pre ++ c :: post) s = .fatal code u := by
  rw [sliceCpus_append, sliceCpus_of_cpusRun hpre, andThen_ok, sliceCpus, hfatal, andThen_fatal]

theorem slicesFrom_of_slicesRun {ks : List Nat} (h : SlicesRun env S ks s t) : slicesFrom env S ks s = .ok () t := by
  induction h with
  | nil => rfl
  | cons first _ ih => rw [slicesFrom, first, andThen_ok, ih]

theorem slicesFrom_append (pre post : List Nat) (s : State) :
    slicesFrom env S (pre ++ post) s = andThen (slicesFrom env S pre s) fun _ t => slicesFrom env S post t := by
  induction pre generalizing s with
  | nil => rfl
  | cons k pre ih => simp only [List.cons_append, slicesFrom, andThen_assoc, ih]

/-- A fatal error of a slice ends the frame's slices. -/
theorem slicesFrom_range_fatal (hk : k < S) (hpre : SlicesRun env S (List.range k) s t)
    (hfatal : slice env S k { t with k := BitVec.ofNat 16 k } = .fatal code u) :
    slicesFrom env S (List.range S) s = .fatal code u := by
  obtain ⟨m, rfl⟩ := Nat.exists_eq_add_of_lt hk
  have hsplit : List.range (k + m + 1) = List.range k ++ k :: (List.range m).map (k + 1 + ·) := by
    rw [show k + m + 1 = (k + 1) + m by omega, List.range_add, List.range_succ, List.append_assoc,
      List.singleton_append]
  rw [hsplit, slicesFrom_append, slicesFrom_of_slicesRun hpre, andThen_ok, slicesFrom, hfatal, andThen_fatal]

/-- The CPUs in ascending handle are one list. -/
theorem cpuHandles_eq {cs : List Nat} (hsorted : cs.Pairwise (· < ·)) (hcs : ∀ c, c ∈ cs ↔ isCpu s c = true) :
    cpuHandles s = cs :=
  (List.pairwise_lt_range.filter (isCpu s)).eq_of_mem_iff hsorted fun c => mem_cpuHandles.trans (hcs c).symm

end Lists

/-! ## The end of a frame (R230) -/

section Frame

variable {s t u : State} {ks : List Nat} {env : Env}

theorem foldl_emit_samples (ds : List Nat) (s : State) :
    ds.foldl (fun t d => emit (.samples d (t.params.samplesOf d)) t) s =
      { s with events := ds.reverse.map (fun d => Event.samples d (s.params.samplesOf d)) ++ s.events } := by
  induction ds generalizing s with
  | nil => rfl
  | cons d ds ih =>
    rw [List.foldl_cons, ih]
    simp [emit]

theorem emitSamples_eq (s : State) :
    emitSamples s = { s with
      events := (soundHandles s).reverse.map (fun d => Event.samples d (s.params.samplesOf d)) ++ s.events } :=
  foldl_emit_samples (soundHandles s) s

/-- The block is in Run, in the frame it was in, with the configuration it had. -/
structure FrameGoesOn (s t : State) : Prop where
  run : t.phase = .run
  config : configView t = configView s
  frame : SameFrame s t

theorem FrameGoesOn.of_keeps {α : Type} {x : Res α} {v : α} (hs : s.phase = .run) (hkeeps : x.Keeps ConfigGrows s)
    (hframe : x.Leads SameFrame s) (hx : x = .ok v t) : FrameGoesOn s t := by
  have hsame := hframe v t hx
  subst hx
  obtain ⟨hgrows, hphase⟩ := hkeeps
  exact ⟨hphase.trans hs, (hgrows.fixed (by rw [hs]; decide)).1, hsame⟩

theorem FrameGoesOn.of_slices (hs : s.phase = .run) {S : Nat} (h : SlicesRun env S ks s t) : FrameGoesOn s t :=
  .of_keeps hs ((configGrows_kept env).slicesFrom S ks s hs) (SameFrame.slicesFrom S ks s) (slicesFrom_of_slicesRun h)

theorem FrameGoesOn.of_render (hs : s.phase = .run) (h : renderFrame env s = .ok () t) : FrameGoesOn s t := by
  have hdraws := Res.Draws.renderFrame (env := env) s
  refine .of_keeps hs ((configGrows_kept env).renderFrame s hs) (fun v u hu => ?_) h
  rw [hu] at hdraws
  exact hdraws

theorem FrameGoesOn.trans (h : FrameGoesOn s t) (h' : FrameGoesOn t u) : FrameGoesOn s u :=
  ⟨h'.run, h'.config.trans h.config, SameFrame.trans s t u h.frame h'.frame⟩

/-- The end of a frame, from the state it began in. -/
theorem FrameGoesOn.endFrame_emitSamples (h : FrameGoesOn s u) :
    endFrame (emitSamples u) = { u with
      frameStart := s.frameStart + BitVec.ofNat 64 (s.masterHz.toNat / s.frameHz.toNat)
      frameCount := s.frameCount + 1
      k := 0
      i := 0
      inFrame := false
      events := (soundHandles s).reverse.map (fun d => Event.samples d (s.params.samplesOf d)) ++ u.events } := by
  have hconfig : SameConfig s u := .of_configView h.config
  obtain ⟨hmaster, hhz, -⟩ := hconfig.clocks
  obtain ⟨hstart, hcount⟩ := Prod.ext_iff.1 h.frame
  simp only [frameClock] at hstart hcount
  have hsound : soundHandles u = soundHandles s := by rw [soundHandles, hconfig.dev, soundHandles]
  rw [emitSamples_eq, endFrame, hsound, hconfig.params]
  simp only [frameCycles, hmaster, hhz, hstart, hcount]

end Frame

/-! ## RUNFRAME and RENDER in Run (R230, R310) -/

section Runframe

variable {s t u w : State} {k : Nat} {code : Byte}

theorem exec_runframe_run (hs : s.phase = .run) :
    exec .runframe s = .next (endCommand s (runframeBody Config.env s)) :=
  congrArg _ (hostCommand_legal _ (legalIn_runOnly.2 hs))

theorem exec_render_run (hs : s.phase = .run) :
    exec .render s = .next (endCommand s (renderBody Config.env s)) :=
  congrArg _ (hostCommand_legal _ (legalIn_runOnly.2 hs))

theorem exec_render_of_drawn (hs : s.phase = .run) (h : renderFrame Config.env s = .ok () w) :
    exec .render s = .next (completed w) := by
  rw [exec_render_run hs, renderBody, h, andThen_ok, endCommand_done_eq]

theorem exec_render_of_fatal (hs : s.phase = .run) (h : renderFrame Config.env s = .fatal code w) :
    exec .render s = .next { w with status := code } := by
  rw [exec_render_run hs, renderBody, h, andThen_fatal, endCommand_fatal]

/-- A RENDER in Run completes, or it is fatal. -/
theorem exec_render_ends (hs : s.phase = .run) (h : exec .render s = .next u) :
    (∃ w, renderFrame Config.env s = .ok () w ∧ u = completed w) ∨
      ∃ w, renderFrame Config.env s = .fatal codeColorOutOfRange w ∧
        u = { w with status := codeColorOutOfRange } := by
  have hdraws := Res.Draws.renderFrame (env := Config.env) s
  cases hx : renderFrame Config.env s with
  | ok v w =>
    rw [exec_render_of_drawn hs hx] at h
    cases h
    exact .inl ⟨w, rfl, rfl⟩
  | config => rw [hx] at hdraws; exact hdraws.elim
  | refuse => rw [hx] at hdraws; exact hdraws.elim
  | fatal code w =>
    rw [hx] at hdraws
    cases hdraws
    rw [exec_render_of_fatal hs hx] at h
    cases h
    exact .inr ⟨w, rfl, rfl⟩

/-- The slices of a whole frame run from s to t. -/
abbrev FrameSlices (s t : State) : Prop :=
  SlicesRun Config.env s.slices.toNat (List.range s.slices.toNat) { s with inFrame := true } t

theorem runframeBody_of_slices (hslices : FrameSlices s t) :
    runframeBody Config.env s =
      andThen (renderFrame Config.env t) fun _ u => done (endFrame (emitSamples u)) := by
  rw [runframeBody, slicesFrom_of_slicesRun hslices, andThen_ok]

theorem FrameSlices.goesOn (hs : s.phase = .run) (hslices : FrameSlices s t) : FrameGoesOn s t := by
  obtain ⟨hrun, hconfig, hframe⟩ := FrameGoesOn.of_slices (s := { s with inFrame := true }) hs hslices
  exact ⟨hrun, hconfig, hframe⟩

/-- After its slices and a RENDER that completes, a RUNFRAME asks for the samples and ends the frame. -/
theorem exec_runframe_of_rendered (hs : s.phase = .run) (hslices : FrameSlices s t)
    (hrender : exec .render t = .next u) (hok : u.status = codeOk) :
    exec .runframe s = .next (completed { u with
      frameStart := s.frameStart + BitVec.ofNat 64 (s.masterHz.toNat / s.frameHz.toNat)
      frameCount := s.frameCount + 1
      k := 0
      i := 0
      inFrame := false
      events := (soundHandles s).reverse.map (fun d => Event.samples d (s.params.samplesOf d)) ++ u.events }) := by
  have hslicesOn := hslices.goesOn hs
  rcases exec_render_ends hslicesOn.run hrender with ⟨w, hdrawn, rfl⟩ | ⟨w, -, rfl⟩
  · have hon : FrameGoesOn s w := hslicesOn.trans (.of_render hslicesOn.run hdrawn)
    rw [exec_runframe_run hs, runframeBody_of_slices hslices, hdrawn, andThen_ok, endCommand_done_eq,
      hon.endFrame_emitSamples]
    rfl
  · have hcode : codeColorOutOfRange = codeOk := hok
    exact absurd hcode (by decide)

/-- A fatal error of the RENDER ends a RUNFRAME as it ends the RENDER. -/
theorem exec_runframe_of_render_fatal (hs : s.phase = .run) (hslices : FrameSlices s t)
    (hrender : exec .render t = .next u) (hfatal : u.phase = .fatal) : exec .runframe s = .next u := by
  have hslicesOn := hslices.goesOn hs
  rcases exec_render_ends hslicesOn.run hrender with ⟨w, hdrawn, rfl⟩ | ⟨w, hdrawn, rfl⟩
  · have hrun : w.phase = .run := (FrameGoesOn.of_render hslicesOn.run hdrawn).run
    exact absurd (hrun.symm.trans hfatal) (by decide)
  · rw [exec_runframe_run hs, runframeBody_of_slices hslices, hdrawn, andThen_fatal, endCommand_fatal]

/-- A fatal error of a slice ends a RUNFRAME in the state it left. -/
theorem exec_runframe_of_slice_fatal (hs : s.phase = .run) (hk : k < s.slices.toNat)
    (hpre : SlicesRun Config.env s.slices.toNat (List.range k) { s with inFrame := true } t)
    (hfatal : slice Config.env s.slices.toNat k { t with k := BitVec.ofNat 16 k } = .fatal code u) :
    exec .runframe s = .next { u with status := code } := by
  rw [exec_runframe_run hs, runframeBody, slicesFrom_range_fatal hk hpre hfatal, andThen_fatal, endCommand_fatal]

end Runframe

/-- Settles O60: a slice is its CPUs' parts and its end, a RUNFRAME its slices, what RENDER does, and the end of the
frame it began; each part's fatal error ends the whole. -/
theorem runframeRunsInOrder : Obligations.RunframeRunsInOrder := by
  refine ⟨fun env S k cs s hsorted hcs => ?slice, fun s t u hs hslices hrender => ?frame,
    fun s t u k code hs hk hpre hfatal => exec_runframe_of_slice_fatal hs hk hpre hfatal⟩
  case slice =>
    obtain rfl := cpuHandles_eq hsorted hcs
    refine ⟨fun t hrun => ?_, fun pre c post t code u hsplit hpre hfatal => ?_⟩
    · rw [slice, sliceCpus_of_cpusRun hrun, andThen_ok]
      rfl
    · rw [slice, hsplit, sliceCpus_fatal hpre hfatal, andThen_fatal]
  case frame =>
    exact ⟨exec_runframe_of_rendered hs hslices hrender, exec_runframe_of_render_fatal hs hslices hrender⟩

/-! ## A frame with nothing to do (R230) -/

/-- No CPU is given a cycle, nothing is carried, no timer is armed. -/
structure IdleFrame (s : State) : Prop where
  clocks : ∀ d ∈ s.dev, d.clockHz.toNat < s.frameHz.toNat
  carry : ∀ v ∈ s.carry, v = 0
  timers : ∀ T ∈ s.timers, T.armed = false

namespace IdleFrame

variable {env : Env} {S k : Nat} {s : State}

theorem cpuCycles (h : IdleFrame s) (c : Nat) : cpuCycles s c = 0 := by
  unfold Machine.cpuCycles
  cases hd : s.dev[c]? with
  | none => exact Nat.zero_div _
  | some d => exact Nat.div_eq_of_lt (h.clocks d (List.mem_of_getElem? hd))

theorem sliceTarget (h : IdleFrame s) (S c k : Nat) : sliceTarget s S c k = 0 := by
  rw [Machine.sliceTarget, h.cpuCycles, Nat.zero_mul, Nat.zero_mul]
  exact Nat.sub_self _

theorem carry_getD (h : IdleFrame s) (c : Nat) : s.carry.getD c 0 = 0 := by
  rw [List.getD_eq_getElem?_getD]
  cases hc : s.carry[c]? with
  | none => rfl
  | some v => exact h.carry v (List.mem_of_getElem? hc)

theorem setCarry (h : IdleFrame s) (c : Nat) : setCarry c 0 s = s := by
  have hself : s.carry.set c 0 = s.carry := by
    have hset := set_getD_self s.carry c 0
    rwa [h.carry_getD] at hset
  exact congrArg (fun cs => { s with carry := cs }) hself

theorem timerDue (h : IdleFrame s) (tEnd : Word64) (n : Nat) : timerDue s tEnd n = false := by
  have harmed : (timerAt s n).armed = false := by
    rw [timerAt, List.getD_eq_getElem?_getD]
    cases hn : s.timers[n]? with
    | none => rfl
    | some T => exact h.timers T (List.mem_of_getElem? hn)
  rw [Machine.timerDue, harmed, Bool.false_and]

theorem sliceCpu (h : IdleFrame s) (S k c : Nat) : sliceCpu env S k c s = .ok () s := by
  rw [sliceCpu_of_zero (by rw [h.sliceTarget, carryAt, h.carry_getD]; rfl), h.setCarry]

/-- The CPUs' parts move the cursor alone. -/
theorem sliceCpus (h : IdleFrame s) (S k : Nat) (cs : List Nat) :
    ∃ i, sliceCpus env S k cs s = .ok () { s with i := i } := by
  induction cs generalizing s with
  | nil => exact ⟨s.i, rfl⟩
  | cons c cs ih =>
    have hnext : IdleFrame { s with i := BitVec.ofNat 8 c } := ⟨h.clocks, h.carry, h.timers⟩
    obtain ⟨i, hrest⟩ := ih hnext
    exact ⟨i, by rw [Machine.sliceCpus, hnext.sliceCpu, andThen_ok, hrest]⟩

/-- A slice moves the clock to its end. -/
theorem slice (h : IdleFrame s) (S k : Nat) :
    ∃ i, slice env S k s = .ok () { s with i := i, now := sliceEnd s S k } := by
  obtain ⟨i, hcpus⟩ := h.sliceCpus (env := env) S k (cpuHandles s)
  have hmoved : IdleFrame { s with i := i, now := sliceEnd s S k } := ⟨h.clocks, h.carry, h.timers⟩
  refine ⟨i, ?_⟩
  rw [Machine.slice, hcpus, andThen_ok]
  exact endSlice_of_none_due (s := { s with i := i, now := sliceEnd s S k }) rfl (hmoved.timerDue _)

/-- Slices move the clock to the end of the last one. -/
theorem slicesRun (h : IdleFrame s) (S : Nat) (ks : List Nat) (k : Nat) :
    ∃ i, SlicesRun env S (ks ++ [k]) s { s with k := BitVec.ofNat 16 k, i := i, now := sliceEnd s S k } := by
  induction ks generalizing s with
  | nil =>
    have hcursor : IdleFrame { s with k := BitVec.ofNat 16 k } := ⟨h.clocks, h.carry, h.timers⟩
    obtain ⟨i, hslice⟩ := hcursor.slice (env := env) S k
    exact ⟨i, .cons hslice (.nil _)⟩
  | cons j ks ih =>
    have hcursor : IdleFrame { s with k := BitVec.ofNat 16 j } := ⟨h.clocks, h.carry, h.timers⟩
    obtain ⟨i, hslice⟩ := hcursor.slice (env := env) S j
    have hnext : IdleFrame { s with k := BitVec.ofNat 16 j, i := i, now := sliceEnd s S j } :=
      ⟨h.clocks, h.carry, h.timers⟩
    obtain ⟨i', hrest⟩ := ih hnext
    exact ⟨i', .cons hslice hrest⟩

/-- The slices of a whole frame move the clock to the frame's end. -/
theorem frameSlices (h : IdleFrame s) (hS : s.slices ≠ 0) :
    ∃ i, FrameSlices s { s with
      inFrame := true, k := BitVec.ofNat 16 (s.slices.toNat - 1), i := i,
      now := s.frameStart + BitVec.ofNat 64 (s.masterHz.toNat / s.frameHz.toNat) } := by
  have hpos : 0 < s.slices.toNat := Nat.pos_of_ne_zero fun h0 => hS (BitVec.eq_of_toNat_eq h0)
  have hframe : IdleFrame { s with inFrame := true } := ⟨h.clocks, h.carry, h.timers⟩
  obtain ⟨i, hrun⟩ :=
    hframe.slicesRun (env := Config.env) s.slices.toNat (List.range (s.slices.toNat - 1)) (s.slices.toNat - 1)
  rw [sliceEnd_last _ hpos, ← List.range_succ, Nat.succ_eq_add_one, Nat.sub_add_cancel hpos] at hrun
  exact ⟨i, hrun⟩

end IdleFrame

/-- With no valid step a RENDER only shows the frame buffer. -/
theorem renderFrame_of_empty {env : Env} {s : State} (h : ∀ st ∈ s.rsteps, st.valid = false) :
    renderFrame env s = .ok () (emit (.frame (bitmapOf s)) s) := by
  have hnone : s.rsteps.filter (fun st => st.valid) = [] := List.filter_eq_nil_iff.2 fun st hst => by simp [h st hst]
  rw [renderFrame, hnone, renderSteps, andThen_ok]

/-- Settles O39: the slices move the clock to the frame's end, and the RENDER after them completes. -/
theorem runframeIdle : Obligations.RunframeIdle := by
  intro s hs hS hclocks hcarry htimers hsteps
  obtain ⟨i, hslices⟩ := IdleFrame.frameSlices ⟨hclocks, hcarry, htimers⟩ hS
  have hrender := exec_render_of_drawn (hslices.goesOn hs).run (renderFrame_of_empty hsteps)
  exact exec_runframe_of_rendered hs hslices hrender rfl

end Sys2Proof.Machine
end

/-! PROOFS of the tilemap family (spec/44_tilemap.md): TMCREATE, MARKDIRTY and SETSCROLL (R260, R264, R265). Each is
its body in the phases it is legal in, and the checks of the body decide how it ends. -/
section

namespace Sys2Proof.Machine

/-! ## TMCREATE (R132, R260) -/

section TmcreateCommand

variable {s : State} {L rf g : Word32} {w h tw th : Word16} {m : BitVec 2} {n : BitVec 9} {sm : ScrollMode}

theorem exec_tmcreate_config (hs : s.phase = .config) :
    exec (.tmcreate L w h tw th rf g m n) s =
      .next (endCommand s (tmcreateBody Config.env L w h tw th rf g m n s)) := next_configOnly hs

theorem exec_tmcreate_error {code : Byte} (hs : s.phase = .config)
    (herror : tmcreateBody Config.env L w h tw th rf g m n s = .config code) :
    exec (.tmcreate L w h tw th rf g m n) s = .next (configErrorWith code s) := by
  rw [exec_tmcreate_config hs, herror, endCommand_config_eq]

/-- A size of the grid is 0, or its plane is wider or higher than 65536 pixels (R260). -/
def badGrid (w h tw th : Word16) : Prop :=
  w = 0 ∨ h = 0 ∨ tw = 0 ∨ th = 0 ∨ 65536 < w.toNat * tw.toNat ∨ 65536 < h.toNat * th.toNat

theorem not_badGrid (hw : w ≠ 0) (hh : h ≠ 0) (htw : tw ≠ 0) (hth : th ≠ 0) (hwide : w.toNat * tw.toNat ≤ 65536)
    (hhigh : h.toNat * th.toNat ≤ 65536) : ¬badGrid w h tw th := by
  rintro (hbad | hbad | hbad | hbad | hbad | hbad)
  · exact hw hbad
  · exact hh hbad
  · exact htw hbad
  · exact hth hbad
  · exact Nat.not_lt.2 hwide hbad
  · exact Nat.not_lt.2 hhigh hbad

/-- TMCREATE asks in two checks what `badGrid` says at once; both raise one code. -/
theorem badGrid_iff : badGrid w h tw th ↔
    (w = 0 ∨ h = 0 ∨ tw = 0 ∨ th = 0) ∨ (65536 < w.toNat * tw.toNat ∨ 65536 < h.toNat * th.toNat) := by
  simp only [badGrid, or_assoc]

/-- The resolve function or the graphics table that TMCREATE names does not exist (R260). -/
def badTables (s : State) (rf g : Word32) : Prop :=
  rf.toNat ∉ s.params.resolveIds ∨ s.params.gfxOf g.toNat = none

theorem badTables_iff :
    badTables s rf g ↔ s.params.resolveIds.contains rf.toNat = false ∨ (s.params.gfxOf g.toNat).isNone = true := by
  simp [badTables]

theorem not_badTables (hrf : rf.toNat ∈ s.params.resolveIds) (hg : (s.params.gfxOf g.toNat).isSome = true) :
    ¬badTables s rf g := by
  simp [badTables, hrf, Option.isSome_iff_ne_none.1 hg]

theorem scrollCount_eq (sm : ScrollMode) (n : BitVec 9) : scrollCount sm n = if sm = .whole then 1 else n := by
  cases sm <;> rfl

variable {env : Env}

theorem tmcreateBody_of_badSlot (hslot : s.params.nlayer ≤ L.toNat ∨ (layerAt s L.toNat).valid = true) :
    tmcreateBody env L w h tw th rf g m n s = .config codeBadId := if_pos hslot

section FreeSlot

variable (hL : L.toNat < s.params.nlayer) (hfree : (layerAt s L.toNat).valid = false)

include hL hfree

theorem tmcreateBody_of_badGrid (hgrid : badGrid w h tw th) :
    tmcreateBody env L w h tw th rf g m n s = .config codeBadParam := by
  rw [tmcreateBody, if_neg (not_badSlot hL hfree)]
  by_cases hzero : w = 0 ∨ h = 0 ∨ tw = 0 ∨ th = 0
  · rw [if_pos hzero]
  · rw [if_neg hzero, if_pos ((badGrid_iff.1 hgrid).resolve_left hzero)]

variable (hgrid : ¬badGrid w h tw th)

include hgrid

theorem tmcreateBody_of_badTables (htables : badTables s rf g) :
    tmcreateBody env L w h tw th rf g m n s = .config codeBadId := by
  obtain ⟨hzero, hlarge⟩ := not_or.1 (mt badGrid_iff.2 hgrid)
  rw [tmcreateBody, if_neg (not_badSlot hL hfree), if_neg hzero, if_neg hlarge, if_pos (badTables_iff.1 htables)]

theorem tmcreateBody_of_reserved (htables : ¬badTables s rf g) (hmode : scrollModeOf m = none) :
    tmcreateBody env L w h tw th rf g m n s = .config codeBadKind := by
  obtain ⟨hzero, hlarge⟩ := not_or.1 (mt badGrid_iff.2 hgrid)
  rw [tmcreateBody, if_neg (not_badSlot hL hfree), if_neg hzero, if_neg hlarge,
    if_neg (mt badTables_iff.2 htables), hmode]

/-- After its other checks TMCREATE fails on the number of scroll entries and makes the layer otherwise (R260). -/
theorem tmcreateBody_of_mode (htables : ¬badTables s rf g) (hmode : scrollModeOf m = some sm) :
    tmcreateBody env L w h tw th rf g m n s =
      if scrollCount sm n = 0 ∨ 256 < (scrollCount sm n).toNat then .config codeBadParam
      else done (makeLayer env L.toNat
        ⟨true, w, h, tw, th, rf.setWidth 8, g.setWidth 8, sm, scrollCount sm n⟩ s) := by
  obtain ⟨hzero, hlarge⟩ := not_or.1 (mt badGrid_iff.2 hgrid)
  rw [tmcreateBody, if_neg (not_badSlot hL hfree), if_neg hzero, if_neg hlarge,
    if_neg (mt badTables_iff.2 htables), hmode]

end FreeSlot

end TmcreateCommand

/-- Settles O43: TMCREATE ends at the first of its checks that fails, and makes the layer when none does. -/
theorem tmcreateMakesALayer : Obligations.TmcreateMakesALayer := by
  refine ⟨by decide, fun L w h tw th rf g m n sm s hs hL hfree hw hh htw hth hwide hhigh hrf hg hmode hcount => ?makes,
    fun L w h tw th rf g m n s hs => ⟨fun hslot => exec_tmcreate_error hs (tmcreateBody_of_badSlot hslot),
      fun hL hfree => ⟨fun hgrid => exec_tmcreate_error hs (tmcreateBody_of_badGrid hL hfree hgrid),
        fun hw hh htw hth hwide hhigh => ?errors⟩⟩⟩
  case makes =>
    intro nent
    have hnent : scrollCount sm n = nent := scrollCount_eq sm n
    have hentries : ¬(nent = 0 ∨ 256 < nent.toNat) := by
      simp only [nent]
      split_ifs with hwhole
      · decide
      · simpa using hcount hwhole
    have hbody := tmcreateBody_of_mode (env := Config.env) (n := n) hL hfree
      (not_badGrid hw hh htw hth hwide hhigh) (not_badTables hrf hg) hmode
    rw [hnent, if_neg hentries] at hbody
    refine ⟨_, by rw [exec_tmcreate_config hs, hbody, endCommand_done_eq], rfl, fun L' hne => ?_⟩
    exact getD_set_ne hne.symm _ _ _
  case errors =>
    have hgrid := not_badGrid hw hh htw hth hwide hhigh
    refine ⟨fun hbad => exec_tmcreate_error hs (tmcreateBody_of_badTables hL hfree hgrid hbad),
      fun hrf hg => ⟨fun hm => ?kind, fun hm hn => ?count⟩⟩
    case kind =>
      exact exec_tmcreate_error hs
        (tmcreateBody_of_reserved hL hfree hgrid (not_badTables hrf hg) (by subst hm; rfl))
    case count =>
      obtain ⟨sm, hmode, hsm⟩ : ∃ sm, scrollModeOf m = some sm ∧ sm ≠ .whole := by
        rcases hm with rfl | rfl
        · exact ⟨.rows, rfl, by decide⟩
        · exact ⟨.cols, rfl, by decide⟩
      apply exec_tmcreate_error hs
      rw [tmcreateBody_of_mode hL hfree hgrid (not_badTables hrf hg) hmode, scrollCount_eq, if_neg hsm, if_pos hn]

/-! ## MARKDIRTY and SETSCROLL (R264, R265) -/

section CellCommands

variable {s : State} {L x e : Word32} {dx dy : Word16}

theorem exec_markdirty_configOrRun (hs : configOrRun s) :
    exec (.markdirty L x) s = .next (endCommand s (markdirtyBody L x s)) :=
  congrArg _ (hostCommand_legal (markdirtyBody L x) (legalIn_configRun.2 hs))

theorem exec_setscroll_configOrRun (hs : configOrRun s) :
    exec (.setscroll L e dx dy) s = .next (endCommand s (setscrollBody L e dx dy s)) :=
  congrArg _ (hostCommand_legal (setscrollBody L e dx dy) (legalIn_configRun.2 hs))

theorem markdirtyBody_of_noLayer (hL : layerOk s L.toNat = false) :
    markdirtyBody L x s = .refuse codeBadId := if_pos hL

theorem setscrollBody_of_noLayer (hL : layerOk s L.toNat = false) :
    setscrollBody L e dx dy s = .refuse codeBadId := if_pos hL

theorem setscrollBody_of_layer (hL : layerOk s L.toNat = true) :
    setscrollBody L e dx dy s =
      if (layerAt s L.toNat).nent.toNat ≤ e.toNat then .refuse codeBadParam
      else done (setScrollEntry L.toNat e.toNat ⟨dx, dy⟩ s) :=
  if_neg (by simp [hL])

end CellCommands

/-- Settles O44: the layer exists or not, and the index is in the grid, or the entry below the count, or not. -/
theorem markdirtyAndSetscroll : Obligations.MarkdirtyAndSetscroll := by
  refine ⟨fun _ _ => ⟨rfl, rfl, rfl, fun _ _ => rfl⟩, fun _ _ _ _ => ⟨rfl, rfl, rfl, fun _ _ => rfl⟩,
    fun L x s hs => ?markdirty, fun L e dx dy s hs => ?setscroll⟩
  case markdirty =>
    rw [exec_markdirty_configOrRun hs]
    refine ⟨fun hL => ?_, fun hL hin => ?_, fun hL hpast => ?_⟩
    · rw [markdirtyBody_of_noLayer hL, endCommand_refuse_eq]
    · rw [markdirtyBody_inGrid hL rfl hin, endCommand_done_eq, setDirty]
    · rw [markdirtyBody_pastGrid hL rfl hpast, endCommand_done_eq, setDirty, emit]
  case setscroll =>
    rw [exec_setscroll_configOrRun hs]
    refine ⟨fun hL => ?_, fun hL hpast => ?_, fun hL hin => ?_⟩
    · rw [setscrollBody_of_noLayer hL, endCommand_refuse_eq]
    · rw [setscrollBody_of_layer hL, if_pos hpast, endCommand_refuse_eq]
    · rw [setscrollBody_of_layer hL, if_neg (Nat.not_le.2 hin), endCommand_done_eq, setScrollEntry]

end Sys2Proof.Machine
end

/-! PROOFS of the tilemap family, second part: the lazy redraw (spec/44_tilemap.md R261, R267, R269). What Resolve has
done after the first b cells of a layer's grid is said once, with its step to one more cell; that it completes, or is
fatal at the first dirty cell whose colour group does not exist, follows by induction on b. -/
section

namespace Sys2Proof.Machine

/-! ## One dirty bit, one cache entry (10_state R40, R41) -/

/-- A table of rows with one place of one row replaced, read at any place. -/
theorem getD_modify_set {α : Type} (rows : List (List α)) (L c : Nat) (x d : α) (L' c' : Nat) :
    ((rows.modify L fun row => row.set c x).getD L' []).getD c' d =
      if L' = L ∧ c' = c ∧ c < (rows.getD L []).length then x else (rows.getD L' []).getD c' d := by
  rw [modify_eq_set_getD rows L _ []]
  rcases ne_or_eq L L' with hL | rfl
  · rw [getD_set_ne hL, if_neg fun h => hL h.1.symm]
  rcases Nat.lt_or_ge L rows.length with hlt | hge
  · rw [getD_set_self hlt]
    rcases ne_or_eq c c' with hc | rfl
    · rw [getD_set_ne hc, if_neg fun h => hc h.2.1.symm]
    · rcases Nat.lt_or_ge c (rows.getD L []).length with hin | hout
      · rw [getD_set_self hin, if_pos ⟨rfl, rfl, hin⟩]
      · rw [List.set_eq_of_length_le hout, if_neg fun h => Nat.not_lt.2 hout h.2.2]
  · have hempty : rows.getD L [] = [] := List.getD_eq_default _ _ hge
    rw [List.set_eq_of_length_le hge, hempty, if_neg fun h => Nat.not_lt_zero _ h.2.2]

theorem dirtyAt_setDirty_false (s : State) (L c L' c' : Nat) :
    dirtyAt (setDirty L c false s) L' c' = (dirtyAt s L' c' && !decide (L' = L ∧ c' = c)) := by
  rw [dirtyAt, setDirty_dirty, getD_modify_set]
  by_cases hcell : L' = L ∧ c' = c
  · obtain ⟨rfl, rfl⟩ := hcell
    split_ifs with hin
    · simp
    · have hout : (s.dirty.getD L' []).length ≤ c' := by simpa using hin
      rw [dirtyAt, List.getD_eq_default _ _ hout, Bool.false_and]
  · rw [if_neg fun h => hcell ⟨h.1, h.2.1⟩]
    simp [hcell, dirtyAt]

theorem cacheAt_setCache (s : State) (L c : Nat) (tl : Tile) (L' c' : Nat) :
    cacheAt (setCache L c tl s) L' c' =
      if L' = L ∧ c' = c ∧ c < (s.cache.getD L []).length then tl else cacheAt s L' c' := by
  rw [cacheAt, setCache_cache, getD_modify_set, cacheAt]

theorem cache_row_length_setCache (s : State) (L c : Nat) (tl : Tile) (L' : Nat) :
    ((setCache L c tl s).cache.getD L' []).length = (s.cache.getD L' []).length := by
  rw [length_getD_row, length_getD_row, setCache_cache, map_modify_of_keeps _ _ fun row => List.length_set]

/-! ## What Resolve reads (R261, R269) -/

theorem resolvedTile_eq (env : Env) (s : State) (L c : Nat) :
    resolvedTile env s L c = env.resolve (layerAt s L).rf.toNat c (fun r o =>
      if regionOk s r = true ∧ o < regionSize s r then some (readRegion env s r o) else none) := by
  have hview : regionView env s = fun r o =>
      if regionOk s r = true ∧ o < regionSize s r then some (readRegion env s r o) else none := by
    funext r o
    simp only [regionView, Bool.and_eq_true, decide_eq_true_eq]
  rw [resolvedTile, hview]

theorem cachedTile_eq (s : State) (L : Nat) (tl : Tile) :
    cachedTile s L tl =
      let n := (gfxDim s (layerAt s L).gfx.toNat).ncodes
      { tl with code :=
          if tl.code.toNat < n then tl.code
          else if s.params.oorPolicy = .wrap then BitVec.ofNat 32 (tl.code.toNat % n)
          else BitVec.ofNat 32 (n - 1) } := by
  dsimp only [cachedTile]
  rcases Nat.lt_or_ge tl.code.toNat (gfxDim s (layerAt s L).gfx.toNat).ncodes with hin | hpast
  · rw [reduceIndex_of_lt _ hin, if_pos hin, BitVec.ofNat_toNat, BitVec.setWidth_eq]
  · rw [reduceIndex_of_ge _ hpast, if_neg (Nat.not_lt.2 hpast), apply_ite (BitVec.ofNat 32)]

/-! ## One cell (R267) -/

section Cell

variable {env : Env} {s : State} {L c : Nat}

/-- What a dirty cell leaves: its diagnostic, its cache entry, its bit clear. -/
def cellRedrawn (env : Env) (L c : Nat) (s : State) : State :=
  setDirty L c false (setCache L c (cachedTile s L (resolvedTile env s L c))
    (noteIndex (resolvedTile env s L c).code.toNat (gfxDim s (layerAt s L).gfx.toNat).ncodes s))

theorem cellRedrawn_frame :
    cellRedrawn env L c s = { s with
      dirty := (cellRedrawn env L c s).dirty, cache := (cellRedrawn env L c s).cache,
      events := (indexNotice (resolvedTile env s L c).code.toNat
        (gfxDim s (layerAt s L).gfx.toNat).ncodes).reverse ++ s.events } := by
  rw [cellRedrawn, noteIndex_eq]; rfl

theorem dirtyAt_cellRedrawn (L' c' : Nat) :
    dirtyAt (cellRedrawn env L c s) L' c' = (dirtyAt s L' c' && !decide (L' = L ∧ c' = c)) := by
  rw [cellRedrawn, noteIndex_eq, dirtyAt_setDirty_false]; rfl

theorem cacheAt_cellRedrawn (L' c' : Nat) :
    cacheAt (cellRedrawn env L c s) L' c' =
      if L' = L ∧ c' = c ∧ c < (s.cache.getD L []).length then cachedTile s L (resolvedTile env s L c)
      else cacheAt s L' c' := by
  rw [cellRedrawn, noteIndex_eq]
  exact cacheAt_setCache { s with events := _ } L c _ L' c'

theorem cache_row_length_cellRedrawn (L' : Nat) :
    ((cellRedrawn env L c s).cache.getD L' []).length = (s.cache.getD L' []).length := by
  rw [cellRedrawn, noteIndex_eq]
  exact cache_row_length_setCache { s with events := _ } L c _ L'

theorem resolveCell_of_clean (h : dirtyAt s L c = false) : resolveCell env L c s = .ok () s := if_pos h

theorem resolveCell_of_dirty (h : dirtyAt s L c = true)
    (hcolour : (resolvedTile env s L c).color.toNat < s.params.ngroup) :
    resolveCell env L c s = .ok () (cellRedrawn env L c s) := by
  rw [resolveCell, if_neg (by simp [h]), if_neg (Nat.not_le.2 hcolour), cellRedrawn]

theorem resolveCell_of_noColour (h : dirtyAt s L c = true)
    (hcolour : s.params.ngroup ≤ (resolvedTile env s L c).color.toNat) :
    resolveCell env L c s = .fatal codeColorOutOfRange (fatalState codeColorOutOfRange s) := by
  rw [resolveCell, if_neg (by simp [h]), if_pos hcolour, raiseFatal]

theorem resolveCells_append (xs ys : List Nat) (s : State) :
    resolveCells env L (xs ++ ys) s = andThen (resolveCells env L xs s) fun _ t => resolveCells env L ys t := by
  induction xs generalizing s with
  | nil => rfl
  | cons x xs ih =>
    rw [List.cons_append, resolveCells, resolveCells]
    cases resolveCell env L x s with
    | ok v t => rw [andThen_ok, andThen_ok, ih]
    | config => rfl
    | refuse => rfl
    | fatal => rfl

/-- A list of one more cell. -/
theorem resolveCells_range_succ (n : Nat) (s : State) :
    resolveCells env L (List.range (n + 1)) s =
      andThen (resolveCells env L (List.range n) s) fun _ t => resolveCell env L n t := by
  rw [List.range_succ, resolveCells_append]
  congr 1
  funext _ t
  rw [resolveCells]
  cases resolveCell env L n t <;> rfl

end Cell

/-! ## The first cells of a grid (R267) -/

/-- Resolve has gone from s to t through the first b cells of layer L. -/
structure CellsResolved (env : Env) (L b : Nat) (s t : State) : Prop where
  frame : t = { s with
    dirty := t.dirty, cache := t.cache, events := (cellNotices env s L (List.range b)).reverse ++ s.events }
  dirty : ∀ L' c, dirtyAt t L' c = (dirtyAt s L' c && !decide (L' = L ∧ c < b))
  cache : ∀ L' c, cacheAt t L' c =
    if (L' = L ∧ c < b ∧ c < (s.cache.getD L []).length) ∧ dirtyAt s L c = true then
      cachedTile s L (resolvedTile env s L c)
    else cacheAt s L' c
  row : (t.cache.getD L []).length = (s.cache.getD L []).length

/-- Each of the first b cells that is dirty resolves to a colour group that exists. -/
def ColoursExist (env : Env) (L b : Nat) (s : State) : Prop :=
  ∀ c, c < b → dirtyAt s L c = true → (resolvedTile env s L c).color.toNat < s.params.ngroup

theorem cellNotices_range_succ (env : Env) (s : State) (L b : Nat) :
    cellNotices env s L (List.range (b + 1)) =
      cellNotices env s L (List.range b) ++
        if dirtyAt s L b then
          indexNotice (resolvedTile env s L b).code.toNat (gfxDim s (layerAt s L).gfx.toNat).ncodes
        else [] := by
  rw [cellNotices, cellNotices, List.range_succ, List.flatMap_append, List.flatMap_singleton]

namespace CellsResolved

variable {env : Env} {L b : Nat} {s t : State}

theorem zero (env : Env) (L : Nat) (s : State) : CellsResolved env L 0 s s where
  frame := rfl
  dirty := by simp
  cache := by simp
  row := rfl

theorem resolvedTile_eq (h : CellsResolved env L b s t) (L' c : Nat) :
    resolvedTile env t L' c = resolvedTile env s L' c := by
  rw [h.frame]; rfl

theorem cachedTile_eq (h : CellsResolved env L b s t) (L' : Nat) (tl : Tile) :
    cachedTile t L' tl = cachedTile s L' tl := by
  rw [h.frame]; rfl

theorem layerAt_eq (h : CellsResolved env L b s t) (L' : Nat) : layerAt t L' = layerAt s L' := by
  rw [h.frame]; rfl

theorem params_eq (h : CellsResolved env L b s t) : t.params = s.params := by rw [h.frame]

theorem gfxDim_eq (h : CellsResolved env L b s t) (g : Nat) : gfxDim t g = gfxDim s g := by
  rw [gfxDim, h.params_eq, gfxDim]

theorem events_eq (h : CellsResolved env L b s t) :
    t.events = (cellNotices env s L (List.range b)).reverse ++ s.events := by rw [h.frame]

/-- The cells that Resolve has not come to are as they were. -/
theorem dirtyAt_self (h : CellsResolved env L b s t) : dirtyAt t L b = dirtyAt s L b := by
  simp [h.dirty]

/-- One cell more, clean. -/
theorem succ_of_clean (h : CellsResolved env L b s t) (hclean : dirtyAt s L b = false) :
    CellsResolved env L (b + 1) s t where
  frame := by
    rw [cellNotices_range_succ, hclean, if_neg Bool.false_ne_true, List.append_nil]
    exact h.frame
  dirty L' c := by
    rw [h.dirty]
    rcases eq_or_ne c b with rfl | hc
    · by_cases hL : L' = L <;> simp [hL, hclean]
    · have hlt : c < b ↔ c < b + 1 := by omega
      rw [decide_eq_decide.2 (and_congr_right fun _ => hlt)]
  cache L' c := by
    rw [h.cache]
    rcases eq_or_ne c b with rfl | hc
    · simp [hclean]
    · have hlt : c < b ↔ c < b + 1 := by omega
      simp only [hlt]
  row := h.row

theorem update_eq (h : CellsResolved env L b s t) (D : List (List Bool)) (C : List (List Tile)) (E : List Event) :
    ({ t with dirty := D, cache := C, events := E } : State) = { s with dirty := D, cache := C, events := E } := by
  rw [h.frame]

/-- One cell more, dirty. -/
theorem succ_of_dirty (h : CellsResolved env L b s t) (hdirty : dirtyAt s L b = true) :
    CellsResolved env L (b + 1) s (cellRedrawn env L b t) where
  frame := by
    rw [cellNotices_range_succ, hdirty, if_pos rfl, List.reverse_append, List.append_assoc, ← h.events_eq,
      ← h.update_eq, ← h.resolvedTile_eq, ← h.layerAt_eq, ← h.gfxDim_eq]
    exact cellRedrawn_frame
  dirty L' c := by
    have hlt : (L' = L ∧ c < b ∨ L' = L ∧ c = b) ↔ L' = L ∧ c < b + 1 := by omega
    rw [dirtyAt_cellRedrawn, h.dirty, Bool.and_assoc, ← Bool.not_or, ← Bool.decide_or, decide_eq_decide.2 hlt]
  cache L' c := by
    rw [cacheAt_cellRedrawn, h.cache, h.row, h.cachedTile_eq, h.resolvedTile_eq]
    rcases eq_or_ne c b with rfl | hc
    · simp [hdirty]
    · have hlt : c < b ↔ c < b + 1 := by omega
      rw [if_neg fun hcell => hc hcell.2.1]
      simp only [hlt]
  row := (cache_row_length_cellRedrawn L).trans h.row

end CellsResolved

section Resolve

variable {env : Env} {L b n : Nat} {s : State}

/-- Where the colour groups exist, Resolve goes through the first cells. -/
theorem resolveCells_of_coloursExist (hcolours : ColoursExist env L b s) :
    ∃ t, resolveCells env L (List.range b) s = .ok () t ∧ CellsResolved env L b s t := by
  induction b with
  | zero => exact ⟨s, rfl, .zero env L s⟩
  | succ b ih =>
    obtain ⟨t, hcells, h⟩ := ih fun c hc => hcolours c (Nat.lt_succ_of_lt hc)
    rw [resolveCells_range_succ, hcells, andThen_ok]
    cases hdirty : dirtyAt s L b with
    | false => exact ⟨t, resolveCell_of_clean (h.dirtyAt_self.trans hdirty), h.succ_of_clean hdirty⟩
    | true =>
      have hcolour : (resolvedTile env t L b).color.toNat < t.params.ngroup := by
        rw [h.resolvedTile_eq, h.params_eq]
        exact hcolours b (Nat.lt_succ_self b) hdirty
      exact ⟨_, resolveCell_of_dirty (h.dirtyAt_self.trans hdirty) hcolour, h.succ_of_dirty hdirty⟩

/-- At the first dirty cell whose colour group does not exist Resolve is fatal, whatever cells follow. -/
theorem resolveCells_of_noColour (hcolours : ColoursExist env L b s) (hdirty : dirtyAt s L b = true)
    (hcolour : s.params.ngroup ≤ (resolvedTile env s L b).color.toNat) (hb : b < n) :
    ∃ t, resolveCells env L (List.range n) s = .fatal codeColorOutOfRange (fatalState codeColorOutOfRange t) ∧
      CellsResolved env L b s t := by
  obtain ⟨t, hcells, h⟩ := resolveCells_of_coloursExist hcolours
  refine ⟨t, ?_, h⟩
  induction n with
  | zero => exact absurd hb (Nat.not_lt_zero b)
  | succ n ih =>
    rw [resolveCells_range_succ]
    rcases Nat.lt_succ_iff_lt_or_eq.1 hb with hlt | rfl
    · rw [ih hlt, andThen_fatal]
    · rw [hcells, andThen_ok]
      refine resolveCell_of_noColour (h.dirtyAt_self.trans hdirty) ?_
      rwa [h.resolvedTile_eq, h.params_eq]

/-- Either every colour group exists, or there is a first dirty cell whose group does not. -/
theorem coloursExist_or_first (env : Env) (L n : Nat) (s : State) :
    ColoursExist env L n s ∨ ∃ b, b < n ∧ ColoursExist env L b s ∧ dirtyAt s L b = true ∧
      s.params.ngroup ≤ (resolvedTile env s L b).color.toNat := by
  induction n with
  | zero => exact .inl fun c hc => absurd hc (Nat.not_lt_zero c)
  | succ n ih =>
    rcases ih with hall | ⟨b, hb, hfirst⟩
    · by_cases hbad : dirtyAt s L n = true ∧ s.params.ngroup ≤ (resolvedTile env s L n).color.toNat
      · exact .inr ⟨n, Nat.lt_succ_self n, hall, hbad⟩
      · refine .inl fun c hc hdirty => ?_
        rcases Nat.lt_succ_iff_lt_or_eq.1 hc with hlt | rfl
        · exact hall c hlt hdirty
        · exact Nat.not_le.1 fun hcolour => hbad ⟨hdirty, hcolour⟩
    · exact .inr ⟨b, Nat.lt_succ_of_lt hb, hfirst⟩

end Resolve

end Sys2Proof.Machine
end

/-! PROOFS of the tilemap family, third part: TMCOMPOSITE (spec/44_tilemap.md R263, R266, R268, R271). It is Resolve and
then a picture painted through the clip rectangle; the picture reads of the state the layer's configuration, its scroll
entries, the sizes of its graphics table and its cache, and no dirty bit (property P3). -/
section

namespace Sys2Proof.Machine

/-! ## The pixel of a layer (R263, R268, R271) -/

/-- The cell and the place in it of a plane coordinate that lies in column tx and row ty (R263). -/
theorem cellOf_eq {ly : Layer} {sx sy tx ty i j : Nat} (hi : i < ly.tw.toNat) (hj : j < ly.th.toNat)
    (hx : sx = tx * ly.tw.toNat + i) (hy : sy = ty * ly.th.toNat + j) :
    cellOf ly sx sy = ty * ly.w.toNat + tx ∧ sx % ly.tw.toNat = i ∧ sy % ly.th.toNat = j := by
  have hdiv {t n k : Nat} (hk : k < n) : (t * n + k) / n = t ∧ (t * n + k) % n = k :=
    ⟨by rw [Nat.mul_comm, Nat.mul_add_div (Nat.zero_lt_of_lt hk), Nat.div_eq_of_lt hk, Nat.add_zero],
      by rw [Nat.mul_comm, Nat.mul_add_mod, Nat.mod_eq_of_lt hk]⟩
  subst hx hy
  rw [cellOf, (hdiv hi).1, (hdiv hj).1]
  exact ⟨rfl, (hdiv hi).2, (hdiv hj).2⟩

/-- The pixel that a layer shows where the scrolled and wrapped plane coordinates name a place (R268, R271). -/
theorem tilePixel_of_place {env : Env} {s : State} {L x y tx ty i j : Nat} :
    let ly := layerAt s L
    let sc := scrollAt s L (scrollEntryOf ly x y)
    let tile := cacheAt s L (ty * ly.w.toNat + tx)
    i < ly.tw.toNat → j < ly.th.toNat →
    (x + sc.dx.toNat) % (ly.w.toNat * ly.tw.toNat) = tx * ly.tw.toNat + i →
    (y + sc.dy.toNat) % (ly.h.toNat * ly.th.toNat) = ty * ly.th.toNat + j →
    tilePixel env s L x y = ⟨tile.color, penOf env s ly.gfx.toNat 0 tile.code.toNat
      (mirrored tile.flipY ly.th.toNat j) (mirrored tile.flipX ly.tw.toNat i)⟩ := by
  intro ly sc tile hi hj hx hy
  obtain ⟨hcell, hcolumn, hrow⟩ := cellOf_eq hi hj hx hy
  simp only [tilePixel]
  rw [hcell, hcolumn, hrow]

/-- What the drawing of a layer reads of a state, besides its cache (R266, R268, R271). -/
def drawInputs (s : State) : Params × List Layer × List (List Scroll) × BitVec 15 × BitVec 15 × List Pixel :=
  (s.params, s.layers, s.scroll, s.sw, s.sh, s.fb)

theorem tilePixel_congr {env : Env} {s t : State} {L : Nat} (hinputs : drawInputs t = drawInputs s)
    (hcache : ∀ c, cacheAt t L c = cacheAt s L c) (x y : Nat) : tilePixel env t L x y = tilePixel env s L x y := by
  simp only [drawInputs, Prod.mk.injEq] at hinputs
  obtain ⟨hparams, hlayers, hscroll, -⟩ := hinputs
  simp only [tilePixel, penOf, gfxDim, layerAt, scrollAt, hparams, hlayers, hscroll, hcache]

/-- The transparency test (R266). -/
theorem layerPicture_getD (env : Env) (s : State) (L : Nat) (mode : Bool) (pen : Word16) (x y : Nat) (px : Pixel) :
    (layerPicture env s L mode pen x y).getD px =
      if mode = true ∧ (tilePixel env s L x y).p = pen then px else tilePixel env s L x y := by
  simp only [layerPicture, Bool.and_eq_true, beq_iff_eq]
  split_ifs <;> rfl

/-- On the screen the clip rectangle is the command's (R133, R266). -/
theorem clipHas_clipOf {s : State} {x y : Nat} (hx : x < s.sw.toNat) (hy : y < s.sh.toNat) (x0 y0 x1 y1 : Nat) :
    clipHas (clipOf s x0 y0 x1 y1) x y = true ↔ x0 ≤ x ∧ x ≤ x1 ∧ y0 ≤ y ∧ y ≤ y1 := by
  simp only [clipHas, Bool.and_eq_true, decide_eq_true_eq]
  dsimp only [clipOf]
  omega

theorem paint_fb_congr {s t : State} (hfb : t.fb = s.fb) (hsw : t.sw = s.sw) (clip : Clip)
    (picture : Nat → Nat → Option Pixel) : (paint clip picture t).fb = (paint clip picture s).fb := by
  rw [paint_fb, paint_fb, hfb, hsw]

/-! ## The command (R266) -/

section Composite

variable {s t : State} {x0 y0 x1 y1 : Word16} {L : Word32} {mode : Bool} {pen : Word16}

theorem exec_tmcomposite_run (hs : s.phase = .run) :
    exec (.tmcomposite x0 y0 x1 y1 L mode pen) s =
      .next (endCommand s (tmcompositeBody Config.env x0 y0 x1 y1 L mode pen s)) :=
  congrArg _ (hostCommand_legal _ (legalIn_runOnly.2 hs))

theorem tmcompositeBody_of_noLayer {env : Env} (hL : layerOk s L.toNat = false) :
    tmcompositeBody env x0 y0 x1 y1 L mode pen s = .refuse codeBadId := if_pos hL

theorem tmcompositeBody_of_layer {env : Env} (hL : layerOk s L.toNat = true) :
    tmcompositeBody env x0 y0 x1 y1 L mode pen s =
      andThen (resolveLayer env L.toNat s) fun _ t =>
        done (paint (clipOf t x0.toNat y0.toNat x1.toNat y1.toNat) (layerPicture env t L.toNat mode pen) t) :=
  if_neg (by simp [hL])

/-- What TMCOMPOSITE makes of the state that Resolve leaves. -/
def layerDrawn (x0 y0 x1 y1 : Word16) (L : Nat) (mode : Bool) (pen : Word16) (t : State) : State :=
  paint (clipOf t x0.toNat y0.toNat x1.toNat y1.toNat) (layerPicture Config.env t L mode pen) t

/-- The next state of a command that was fatal at a colour group in state t (60_exceptions R354). -/
def colourFatal (t : State) : State := { fatalState codeColorOutOfRange t with status := codeColorOutOfRange }

theorem colourFatal_status (t : State) : (colourFatal t).status = codeColorOutOfRange := rfl
theorem dirtyAt_colourFatal (t : State) (L c : Nat) : dirtyAt (colourFatal t) L c = dirtyAt t L c := rfl
theorem cacheAt_colourFatal (t : State) (L c : Nat) : cacheAt (colourFatal t) L c = cacheAt t L c := rfl
theorem fbAt_colourFatal (t : State) (x y : Nat) : fbAt (colourFatal t) x y = fbAt t x y := rfl

theorem exec_tmcomposite_of_coloursExist (hs : s.phase = .run) (hL : layerOk s L.toNat = true)
    (hcolours : ColoursExist Config.env L.toNat (cellCount (layerAt s L.toNat)) s) :
    ∃ t, CellsResolved Config.env L.toNat (cellCount (layerAt s L.toNat)) s t ∧
      exec (.tmcomposite x0 y0 x1 y1 L mode pen) s =
        .next (completed (layerDrawn x0 y0 x1 y1 L.toNat mode pen t)) := by
  obtain ⟨t, hcells, h⟩ := resolveCells_of_coloursExist hcolours
  refine ⟨t, h, ?_⟩
  rw [exec_tmcomposite_run hs, tmcompositeBody_of_layer hL, resolveLayer, hcells, andThen_ok, endCommand_done_eq,
    layerDrawn]

theorem exec_tmcomposite_of_noColour {b : Nat} (hs : s.phase = .run) (hL : layerOk s L.toNat = true)
    (hb : b < cellCount (layerAt s L.toNat)) (hcolours : ColoursExist Config.env L.toNat b s)
    (hdirty : dirtyAt s L.toNat b = true)
    (hcolour : s.params.ngroup ≤ (resolvedTile Config.env s L.toNat b).color.toNat) :
    ∃ t, CellsResolved Config.env L.toNat b s t ∧
      exec (.tmcomposite x0 y0 x1 y1 L mode pen) s =
        .next (colourFatal t) := by
  obtain ⟨t, hcells, h⟩ := resolveCells_of_noColour hcolours hdirty hcolour hb
  refine ⟨t, h, ?_⟩
  rw [exec_tmcomposite_run hs, tmcompositeBody_of_layer hL, resolveLayer, hcells, andThen_fatal, endCommand_fatal,
    colourFatal]

/-- A TMCOMPOSITE that completed met no colour group that does not exist. -/
theorem coloursExist_of_completed (hs : s.phase = .run) (hL : layerOk s L.toNat = true)
    (hexec : exec (.tmcomposite x0 y0 x1 y1 L mode pen) s = .next t) (hok : t.status = codeOk) :
    ColoursExist Config.env L.toNat (cellCount (layerAt s L.toNat)) s := by
  rcases coloursExist_or_first Config.env L.toNat (cellCount (layerAt s L.toNat)) s with
    hall | ⟨b, hb, hcolours, hdirty, hcolour⟩
  · exact hall
  · obtain ⟨r, -, hfatal⟩ := exec_tmcomposite_of_noColour hs hL hb hcolours hdirty hcolour
    rw [hfatal] at hexec
    cases hexec
    rw [colourFatal_status] at hok
    exact absurd hok (by decide)

/-- One screen pixel after the drawing (R266). -/
theorem fbAt_layerDrawn (hfb : t.fb.length = t.sw.toNat * t.sh.toNat) (L : Nat) {x y : Nat} (hx : x < t.sw.toNat)
    (hy : y < t.sh.toNat) :
    fbAt (layerDrawn x0 y0 x1 y1 L mode pen t) x y =
      if x0.toNat ≤ x ∧ x ≤ x1.toNat ∧ y0.toNat ≤ y ∧ y ≤ y1.toNat ∧
          ¬(mode = true ∧ (tilePixel Config.env t L x y).p = pen) then tilePixel Config.env t L x y
      else fbAt t x y := by
  rw [layerDrawn, paint_fbAt _ _ hfb hx hy, layerPicture_getD]
  simp only [clipHas_clipOf hx hy]
  split_ifs <;> tauto

theorem layerDrawn_fb_congr {L : Nat} {r q : State} (hinputs : drawInputs q = drawInputs r)
    (hcache : ∀ c, cacheAt q L c = cacheAt r L c) :
    (layerDrawn x0 y0 x1 y1 L mode pen q).fb = (layerDrawn x0 y0 x1 y1 L mode pen r).fb := by
  have hpicture : layerPicture Config.env q L mode pen = layerPicture Config.env r L mode pen := by
    funext x y
    rw [layerPicture, layerPicture, tilePixel_congr hinputs hcache]
  simp only [drawInputs, Prod.mk.injEq] at hinputs
  obtain ⟨-, -, -, hsw, hsh, hfb⟩ := hinputs
  rw [layerDrawn, layerDrawn, hpicture, paint_fb_congr hfb hsw, clipOf, clipOf, hsw, hsh]

end Composite

namespace CellsResolved

variable {env : Env} {L b : Nat} {s t : State}

theorem drawInputs_eq (h : CellsResolved env L b s t) : drawInputs t = drawInputs s := by rw [h.frame]; rfl

/-- When the whole grid is resolved, no bit of the layer is set: the row of bits has the grid's length. -/
theorem dirtyAt_of_grid (h : CellsResolved env L (cellCount (layerAt s L)) s t)
    (hrow : (s.dirty.getD L []).length = cellCount (layerAt s L)) (L' c : Nat) :
    dirtyAt t L' c = (dirtyAt s L' c && decide (L' ≠ L)) := by
  rw [h.dirty]
  rcases ne_or_eq L' L with hL | rfl
  · simp [hL]
  rcases Nat.lt_or_ge c (cellCount (layerAt s L')) with hc | hc
  · simp [hc]
  · rw [dirtyAt, List.getD_eq_default _ _ (hrow ▸ hc), Bool.false_and, Bool.false_and]

theorem cacheAt_other (h : CellsResolved env L b s t) {L' : Nat} (hL : L' ≠ L) (c : Nat) :
    cacheAt t L' c = cacheAt s L' c := by
  rw [h.cache, if_neg fun hcell => hL hcell.1.1]

/-- Where a dirty cell is resolved and has its entry, whether it was dirty decides its entry. -/
theorem cacheAt_of_entry (h : CellsResolved env L b s t) {c : Nat}
    (hentry : dirtyAt s L c = true → c < b ∧ c < (s.cache.getD L []).length) :
    cacheAt t L c =
      if dirtyAt s L c = true then cachedTile s L (resolvedTile env s L c) else cacheAt s L c := by
  rw [h.cache]
  cases hdirty : dirtyAt s L c with
  | true => rw [if_pos ⟨⟨rfl, hentry hdirty⟩, rfl⟩, if_pos rfl]
  | false => rw [if_neg (by simp), if_neg Bool.false_ne_true]

/-- Of a coherent cache Resolve leaves what `resolve_fn` gives in every cell of the grid that has an entry. -/
theorem cacheAt_of_coherent (h : CellsResolved env L (cellCount (layerAt s L)) s t) (hs : cacheCoherent env s L)
    (c : Nat) :
    cacheAt t L c =
      if c < cellCount (layerAt s L) ∧ c < (s.cache.getD L []).length then cachedTile s L (resolvedTile env s L c)
      else cacheAt s L c := by
  rw [h.cache]
  by_cases hcell : c < cellCount (layerAt s L) ∧ c < (s.cache.getD L []).length
  · rw [if_pos hcell]
    cases hdirty : dirtyAt s L c with
    | true => rw [if_pos ⟨⟨rfl, hcell⟩, rfl⟩]
    | false => rw [if_neg (by simp), (hs c hcell.1 hdirty).1]
  · rw [if_neg hcell, if_neg fun hc => hcell hc.1.2]

/-- The next state of a TMCOMPOSITE, with its frame (R266). -/
theorem completed_layerDrawn (h : CellsResolved Config.env L b s t) (x0 y0 x1 y1 : Word16) (mode : Bool)
    (pen : Word16) :
    completed (layerDrawn x0 y0 x1 y1 L mode pen t) = { s with
      status := codeOk, fb := (layerDrawn x0 y0 x1 y1 L mode pen t).fb, dirty := t.dirty, cache := t.cache,
      events := (cellNotices Config.env s L (List.range b)).reverse ++ s.events } :=
  congrArg (fun v : State => { v with status := codeOk, fb := (layerDrawn x0 y0 x1 y1 L mode pen t).fb }) h.frame

end CellsResolved

/-- A dirty cell lies in the grid and has its cache entry. -/
theorem LayerShaped.dirty_lt {s : State} {L c : Nat} (h : LayerShaped s L) (hdirty : dirtyAt s L c = true) :
    c < cellCount (layerAt s L) ∧ c < (s.cache.getD L []).length := by
  have hc : c < (s.dirty.getD L []).length := by
    by_contra hout
    rw [dirtyAt, List.getD_eq_default _ _ (Nat.not_lt.1 hout)] at hdirty
    cases hdirty
  exact ⟨h.dirty ▸ hc, h.cache ▸ h.dirty ▸ hc⟩

/-- Settles O45: Resolve goes through the whole grid, and its picture is painted through the clip rectangle. -/
theorem tmcompositeDrawsTheLayer : Obligations.TmcompositeDrawsTheLayer := by
  refine ⟨fun x0 y0 x1 y1 L mode pen s hs hL => ?refused,
    fun env s L c tl => ⟨resolvedTile_eq env s L c, cachedTile_eq s L tl⟩, fun env s L x y tx ty i j => ?pixel,
    fun x0 y0 x1 y1 L mode pen s hs hshape hL hcolours => ?draws⟩
  case refused => rw [exec_tmcomposite_run hs, tmcompositeBody_of_noLayer hL, endCommand_refuse_eq]
  case pixel =>
    intro ly sc tile _ _ hi hj hx hy
    exact tilePixel_of_place hi hj hx hy
  case draws =>
    obtain ⟨t, h, hexec⟩ := exec_tmcomposite_of_coloursExist hs hL hcolours
    have hlayer := hshape.layerRows _ hL
    have hinputs := h.drawInputs_eq
    simp only [drawInputs, Prod.mk.injEq] at hinputs
    obtain ⟨-, -, -, hsw, hsh, hfb⟩ := hinputs
    refine ⟨_, hexec, ?frame, h.dirtyAt_of_grid hlayer.dirty, fun L' c => ?cache, fun x y hx hy => ?pixels,
      h.events_eq⟩
    case frame => rw [h.completed_layerDrawn, ← h.events_eq]
    case cache =>
      change cacheAt t L' c = _
      by_cases hL' : L' = L.toNat
      · subst hL'
        simp only [h.cacheAt_of_entry hlayer.dirty_lt, true_and]
      · rw [h.cacheAt_other hL', if_neg fun hcell => hL' hcell.1]
    case pixels =>
      have hsize : t.fb.length = t.sw.toNat * t.sh.toNat := by rw [hfb, hsw, hsh, hshape.screen hs]
      have hold : fbAt t x y = fbAt s x y := by rw [fbAt, hfb, hsw, fbAt]
      rw [← hold]
      exact fbAt_layerDrawn hsize L.toNat (hsw ▸ hx) (hsh ▸ hy)

/-! ## Marking every cell dirty (R267, P3) -/

theorem dirtyAt_allDirty {s : State} {L c : Nat} (h : dirtyAt s L c = true) : dirtyAt (allDirty s) L c = true := by
  have hrow : (allDirty s).dirty.getD L [] = (s.dirty.getD L []).map fun _ => true :=
    List.getD_map (l := s.dirty) (d := []) fun row => row.map fun _ => true
  rw [dirtyAt, List.getD_eq_getElem?_getD] at h
  rw [dirtyAt, hrow, List.getD_eq_getElem?_getD, List.getElem?_map]
  cases hc : (s.dirty.getD L [])[c]? with
  | none => rw [hc] at h; cases h
  | some v => rfl

/-- Settles O47: Resolve leaves the same cache entries after both, and the picture reads nothing else of the cells. -/
theorem dirtyTrackingUnseen : Obligations.DirtyTrackingUnseen := by
  intro x0 y0 x1 y1 L mode pen s t hs hL hcoherent hexec hok
  have hclean {c : Nat} (h : dirtyAt (allDirty s) L.toNat c = false) : dirtyAt s L.toNat c = false :=
    Bool.eq_false_iff.2 fun hdirty => by rw [dirtyAt_allDirty hdirty] at h; cases h
  have hcolours := coloursExist_of_completed hs hL hexec hok
  have hcoherent' : cacheCoherent Config.env (allDirty s) L.toNat := fun c hc h => hcoherent c hc (hclean h)
  have hcolours' : ColoursExist Config.env L.toNat (cellCount (layerAt s L.toNat)) (allDirty s) := by
    intro c hc _
    cases hdirty : dirtyAt s L.toNat c with
    | true => exact hcolours c hc hdirty
    | false => exact (hcoherent c hc hdirty).2
  obtain ⟨r, hr, hexec'⟩ := exec_tmcomposite_of_coloursExist hs hL hcolours
  obtain ⟨q, hq, hexecAll⟩ := exec_tmcomposite_of_coloursExist (s := allDirty s) hs hL hcolours'
  rw [hexec'] at hexec
  cases hexec
  have hinputs : drawInputs q = drawInputs r := hq.drawInputs_eq.trans hr.drawInputs_eq.symm
  refine ⟨_, hexecAll, rfl, layerDrawn_fb_congr hinputs fun c => ?_⟩
  exact (hq.cacheAt_of_coherent hcoherent' c).trans (hr.cacheAt_of_coherent hcoherent c).symm

end Sys2Proof.Machine
end

/-! PROOFS of the tilemap family, fourth part: a colour group that does not exist (spec/44_tilemap.md R267,
spec/45_sprite.md R292). What the records of a list have drawn is said once, record after record;
TMCOMPOSITE and SPCOMPOSITE end in the same way, after the cells and the records that come before. -/
section

namespace Sys2Proof.Machine

/-! ## The records of a list (45_sprite R292, R295) -/

/-- The records of a list, drawn in its order, lead from s to t. -/
structure SpritesDrawn (env : Env) (clip : Clip) (only : Bool) (p : Byte) (ns : List Nat) (s t : State) : Prop where
  frame : t = { s with fb := t.fb, events := (spriteNotices env s only p ns).reverse ++ s.events }
  size : t.fb.length = s.fb.length
  pixel : s.fb.length = s.sw.toNat * s.sh.toNat → ∀ x y, x < s.sw.toNat → y < s.sh.toNat →
    fbAt t x y = if clipHas clip x y then ns.foldl (spriteOver env s only p x y) (fbAt s x y) else fbAt s x y

/-- The drawn ones of a list of records have a colour group that exists. -/
def SpriteColoursExist (env : Env) (only : Bool) (p : Byte) (ns : List Nat) (s : State) : Prop :=
  ∀ m ∈ ns, spriteDrawn env s only p m → (spriteRecord env s m).color.toNat < s.params.ngroup

section Sprites

variable {env : Env} {clip : Clip} {only : Bool} {p : Byte} {n : Nat} {ns : List Nat} {s t u : State}

namespace SpritesDrawn

theorem params_eq (h : SpritesDrawn env clip only p ns s t) : t.params = s.params := by rw [h.frame]

theorem screen_eq (h : SpritesDrawn env clip only p ns s t) : t.sw = s.sw ∧ t.sh = s.sh := by
  rw [h.frame]; exact ⟨rfl, rfl⟩

theorem spriteRecord_eq (h : SpritesDrawn env clip only p ns s t) (m : Nat) :
    spriteRecord env t m = spriteRecord env s m := by
  rw [h.frame]; rfl

theorem spriteNotices_eq (h : SpritesDrawn env clip only p ns s t) (ms : List Nat) :
    spriteNotices env t only p ms = spriteNotices env s only p ms := by
  rw [h.frame]; rfl

theorem spriteOver_eq (h : SpritesDrawn env clip only p ns s t) (x y : Nat) :
    spriteOver env t only p x y = spriteOver env s only p x y := by
  rw [h.frame]; rfl

theorem nil (env : Env) (clip : Clip) (only : Bool) (p : Byte) (s : State) : SpritesDrawn env clip only p [] s s where
  frame := rfl
  size := rfl
  pixel _ x y _ _ := by simp

/-- A record that is not drawn. -/
theorem hidden (hd : ¬spriteDrawn env s only p n) : SpritesDrawn env clip only p [n] s s where
  frame := by simp [spriteNotices, hd]
  size := rfl
  pixel _ x y _ _ := by simp [spriteOver, hd]

/-- A record that is drawn, over what is there. -/
theorem drawn (hd : spriteDrawn env s only p n) :
    SpritesDrawn env clip only p [n] s (paint clip
      (spritePicture env s (spriteRecord env s n)
        (reduceIndex s.params.oorPolicy (spriteRecord env s n).code.toNat (gfxDim s s.spr.gfx.toNat).ncodes)
        (reduceIndex s.params.oorPolicy (spriteRecord env s n).bank.toNat (gfxDim s s.spr.gfx.toNat).ngbank))
      { s with events := (spriteNotices env s only p [n]).reverse ++ s.events }) where
  frame := rfl
  size := by simp
  pixel hsize x y hx hy := by
    refine (paint_fbAt clip _ (s := { s with events := _ }) hsize hx hy).trans ?_
    rw [List.foldl_cons, List.foldl_nil, spriteOver, if_pos hd]

/-- A list after a record. -/
theorem cons (h : SpritesDrawn env clip only p [n] s t) (hrest : SpritesDrawn env clip only p ns t u) :
    SpritesDrawn env clip only p (n :: ns) s u where
  frame := by
    have hnotices : (spriteNotices env s only p (n :: ns)).reverse ++ s.events =
        (spriteNotices env t only p ns).reverse ++ t.events := by
      rw [h.spriteNotices_eq, h.frame]
      simp [spriteNotices]
    rw [hnotices]
    have hstep := congrArg (fun v : State => { v with
      fb := u.fb, events := (spriteNotices env t only p ns).reverse ++ t.events }) h.frame
    exact hrest.frame.trans hstep
  size := hrest.size.trans h.size
  pixel hsize x y hx hy := by
    obtain ⟨hsw, hsh⟩ := h.screen_eq
    have hsize' : t.fb.length = t.sw.toNat * t.sh.toNat := by rw [h.size, hsw, hsh, hsize]
    rw [hrest.pixel hsize' x y (hsw ▸ hx) (hsh ▸ hy), h.pixel hsize x y hx hy, h.spriteOver_eq]
    split_ifs <;> rfl

end SpritesDrawn

/-- Where the colour groups exist, the records of a list are drawn. -/
theorem drawSprites_of_coloursExist (hcolours : SpriteColoursExist env only p ns s) :
    ∃ t, drawSprites env clip only p ns s = .ok () t ∧ SpritesDrawn env clip only p ns s t := by
  induction ns generalizing s with
  | nil => exact ⟨s, rfl, .nil env clip only p s⟩
  | cons n ns ih =>
    have hfirst : ∃ t, drawSprite env clip only p n s = .ok () t ∧ SpritesDrawn env clip only p [n] s t := by
      by_cases hd : spriteDrawn env s only p n
      · exact ⟨_, drawSprite_drawn hd (hcolours n (by simp) hd), .drawn hd⟩
      · exact ⟨s, drawSprite_hidden hd, .hidden hd⟩
    obtain ⟨t, hdraw, h⟩ := hfirst
    have hcolours' : SpriteColoursExist env only p ns t := by
      intro m hm
      simp only [spriteDrawn, h.spriteRecord_eq, h.params_eq]
      exact hcolours m (by simp [hm])
    obtain ⟨u, hrest, h'⟩ := ih hcolours'
    exact ⟨u, by rw [drawSprites, hdraw, andThen_ok, hrest], h.cons h'⟩

theorem drawSprites_append (xs ys : List Nat) (s : State) :
    drawSprites env clip only p (xs ++ ys) s =
      andThen (drawSprites env clip only p xs s) fun _ t => drawSprites env clip only p ys t := by
  induction xs generalizing s with
  | nil => rfl
  | cons x xs ih =>
    rw [List.cons_append, drawSprites, drawSprites]
    cases drawSprite env clip only p x s with
    | ok v t => rw [andThen_ok, andThen_ok, ih]
    | config => rfl
    | refuse => rfl
    | fatal => rfl

/-- A drawn record whose colour group does not exist is fatal (R292). -/
theorem drawSprite_of_noColour (hd : spriteDrawn env s only p n)
    (hcolour : s.params.ngroup ≤ (spriteRecord env s n).color.toNat) :
    drawSprite env clip only p n s = .fatal codeColorOutOfRange (fatalState codeColorOutOfRange s) := by
  have hshown := (spriteShown_iff env s only p n).2 hd
  simp only [drawSprite, hshown, Bool.true_eq_false, if_false, if_pos hcolour, raiseFatal]

/-- At the first drawn record whose colour group does not exist the drawing is fatal, whatever records follow. -/
theorem drawSprites_of_noColour (post : List Nat) (hcolours : SpriteColoursExist env only p ns s)
    (hd : spriteDrawn env s only p n) (hcolour : s.params.ngroup ≤ (spriteRecord env s n).color.toNat) :
    ∃ t, drawSprites env clip only p (ns ++ n :: post) s =
        .fatal codeColorOutOfRange (fatalState codeColorOutOfRange t) ∧ SpritesDrawn env clip only p ns s t := by
  obtain ⟨t, hdraw, h⟩ := drawSprites_of_coloursExist (clip := clip) hcolours
  have hd' : spriteDrawn env t only p n := by rwa [spriteDrawn, h.spriteRecord_eq]
  have hcolour' : t.params.ngroup ≤ (spriteRecord env t n).color.toNat := by rwa [h.params_eq, h.spriteRecord_eq]
  refine ⟨t, ?_, h⟩
  rw [drawSprites_append, hdraw, andThen_ok, drawSprites, drawSprite_of_noColour hd' hcolour', andThen_fatal]

end Sprites

/-! ## SPCOMPOSITE (45_sprite R292) -/

theorem exec_spcomposite_run {x0 y0 x1 y1 : Word16} {only : Bool} {p : Byte} {s : State} (hs : s.phase = .run) :
    exec (.spcomposite x0 y0 x1 y1 only p) s =
      .next (endCommand s (spcompositeBody Config.env x0 y0 x1 y1 only p s)) :=
  congrArg _ (hostCommand_legal _ (legalIn_runOnly.2 hs))

theorem spcompositeBody_of_valid {env : Env} {x0 y0 x1 y1 : Word16} {only : Bool} {p : Byte} {s : State}
    (hspr : s.spr.valid = true) :
    spcompositeBody env x0 y0 x1 y1 only p s =
      andThen (drawSprites env (clipOf s x0.toNat y0.toNat x1.toNat y1.toNat) only p (spriteOrder s.spr) s)
        fun _ t => done t :=
  if_neg (by simp [hspr])

/-- Settles O46: each compositor stops at the first colour group that does not exist, after what came before. -/
theorem colorOutOfRange : Obligations.ColorOutOfRange := by
  refine ⟨fun x0 y0 x1 y1 L mode pen s b hs hL hb hdirty hcolour hcolours => ?cells,
    fun x0 y0 x1 y1 only p s hs => exec_spcomposite_run hs,
    fun env x0 y0 x1 y1 only p s pre post n hsize hspr horder hd hcolour hcolours => ?records⟩
  case cells =>
    obtain ⟨t, h, hexec⟩ := exec_tmcomposite_of_noColour hs hL hb hcolours hdirty hcolour
    refine ⟨colourFatal t, hexec, congrArg colourFatal h.frame, ?_⟩
    simp only [dirtyAt_colourFatal, cacheAt_colourFatal]
    refine ⟨fun c hc => ?clean, fun hshape c hc => ?cache, fun c hc => ?later, fun L' c hL' => ?other⟩
    case clean => simp [h.dirty, hc]
    case cache => exact h.cacheAt_of_entry fun hset => ⟨hc, ((hshape.layerRows _ hL).dirty_lt hset).2⟩
    case later => simp [h.dirty, h.cache, Nat.not_lt.2 hc]
    case other => exact ⟨by simp [h.dirty, hL'], h.cacheAt_other hL' c⟩
  case records =>
    obtain ⟨t, hdraw, h⟩ := drawSprites_of_noColour
      (clip := clipOf s x0.toNat y0.toNat x1.toNat y1.toNat) post hcolours hd hcolour
    have hend : endCommand s (spcompositeBody env x0 y0 x1 y1 only p s) = colourFatal t := by
      rw [spcompositeBody_of_valid hspr, spriteOrder, horder, hdraw, andThen_fatal, endCommand_fatal, colourFatal]
    refine ⟨colourFatal t, hend, congrArg colourFatal h.frame, fun x y hx hy => ?_⟩
    rw [fbAt_colourFatal, h.pixel hsize x y hx hy]
    simp only [clipHas_clipOf hx hy]

end Sys2Proof.Machine
end

/-! PROOFS of the sprite family (spec/45_sprite.md): SPCFG's checks and the configuration it writes, the pixel that a
record gives, and the records drawn in their order. What a list of records draws is `SpritesDrawn` of the tilemap
family's fourth part. -/
section

namespace Sys2Proof.Machine

/-! ## SPCFG (R290) -/

section SpcfgCommand

variable {s : State} {r b df g : Word32} {st n w h tp : Word16} {rev ht : Bool}

theorem exec_spcfg_config (hs : s.phase = .config) :
    exec (.spcfg r b st n df g w h rev ht tp) s =
      .next (endCommand s (spcfgBody r b st n df g w h rev ht tp s)) := next_configOnly hs

theorem spcfgBody_of_noRegion (hbad : s.spr.valid = true ∨ regionOk s r.toNat = false) :
    spcfgBody r b st n df g w h rev ht tp s = .config codeBadId := by
  rw [spcfgBody]
  by_cases hspr : s.spr.valid = true
  · rw [if_pos hspr]
  · rw [if_neg hspr, if_pos (hbad.resolve_left hspr)]

/-- The decode function or the graphics table that SPCFG names does not exist (R290). -/
def noSpriteTables (s : State) (df g : Word32) : Prop :=
  df.toNat ∉ s.params.decodeIds ∨ s.params.gfxOf g.toNat = none

theorem noSpriteTables_iff :
    noSpriteTables s df g ↔
      s.params.decodeIds.contains df.toNat = false ∨ (s.params.gfxOf g.toNat).isNone = true := by
  simp [noSpriteTables]

theorem not_noSpriteTables (hdf : df.toNat ∈ s.params.decodeIds) (hg : (s.params.gfxOf g.toNat).isSome = true) :
    ¬noSpriteTables s df g := by
  simp [noSpriteTables, hdf, Option.isSome_iff_ne_none.1 hg]

section FreeConfiguration

variable (hspr : s.spr.valid = false) (hr : regionOk s r.toNat = true)

include hspr hr

/-- With no configuration yet and a region that exists, the sizes are checked next (R290). -/
theorem spcfgBody_of_region :
    spcfgBody r b st n df g w h rev ht tp s =
      if st = 0 ∨ w = 0 ∨ h = 0 then .config codeBadParam
      else if s.params.decodeIds.contains df.toNat = false ∨ (s.params.gfxOf g.toNat).isNone then .config codeBadId
      else done { s with
        spr := ⟨true, r.setWidth 8, b, st, n, df.setWidth 8, g.setWidth 8, w, h, rev, ht, tp⟩ } := by
  rw [spcfgBody, if_neg (by simp [hspr]), if_neg (by simp [hr])]

theorem spcfgBody_of_noSize (hzero : st = 0 ∨ w = 0 ∨ h = 0) :
    spcfgBody r b st n df g w h rev ht tp s = .config codeBadParam := by
  rw [spcfgBody_of_region hspr hr, if_pos hzero]

variable (hsizes : ¬(st = 0 ∨ w = 0 ∨ h = 0))

include hsizes

theorem spcfgBody_of_noTables (htables : noSpriteTables s df g) :
    spcfgBody r b st n df g w h rev ht tp s = .config codeBadId := by
  rw [spcfgBody_of_region hspr hr, if_neg hsizes, if_pos (noSpriteTables_iff.1 htables)]

theorem spcfgBody_of_tables (htables : ¬noSpriteTables s df g) :
    spcfgBody r b st n df g w h rev ht tp s = done { s with
      spr := ⟨true, r.setWidth 8, b, st, n, df.setWidth 8, g.setWidth 8, w, h, rev, ht, tp⟩ } := by
  rw [spcfgBody_of_region hspr hr, if_neg hsizes, if_neg (mt noSpriteTables_iff.2 htables)]

end FreeConfiguration

end SpcfgCommand

/-- Settles O48: the four outcomes of the body's checks, each the end of the command in Config. -/
theorem spcfgConfigures : Obligations.SpcfgConfigures := by
  refine ⟨fun _ _ _ _ _ _ _ _ _ _ _ => ⟨rfl, rfl, rfl, fun _ _ => rfl⟩,
    fun r b st n df g w h rev ht tp s hs => ?outcomes⟩
  rw [exec_spcfg_config hs]
  refine ⟨fun hbad => ?region, fun hspr hr hzero => ?size, fun hspr hr hst hw hh hno => ?tables,
    fun hspr hr hst hw hh hdf hg => ?writes⟩
  case region => rw [spcfgBody_of_noRegion hbad, endCommand_config_eq]
  case size => rw [spcfgBody_of_noSize hspr hr hzero, endCommand_config_eq]
  case tables =>
    have hsizes := not_or.2 ⟨hst, not_or.2 ⟨hw, hh⟩⟩
    rw [spcfgBody_of_noTables hspr hr hsizes hno, endCommand_config_eq]
  case writes =>
    have hsizes := not_or.2 ⟨hst, not_or.2 ⟨hw, hh⟩⟩
    rw [spcfgBody_of_tables hspr hr hsizes (not_noSpriteTables hdf hg), endCommand_done_eq]

/-! ## The bytes of a record and the pixels it gives (R291, R292, R293, R296) -/

section Record

variable {env : Env} {s : State} {D : SpriteRec} {code bank x y c r : Nat}

theorem length_spriteBytes (env : Env) (s : State) (n : Nat) : (spriteBytes env s n).length = s.spr.stride.toNat := by
  rw [spriteBytes, List.length_map, List.length_range]

/-- The byte b of a record, wrapped at the end of its region (R293). -/
theorem getElem?_spriteBytes (env : Env) (s : State) (n : Nat) {b : Nat} (hb : b < s.spr.stride.toNat) :
    (spriteBytes env s n)[b]? = some (readRegion env s s.spr.region.toNat
      ((s.spr.base.toNat + n * s.spr.stride.toNat + b) % regionSize s s.spr.region.toNat)) := by
  rw [spriteBytes, List.getElem?_map, List.getElem?_range hb, Option.map_some]

/-- The pixel of row r and column c of the mirrored graphic (R292, R296). -/
theorem spritePicture_of_place (hc : c < s.spr.spw.toNat) (hr : r < s.spr.sph.toNat)
    (hx : (x : Int) = D.x.toInt + c) (hy : (y : Int) = D.y.toInt + r) :
    let pen := penOf env s s.spr.gfx.toNat bank code
      (mirrored D.flipY s.spr.sph.toNat r) (mirrored D.flipX s.spr.spw.toNat c)
    spritePicture env s D code bank x y =
      if s.spr.hasTpen = true ∧ pen = s.spr.tpen then none else some ⟨D.color, pen⟩ := by
  have hcolumn : (x : Int) - D.x.toInt = c := by omega
  have hrow : (y : Int) - D.y.toInt = r := by omega
  have hinside : (0 : Int) ≤ c ∧ (c : Int) < s.spr.spw.toNat ∧ (0 : Int) ≤ r ∧ (r : Int) < s.spr.sph.toNat := by
    omega
  simp only [spritePicture, hcolumn, hrow, if_pos hinside, Int.toNat_natCast, Bool.and_eq_true, beq_iff_eq]

/-- A record gives nothing outside its rectangle (R292). -/
theorem spritePicture_outside
    (hout : ∀ c r, c < s.spr.spw.toNat → r < s.spr.sph.toNat →
      ¬((x : Int) = D.x.toInt + c ∧ (y : Int) = D.y.toInt + r)) :
    spritePicture env s D code bank x y = none := by
  refine if_neg fun ⟨hc, hcw, hr, hrh⟩ => ?_
  exact hout ((x : Int) - D.x.toInt).toNat ((y : Int) - D.y.toInt).toNat (by omega) (by omega) (by omega)

end Record

/-! ## SPCOMPOSITE where the colour groups exist (R292, R295) -/

theorem spcompositeBody_of_invalid {env : Env} {x0 y0 x1 y1 : Word16} {only : Bool} {p : Byte} {s : State}
    (hspr : s.spr.valid = false) : spcompositeBody env x0 y0 x1 y1 only p s = .refuse codeBadId := if_pos hspr

theorem mem_spriteOrder {cfg : SpriteCfg} {n : Nat} : n ∈ spriteOrder cfg ↔ n < cfg.count.toNat := by
  rw [spriteOrder]
  split_ifs <;> simp

/-- SPCOMPOSITE completes, and what it leaves has the records drawn in their order. -/
theorem exec_spcomposite_of_coloursExist {x0 y0 x1 y1 : Word16} {only : Bool} {p : Byte} {s : State}
    (hs : s.phase = .run) (hspr : s.spr.valid = true)
    (hcolours : SpriteColoursExist Config.env only p (spriteOrder s.spr) s) :
    ∃ t, exec (.spcomposite x0 y0 x1 y1 only p) s = .next (completed t) ∧
      SpritesDrawn Config.env (clipOf s x0.toNat y0.toNat x1.toNat y1.toNat) only p (spriteOrder s.spr) s t := by
  obtain ⟨t, hdraw, h⟩ := drawSprites_of_coloursExist
    (clip := clipOf s x0.toNat y0.toNat x1.toNat y1.toNat) hcolours
  refine ⟨t, ?_, h⟩
  rw [exec_spcomposite_run hs, spcompositeBody_of_valid hspr, hdraw, andThen_ok, endCommand_done_eq]

/-- Settles O49: the records of the order are drawn one over the other, as `SpritesDrawn` says. -/
theorem spcompositeDrawsInOrder : Obligations.SpcompositeDrawsInOrder := by
  refine ⟨fun x0 y0 x1 y1 only p s hs hspr => ?refused,
    fun env s n => ⟨rfl, length_spriteBytes env s n, fun b hb => getElem?_spriteBytes env s n hb⟩,
    fun env s D code bank x y => ⟨fun c r hc hr hx hy => spritePicture_of_place hc hr hx hy, spritePicture_outside⟩,
    fun x0 y0 x1 y1 only p s hs hsize hspr hcolours => ?draws⟩
  case refused => rw [exec_spcomposite_run hs, spcompositeBody_of_invalid hspr, endCommand_refuse_eq]
  case draws =>
    intro order
    obtain ⟨t, hexec, h⟩ := exec_spcomposite_of_coloursExist (x0 := x0) (y0 := y0) (x1 := x1) (y1 := y1) hs hspr
      fun n hn => hcolours n (mem_spriteOrder.1 hn)
    refine ⟨completed t, hexec, congrArg completed h.frame, fun x y hx hy => ?_⟩
    refine (h.pixel hsize x y hx hy).trans ?_
    simp only [clipHas_clipOf hx hy, order, spriteOrder]

end Sys2Proof.Machine
end

/-! PROOFS of the frame family (spec/46_frame.md): SETFLIP, SETPEN and SETPAL (R313, R314, R315), and RSTEP with its
checks (R132, R316). Each is its body in the phases it is legal in, and the checks of the body decide how it ends. -/
section

namespace Sys2Proof.Machine

/-! ## SETFLIP, SETPEN and SETPAL (R313, R314, R315) -/

section Settings

variable {s : State} {f : Bool} {g p v n : Word32} {rgb : Rgb}

theorem exec_setflip_configOrRun (hs : configOrRun s) :
    exec (.setflip f) s = .next (completed { s with flip := f }) :=
  congrArg _ (hostCommand_legal (setflipBody f) (legalIn_configRun.2 hs))

theorem exec_setpen_configOrRun (hs : configOrRun s) :
    exec (.setpen g p v) s = .next (endCommand s (setpenBody g p v s)) :=
  congrArg _ (hostCommand_legal (setpenBody g p v) (legalIn_configRun.2 hs))

theorem exec_setpal_configOrRun (hs : configOrRun s) :
    exec (.setpal n rgb) s = .next (endCommand s (setpalBody n rgb s)) :=
  congrArg _ (hostCommand_legal (setpalBody n rgb) (legalIn_configRun.2 hs))

theorem setpenBody_of_badIndex
    (hbad : s.params.ngroup ≤ g.toNat ∨ s.params.npens ≤ p.toNat ∨ s.params.npal ≤ v.toNat) :
    setpenBody g p v s = .refuse codeBadParam := if_pos hbad

theorem setpenBody_inRange (hg : g.toNat < s.params.ngroup) (hp : p.toNat < s.params.npens)
    (hv : v.toNat < s.params.npal) :
    setpenBody g p v s =
      done { s with lookup := s.lookup.set (g.toNat * s.params.npens + p.toNat) (v.setWidth 16) } :=
  if_neg (by omega)

theorem setpalBody_of_badIndex (hn : s.params.npal ≤ n.toNat) :
    setpalBody n rgb s = .refuse codeBadParam := if_pos hn

theorem setpalBody_inRange (hn : n.toNat < s.params.npal) :
    setpalBody n rgb s = done { s with palette := s.palette.set n.toNat rgb } := if_neg (Nat.not_le.2 hn)

end Settings

/-- Settles O52: SETFLIP has no check, and the other two end as their indices are in range or not. -/
theorem setflipSetpenSetpal : Obligations.SetflipSetpenSetpal := by
  refine ⟨fun _ => ⟨rfl, rfl, rfl, fun _ _ => rfl⟩, fun _ _ _ => ⟨rfl, rfl, rfl, fun _ _ => rfl⟩,
    fun _ _ => ⟨rfl, rfl, rfl, fun _ _ => rfl⟩,
    fun s hs => ⟨fun f => exec_setflip_configOrRun hs, fun g p v => ?setpen, fun n rgb => ?setpal⟩⟩
  case setpen =>
    rw [exec_setpen_configOrRun hs]
    refine ⟨fun hg hp hv => ?_, fun hbad => ?_⟩
    · rw [setpenBody_inRange hg hp hv, endCommand_done_eq]
    · rw [setpenBody_of_badIndex hbad, endCommand_refuse_eq]
  case setpal =>
    rw [exec_setpal_configOrRun hs]
    refine ⟨fun hn => ?_, fun hn => ?_⟩
    · rw [setpalBody_inRange hn, endCommand_done_eq]
    · rw [setpalBody_of_badIndex hn, endCommand_refuse_eq]

/-! ## RSTEP (R132, R316) -/

section RstepCommand

variable {s : State} {n ra rb rc : Word32} {rk : BitVec 2} {kd : RenderKind} {code : Byte}

theorem exec_rstep_config (hs : s.phase = .config) :
    exec (.rstep n rk ra rb rc) s = .next (endCommand s (rstepBody n rk ra rb rc s)) := next_configOnly hs

theorem rstepBody_of_badSlot (hslot : s.params.nrstep ≤ n.toNat ∨ (rstepAt s n.toNat).valid = true) :
    rstepBody n rk ra rb rc s = .config codeBadId := if_pos hslot

/-- RSTEP's check passes where the pair, the layer or the sprite configuration that the step names exists (R316). -/
theorem rstepCheck_eq_none (h : kd = .fill ∧ ra.toNat < s.params.ngroup ∧ rb.toNat < s.params.npens ∨
    kd = .layer ∧ layerOk s ra.toNat = true ∨ kd = .sprites ∧ s.spr.valid = true) :
    rstepCheck s kd ra rb = none := by
  rcases h with ⟨rfl, hg, hp⟩ | ⟨rfl, hL⟩ | ⟨rfl, hspr⟩
  · exact if_neg (by omega)
  · exact if_neg (by simp [hL])
  · exact if_neg (by simp [hspr])

section FreeSlot

variable (hn : n.toNat < s.params.nrstep) (hfree : (rstepAt s n.toNat).valid = false)

include hn hfree

theorem rstepBody_of_reserved (hk : renderKindOf rk = none) :
    rstepBody n rk ra rb rc s = .config codeBadKind := by
  rw [rstepBody, if_neg (not_badSlot hn hfree), hk]

theorem rstepBody_of_badOperands (hk : renderKindOf rk = some kd) (hcheck : rstepCheck s kd ra rb = some code) :
    rstepBody n rk ra rb rc s = .config code := by
  rw [rstepBody, if_neg (not_badSlot hn hfree), hk]
  simp only [hcheck]

theorem rstepBody_of_passed (hk : renderKindOf rk = some kd) (hcheck : rstepCheck s kd ra rb = none) :
    rstepBody n rk ra rb rc s = done { s with rsteps := s.rsteps.set n.toNat ⟨true, kd, ra, rb, rc⟩ } := by
  rw [rstepBody, if_neg (not_badSlot hn hfree), hk]
  simp only [hcheck]

end FreeSlot

end RstepCommand

/-- Settles O53: the slot is checked first, then the kind, then the operands as the kind asks. -/
theorem rstepDefinesAStep : Obligations.RstepDefinesAStep := by
  refine ⟨fun _ _ _ _ _ => ⟨rfl, rfl, rfl, fun _ _ => rfl⟩, ⟨rfl, rfl, rfl, rfl⟩, fun n ra rb rc rk s hs => ?_⟩
  rw [exec_rstep_config hs]
  refine ⟨fun hslot => ?slot, fun hn hfree =>
    ⟨fun hrk => ?kind, fun hrk hbad => ?fill, fun hrk hL => ?layer, fun hrk hspr => ?sprites,
      fun kd hk hlegal => ?writes⟩⟩
  case slot => rw [rstepBody_of_badSlot hslot, endCommand_config_eq]
  case kind => rw [rstepBody_of_reserved hn hfree (hrk ▸ rfl), endCommand_config_eq]
  case fill => rw [rstepBody_of_badOperands (kd := .fill) hn hfree (hrk ▸ rfl) (if_pos hbad), endCommand_config_eq]
  case layer => rw [rstepBody_of_badOperands (kd := .layer) hn hfree (hrk ▸ rfl) (if_pos hL), endCommand_config_eq]
  case sprites =>
    rw [rstepBody_of_badOperands (kd := .sprites) hn hfree (hrk ▸ rfl) (if_pos hspr), endCommand_config_eq]
  case writes => rw [rstepBody_of_passed hn hfree hk (rstepCheck_eq_none hlegal), endCommand_done_eq]

end Sys2Proof.Machine
end

/-! PROOFS of the frame family, second part: RENDER (spec/46_frame.md R310, R311, R312). A compositor's body does not
read STATUS, so a step of the render list is the command it stands for, but for STATUS; a list of steps runs as its
commands do, one after the other. -/
section

namespace Sys2Proof.Machine

/-! ## Drawing does not read STATUS (10_state R22) -/

/-- The same end with another STATUS in the state it left. -/
def Res.withStatus {α : Type} (v : Byte) : Res α → Res α
  | .ok a t => .ok a { t with status := v }
  | .config code => .config code
  | .refuse code => .refuse code
  | .fatal code t => .fatal code { t with status := v }

section Status

variable {α β : Type} {env : Env} (v : Byte) (s : State)

theorem withStatus_andThen {x : Res α} {f : α → State → Res β}
    (hf : ∀ a t, f a { t with status := v } = (f a t).withStatus v) :
    andThen (x.withStatus v) f = (andThen x f).withStatus v := by
  cases x with
  | ok a t => exact hf a t
  | config => rfl
  | refuse => rfl
  | fatal => rfl

theorem noteIndex_withStatus (i n : Nat) :
    noteIndex i n { s with status := v } = { noteIndex i n s with status := v } := by
  rw [noteIndex_eq, noteIndex_eq]

theorem resolveCell_withStatus (L c : Nat) :
    resolveCell env L c { s with status := v } = (resolveCell env L c s).withStatus v := by
  unfold resolveCell
  rw [noteIndex_withStatus]
  rw [apply_ite (Res.withStatus v), apply_ite (Res.withStatus v)]
  rfl

theorem resolveCells_withStatus (L : Nat) (cs : List Nat) :
    resolveCells env L cs { s with status := v } = (resolveCells env L cs s).withStatus v := by
  induction cs generalizing s with
  | nil => rfl
  | cons c cs ih =>
    rw [resolveCells, resolveCell_withStatus, withStatus_andThen v fun _ t => ih t, resolveCells]

theorem tmcompositeBody_withStatus (x0 y0 x1 y1 : Word16) (L : Word32) (mode : Bool) (pen : Word16) :
    tmcompositeBody env x0 y0 x1 y1 L mode pen { s with status := v } =
      (tmcompositeBody env x0 y0 x1 y1 L mode pen s).withStatus v := by
  cases hL : layerOk s L.toNat with
  | false => rw [tmcompositeBody_of_noLayer hL, tmcompositeBody_of_noLayer (s := { s with status := v }) hL]; rfl
  | true =>
    rw [tmcompositeBody_of_layer hL, tmcompositeBody_of_layer (s := { s with status := v }) hL, resolveLayer,
      resolveLayer, ← withStatus_andThen v fun _ _ => rfl, ← resolveCells_withStatus]
    rfl

theorem drawSprite_withStatus (clip : Clip) (only : Bool) (p : Byte) (n : Nat) :
    drawSprite env clip only p n { s with status := v } = (drawSprite env clip only p n s).withStatus v := by
  by_cases hd : spriteDrawn env s only p n
  · rcases Nat.lt_or_ge (spriteRecord env s n).color.toNat s.params.ngroup with hcolour | hcolour
    · rw [drawSprite_drawn hd hcolour, drawSprite_drawn (s := { s with status := v }) hd hcolour]; rfl
    · rw [drawSprite_of_noColour hd hcolour, drawSprite_of_noColour (s := { s with status := v }) hd hcolour]; rfl
  · rw [drawSprite_hidden hd, drawSprite_hidden (s := { s with status := v }) hd]; rfl

theorem drawSprites_withStatus (clip : Clip) (only : Bool) (p : Byte) (ns : List Nat) :
    drawSprites env clip only p ns { s with status := v } = (drawSprites env clip only p ns s).withStatus v := by
  induction ns generalizing s with
  | nil => rfl
  | cons n ns ih =>
    rw [drawSprites, drawSprite_withStatus, withStatus_andThen v fun _ t => ih t, drawSprites]

theorem spcompositeBody_withStatus (x0 y0 x1 y1 : Word16) (only : Bool) (p : Byte) :
    spcompositeBody env x0 y0 x1 y1 only p { s with status := v } =
      (spcompositeBody env x0 y0 x1 y1 only p s).withStatus v := by
  cases hspr : s.spr.valid with
  | false => rw [spcompositeBody_of_invalid hspr, spcompositeBody_of_invalid (s := { s with status := v }) hspr]; rfl
  | true =>
    rw [spcompositeBody_of_valid hspr, spcompositeBody_of_valid (s := { s with status := v }) hspr,
      ← withStatus_andThen v fun _ _ => rfl, ← drawSprites_withStatus]
    rfl

theorem nestedDraw_withStatus (x : Res Answer) :
    nestedDraw { s with status := v } (x.withStatus v) = (nestedDraw s x).withStatus v := by
  cases x <;> rfl

theorem renderStep_withStatus (st : RStep) :
    renderStep env st { s with status := v } = (renderStep env st s).withStatus v := by
  unfold renderStep
  cases st.rk with
  | fill => rfl
  | layer => exact (congrArg _ (tmcompositeBody_withStatus v s _ _ _ _ _ _ _)).trans (nestedDraw_withStatus v s _)
  | sprites => exact (congrArg _ (spcompositeBody_withStatus v s _ _ _ _ _ _)).trans (nestedDraw_withStatus v s _)

theorem renderSteps_withStatus (sts : List RStep) :
    renderSteps env sts { s with status := v } = (renderSteps env sts s).withStatus v := by
  induction sts generalizing s with
  | nil => rfl
  | cons st sts ih =>
    rw [renderSteps, renderStep_withStatus, withStatus_andThen v fun _ t => ih t, renderSteps]

end Status

/-! ## A step as the command it stands for (R310, log 16) -/

section StepCommand

variable {s t u : State} {st : RStep} {i : Instr} {pre post : List RStep}

/-- How a compositor ends: it draws, it is refused, or it meets a colour group that does not exist. -/
inductive CompositorEnds : Res Answer → Prop
  | drawn (w : State) : CompositorEnds (done w)
  | refused : CompositorEnds (.refuse codeBadId)
  | fatal (w : State) : CompositorEnds (.fatal codeColorOutOfRange w)

/-- Drawing and one more update. -/
theorem CompositorEnds.of_draws {x : Res Unit} (hx : x.Draws s) (f : State → State) :
    CompositorEnds (andThen x fun _ t => done (f t)) := by
  cases x with
  | ok v t => exact .drawn (f t)
  | config => exact hx.elim
  | refuse => exact hx.elim
  | fatal code w => cases hx; exact .fatal w

theorem tmcompositeBody_ends (env : Env) (x0 y0 x1 y1 : Word16) (L : Word32) (mode : Bool) (pen : Word16) (s : State) :
    CompositorEnds (tmcompositeBody env x0 y0 x1 y1 L mode pen s) := by
  cases hL : layerOk s L.toNat with
  | false => rw [tmcompositeBody_of_noLayer hL]; exact .refused
  | true => rw [tmcompositeBody_of_layer hL]; exact .of_draws (Res.Draws.resolveCells _ _ s) _

theorem spcompositeBody_ends (env : Env) (x0 y0 x1 y1 : Word16) (only : Bool) (p : Byte) (s : State) :
    CompositorEnds (spcompositeBody env x0 y0 x1 y1 only p s) := by
  cases hspr : s.spr.valid with
  | false => rw [spcompositeBody_of_invalid hspr]; exact .refused
  | true => rw [spcompositeBody_of_valid hspr]; exact .of_draws (Res.Draws.drawSprites _ _ _ _ s) _

/-- A step and its command have one body: the host ends it as a command, RENDER as a part of its own. -/
theorem renderStep_of_stepCommand (hs : s.phase = .run) (hi : stepCommand s st = some i) :
    ∃ x, CompositorEnds x ∧ exec i s = .next (endCommand s x) ∧ renderStep Config.env st s = nestedDraw s x := by
  unfold stepCommand at hi
  unfold renderStep
  cases hk : st.rk with
  | fill => rw [hk] at hi; cases hi
  | layer => rw [hk] at hi; cases hi; exact ⟨_, tmcompositeBody_ends _ _ _ _ _ _ _ _ s, exec_tmcomposite_run hs, rfl⟩
  | sprites => rw [hk] at hi; cases hi; exact ⟨_, spcompositeBody_ends _ _ _ _ _ _ _ s, exec_spcomposite_run hs, rfl⟩

theorem renderStep_keeps_run {env : Env} (hs : s.phase = .run) (h : renderStep env st s = .ok () t) :
    t.phase = .run := by
  have hkeeps := (configGrows_kept env).renderStep st s hs
  rw [h] at hkeeps
  exact hkeeps.2.trans hs

/-- Where the command completed, so did the step, in the same state but for STATUS. -/
theorem renderStep_of_completed (hs : s.phase = .run) (hi : stepCommand s st = some i) (hexec : exec i s = .next t)
    (hok : t.status = codeOk) : ∃ w, renderStep Config.env st s = .ok () w ∧ t = completed w := by
  obtain ⟨x, hx, hend, hstep⟩ := renderStep_of_stepCommand hs hi
  rw [hend] at hexec
  cases hx with
  | drawn w => cases hexec; exact ⟨w, hstep, rfl⟩
  | refused =>
    cases hexec
    have hcode : codeBadId = codeOk := hok
    exact absurd hcode (by decide)
  | fatal w =>
    cases hexec
    have hcode : codeColorOutOfRange = codeOk := hok
    exact absurd hcode (by decide)

/-- Where the command was fatal, so was the step, in the same state but for STATUS. -/
theorem renderStep_of_fatal (hs : s.phase = .run) (hi : stepCommand s st = some i) (hexec : exec i s = .next u)
    (hfatal : u.phase = .fatal) :
    ∃ code w, renderStep Config.env st s = .fatal code w ∧ u = { w with status := code } := by
  obtain ⟨x, hx, hend, hstep⟩ := renderStep_of_stepCommand hs hi
  rw [hend] at hexec
  cases hx with
  | drawn w =>
    cases hexec
    exact absurd ((renderStep_keeps_run hs hstep).symm.trans hfatal) (by decide)
  | refused =>
    cases hexec
    exact absurd (hs.symm.trans hfatal) (by decide)
  | fatal w => cases hexec; exact ⟨_, w, hstep, rfl⟩

/-! ## The steps of a list (R310, R311) -/

/-- The steps of a list complete where its commands do, in the same state but for STATUS. -/
theorem renderSteps_of_drawn {sts : List RStep} (h : Drawn sts s t) (hs : s.phase = .run) :
    t.phase = .run ∧ ∃ v, renderSteps Config.env sts s = .ok () { t with status := v } := by
  induction h with
  | nil s => exact ⟨hs, s.status, rfl⟩
  | fill kind rest ih =>
    obtain ⟨hrun, v, hrest⟩ := ih hs
    refine ⟨hrun, v, ?_⟩
    rw [renderSteps, renderStep, kind]
    exact hrest
  | @command st sts s t u i stands first complete rest ih =>
    obtain ⟨w, hstep, rfl⟩ := renderStep_of_completed hs stands first complete
    have hw : w.phase = .run := renderStep_keeps_run hs hstep
    obtain ⟨hrun, v, hrest⟩ := ih hw
    refine ⟨hrun, w.status, ?_⟩
    have hsame := renderSteps_withStatus (env := Config.env) w.status (completed w) sts
    rw [hrest] at hsame
    rw [renderSteps, hstep, andThen_ok]
    exact hsame

theorem renderSteps_append {env : Env} (pre post : List RStep) (s : State) :
    renderSteps env (pre ++ post) s = andThen (renderSteps env pre s) fun _ t => renderSteps env post t := by
  induction pre generalizing s with
  | nil => rfl
  | cons st pre ih => simp only [List.cons_append, renderSteps, andThen_assoc, ih]

/-- A fatal step ends the list. -/
theorem renderSteps_of_fatal (hpre : Drawn pre s t) (hs : s.phase = .run) (hi : stepCommand t st = some i)
    (hexec : exec i t = .next u) (hfatal : u.phase = .fatal) :
    ∃ code w, renderSteps Config.env (pre ++ st :: post) s = .fatal code w ∧ u = { w with status := code } := by
  obtain ⟨hrun, v, hsteps⟩ := renderSteps_of_drawn hpre hs
  obtain ⟨code, w, hstep, rfl⟩ := renderStep_of_fatal hrun hi hexec hfatal
  refine ⟨code, { w with status := v }, ?_, rfl⟩
  rw [renderSteps_append, hsteps, andThen_ok, renderSteps, renderStep_withStatus, hstep, Res.withStatus, andThen_fatal]

end StepCommand

/-! ## FILL steps and the bitmap (R310, R312) -/

section Fills

variable {env : Env} {s : State} {sts : List RStep} {x y : Nat}

/-- The pixel that a list of FILL steps leaves where `px` was: the last step's pair. -/
def lastFill (sts : List RStep) (px : Pixel) : Pixel :=
  match sts.getLast? with
  | none => px
  | some st => ⟨st.ra.extractLsb' 0 16, st.rb.extractLsb' 0 16⟩

theorem lastFill_cons (st : RStep) (sts : List RStep) (px : Pixel) :
    lastFill (st :: sts) px = lastFill sts ⟨st.ra.extractLsb' 0 16, st.rb.extractLsb' 0 16⟩ := by
  rw [lastFill, lastFill, List.getLast?_cons]
  cases sts.getLast? <;> rfl

theorem renderSteps_of_fills (hfills : ∀ st ∈ sts, st.rk = .fill) (s : State) :
    renderSteps env sts s = .ok () { s with fb := s.fb.map (lastFill sts) } := by
  induction sts generalizing s with
  | nil =>
    have hid : s.fb.map (lastFill []) = s.fb := List.map_id s.fb
    rw [renderSteps, hid]
  | cons st sts ih =>
    have hmap : s.fb.map (lastFill (st :: sts)) =
        (s.fb.map fun _ => (⟨st.ra.extractLsb' 0 16, st.rb.extractLsb' 0 16⟩ : Pixel)).map (lastFill sts) := by
      rw [List.map_map]
      exact List.map_congr_left fun px _ => lastFill_cons st sts px
    rw [renderSteps, renderStep, hfills st (by simp), hmap]
    exact ih (fun r hr => hfills r (by simp [hr])) _

/-- One pixel of a frame buffer that is changed pixel by pixel. -/
theorem fbAt_map (f : Pixel → Pixel) (hsize : s.fb.length = s.sw.toNat * s.sh.toNat) (hx : x < s.sw.toNat)
    (hy : y < s.sh.toNat) : fbAt { s with fb := s.fb.map f } x y = f (fbAt s x y) := by
  have hin : y * s.sw.toNat + x < s.fb.length := by rw [hsize]; nlinarith
  simp only [fbAt, List.getD_eq_getElem?_getD, List.getElem?_map, List.getElem?_eq_getElem hin, Option.map_some,
    Option.getD_some]

theorem length_bitmapOf (s : State) : (bitmapOf s).length = s.sh.toNat := by
  rw [bitmapOf, List.length_map, List.length_range]

theorem bitmapOf_row (hy : y < s.sh.toNat) :
    (bitmapOf s).getD y [] = (List.range s.sw.toNat).map fun x => outputPixel s x y := by
  rw [bitmapOf, List.getD_eq_getElem?_getD, List.getElem?_map, List.getElem?_range hy, Option.map_some,
    Option.getD_some]

theorem length_bitmapOf_row (hy : y < s.sh.toNat) : ((bitmapOf s).getD y []).length = s.sw.toNat := by
  rw [bitmapOf_row hy, List.length_map, List.length_range]

theorem getElem?_bitmapOf (hx : x < s.sw.toNat) (hy : y < s.sh.toNat) :
    ((bitmapOf s).getD y [])[x]? = some (outputPixel s x y) := by
  rw [bitmapOf_row hy, List.getElem?_map, List.getElem?_range hx, Option.map_some]

end Fills

/-- What a RENDER leaves whose steps ended in w. -/
def rendered (w : State) : State := completed (emit (.frame (bitmapOf w)) w)

theorem exec_render_of_steps {s w : State} (hs : s.phase = .run)
    (h : renderSteps Config.env (s.rsteps.filter fun st => st.valid) s = .ok () w) :
    exec .render s = .next (rendered w) := by
  refine exec_render_of_drawn hs ?_
  rw [renderFrame, h, andThen_ok]

/-- Settles O50: the valid slots run as their commands do, up to a fatal one; a list of FILL steps is one map over the
frame buffer. -/
theorem renderFill : Obligations.RenderFill := by
  refine ⟨fun s t hs hdrawn => ?drawn, fun s t u pre post st i hs hsplit hpre hi hexec hfatal => ?fatal,
    fun s hs hsize hfills => ?fills⟩
  case drawn =>
    obtain ⟨-, v, hsteps⟩ := renderSteps_of_drawn hdrawn hs
    exact (exec_render_of_steps hs hsteps).trans rfl
  case fatal =>
    obtain ⟨code, w, hsteps, rfl⟩ := renderSteps_of_fatal (post := post) hpre hs hi hexec hfatal
    refine exec_render_of_fatal hs ?_
    rw [renderFrame, hsplit, hsteps, andThen_fatal]
  case fills =>
    have hvalid : ∀ st ∈ s.rsteps.filter (fun st => st.valid), st.rk = .fill := fun st hst =>
      hfills st (List.mem_of_mem_filter hst) (List.of_mem_filter hst)
    refine ⟨_, _, exec_render_of_steps hs (renderSteps_of_fills hvalid s), rfl, List.length_map _,
      fun x y hx hy => fbAt_map _ hsize hx hy, length_bitmapOf _, fun x y hx hy => ?_⟩
    exact ⟨length_bitmapOf_row hy, getElem?_bitmapOf hx hy⟩

end Sys2Proof.Machine
end

/-! PROOFS of the frame family, third part: a second RENDER (spec/46_frame.md R317). What a step of the render list
paints is an overlay on the frame buffer that it reads from the rest of the state and from resolved cells; a RENDER
leaves both as they are, so the same step paints the same overlay again and finds no cell to resolve. -/
section

namespace Sys2Proof.Machine

/-! ## Overlays on a frame buffer -/

/-- The pixels an overlay gives, and the old ones where it gives none. -/
def overlay (pic : Nat → Option Pixel) (fb : List Pixel) : List Pixel := fb.mapIdx fun n px => (pic n).getD px

theorem overlay_none (fb : List Pixel) : overlay (fun _ => none) fb = fb := by
  apply List.ext_getElem?
  intro n
  rw [overlay, List.getElem?_mapIdx]
  cases fb[n]? <;> rfl

theorem overlay_const (px : Pixel) (fb : List Pixel) : overlay (fun _ => some px) fb = fb.map fun _ => px := by
  apply List.ext_getElem?
  intro n
  rw [overlay, List.getElem?_mapIdx, List.getElem?_map]
  rfl

/-- Two overlays are one, in which the later one's pixels come first. -/
theorem overlay_overlay (pic later : Nat → Option Pixel) (fb : List Pixel) :
    overlay later (overlay pic fb) = overlay (fun n => (later n).or (pic n)) fb := by
  apply List.ext_getElem?
  intro n
  simp only [overlay, List.getElem?_mapIdx]
  cases fb[n]? with
  | none => rfl
  | some px => cases later n <;> rfl

theorem overlay_idem (pic : Nat → Option Pixel) (fb : List Pixel) :
    overlay pic (overlay pic fb) = overlay pic fb := by
  rw [overlay_overlay]
  congr 1
  funext n
  exact Option.or_self

/-- The overlay that painting a picture through a clip rectangle is. -/
def clipped (s : State) (clip : Clip) (picture : Nat → Nat → Option Pixel) (n : Nat) : Option Pixel :=
  if clipHas clip (n % s.sw.toNat) (n / s.sw.toNat) then picture (n % s.sw.toNat) (n / s.sw.toNat) else none

theorem paint_eq_overlay (clip : Clip) (picture : Nat → Nat → Option Pixel) (s : State) :
    paint clip picture s = { s with fb := overlay (clipped s clip picture) s.fb } := by
  have hpixel (n : Nat) (px : Pixel) :
      (if clipHas clip (n % s.sw.toNat) (n / s.sw.toNat) then
        (picture (n % s.sw.toNat) (n / s.sw.toNat)).getD px else px) = (clipped s clip picture n).getD px := by
    rw [clipped]
    split_ifs <;> rfl
  simp only [paint, overlay, hpixel]

/-! ## What RENDER leaves as it is (R317) -/

/-- A state without the fields that RENDER writes. -/
def renderView (s : State) : State := { s with status := 0, fb := [], dirty := [], cache := [], events := [] }

theorem eq_of_renderView {s t : State} (h : renderView t = renderView s) :
    t = { s with status := t.status, fb := t.fb, dirty := t.dirty, cache := t.cache, events := t.events } :=
  congrArg (fun v : State => { v with
    status := t.status, fb := t.fb, dirty := t.dirty, cache := t.cache, events := t.events }) h

/-- Resolve has nothing to do with the cell: it is clean, or it lies outside the layer's grid. -/
def Settled (s : State) (L c : Nat) : Prop := c < cellCount (layerAt s L) → dirtyAt s L c = false

/-- Drawing led from s to t: what RENDER does not write is the same, and settled cells stay settled, with the same
cache entry. -/
structure DrawnOn (s t : State) : Prop where
  view : renderView t = renderView s
  settled : ∀ L c, Settled s L c → Settled t L c ∧ cacheAt t L c = cacheAt s L c

namespace DrawnOn

variable {s t u : State}

theorem refl (s : State) : DrawnOn s s := ⟨rfl, fun _ _ h => ⟨h, rfl⟩⟩

theorem trans (h : DrawnOn s t) (h' : DrawnOn t u) : DrawnOn s u where
  view := h'.view.trans h.view
  settled L c hc := by
    obtain ⟨hsettled, hcache⟩ := h.settled L c hc
    obtain ⟨hsettled', hcache'⟩ := h'.settled L c hsettled
    exact ⟨hsettled', hcache'.trans hcache⟩

/-- STATUS, the frame buffer and the event stream are not looked at. -/
theorem of_screen (v : Byte) (fb : List Pixel) (es : List Event) :
    DrawnOn s { s with status := v, fb := fb, events := es } := ⟨rfl, fun _ _ h => ⟨h, rfl⟩⟩

/-- What reads none of the fields that RENDER writes reads the same. -/
theorem reads {α : Type} (h : DrawnOn s t) (f : State → α) (hf : ∀ r, f (renderView r) = f r) : f t = f s :=
  (hf t).symm.trans ((congrArg f h.view).trans (hf s))

end DrawnOn

/-! ## Parts of a RENDER that repeat (R317) -/

/-- Drawing led from s to t by painting an overlay; in any state that drawing leads to from t the part `x` completes,
paints the same overlay and writes nothing else but events. -/
structure Repeats (x : State → Res Unit) (s t : State) : Prop where
  drawnOn : DrawnOn s t
  overlays : ∃ pic, t.fb = overlay pic s.fb ∧
    ∀ r, DrawnOn t r → ∃ es, x r = .ok () { r with fb := overlay pic r.fb, events := es }

namespace Repeats

variable {x y : State → Res Unit} {s t u : State}

/-- A part that completes in the state it began in, and would again. -/
theorem of_idle (hx : ∀ r, DrawnOn s r → x r = .ok () r) : Repeats x s s where
  drawnOn := .refl s
  overlays := ⟨fun _ => none, (overlay_none s.fb).symm, fun r hr => ⟨r.events, by rw [hx r hr, overlay_none]⟩⟩

/-- Only what the part does from s on matters. -/
theorem congr (hx : Repeats x s t) (hxy : ∀ r, DrawnOn s r → y r = x r) : Repeats y s t where
  drawnOn := hx.drawnOn
  overlays := by
    obtain ⟨pic, hfb, hagain⟩ := hx.overlays
    exact ⟨pic, hfb, fun r hr => (hxy r (hx.drawnOn.trans hr)) ▸ hagain r hr⟩

/-- One part after another; the overlay of the second lies over that of the first. -/
theorem seq (hx : Repeats x s t) (hy : Repeats y t u) : Repeats (fun r => andThen (x r) fun _ => y) s u where
  drawnOn := hx.drawnOn.trans hy.drawnOn
  overlays := by
    obtain ⟨pic, hfb, hagain⟩ := hx.overlays
    obtain ⟨later, hfb', hagain'⟩ := hy.overlays
    refine ⟨fun n => (later n).or (pic n), by rw [hfb', hfb, overlay_overlay], fun r hr => ?_⟩
    obtain ⟨es, hfirst⟩ := hagain r (hy.drawnOn.trans hr)
    obtain ⟨es', hrest⟩ := hagain' { r with fb := overlay pic r.fb, events := es } (hr.trans (.of_screen _ _ _))
    refine ⟨es', ?_⟩
    rw [hfirst, andThen_ok, hrest, overlay_overlay]

/-- The part again, where it has painted: only events are new. -/
theorem again (h : Repeats x s t) {r : State} (hr : DrawnOn t r) (hfb : r.fb = t.fb) :
    ∃ es, x r = .ok () { r with events := es } := by
  obtain ⟨pic, hpic, hagain⟩ := h.overlays
  obtain ⟨es, hx⟩ := hagain r hr
  refine ⟨es, ?_⟩
  rw [hx, hfb, hpic, overlay_idem, ← hpic, ← hfb]

end Repeats

/-! ## Resolve (44_tilemap R267) -/

section Layers

variable {env : Env} {L : Nat} {s t : State}

/-- What Resolve did when it completed. -/
theorem cellsResolved_of_ok {b : Nat} (h : resolveCells env L (List.range b) s = .ok () t) :
    CellsResolved env L b s t := by
  rcases coloursExist_or_first env L b s with hall | ⟨c, hc, hcolours, hdirty, hcolour⟩
  · obtain ⟨w, hw, hcells⟩ := resolveCells_of_coloursExist hall
    rw [h] at hw
    cases hw
    exact hcells
  · obtain ⟨w, hw, -⟩ := resolveCells_of_noColour hcolours hdirty hcolour hc
    rw [h] at hw
    cases hw

theorem resolveCells_of_clean {cs : List Nat} (h : ∀ c ∈ cs, dirtyAt s L c = false) :
    resolveCells env L cs s = .ok () s := by
  induction cs with
  | nil => rfl
  | cons c cs ih =>
    rw [resolveCells, resolveCell_of_clean (h c (by simp)), andThen_ok, ih fun d hd => h d (by simp [hd])]

theorem resolveLayer_of_settled (h : ∀ c, Settled s L c) : resolveLayer env L s = .ok () s :=
  resolveCells_of_clean fun c hc => h c (List.mem_range.1 hc)

namespace CellsResolved

theorem drawnOn (h : CellsResolved env L (cellCount (layerAt s L)) s t) : DrawnOn s t where
  view := by rw [h.frame]; rfl
  settled L' c hc := by
    refine ⟨fun hlt => ?_, ?_⟩
    · rw [h.layerAt_eq] at hlt
      rw [h.dirty, hc hlt, Bool.false_and]
    · rw [h.cache, if_neg]
      rintro ⟨⟨rfl, hlt, -⟩, hdirty⟩
      exact Bool.false_ne_true ((hc hlt).symm.trans hdirty)

theorem settled (h : CellsResolved env L (cellCount (layerAt s L)) s t) (c : Nat) : Settled t L c := by
  intro hlt
  rw [h.layerAt_eq] at hlt
  simp [h.dirty, hlt]

end CellsResolved

/-- The picture of a layer whose cells are settled stays what it was. -/
theorem layerPicture_of_drawnOn (h : DrawnOn s t) (hsettled : ∀ c, Settled s L c) (mode : Bool) (pen : Word16) :
    layerPicture env t L mode pen = layerPicture env s L mode pen := by
  have hinputs : drawInputs { t with fb := s.fb } = drawInputs s :=
    h.reads (fun v => drawInputs { v with fb := s.fb }) fun _ => rfl
  funext x y
  have hpixel : tilePixel env t L x y = tilePixel env s L x y :=
    tilePixel_congr (t := { t with fb := s.fb }) hinputs (fun c => (h.settled L c (hsettled c)).2) x y
  rw [layerPicture, layerPicture, hpixel]

end Layers

/-! ## The steps of the render list (R310) -/

section Steps

variable {env : Env} {s t : State}

/-- A compositor that runs is its drawing. -/
theorem nestedDraw_of_draws {x : Res Unit} (hx : x.Draws s) (f : State → State) :
    nestedDraw s (andThen x fun _ t => done (f t)) = andThen x fun _ t => .ok () (f t) := by
  cases x with
  | ok => rfl
  | config => exact hx.elim
  | refuse => exact hx.elim
  | fatal => rfl

/-- Resolve as a part: it paints nothing, and afterwards no cell of the layer is left to resolve. -/
theorem repeats_resolveLayer {L : Nat} (h : resolveLayer env L s = .ok () t) : Repeats (resolveLayer env L) s t where
  drawnOn := (cellsResolved_of_ok h).drawnOn
  overlays := by
    have hcells := cellsResolved_of_ok h
    refine ⟨fun _ => none, by rw [overlay_none, hcells.frame], fun r hr => ⟨r.events, ?_⟩⟩
    rw [resolveLayer_of_settled fun c => (hr.settled L c (hcells.settled c)).1, overlay_none]

/-- The picture of a layer whose cells are settled, painted through a rectangle of the screen. -/
theorem repeats_layerPicture {L : Nat} (hsettled : ∀ c, Settled s L c) (x0 y0 x1 y1 : Nat) (mode : Bool)
    (pen : Word16) :
    Repeats (fun r => .ok () (paint (clipOf r x0 y0 x1 y1) (layerPicture env r L mode pen) r)) s
      (paint (clipOf s x0 y0 x1 y1) (layerPicture env s L mode pen) s) := by
  have hpainted : DrawnOn s (paint (clipOf s x0 y0 x1 y1) (layerPicture env s L mode pen) s) := .of_screen _ _ _
  refine ⟨hpainted, clipped s (clipOf s x0 y0 x1 y1) (layerPicture env s L mode pen), by rw [paint_eq_overlay],
    fun r hr => ⟨r.events, ?_⟩⟩
  have hsr : DrawnOn s r := hpainted.trans hr
  have hclip : clipOf r x0 y0 x1 y1 = clipOf s x0 y0 x1 y1 := hsr.reads (fun v => clipOf v x0 y0 x1 y1) fun _ => rfl
  have hplace : clipped r = clipped s := hsr.reads clipped fun _ => rfl
  rw [hclip, layerPicture_of_drawnOn hsr hsettled, paint_eq_overlay, hplace]

/-- TMCOMPOSITE as a step: Resolve, and then the picture. -/
theorem repeats_tmcomposite {x0 y0 x1 y1 : Word16} {L : Word32} {mode : Bool} {pen : Word16}
    (h : nestedDraw s (tmcompositeBody env x0 y0 x1 y1 L mode pen s) = .ok () t) :
    Repeats (fun r => nestedDraw r (tmcompositeBody env x0 y0 x1 y1 L mode pen r)) s t := by
  have hlayers {r : State} (hr : DrawnOn s r) : layerOk r L.toNat = layerOk s L.toNat :=
    hr.reads (fun v => layerOk v L.toNat) fun _ => rfl
  cases hL : layerOk s L.toNat with
  | false =>
    rw [tmcompositeBody_of_noLayer hL] at h
    cases h
    exact .of_idle fun r hr => by rw [tmcompositeBody_of_noLayer ((hlayers hr).trans hL), nestedDraw]
  | true =>
    have hbody {r : State} (hr : DrawnOn s r) :
        nestedDraw r (tmcompositeBody env x0 y0 x1 y1 L mode pen r) =
          andThen (resolveLayer env L.toNat r) fun _ q =>
            .ok () (paint (clipOf q x0.toNat y0.toNat x1.toNat y1.toNat) (layerPicture env q L.toNat mode pen) q) := by
      rw [tmcompositeBody_of_layer ((hlayers hr).trans hL)]
      exact nestedDraw_of_draws (Res.Draws.resolveCells _ _ r) _
    rw [hbody (.refl s)] at h
    obtain ⟨_, w, hresolve, hpaint⟩ := andThen_eq_ok.1 h
    cases hpaint
    refine Repeats.congr ?_ fun r hr => hbody hr
    exact (repeats_resolveLayer hresolve).seq (repeats_layerPicture (cellsResolved_of_ok hresolve).settled _ _ _ _ _ _)

/-- The overlay of a record of the sprite table. -/
def recordOverlay (env : Env) (clip : Clip) (n : Nat) (s : State) : Nat → Option Pixel :=
  clipped s clip (spritePicture env s (spriteRecord env s n)
    (reduceIndex s.params.oorPolicy (spriteRecord env s n).code.toNat (gfxDim s s.spr.gfx.toNat).ncodes)
    (reduceIndex s.params.oorPolicy (spriteRecord env s n).bank.toNat (gfxDim s s.spr.gfx.toNat).ngbank))

theorem drawSprite_eq_overlay {clip : Clip} {only : Bool} {p : Byte} {n : Nat} (hd : spriteDrawn env s only p n)
    (hcolour : (spriteRecord env s n).color.toNat < s.params.ngroup) :
    drawSprite env clip only p n s = .ok () { s with
      fb := overlay (recordOverlay env clip n s) s.fb,
      events := (spriteNotices env s only p [n]).reverse ++ s.events } := by
  rw [drawSprite_drawn hd hcolour, paint_eq_overlay]
  rfl

/-- One record as a part: its picture, or nothing. -/
theorem repeats_drawSprite {clip : Clip} {only : Bool} {p : Byte} {n : Nat}
    (h : drawSprite env clip only p n s = .ok () t) : Repeats (drawSprite env clip only p n) s t := by
  have hshown {r : State} (hr : DrawnOn s r) : spriteDrawn env r only p n = spriteDrawn env s only p n :=
    hr.reads (fun v => spriteDrawn env v only p n) fun _ => rfl
  by_cases hd : spriteDrawn env s only p n
  · rcases Nat.lt_or_ge (spriteRecord env s n).color.toNat s.params.ngroup with hcolour | hcolour
    · rw [drawSprite_eq_overlay hd hcolour] at h
      cases h
      refine ⟨.of_screen _ _ _, _, rfl, fun r hr => ?_⟩
      have hsr : DrawnOn s r := (DrawnOn.of_screen _ _ _).trans hr
      have hcolours : ((spriteRecord env r n).color.toNat < r.params.ngroup) =
          ((spriteRecord env s n).color.toNat < s.params.ngroup) :=
        hsr.reads (fun v => (spriteRecord env v n).color.toNat < v.params.ngroup) fun _ => rfl
      have hpicture : recordOverlay env clip n r = recordOverlay env clip n s :=
        hsr.reads (recordOverlay env clip n) fun _ => rfl
      exact ⟨_, hpicture ▸ drawSprite_eq_overlay ((hshown hsr).mpr hd) (hcolours.mpr hcolour)⟩
    · rw [drawSprite_of_noColour hd hcolour] at h
      cases h
  · rw [drawSprite_hidden hd] at h
    cases h
    exact .of_idle fun r hr => drawSprite_hidden fun hdr => hd ((hshown hr).mp hdr)

theorem repeats_drawSprites {clip : Clip} {only : Bool} {p : Byte} {ns : List Nat}
    (h : drawSprites env clip only p ns s = .ok () t) : Repeats (drawSprites env clip only p ns) s t := by
  induction ns generalizing s with
  | nil =>
    cases h
    exact .of_idle fun r _ => rfl
  | cons n ns ih =>
    obtain ⟨_, w, hfirst, hrest⟩ := andThen_eq_ok.1 h
    exact (repeats_drawSprite hfirst).seq (ih hrest)

/-- SPCOMPOSITE as a step: its records. -/
theorem nestedDraw_spcomposite {x0 y0 x1 y1 : Word16} {only : Bool} {p : Byte} (hspr : s.spr.valid = true) :
    nestedDraw s (spcompositeBody env x0 y0 x1 y1 only p s) =
      drawSprites env (clipOf s x0.toNat y0.toNat x1.toNat y1.toNat) only p (spriteOrder s.spr) s := by
  rw [spcompositeBody_of_valid hspr]
  exact (nestedDraw_of_draws (Res.Draws.drawSprites _ _ _ _ s) id).trans (andThen_ok_right _)

theorem repeats_spcomposite {x0 y0 x1 y1 : Word16} {only : Bool} {p : Byte}
    (h : nestedDraw s (spcompositeBody env x0 y0 x1 y1 only p s) = .ok () t) :
    Repeats (fun r => nestedDraw r (spcompositeBody env x0 y0 x1 y1 only p r)) s t := by
  have hconfig {r : State} (hr : DrawnOn s r) : r.spr = s.spr := hr.reads State.spr fun _ => rfl
  cases hspr : s.spr.valid with
  | false =>
    rw [spcompositeBody_of_invalid hspr] at h
    cases h
    exact .of_idle fun r hr => by rw [spcompositeBody_of_invalid (hconfig hr ▸ hspr), nestedDraw]
  | true =>
    rw [nestedDraw_spcomposite hspr] at h
    refine (repeats_drawSprites h).congr fun r hr => ?_
    have hclip : clipOf r x0.toNat y0.toNat x1.toNat y1.toNat = clipOf s x0.toNat y0.toNat x1.toNat y1.toNat :=
      hr.reads (fun v => clipOf v x0.toNat y0.toNat x1.toNat y1.toNat) fun _ => rfl
    rw [nestedDraw_spcomposite (hconfig hr ▸ hspr), hclip, hconfig hr]

/-- FILL as a step. -/
theorem repeats_fill (px : Pixel) :
    Repeats (fun r => .ok () { r with fb := r.fb.map fun _ => px }) s { s with fb := s.fb.map fun _ => px } where
  drawnOn := .of_screen _ _ _
  overlays := ⟨fun _ => some px, (overlay_const px s.fb).symm, fun r _ => ⟨r.events, by rw [overlay_const]⟩⟩

theorem repeats_renderStep {st : RStep} (h : renderStep env st s = .ok () t) : Repeats (renderStep env st) s t := by
  unfold renderStep at h ⊢
  have hscreen {r : State} (hr : DrawnOn s r) : r.sw = s.sw ∧ r.sh = s.sh :=
    ⟨hr.reads State.sw fun _ => rfl, hr.reads State.sh fun _ => rfl⟩
  cases hk : st.rk with
  | fill =>
    rw [hk] at h
    cases h
    exact repeats_fill _
  | layer =>
    rw [hk] at h
    refine (repeats_tmcomposite h).congr fun r hr => ?_
    rw [(hscreen hr).1, (hscreen hr).2]
  | sprites =>
    rw [hk] at h
    refine (repeats_spcomposite h).congr fun r hr => ?_
    rw [(hscreen hr).1, (hscreen hr).2]

theorem repeats_renderSteps {sts : List RStep} (h : renderSteps env sts s = .ok () t) :
    Repeats (renderSteps env sts) s t := by
  induction sts generalizing s with
  | nil =>
    cases h
    exact .of_idle fun r _ => rfl
  | cons st sts ih =>
    obtain ⟨_, w, hfirst, hrest⟩ := andThen_eq_ok.1 h
    exact (repeats_renderStep hfirst).seq (ih hrest)

end Steps

/-! ## Two RENDERs (R317) -/

theorem drawnOn_rendered (w : State) : DrawnOn w (rendered w) := .of_screen _ _ _

/-- A RENDER that completed left what its steps did. -/
theorem steps_of_exec_render {s t : State} (hs : s.phase = .run) (hexec : exec .render s = .next t)
    (hok : t.status = codeOk) :
    ∃ w, renderSteps Config.env (s.rsteps.filter fun st => st.valid) s = .ok () w ∧ t = rendered w := by
  rcases exec_render_ends hs hexec with ⟨_, hframe, rfl⟩ | ⟨_, -, rfl⟩
  · obtain ⟨_, w, hsteps, hemit⟩ := andThen_eq_ok.1 hframe
    cases hemit
    exact ⟨w, hsteps, rfl⟩
  · have hcode : codeColorOutOfRange = codeOk := hok
    exact absurd hcode (by decide)

/-- Settles O51: the steps of the list repeat, so the second RENDER paints what is there. -/
theorem renderIdempotent : Obligations.RenderIdempotent := by
  intro s t hs hexec hok
  obtain ⟨w, hsteps, rfl⟩ := steps_of_exec_render hs hexec hok
  have hrepeats := repeats_renderSteps hsteps
  have hdrawn : DrawnOn s (rendered w) := hrepeats.drawnOn.trans (drawnOn_rendered w)
  refine ⟨eq_of_renderView hdrawn.view, ?_⟩
  have hlist : (rendered w).rsteps = s.rsteps := hdrawn.reads State.rsteps fun _ => rfl
  have hrun : (rendered w).phase = .run := (hdrawn.reads State.phase fun _ => rfl).trans hs
  obtain ⟨es, hagain⟩ := hrepeats.again (drawnOn_rendered w) rfl
  rw [← hlist] at hagain
  exact ⟨_, bitmapOf w, exec_render_of_steps hrun hagain, rfl, rfl, rfl⟩

end Sys2Proof.Machine
end

/-! PROOFS of the reset family (spec/70_reset_and_hazards.md R390): the power-on values and the invariants they meet.
The tables of a state right after power-on are each one value repeated, and the parameters are put into their legal
ranges. -/
section

namespace Sys2Proof

/-! ## The parameters (spec/00_scope.md R8, log 14) -/

namespace Params

theorem clamp_bounds {lo hi : Nat} (h : lo ≤ hi) (n : Nat) : lo ≤ clamp lo hi n ∧ clamp lo hi n ≤ hi := by
  unfold clamp
  omega

/-- Whatever the parameters are, their clamped form is legal. -/
theorem legal_clamped (p : Params) : p.clamped.Legal where
  ndev := clamp_bounds (by decide) _
  nspace := clamp_bounds (by decide) _
  nregion := clamp_bounds (by decide) _
  nbank := clamp_bounds (by decide) _
  nhandler := clamp_bounds (by decide) _
  ntimer := clamp_bounds (by decide) _
  nlatch := clamp_bounds (by decide) _
  nin := clamp_bounds (by decide) _
  nrstep := clamp_bounds (by decide) _
  nsave := clamp_bounds (by decide) _
  nentry := clamp_bounds (by decide) _
  nlayer := clamp_bounds (by decide) _
  ngroup := clamp_bounds (by decide) _
  npens := clamp_bounds (by decide) _
  npal := clamp_bounds (by decide) _
  nline n hn := by
    obtain ⟨m, -, rfl⟩ := List.mem_map.1 hn
    exact clamp_bounds (by decide) m
  resolveIds n hn := by simpa using List.of_mem_filter hn
  decodeIds n hn := by simpa using List.of_mem_filter hn
  gfx e he := by
    obtain ⟨g, hg, rfl⟩ := List.mem_map.1 he
    have hid : g.1 < 256 := by simpa using List.of_mem_filter hg
    have hpens := (clamp_bounds (lo := 1) (hi := 65536) (by decide) p.npens).1
    exact ⟨hid, le_max_left _ _, le_max_left _ _, clamp_bounds hpens _⟩
  scr := by simp [clamped]

end Params

namespace Machine

/-! ## The tables right after power-on (R390) -/

/-- A table of one repeated value reads as that value everywhere, past its end too. -/
theorem getD_replicate_same {α : Type} (n k : Nat) (x : α) : (List.replicate n x).getD k x = x := by
  rw [List.getD_eq_getElem?_getD, List.getElem?_replicate]
  split_ifs <;> rfl

section PowerOn

variable (p : Params)

@[simp] theorem regionAt_powerOn (r : Nat) : regionAt (.powerOn p) r = noRegion := getD_replicate_same _ r _
@[simp] theorem bankAt_powerOn (b : Nat) : bankAt (.powerOn p) b = noBank := getD_replicate_same _ b _
@[simp] theorem spaceAt_powerOn (n : Nat) : spaceAt (.powerOn p) n = noSpace := getD_replicate_same _ n _
@[simp] theorem portAt_powerOn (h : Nat) : portAt (.powerOn p) h = noPort := getD_replicate_same _ h _
@[simp] theorem layerAt_powerOn (L : Nat) : layerAt (.powerOn p) L = noLayer := getD_replicate_same _ L _
@[simp] theorem rstepAt_powerOn (n : Nat) : rstepAt (.powerOn p) n = noRStep := getD_replicate_same _ n _
@[simp] theorem timerAt_powerOn (n : Nat) : timerAt (.powerOn p) n = disarmedTimer := getD_replicate_same _ n _

theorem layerOk_powerOn (L : Nat) : layerOk (.powerOn p) L = false := by
  rw [layerOk, layerAt_powerOn]
  exact Bool.and_false _

theorem isCpu_powerOn (c : Nat) : isCpu (.powerOn p) c = false := rfl

/-- Nothing is registered and every table has its capacity. -/
theorem shaped_powerOn : Shaped (.powerOn p) where
  regions := List.length_replicate
  banks := List.length_replicate
  spaces := List.length_replicate
  ports := List.length_replicate
  latch := List.length_replicate
  inp := List.length_replicate
  timers := List.length_replicate
  layers := List.length_replicate
  scroll := List.length_replicate
  dirty := List.length_replicate
  cache := List.length_replicate
  palette := List.length_replicate
  lookup := List.length_replicate
  rsteps := List.length_replicate
  dev := Nat.zero_le _
  entries := Nat.zero_le _
  save := Nat.zero_le _
  lines := rfl
  carry := rfl
  cpuObs := rfl
  lineRows c hc := by rw [isCpu_powerOn] at hc; cases hc
  layerRows L hL := by rw [layerOk_powerOn] at hL; cases hL
  saved _ hit := absurd hit List.not_mem_nil
  savedOnce := List.nodup_nil
  screen hrun := nomatch hrun

/-- The palette is not empty where the parameters are legal, so index 0 is one. -/
theorem lookupOk_powerOn (hp : p.Legal) : lookupOk (.powerOn p) := by
  intro v hv
  rw [List.eq_of_mem_replicate hv]
  exact hp.npal.1

end PowerOn

/-- Settles O13: nothing is stored or registered at power-on, and the clamped parameters are legal. -/
theorem resetInvariants : Obligations.ResetInvariants := by
  have hlegal : Config.params.Legal := Params.legal_clamped Config.rawParams
  exact ⟨reset_memory_wf, fun _ hrow => absurd hrow List.not_mem_nil, lookupOk_powerOn _ hlegal, shaped_powerOn _,
    fun _ he => absurd he List.not_mem_nil, fun _ he => absurd he List.not_mem_nil, hlegal⟩

/-- Settles O14: a field is the value that power-on writes, a slot is that of its table's repeated value. -/
theorem resetState : Obligations.ResetState := by
  simp only [Obligations.ResetState, State.reset, regionAt_powerOn, bankAt_powerOn, spaceAt_powerOn, portAt_powerOn,
    layerAt_powerOn, rstepAt_powerOn, timerAt_powerOn]
  refine ⟨rfl, rfl, rfl, rfl, rfl, rfl, rfl, rfl, rfl, rfl, rfl, rfl, fun _ => rfl, fun _ => rfl, fun _ => rfl,
    fun _ => rfl, fun _ => rfl, fun _ => rfl, rfl, fun v hv => List.eq_of_mem_replicate hv,
    fun v hv => List.eq_of_mem_replicate hv, fun _ => rfl, rfl, rfl, rfl, rfl, rfl, rfl, rfl, rfl, rfl, rfl, rfl, rfl,
    rfl, rfl, fun v hv => List.eq_of_mem_replicate hv, fun v hv => List.eq_of_mem_replicate hv⟩

end Machine

end Sys2Proof
end

/-! PROOFS of the host family (spec/47_host.md): INPUT and SCRAMBLE (R330, R331), and SAVEREG with the codes of its
classes (R132, R332). -/
section

namespace Sys2Proof.Machine

/-! ## INPUT and SCRAMBLE (R330, R331) -/

section InputCommands

variable {n : Word32} {v : Byte} {s : State}

theorem exec_input_configOrRun (hs : configOrRun s) :
    exec (.input n v) s = .next (endCommand s (inputBody n v s)) :=
  congrArg _ (hostCommand_legal (inputBody n v) (legalIn_configRun.2 hs))

theorem exec_scramble_configOrRun (hs : configOrRun s) :
    exec (.scramble v) s = .next (endCommand s (scrambleBody v s)) :=
  congrArg _ (hostCommand_legal (scrambleBody v) (legalIn_configRun.2 hs))

theorem inputBody_of_badIndex (hn : s.params.nin ≤ n.toNat) : inputBody n v s = .refuse codeBadId := if_pos hn

theorem inputBody_inRange (hn : n.toNat < s.params.nin) :
    inputBody n v s = done { s with inp := s.inp.set n.toNat v } := if_neg (Nat.not_le.2 hn)

end InputCommands

/-- Settles O54: the index is below NIN or not, and SCRAMBLE has no check. -/
theorem inputAndScramble : Obligations.InputAndScramble := by
  refine ⟨fun _ _ => ⟨rfl, rfl, rfl, fun _ _ => rfl⟩, fun _ => ⟨rfl, rfl, rfl, fun _ _ => rfl⟩,
    fun n v s hs => ⟨fun hn => ?inRange, fun hn => ?badIndex, ?scramble⟩⟩
  case inRange => rw [exec_input_configOrRun hs, inputBody_inRange hn, endCommand_done_eq]
  case badIndex => rw [exec_input_configOrRun hs, inputBody_of_badIndex hn, endCommand_refuse_eq]
  case scramble => rw [exec_scramble_configOrRun hs, scrambleBody, endCommand_doneR0_eq, Params.scrOf]

/-! ## SAVEREG (R132, R332) -/

section SaveregCommand

variable {cls : Byte} {id : Word32} {kd : SaveClass} {s : State}

theorem exec_savereg_config (hs : s.phase = .config) :
    exec (.savereg cls id) s = .next (endCommand s (saveregBody cls id s)) := next_configOnly hs

theorem saveClassOf_eq_none (h : 7 < cls.toNat) : saveClassOf cls = none := by
  unfold saveClassOf
  split
  case h_9 => rfl
  all_goals omega

/-- The classes of one item are those of codes 3, 4, 6 and 7. -/
theorem saveId_of_saveClassOf (hk : saveClassOf cls = some kd) :
    saveId kd id = if 3 ≤ cls.toNat ∧ cls.toNat ≠ 5 then 0 else id := by
  unfold saveClassOf at hk
  split at hk
  case h_9 => cases hk
  all_goals
    next hcode =>
    cases hk
    rw [hcode]
    rfl

theorem saveregBody_of_reserved (hk : saveClassOf cls = none) : saveregBody cls id s = .config codeBadKind := by
  rw [saveregBody, hk]

/-- The three checks on an item of a defined class raise one code (R332). -/
theorem saveregBody_of_class (hk : saveClassOf cls = some kd) :
    saveregBody cls id s =
      if saveTargetOk s kd id = false ∨ (⟨kd, saveId kd id⟩ : SaveItem) ∈ s.save ∨ s.save.length = s.params.nsave then
        .config codeBadId
      else done { s with save := s.save ++ [⟨kd, saveId kd id⟩] } := by
  simp only [saveregBody, hk, List.contains_eq_mem, decide_eq_true_eq]
  split_ifs <;> tauto

end SaveregCommand

/-- Settles O55: the class is reserved, or one of the three checks on the item fails, or the item is appended. -/
theorem saveregAppendsAnItem : Obligations.SaveregAppendsAnItem := by
  refine ⟨fun _ _ => ⟨rfl, rfl, rfl, fun _ _ => rfl⟩,
    ⟨rfl, rfl, rfl, rfl, rfl, rfl, rfl, rfl, fun _ => saveClassOf_eq_none⟩,
    fun cls id s hs => ⟨fun h7 => ?reserved, fun kd hk => ?defined⟩⟩
  case reserved =>
    rw [exec_savereg_config hs, saveregBody_of_reserved (saveClassOf_eq_none h7), endCommand_config_eq]
  case defined =>
    intro exists' item
    have hexists : exists' ↔ saveTargetOk s kd id = true := by
      cases kd <;> simp only [exists', saveTargetOk]
    have hitem : item = ⟨kd, saveId kd id⟩ := by rw [saveId_of_saveClassOf hk]
    rw [hexists, hitem, exec_savereg_config hs, saveregBody_of_class hk, Bool.not_eq_true]
    refine ⟨fun hbad => by rw [if_pos hbad, endCommand_config_eq], fun hok hnew hroom => ?_⟩
    rw [if_neg, endCommand_done_eq]
    rintro (h | h | h)
    · exact Bool.false_ne_true (h.symm.trans hok)
    · exact hnew h
    · exact hroom h

end Sys2Proof.Machine
end

/-! PROOFS of the exception family (spec/60_exceptions.md R351, R354, R360): the phases a step can lead to, the error
latch and the fatal code. Outside phase Config the legality of the commands settles the phase; in Config no command's
body is fatal. -/
section

namespace Sys2Proof.Machine

/-! ## The error latch (R351) -/

/-- A latched configuration error stays. -/
abbrev ErrorStays (s t : State) : Prop := s.cfgErr ≠ 0 → t.cfgErr = s.cfgErr

theorem ErrorStays.trans {s t u : State} (h : ErrorStays s t) (h' : ErrorStays t u) : ErrorStays s u := fun hs => by
  have ht := h hs
  exact (h' (ht ▸ hs)).trans ht

/-- Only the end of a command writes `cfgErr`, and only when it is 0. -/
theorem errorStays_kept (env : Env) : Kept env ErrorStays where
  refl _ _ := rfl
  trans _ _ _ := .trans
  emit _ _ _ := rfl
  observe _ _ _ _ := rfl
  line _ _ _ _ _ _ := rfl
  byte _ _ _ _ _ := rfl
  bank _ _ _ _ := rfl
  scroll _ _ _ _ _ := rfl
  latch _ _ _ _ := rfl
  flip _ _ _ := rfl
  palette _ _ _ _ := rfl
  lookup _ _ _ _ _ := rfl
  timer _ _ _ _ := rfl
  dirty _ _ _ _ _ := rfl
  cell _ _ _ _ _ := rfl
  fb _ _ _ _ := rfl
  inHandler _ _ _ := rfl
  ext _ _ _ := rfl
  now _ _ _ := rfl
  cursorI _ _ _ := rfl
  cursorK _ _ _ := rfl
  carry _ _ _ _ := rfl
  inFrame _ _ _ := rfl
  endFrame _ _ := rfl
  fatal _ _ _ _ := rfl

theorem restoreItem_cfgErr (it : SaveItem) (bytes : List Byte) (s : State) :
    (restoreItem it bytes s).cfgErr = s.cfgErr := by
  unfold restoreItem
  split <;> rfl

theorem errorStays_stepKept (env : Env) : StepKept env ErrorStays where
  toKept := errorStays_kept env
  answer _ _ _ _ _ := rfl
  latchError _ _ hs := if_neg hs
  take _ _ _ _ := rfl
  payload _ _ _ := rfl
  inp _ _ _ _ := rfl
  regdev _ _ _ _ _ _ _ h := by
    obtain ⟨_, -, -, -, rfl⟩ := regdevBody_ok h
    exact fun _ => rfl
  region _ _ _ _ _ _ _ h := by
    obtain ⟨-, -, -, _, _, -, rfl⟩ := regionBody_ok h
    exact fun _ => rfl
  bankdef _ _ _ _ _ _ _ h := by
    obtain ⟨-, -, -, -, rfl⟩ := bankdefBody_ok h
    exact fun _ => rfl
  spacedef _ _ _ _ _ _ _ h := by
    obtain ⟨-, -, -, rfl⟩ := spacedefBody_ok h
    exact fun _ => rfl
  syscfg _ _ _ _ _ _ _ _ _ h := by
    rw [syscfgBody_ok h]
    exact fun _ => rfl
  start _ _ _ _ h := by
    obtain ⟨-, -, rfl⟩ := startBody_ok h
    exact ((errorStays_kept env).callAllSetPc (enterRun env _)).1
  reset s _ _ _ h := by
    rw [resetBody_ok h]
    have hlines := ((errorStays_kept env).resetLines (cpuHandles s) s).1
    have hfields := hlines.trans (u := resetFields env ((cpuHandles s).foldl resetLines s)) fun _ => rfl
    exact hfields.trans ((errorStays_kept env).callAllSetPc _).1
  teardown _ _ _ _ h := by
    rw [teardownBody_ok h]
    exact fun _ => rfl
  map _ _ _ _ _ _ _ _ _ _ h := by
    obtain ⟨_, -, -, -, -, -, rfl⟩ := mapBody_ok h
    exact fun _ => rfl
  portdef _ _ _ _ _ _ _ _ _ _ h := by
    obtain ⟨-, -, -, rfl⟩ := portdefBody_ok h
    exact fun _ => rfl
  tmcreate _ _ _ _ _ _ _ _ _ _ _ _ _ h := by
    obtain ⟨_, -, -, -, -, -, -, -, -, rfl⟩ := tmcreateBody_ok h
    exact fun _ => rfl
  spcfg _ _ _ _ _ _ _ _ _ _ _ _ _ _ _ h := by
    obtain ⟨-, -, rfl⟩ := spcfgBody_ok h
    exact fun _ => rfl
  rstep _ _ _ _ _ _ _ _ _ h := by
    obtain ⟨_, -, -, -, -, rfl⟩ := rstepBody_ok h
    exact fun _ => rfl
  savereg _ _ _ _ _ _ h := by
    obtain ⟨_, -, -, -, -, rfl⟩ := saveregBody_ok h
    exact fun _ => rfl
  restore s _ _ _ h := by
    obtain ⟨-, -, rfl⟩ := restoreBody_ok h
    have hitems : ErrorStays s (restoreItems s.save s.payloadIn s) :=
      restoreItems_induct _ _ s (fun _ => rfl) fun it _ bytes t ht => ht.trans fun _ => restoreItem_cfgErr it bytes t
    exact hitems.trans ((errorStays_kept env).notifyItems s s.save _).1

/-! ## The commands of phase Config (R124, R360) -/

/-- A command's body did not lead to Fatal. -/
def Res.Unfatal : Res Answer → Prop
  | .ok _ t => t.phase ≠ .fatal
  | .config _ => True
  | .refuse _ => True
  | .fatal _ _ => False

section InConfig

variable {s : State}

theorem endCommand_phase_ne_fatal {x : Res Answer} (hs : s.phase = .config) (hx : x.Unfatal) :
    (endCommand s x).phase ≠ .fatal := by
  have hstays : s.phase ≠ .fatal := by rw [hs]; decide
  cases x with
  | ok => exact hx
  | config => exact hstays
  | refuse => exact hstays
  | fatal => exact hx.elim

/-- A command that handlers may issue stays in the phase it begins in. -/
theorem internalBody_unfatal {i : Instr} {body : State → Res Answer} (hi : internalBody i = some body)
    (hs : s.phase = .config) : (body s).Unfatal := by
  have hkeeps := (errorStays_kept Config.env).internalBody i body hi s
  cases hb : body s with
  | ok a t =>
    rw [hb] at hkeeps
    exact fun ht => by cases (hkeeps.2.trans hs).symm.trans ht
  | config => trivial
  | refuse => trivial
  | fatal code t => exact internalBody_ne_fatal hi s t code hb

theorem startBody_unfatal (env : Env) : (startBody env s).Unfatal := by
  cases hb : startBody env s with
  | ok a t =>
    obtain ⟨-, -, rfl⟩ := startBody_ok hb
    have hphase : (callAllSetPc (enterRun env s)).phase = .run := ((errorStays_kept env).callAllSetPc _).2
    exact fun ht => by cases hphase.symm.trans ht
  | config => trivial
  | refuse => trivial
  | fatal code t =>
    revert hb
    unfold startBody done
    split_ifs <;> simp

theorem hostCommand_ne_fatal {legal : Legality} {body : State → Res Answer} (hs : s.phase = .config)
    (hbody : legalIn legal .config = true → (body s).Unfatal) : (hostCommand legal body s).phase ≠ .fatal := by
  rcases hostCommand_cases legal body s with ⟨code, hturned⟩ | ⟨hlegal, hruns⟩
  · rw [hturned]
    exact fun ht => by cases hs.symm.trans ht
  · rw [hruns]
    exact endCommand_phase_ne_fatal hs (hbody (hs ▸ hlegal))

/-- In Config no command leads to Fatal: handlers may issue it, or it is not legal there, or it is START, or it checks
its operands and makes one update. -/
theorem exec_config_ne_fatal {i : Instr} {t : State} (hs : s.phase = .config) (hexec : exec i s = .next t) :
    t.phase ≠ .fatal := by
  cases hi : internalBody i with
  | some body =>
    rw [exec_of_internalBody hi] at hexec
    cases hexec
    exact hostCommand_ne_fatal hs fun _ => internalBody_unfatal hi hs
  | none =>
    cases i
    case setbank | poke | assert | clear | pulse | timerset | markdirty | setscroll | setflip | setpen | setpal =>
      cases hi
    case reset | read | write | fetch | ack | runframe | tmcomposite | spcomposite | render | snapshot | restore =>
      cases hexec
      exact hostCommand_ne_fatal hs fun hlegal => (Bool.false_ne_true hlegal).elim
    case start =>
      cases hexec
      exact hostCommand_ne_fatal hs fun _ => startBody_unfatal Config.env
    case regdev | lookup | region | bankdef | spacedef | syscfg | teardown | map | portdef | lineq | tmcreate | spcfg |
        rstep | input | scramble | savereg =>
      cases hexec
      refine hostCommand_ne_fatal hs fun _ => ?_
      simp only [regdevBody, lookupBody, regionBody, bankdefBody, spacedefBody, syscfgBody, teardownBody, mapBody,
        portdefBody, lineqBody, tmcreateBody, spcfgBody, rstepBody, inputBody, scrambleBody, saveregBody, done, doneR0,
        doneR01]
      repeat' split
      all_goals simp [Res.Unfatal, makeRegion, makeLayer, hs]

end InConfig

/-! ## The life cycle (R360) -/

/-- What a step does to the phase, the error latch and the fatal code. -/
structure LifeGoesOn (s t : State) : Prop where
  phase : t.phase = s.phase ∨ (s.phase = .config ∧ t.phase = .run) ∨ (s.phase = .run ∧ t.phase = .fatal) ∨
    (s.phase ≠ .down ∧ t.phase = .down)
  latch : ErrorStays s t
  fatalCode : s.phase = .fatal ∨ s.phase = .down → t.fatalCode = s.fatalCode

section LifeCycle

variable {s t : State}

/-- STATUS is all that changes. -/
theorem LifeGoesOn.of_status (code : Byte) : LifeGoesOn s { s with status := code } :=
  ⟨.inl rfl, fun _ => rfl, fun _ => rfl⟩

/-- In Fatal and Down a command is turned away, but for a TEARDOWN in Fatal. -/
theorem exec_of_stopped {i : Instr} (hs : s.phase = .fatal ∨ s.phase = .down) (hexec : exec i s = .next t) :
    (t.phase = s.phase ∨ s.phase ≠ .down ∧ t.phase = .down) ∧ t.fatalCode = s.fatalCode := by
  obtain ⟨hdown, hfatal, -, -⟩ := phaseLegality.2 i s
  rcases hs with hs | hs
  · by_cases hi : i = .teardown
    · have hrun : s.phase ≠ .down := by rw [hs]; decide
      rw [hi, exec_teardown_untilDown hrun] at hexec
      cases hexec
      exact ⟨.inr ⟨hrun, rfl⟩, rfl⟩
    · rw [hfatal hs hi] at hexec
      cases hexec
      exact ⟨.inl rfl, rfl⟩
  · rw [hdown hs] at hexec
    cases hexec
    exact ⟨.inl rfl, rfl⟩

theorem exec_lifeGoesOn {i : Instr} (hexec : exec i s = .next t) : LifeGoesOn s t where
  latch := (errorStays_stepKept Config.env).exec_keeps i s t hexec
  fatalCode hs := (exec_of_stopped hs hexec).2
  phase := by
    cases hs : s.phase with
    | config =>
      have hfatal := exec_config_ne_fatal hs hexec
      cases ht : t.phase <;> simp_all
    | run =>
      have hconfig : t.phase ≠ .config :=
        (((configGrows_stepKept Config.env).exec_keeps i s t hexec).fixed (by rw [hs]; decide)).2
      cases ht : t.phase <;> simp_all
    | fatal | down =>
      have hstopped : s.phase = .fatal ∨ s.phase = .down := by simp [hs]
      rcases (exec_of_stopped hstopped hexec).1 with hphase | ⟨hphase, hdown⟩
      · exact .inl (hphase.trans hs)
      · exact .inr (.inr (.inr ⟨hs ▸ hphase, hdown⟩))

/-- Taking a command changes none of the three. -/
theorem step_lifeGoesOn (hstep : step s = .next t) : LifeGoesOn s t := by
  cases htake : takeCommand s with
  | none =>
    rw [step_of_takeCommand_none htake] at hstep
    cases hstep
    exact .of_status s.status
  | some taken =>
    obtain ⟨w, u⟩ := taken
    have hsame : u.phase = s.phase ∧ u.cfgErr = s.cfgErr ∧ u.fatalCode = s.fatalCode := by
      unfold takeCommand at htake
      split at htake
      · cases htake
      · cases htake
        exact ⟨rfl, rfl, rfl⟩
    have hlife : LifeGoesOn u t := by
      cases hd : decodeWord w with
      | ok i =>
        rw [step_of_decodeWord_ok htake hd] at hstep
        exact exec_lifeGoesOn hstep
      | error e =>
        obtain ⟨code, hcode⟩ := rejectIllegal_cases u
        rw [step_of_decodeWord_error htake hd, hcode] at hstep
        cases hstep
        exact .of_status code
    obtain ⟨hphase, hlatch, hfatalCode⟩ := hlife
    obtain ⟨hp, hc, hf⟩ := hsame
    rw [ErrorStays, hc] at hlatch
    rw [hp] at hphase hfatalCode
    exact ⟨hphase, hlatch, hf ▸ hfatalCode⟩

end LifeCycle

/-- Settles O6: outside Config the legality of the commands settles the phase, in Config no command is fatal; `cfgErr`
is written only where it is 0, and in Fatal and Down no command writes the fatal code. -/
theorem lifeCycle : Obligations.LifeCycle :=
  ⟨fun _ _ hstep => (step_lifeGoesOn hstep).phase,
    fun _ _ hstep => ⟨(step_lifeGoesOn hstep).latch, (step_lifeGoesOn hstep).fatalCode⟩⟩

end Sys2Proof.Machine
end

/-! PROOFS of the host family, second part: the bytes of a snapshot (spec/47_host.md R333, R334, R336). An item is a row
of elements of one width, so a byte of the snapshot is a byte of one element, and what RESTORE checks of an item it
checks element by element. -/
section

namespace Sys2Proof

/-! ## Numbers as bytes, and rows of equally long elements (R88, R336) -/

theorem leNat_lt (bytes : List Byte) : leNat bytes < 256 ^ bytes.length := by
  induction bytes with
  | nil => exact Nat.one_pos
  | cons b bytes ih =>
    have hb : b.toNat < 256 := b.isLt
    rw [leNat, List.length_cons, Nat.pow_succ]
    omega

/-- Writing a number back gives the bytes it was read from. -/
theorem natToLe_leNat (bytes : List Byte) : natToLe bytes.length (leNat bytes) = bytes := by
  induction bytes with
  | nil => rfl
  | cons b bytes ih =>
    have hb : b.toNat < 256 := b.isLt
    have hlow : BitVec.ofNat 8 (b.toNat + 256 * leNat bytes) = b := by
      apply BitVec.eq_of_toNat_eq
      rw [BitVec.toNat_ofNat]
      omega
    have hhigh : (b.toNat + 256 * leNat bytes) / 256 = leNat bytes := by omega
    rw [leNat, List.length_cons, natToLe, hlow, hhigh, ih]

theorem getElem?_natToLe {n b : Nat} (v : Nat) (hb : b < n) :
    (natToLe n v)[b]? = some (BitVec.ofNat 8 (v / 2 ^ (8 * b))) := by
  induction n generalizing v b with
  | zero => exact absurd hb (Nat.not_lt_zero b)
  | succ n ih =>
    cases b with
    | zero => simp [natToLe]
    | succ b =>
      have hpow : v / 256 / 2 ^ (8 * b) = v / 2 ^ (8 * (b + 1)) := by
        rw [Nat.div_div_eq_div_mul, Nat.mul_add, Nat.pow_add, Nat.mul_comm]
      rw [natToLe, List.getElem?_cons_succ, ih _ (Nat.lt_of_succ_lt_succ hb), hpow]

/-- Byte b of a word holds its bits 8b to 8b+7. -/
theorem getElem?_natToLe_toNat {n b m : Nat} (x : BitVec m) (hb : b < n) :
    (natToLe n x.toNat)[b]? = some (x.extractLsb' (8 * b) 8) := by
  rw [getElem?_natToLe _ hb, BitVec.extractLsb', Nat.shiftRight_eq_div_pow]

/-- Element k of a row of elements of w bytes each. -/
def chunk (w : Nat) (bytes : List Byte) (k : Nat) : List Byte := (bytes.drop (w * k)).take w

theorem getElem?_chunk {w b : Nat} (bytes : List Byte) (k : Nat) (hb : b < w) :
    (chunk w bytes k)[b]? = bytes[w * k + b]? := by
  rw [chunk, List.getElem?_take_of_lt hb, List.getElem?_drop]

theorem chunk_length {w n k : Nat} {bytes : List Byte} (hlen : bytes.length = n * w) (hk : k < n) :
    (chunk w bytes k).length = w := by
  have hle : w * k + w ≤ n * w := by nlinarith
  rw [chunk, List.length_take, List.length_drop, hlen]
  omega

/-- The elements of a row, one after the other. -/
theorem flatMap_chunk (w n : Nat) (bytes : List Byte) :
    (List.range n).flatMap (chunk w bytes) = bytes.take (w * n) := by
  induction n with
  | zero => rfl
  | succ n ih =>
    rw [List.range_succ, List.flatMap_append, ih, List.flatMap_singleton, Nat.mul_succ, List.take_add, chunk]

section Rows

variable {w n : Nat} {f : Nat → List Byte} (hf : ∀ k, (f k).length = w)

include hf

theorem flatMap_range_length : ((List.range n).flatMap f).length = n * w := by
  rw [List.length_flatMap, List.map_congr_left fun k _ => hf k, List.map_const', List.sum_replicate, List.length_range,
    smul_eq_mul]

theorem chunk_flatMap {k : Nat} (hk : k < n) : chunk w ((List.range n).flatMap f) k = f k := by
  have hsplit : (List.range n).flatMap f =
      (List.range k).flatMap f ++ (f k ++ ((List.range (n - (k + 1))).map (k + 1 + ·)).flatMap f) := by
    rw [← List.append_assoc, ← List.flatMap_singleton f k, ← List.flatMap_append, ← List.range_succ,
      ← List.flatMap_append, ← List.range_add, Nat.add_sub_cancel' hk]
  rw [chunk, hsplit, List.drop_left' (by rw [flatMap_range_length hf, Nat.mul_comm]), List.take_left' (hf k)]

end Rows

end Sys2Proof

namespace Sys2Proof.Machine

/-! ## Numbers in a payload (R88) -/

theorem getD_drop (bytes : List Byte) (pos k : Nat) : (bytes.drop pos).getD k 0 = bytes.getD (pos + k) 0 := by
  rw [List.getD_eq_getElem?_getD, List.getElem?_drop, List.getD_eq_getElem?_getD]

theorem numberAt_one (bytes : List Byte) (pos : Nat) : numberAt bytes pos 1 = (bytes.getD pos 0).toNat := by
  rw [numberAt, ← Nat.add_zero pos, ← getD_drop, Nat.add_zero]
  cases bytes.drop pos <;> simp [leNat]

theorem numberAt_two (bytes : List Byte) (pos : Nat) :
    numberAt bytes pos 2 = (bytes.getD pos 0).toNat + 256 * (bytes.getD (pos + 1) 0).toNat := by
  rw [← getD_drop, ← Nat.add_zero pos, ← getD_drop, Nat.add_zero, numberAt]
  rcases bytes.drop pos with _ | ⟨b, _ | ⟨b', bs⟩⟩ <;> simp [leNat]

/-- A number that lies within a slice of the bytes. -/
theorem numberAt_slice {start len pos width : Nat} (bytes : List Byte) (h : pos + width ≤ len) :
    numberAt ((bytes.drop start).take len) pos width = numberAt bytes (start + pos) width := by
  rw [numberAt, numberAt, List.drop_take, List.drop_drop, List.take_take, Nat.min_eq_left (by omega)]

/-! ## The elements of an item (R336) -/

section Items

variable (env : Env) (s : State) (it : SaveItem)

theorem elementBytes_length (n : Nat) : (elementBytes env s it n).length = itemWidth it.cls := by
  unfold elementBytes
  cases it.cls <;> simp [itemWidth, scrollBytes, lineBytes]

theorem itemBytes_length : (itemBytes env s it).length = itemLength s it :=
  flatMap_range_length (elementBytes_length env s it)

variable {it}

theorem chunk_itemBytes {n : Nat} (hn : n < itemCount s it) :
    chunk (itemWidth it.cls) (itemBytes env s it) n = elementBytes env s it n :=
  chunk_flatMap (elementBytes_length env s it) hn

theorem getElem?_itemBytes {n b : Nat} (hn : n < itemCount s it) (hb : b < itemWidth it.cls) :
    (itemBytes env s it)[itemWidth it.cls * n + b]? = (elementBytes env s it n)[b]? := by
  rw [← getElem?_chunk _ n hb, chunk_itemBytes env s hn]

theorem flatMap_itemBytes_length (its : List SaveItem) :
    (its.flatMap (itemBytes env s)).length = (its.map (itemLength s)).sum := by
  rw [List.length_flatMap, List.map_congr_left fun it _ => itemBytes_length env s it]

theorem snapshotBytes_length : (snapshotBytes env s).length = snapshotLength s := flatMap_itemBytes_length env s s.save

/-- Byte b of element n of an item stands in the snapshot after the items before it. -/
theorem getElem?_snapshotBytes {pre post : List SaveItem} (hsave : s.save = pre ++ it :: post) {n b : Nat}
    (hn : n < itemCount s it) (hb : b < itemWidth it.cls) :
    (snapshotBytes env s)[(pre.map (itemLength s)).sum + (itemWidth it.cls * n + b)]? =
      (elementBytes env s it n)[b]? := by
  have hin : itemWidth it.cls * n + b < (itemBytes env s it).length := by
    rw [itemBytes_length, itemLength]
    nlinarith
  rw [← getElem?_itemBytes env s hn hb, snapshotBytes, hsave, List.flatMap_append, List.flatMap_cons,
    ← flatMap_itemBytes_length env, List.getElem?_append_right (Nat.le_add_right _ _), Nat.add_sub_cancel_left,
    List.getElem?_append_left hin]

end Items

/-! ## What RESTORE checks (R334) -/

section Checks

variable (s : State)

/-- Every item is checked on its own bytes, which stand after those of the items before it. -/
theorem itemsOk_iff {its : List SaveItem} {bytes : List Byte} :
    itemsOk s its bytes = true ↔ ∀ pre it post, its = pre ++ it :: post →
      itemOk s it ((bytes.drop (pre.map (itemLength s)).sum).take (itemLength s it)) = true := by
  induction its generalizing bytes with
  | nil => simp [itemsOk]
  | cons first its ih =>
    rw [itemsOk, Bool.and_eq_true, ih]
    constructor
    · rintro ⟨hfirst, hrest⟩ pre it post hits
      cases pre with
      | nil =>
        obtain ⟨rfl, rfl⟩ := List.cons_eq_cons.1 hits
        exact hfirst
      | cons _ pre =>
        obtain ⟨rfl, rfl⟩ := List.cons_eq_cons.1 hits
        rw [List.map_cons, List.sum_cons, ← List.drop_drop]
        exact hrest pre it post rfl
    · intro hall
      refine ⟨hall [] first its rfl, fun pre it post hits => ?_⟩
      rw [List.drop_drop]
      exact hall (first :: pre) it post (by rw [hits, List.cons_append])

/-- Element n of an item of this class is out of range, by the item's bytes: a FLIP byte above 1, a reserved bit or
state in a line, a LOOKUP value that is no palette index. -/
def outOfRange (cls : SaveClass) (byte : Nat → Nat) (n : Nat) : Prop :=
  match cls with
  | .flip => 1 < byte n
  | .lines => 8 ≤ byte (2 * n) ∨ byte (2 * n) % 4 = 2
  | .lookup => s.params.npal ≤ byte (2 * n) + 256 * byte (2 * n + 1)
  | .region | .bank | .scroll | .latches | .palette => False

theorem elementOk_slice_iff {it : SaveItem} {n : Nat} (hn : n < itemCount s it) (bytes : List Byte) (start : Nat) :
    elementOk s it.cls ((bytes.drop start).take (itemLength s it)) n = true ↔
      ¬outOfRange s it.cls (fun k => (bytes.getD (start + k) 0).toNat) n := by
  obtain ⟨cls, id⟩ := it
  have hin : itemWidth cls * n + itemWidth cls ≤ itemLength s ⟨cls, id⟩ := by
    rw [itemLength]
    nlinarith
  cases cls <;> simp only [elementOk, outOfRange, not_false_eq_true] <;> simp only [itemWidth] at hin
  case flip => rw [numberAt_slice _ (by omega), numberAt_one, decide_eq_true_eq, Nat.not_lt]
  case lines =>
    rw [numberAt_slice _ (by omega), numberAt_one, Bool.and_eq_true, decide_eq_true_eq, decide_eq_true_eq, not_or,
      Nat.not_le]
  case lookup => rw [numberAt_slice _ (by omega), numberAt_two, decide_eq_true_eq, Nat.not_le, Nat.add_assoc]

theorem itemOk_slice_iff (it : SaveItem) (bytes : List Byte) (start : Nat) :
    itemOk s it ((bytes.drop start).take (itemLength s it)) = true ↔
      ¬∃ n, n < itemCount s it ∧ outOfRange s it.cls (fun k => (bytes.getD (start + k) 0).toNat) n := by
  simp only [itemOk, List.all_eq_true, List.mem_range, not_exists, not_and]
  exact forall_congr' fun n => forall_congr' fun hn => elementOk_slice_iff s hn bytes start

end Checks

/-! ## The commands (R333, R334) -/

section Commands

variable {s : State}

theorem exec_snapshot_run (hs : s.phase = .run) :
    exec .snapshot s = .next (completedR0 (BitVec.ofNat 32 (snapshotBytes Config.env s).length)
      { s with payloadOut := snapshotBytes Config.env s }) :=
  congrArg _ (hostCommand_legal (snapshotBody Config.env) (legalIn_runOnly.2 hs))

theorem exec_restore_run (hs : s.phase = .run) : exec .restore s = .next (endCommand s (restoreBody s)) :=
  congrArg _ (hostCommand_legal restoreBody (legalIn_runOnly.2 hs))

/-- What RESTORE makes of the state: the items, their notifications, the dirty bits. -/
def restored (s : State) : State :=
  allDirty (s.save.foldl (notifyItem s) (restoreItems s.save s.payloadIn s))

theorem exec_restore_refused (hs : s.phase = .run)
    (hbad : s.payloadIn.length ≠ snapshotLength s ∨ itemsOk s s.save s.payloadIn = false) :
    exec .restore s = .next (refusedWith codeBadParam s) := by
  have hbody : restoreBody s = .refuse codeBadParam := by
    rw [restoreBody, restoreFrom]
    by_cases hlen : s.payloadIn.length ≠ snapshotLength s
    · rw [if_pos hlen]
    · rw [if_neg hlen, if_pos (hbad.resolve_left hlen)]
  rw [exec_restore_run hs, hbody, endCommand_refuse_eq]

theorem exec_restore_accepted (hs : s.phase = .run) (hlen : s.payloadIn.length = snapshotLength s)
    (hok : itemsOk s s.save s.payloadIn = true) : exec .restore s = .next (completed (restored s)) := by
  have hbody : restoreBody s = done (restored s) := by
    rw [restoreBody, restoreFrom, if_neg (not_not_intro hlen), if_neg (by simp [hok]), restored]
  rw [exec_restore_run hs, hbody, endCommand_done_eq]

end Commands

/-- The first byte of a line: `hasvec` over the two bits of the state (R128, R336). -/
theorem lineByte_eq (st : LineState) (hasvec : Bool) :
    BitVec.ofNat 8 (lineStateCode st + 4 * hasvec.toNat) =
      (0 : BitVec 5) ++ BitVec.ofBool hasvec ++
        (match st with
          | .idle => 0
          | .pending => 1
          | .acknowledged => 2
          | .asserted => 3 : BitVec 2) := by
  cases st <;> cases hasvec <;> rfl

theorem getElem?_scrollBytes (e : Scroll) {b : Nat} (hb : b < 2) :
    (scrollBytes e)[b]? = some (e.dx.extractLsb' (8 * b) 8) ∧
      (scrollBytes e)[2 + b]? = some (e.dy.extractLsb' (8 * b) 8) := by
  rw [scrollBytes, List.getElem?_append_left (by simpa using hb), List.getElem?_append_right (by simp),
    natToLe_length, Nat.add_sub_cancel_left]
  exact ⟨getElem?_natToLe_toNat _ hb, getElem?_natToLe_toNat _ hb⟩

/-- Settles O56: a byte of the snapshot is a byte of one element of one item, and a payload is in range when every
element of every item is. -/
theorem snapshotAnswersAndRestoreRefuses : Obligations.SnapshotAnswersAndRestoreRefuses := by
  refine ⟨fun env s pre post it hsave => ?bytes,
    fun s hs => ⟨exec_snapshot_run hs, snapshotBytes_length Config.env s⟩,
    fun s hs hbad => exec_restore_refused hs hbad, fun s hs => ?checks⟩
  case bytes =>
    intro id byteAt
    have hbyte {n b : Nat} (hn : n < itemCount s it) (hb : b < itemWidth it.cls) :
        byteAt (itemWidth it.cls * n + b) = (elementBytes env s it n)[b]? := getElem?_snapshotBytes env s hsave hn hb
    clear_value byteAt
    obtain ⟨cls, ident⟩ := it
    cases cls <;> simp only [itemCount, itemWidth, elementBytes] at hbyte ⊢
    case region =>
      refine ⟨Nat.mul_one _, fun o ho => ?_⟩
      simpa using hbyte (n := o) (b := 0) ho (by decide)
    case bank =>
      refine ⟨trivial, fun b hb => ?_⟩
      simpa [getElem?_natToLe_toNat _ hb] using hbyte (n := 0) (by decide) hb
    case scroll =>
      refine ⟨Nat.mul_comm _ _, fun e b he hb => ?_⟩
      obtain ⟨hdx, hdy⟩ := getElem?_scrollBytes (scrollAt s id e) hb
      exact ⟨(hbyte he (by omega)).trans hdx, by rw [Nat.add_assoc, hbyte he (by omega), hdy]⟩
    case flip => exact ⟨trivial, hbyte (n := 0) (b := 0) (by decide) (by decide)⟩
    case latches =>
      refine ⟨Nat.mul_one _, fun n hn => ?_⟩
      simpa using hbyte (n := n) (b := 0) hn (by decide)
    case lines =>
      refine ⟨Nat.mul_comm _ _, fun l hl => ⟨?_, hbyte (b := 1) hl (by decide)⟩⟩
      exact (hbyte (b := 0) hl (by decide)).trans (congrArg some (lineByte_eq _ _))
    case palette =>
      refine ⟨Nat.mul_comm _ _, fun n b hn hb => ?_⟩
      rw [hbyte hn hb, getElem?_natToLe_toNat _ hb]
    case lookup =>
      refine ⟨by ring, fun g p b hg hp hb => ?_⟩
      rw [hbyte (by nlinarith) hb, getElem?_natToLe_toNat _ hb]
  case checks =>
    intro byteAt out len
    have hout : out ↔ itemsOk s s.save s.payloadIn = false := by
      rw [← Bool.not_eq_true, itemsOk_iff]
      simp only [itemOk_slice_iff, not_forall, not_not, exists_prop]
      refine exists_congr fun pre => exists_congr fun it => exists_congr fun post => and_congr_right fun _ => ?_
      change _ ↔ ∃ n, n < itemCount s it ∧ outOfRange s it.cls (byteAt pre) n
      obtain ⟨cls, id⟩ := it
      cases cls <;> simp [itemCount, outOfRange]
    exact ⟨fun hbad => exec_restore_refused hs (hbad.imp_right hout.1),
      fun hlen hin => ⟨_, exec_restore_accepted hs hlen (by simpa using mt hout.2 hin), rfl⟩⟩

end Sys2Proof.Machine
end

/-! PROOFS of the host family, third part: what RESTORE makes of one item (spec/47_host.md R334, R336). Writing an item
from its bytes and reading its bytes back are inverse to each other, element by element; a RESTORE of other items leaves
them. -/
section

namespace Sys2Proof

/-! ## Words, and the numbers their bytes stand for (R88) -/

theorem ofNat_leNat_natToLe {m : Nat} (w : Nat) (x : BitVec m) (hw : 2 ^ m = 256 ^ w) :
    BitVec.ofNat m (leNat (natToLe w x.toNat)) = x := by
  rw [leNat_natToLe, Nat.mod_eq_of_lt (hw ▸ x.isLt), BitVec.ofNat_toNat, BitVec.setWidth_eq]

theorem natToLe_ofNat_leNat {m w : Nat} {bytes : List Byte} (hw : 2 ^ m = 256 ^ w) (hlen : bytes.length = w) :
    natToLe w (BitVec.ofNat m (leNat bytes)).toNat = bytes := by
  subst hlen
  rw [BitVec.toNat_ofNat, Nat.mod_eq_of_lt (hw ▸ leNat_lt bytes), natToLe_leNat]

theorem chunk_one {bytes : List Byte} {n : Nat} (hn : n < bytes.length) : chunk 1 bytes n = [bytes.getD n 0] := by
  rw [chunk, Nat.one_mul, List.drop_eq_getElem_cons hn, List.getD_eq_getElem _ _ hn]
  rfl

end Sys2Proof

namespace Sys2Proof.Machine

/-! ## Tables and rows as lists -/

theorem getD_map_range {α : Type} {n k : Nat} (hk : k < n) (f : Nat → α) (d : α) :
    ((List.range n).map f).getD k d = f k := by
  simp [List.getD_eq_getElem?_getD, hk]

/-- A row written again, element by element. -/
theorem map_range_eq_self {α : Type} {l : List α} {n : Nat} {f : Nat → α} (d : α) (hlen : l.length = n)
    (hf : ∀ k, k < n → f k = l.getD k d) : (List.range n).map f = l := by
  subst hlen
  refine List.ext_getElem (by simp) fun k hk _ => ?_
  have hlt : k < l.length := by simpa using hk
  rw [List.getElem_map, List.getElem_range, hf k hlt, List.getD_eq_getElem _ _ hlt]

/-! ## Elements and their bytes (R336) -/

/-- A number within one element of a row. -/
theorem numberAt_chunk {w n pos width : Nat} (bytes : List Byte) (h : pos + width ≤ w) :
    numberAt (chunk w bytes n) pos width = numberAt bytes (w * n + pos) width := numberAt_slice bytes h

theorem numberAt_element (w n : Nat) (bytes : List Byte) : numberAt bytes (w * n) w = leNat (chunk w bytes n) := rfl

theorem lineFrom_chunk (bytes : List Byte) (n : Nat) : lineFrom bytes (2 * n) = lineFrom (chunk 2 bytes n) 0 := by
  rw [lineFrom, lineFrom, numberAt_chunk bytes (by decide), numberAt_chunk bytes (by decide)]
  rfl

theorem lineStateCode_lineStateOf {n : Nat} (hn : n < 4) : lineStateCode (lineStateOf n) = n := by
  interval_cases n <;> rfl

theorem lineFrom_lineBytes (ln : Line) : lineFrom (lineBytes ln) 0 = ln := by
  obtain ⟨st, hasvec, vec⟩ := ln
  rw [lineFrom, numberAt_one, numberAt_one]
  cases st <;> cases hasvec <;> simp [lineBytes, lineStateCode, lineStateOf]

theorem lineBytes_lineFrom {bytes : List Byte} (hlen : bytes.length = 2) (hbits : numberAt bytes 0 1 < 8) :
    lineBytes (lineFrom bytes 0) = bytes := by
  obtain ⟨a, b, rfl⟩ := List.length_eq_two.1 hlen
  have ha : numberAt [a, b] 0 1 = a.toNat := numberAt_one _ 0
  have hb : numberAt [a, b] (0 + 1) 1 = b.toNat := numberAt_one _ 1
  have hflag : (a.toNat / 4 % 2 == 1).toNat = a.toNat / 4 % 2 := by
    rcases Nat.mod_two_eq_zero_or_one (a.toNat / 4) with h | h <;> rw [h] <;> rfl
  have hstate : a.toNat % 4 + 4 * (a.toNat / 4 % 2) = a.toNat := by omega
  rw [lineFrom, lineBytes, ha, hb, lineStateCode_lineStateOf (Nat.mod_lt _ (by decide)), hflag, hstate]
  simp

/-- The scroll entry that four bytes stand for. -/
def scrollFrom (bytes : List Byte) : Scroll :=
  ⟨BitVec.ofNat 16 (numberAt bytes 0 2), BitVec.ofNat 16 (numberAt bytes 2 2)⟩

theorem scrollFrom_chunk (bytes : List Byte) (n : Nat) :
    scrollFrom (chunk 4 bytes n) = ⟨BitVec.ofNat 16 (numberAt bytes (4 * n) 2),
      BitVec.ofNat 16 (numberAt bytes (4 * n + 2) 2)⟩ := by
  rw [scrollFrom, numberAt_chunk bytes (by decide), numberAt_chunk bytes (by decide)]
  rfl

theorem scrollFrom_scrollBytes (e : Scroll) : scrollFrom (scrollBytes e) = e := by
  have hdx : (scrollBytes e).take 2 = natToLe 2 e.dx.toNat := List.take_left' (natToLe_length _ _)
  have hdy : (scrollBytes e).drop 2 = natToLe 2 e.dy.toNat := List.drop_left' (natToLe_length _ _)
  have hall : (natToLe 2 e.dy.toNat).take 2 = natToLe 2 e.dy.toNat := List.take_of_length_le (natToLe_length _ _).le
  rw [scrollFrom, numberAt, numberAt, List.drop_zero, hdx, hdy, hall, ofNat_leNat_natToLe 2 _ rfl,
    ofNat_leNat_natToLe 2 _ rfl]

theorem scrollBytes_scrollFrom {bytes : List Byte} (hlen : bytes.length = 4) :
    scrollBytes (scrollFrom bytes) = bytes := by
  have hlow : (bytes.take 2).length = 2 := by rw [List.length_take, hlen]; rfl
  have hhigh : (bytes.drop 2).length = 2 := by rw [List.length_drop, hlen]
  have hall : (bytes.drop 2).take 2 = bytes.drop 2 := List.take_of_length_le hhigh.le
  rw [scrollBytes, scrollFrom, numberAt, numberAt, List.drop_zero, hall, natToLe_ofNat_leNat rfl hlow,
    natToLe_ofNat_leNat rfl hhigh, List.take_append_drop]

/-- A FLIP byte in range is the flag it stands for. -/
theorem flipByte_eq {b : Byte} (hb : b.toNat ≤ 1) : (if (b.toNat == 1) = true then 1 else 0) = b := by
  apply BitVec.eq_of_toNat_eq
  split_ifs with h
  · exact (beq_iff_eq.1 h).symm
  · have hne : b.toNat ≠ 1 := fun h1 => h (beq_iff_eq.2 h1)
    have hzero : b.toNat = 0 := by omega
    exact hzero.symm

theorem lt_dev_of_isCpu {s : State} {c : Nat} (hc : isCpu s c = true) : c < s.dev.length := by
  by_contra hge
  rw [isCpu, List.getElem?_eq_none (Nat.not_lt.1 hge)] at hc
  cases hc

/-! ## One item (R334) -/

section OneItem

variable {env : Env} {s : State} {it : SaveItem} {bytes : List Byte}

/-- Each element of an item holds after a RESTORE the bytes that it was restored from. -/
theorem elementBytes_restoreItem {n : Nat} (hs : Shaped s) (htarget : saveTargetOk s it.cls it.id = true)
    (hlen : bytes.length = itemLength s it) (hok : itemOk s it bytes = true) (hn : n < itemCount s it) :
    elementBytes env (restoreItem it bytes s) it n = chunk (itemWidth it.cls) bytes n := by
  have hchunk : (chunk (itemWidth it.cls) bytes n).length = itemWidth it.cls := chunk_length hlen hn
  have helement := elementOk_of_itemOk hok hn
  have hin : n * itemWidth it.cls < bytes.length := by
    rw [hlen, itemLength]
    exact Nat.mul_lt_mul_of_pos_right hn (by cases it.cls <;> decide)
  obtain ⟨cls, id⟩ := it
  cases cls <;> simp only [elementBytes, itemWidth, Nat.mul_one] at hchunk hin ⊢
  case region =>
    have ho : n < 2 ^ 32 := lt_trans hn (regionSize_lt s _)
    rw [chunk_one hin, readRegion, restoreItem, memFind_memSetRegion _ _ _ ho, if_pos rfl, List.getElem?_eq_getElem hin,
      Option.getD_some, List.getD_eq_getElem _ _ hin]
  case bank =>
    obtain rfl : n = 0 := Nat.lt_one_iff.1 hn
    have hb : id.toNat < s.banks.length := by
      rw [hs.banks]
      simpa using (Bool.and_eq_true_iff.1 htarget).1
    rw [bankAt, restoreItem, modify_eq_set_getD _ _ _ noBank, getD_set_self hb]
    exact natToLe_ofNat_leNat rfl hchunk
  case scroll =>
    have hL : id.toNat < s.scroll.length := by
      rw [hs.scroll]
      simpa using (Bool.and_eq_true_iff.1 htarget).1
    rw [scrollAt, restoreItem, getD_set_self hL, getD_map_range hn, ← scrollFrom_chunk, scrollBytes_scrollFrom hchunk]
  case flip =>
    obtain rfl : n = 0 := Nat.lt_one_iff.1 hn
    rw [chunk_one hin, restoreItem, numberAt_one, flipByte_eq]
    rw [← numberAt_one]
    exact of_decide_eq_true helement
  case latches =>
    rw [chunk_one hin]
    rfl
  case lines =>
    have hc : id.toNat < s.lines.length := hs.lines ▸ lt_dev_of_isCpu htarget
    have hbits : numberAt (chunk 2 bytes n) 0 1 < 8 := by
      rw [numberAt_chunk bytes (by decide)]
      exact of_decide_eq_true (Bool.and_eq_true_iff.1 helement).1
    rw [lineAt, restoreItem, getD_set_self hc, getD_map_range hn, lineFrom_chunk, lineBytes_lineFrom hchunk hbits]
  case palette =>
    rw [restoreItem, getD_map_range hn]
    exact natToLe_ofNat_leNat rfl hchunk
  case lookup =>
    rw [restoreItem, getD_map_range hn]
    exact natToLe_ofNat_leNat rfl hchunk

/-- The bytes of an item after its RESTORE are the ones it was restored from. -/
theorem itemBytes_restoreItem (hs : Shaped s) (htarget : saveTargetOk s it.cls it.id = true)
    (hlen : bytes.length = itemLength s it) (hok : itemOk s it bytes = true) :
    itemBytes env (restoreItem it bytes s) it = bytes := by
  rw [itemBytes, itemCount_of_configView (configView_restoreItem it bytes s), List.flatMap_congr fun n hn =>
    elementBytes_restoreItem hs htarget hlen hok (List.mem_range.1 hn), flatMap_chunk, Nat.mul_comm]
  exact List.take_of_length_le hlen.le

/-- A row of numbers of the item's own bytes: the elements as they are. -/
theorem numberAt_itemBytes {n : Nat} (hn : n < itemCount s it) :
    numberAt (itemBytes env s it) (itemWidth it.cls * n) (itemWidth it.cls) = leNat (elementBytes env s it n) := by
  rw [numberAt_element, chunk_itemBytes env s hn]

end OneItem

/-- From s to t only memory was written, and no byte of a region changed. -/
structure SameBytes (env : Env) (s t : State) : Prop where
  frame : t = { s with mem := t.mem }
  byte : ∀ r o, o < regionSize s r → readRegion env t r o = readRegion env s r o

namespace SameBytes

variable {env : Env} {s t u : State}

theorem refl (s : State) : SameBytes env s s := ⟨rfl, fun _ _ _ => rfl⟩

theorem regionSize_eq (h : SameBytes env s t) (r : Nat) : regionSize t r = regionSize s r := by rw [h.frame]; rfl

theorem trans (h : SameBytes env s t) (h' : SameBytes env t u) : SameBytes env s u where
  frame := h'.frame.trans (congrArg (fun v : State => { v with mem := u.mem }) h.frame)
  byte r o ho := (h'.byte r o (h.regionSize_eq r ▸ ho)).trans (h.byte r o ho)

/-- What reads no memory reads the same. -/
theorem reads {α : Type} (h : SameBytes env s t) (f : State → α) (hf : ∀ v m, f { v with mem := m } = f v) :
    f t = f s := by
  rw [h.frame]
  exact hf s t.mem

theorem itemBytes_eq (h : SameBytes env s t) (it : SaveItem) : itemBytes env t it = itemBytes env s it := by
  have hcount : itemCount t it = itemCount s it := h.reads (fun v => itemCount v it) fun _ _ => rfl
  rw [itemBytes, itemBytes, hcount]
  refine List.flatMap_congr fun n hn => ?_
  have hn : n < itemCount s it := List.mem_range.1 hn
  obtain ⟨cls, id⟩ := it
  cases cls
  case region => exact congrArg (fun b => [b]) (h.byte _ n hn)
  all_goals exact h.reads (fun v => elementBytes env v _ n) fun _ _ => rfl

end SameBytes

section OwnBytes

variable {env : Env} {s : State} {it : SaveItem}

/-- An item restored from its own bytes changes no byte of a region and nothing else. -/
theorem sameBytes_restoreItem (hs : Shaped s) (htarget : saveTargetOk s it.cls it.id = true) :
    SameBytes env s (restoreItem it (itemBytes env s it) s) := by
  have hnumber {n : Nat} (hn : n < itemCount s it) := numberAt_itemBytes (env := env) hn
  have hchunk {n : Nat} (hn : n < itemCount s it) := chunk_itemBytes env s hn
  have hsame (h : restoreItem it (itemBytes env s it) s = s) :
      SameBytes env s (restoreItem it (itemBytes env s it) s) :=
    h.symm ▸ .refl s
  obtain ⟨cls, id⟩ := it
  cases cls
  case region =>
    refine ⟨rfl, fun r o ho => ?_⟩
    have hmem := memFind_memSetRegion s.mem id.toNat (itemBytes env s ⟨.region, id⟩) (r' := r)
      (ho.trans (regionSize_lt s r))
    rw [readRegion, restoreItem, hmem]
    split_ifs with hr
    · subst hr
      have hbyte : (itemBytes env s ⟨.region, id⟩)[1 * o + 0]? = some (readRegion env s id.toNat o) :=
        getElem?_itemBytes env s ho Nat.one_pos
      rw [Nat.one_mul, Nat.add_zero] at hbyte
      rw [hbyte, Option.getD_some]
    · rfl
  case bank =>
    have hoffset : BitVec.ofNat 32 (numberAt (itemBytes env s ⟨.bank, id⟩) 0 4) = (bankAt s id.toNat).offset :=
      (congrArg _ (hnumber (n := 0) Nat.one_pos)).trans (ofNat_leNat_natToLe 4 _ rfl)
    have hbanks : s.banks.modify id.toNat (fun bk => { bk with offset := (bankAt s id.toNat).offset }) = s.banks := by
      rw [modify_eq_set_getD _ _ _ noBank]
      exact set_getD_self _ _ _
    refine hsame ?_
    rw [restoreItem, hoffset, hbanks]
  case scroll =>
    have hrow := map_range_eq_self ⟨0, 0⟩ (hs.layerRows _ htarget).scroll
      (f := fun e => scrollFrom (chunk 4 (itemBytes env s ⟨.scroll, id⟩) e)) fun e he => by
        rw [show chunk 4 _ e = scrollBytes (scrollAt s id.toNat e) from hchunk he, scrollFrom_scrollBytes]
        rfl
    refine hsame ?_
    simp only [restoreItem, ← scrollFrom_chunk]
    rw [show itemCount s _ = (layerAt s id.toNat).nent.toNat from rfl, hrow, set_getD_self]
  case flip =>
    have hflip : (numberAt (itemBytes env s ⟨.flip, id⟩) 0 1 == 1) = s.flip := by
      rw [show numberAt _ 0 1 = leNat [if s.flip then 1 else 0] from hnumber (n := 0) Nat.one_pos]
      cases s.flip <;> rfl
    refine hsame ?_
    rw [restoreItem, hflip]
  case latches =>
    have hrow : (List.range s.params.nlatch).map (fun n => s.latch.getD n 0) = s.latch :=
      map_range_eq_self 0 hs.latch fun _ _ => rfl
    have hbytes : itemBytes env s ⟨.latches, id⟩ = s.latch := List.map_eq_flatMap.symm.trans hrow
    refine hsame ?_
    rw [restoreItem, hbytes]
  case lines =>
    have hrow := map_range_eq_self idleLine (hs.lineRows _ htarget)
      (f := fun l => lineFrom (itemBytes env s ⟨.lines, id⟩) (2 * l)) fun l hl => by
        rw [lineFrom_chunk, show chunk 2 _ l = lineBytes (lineAt s id.toNat l) from hchunk hl, lineFrom_lineBytes]
        rfl
    refine hsame ?_
    rw [restoreItem, show itemCount s _ = s.params.nlineOf id.toNat from rfl, hrow, set_getD_self]
  case palette =>
    have hrow := map_range_eq_self 0 hs.palette
      (f := fun n => BitVec.ofNat 24 (numberAt (itemBytes env s ⟨.palette, id⟩) (3 * n) 3)) fun n hn =>
        (congrArg _ (hnumber hn)).trans (ofNat_leNat_natToLe 3 _ rfl)
    refine hsame ?_
    rw [restoreItem, show itemCount s _ = s.params.npal from rfl, hrow]
  case lookup =>
    have hrow := map_range_eq_self 0 hs.lookup
      (f := fun n => BitVec.ofNat 16 (numberAt (itemBytes env s ⟨.lookup, id⟩) (2 * n) 2)) fun n hn =>
        (congrArg _ (hnumber hn)).trans (ofNat_leNat_natToLe 2 _ rfl)
    refine hsame ?_
    rw [restoreItem, show itemCount s _ = s.params.ngroup * s.params.npens from rfl, hrow]

end OwnBytes

end Sys2Proof.Machine
end

/-! PROOFS of the host family, fourth part: RESTORE (spec/47_host.md R334, R336). Its items are written one after
another, and what an item does not name stays; its notifications are one event for each line whose activity changed. -/
section

namespace Sys2Proof.Machine

/-! ## What the items of a list do not write (R334) -/

/-- A state without the fields that a save item can name. -/
def unsavedView (s : State) : State :=
  { s with mem := [], banks := [], scroll := [], flip := false, latch := [], lines := [], palette := [], lookup := [] }

/-- No item of the list names thing `id` of the class. -/
def Unnamed (its : List SaveItem) (cls : SaveClass) (id : Nat) : Prop := ∀ it ∈ its, it.cls = cls → it.id.toNat ≠ id

/-- No item of the list is of the class. -/
def NoneOf (its : List SaveItem) (cls : SaveClass) : Prop := ∀ it ∈ its, it.cls ≠ cls

theorem unnamed_of_saved {s : State} {cls : SaveClass} {id : Nat} (h : saved s cls id = false) :
    Unnamed s.save cls id := by
  simpa [saved, Unnamed] using h

theorem noneOf_of_savedAny {s : State} {cls : SaveClass} (h : savedAny s cls = false) : NoneOf s.save cls := by
  simpa [savedAny, NoneOf] using h

section Unwritten

variable {its : List SaveItem} {bytes : List Byte} {s : State}

theorem restoreItems_unsavedView : unsavedView (restoreItems its bytes s) = unsavedView s :=
  restoreItems_induct (P := fun t => unsavedView t = unsavedView s) its bytes s rfl fun it _ bs t ht => by
    rw [← ht, restoreItem]
    split <;> rfl

theorem read_restoreItems {α : Type} (f : State → α) (hf : ∀ t, f (unsavedView t) = f t) :
    f (restoreItems its bytes s) = f s := by
  rw [← hf, restoreItems_unsavedView, hf]

theorem configView_restoreItems : configView (restoreItems its bytes s) = configView s :=
  restoreItems_induct (P := fun t => configView t = configView s) its bytes s rfl fun it _ bs t ht =>
    (configView_restoreItem it bs t).trans ht

theorem readRegion_restoreItems {env : Env} {r o : Nat} (h : Unnamed its .region r) (ho : o < 2 ^ 32) :
    readRegion env (restoreItems its bytes s) r o = readRegion env s r o :=
  restoreItems_induct (P := fun t => readRegion env t r o = readRegion env s r o) its bytes s rfl
    fun it hit bs t ht => by
      rw [← ht]
      obtain ⟨cls, id⟩ := it
      cases cls
      case region =>
        rw [readRegion, restoreItem, memFind_memSetRegion _ _ _ ho, if_neg (h _ hit rfl).symm]
        rfl
      all_goals rfl

theorem bankAt_restoreItems {b : Nat} (h : Unnamed its .bank b) : bankAt (restoreItems its bytes s) b = bankAt s b :=
  restoreItems_induct (P := fun t => bankAt t b = bankAt s b) its bytes s rfl fun it hit bs t ht => by
    rw [← ht]
    obtain ⟨cls, id⟩ := it
    cases cls
    case bank =>
      rw [bankAt, restoreItem, modify_eq_set_getD _ _ _ noBank, getD_set_ne (h _ hit rfl)]
      rfl
    all_goals rfl

theorem scrollAt_restoreItems {L : Nat} (h : Unnamed its .scroll L) (e : Nat) :
    scrollAt (restoreItems its bytes s) L e = scrollAt s L e :=
  restoreItems_induct (P := fun t => scrollAt t L e = scrollAt s L e) its bytes s rfl fun it hit bs t ht => by
    rw [← ht]
    obtain ⟨cls, id⟩ := it
    cases cls
    case scroll =>
      rw [scrollAt, restoreItem, getD_set_ne (h _ hit rfl)]
      rfl
    all_goals rfl

theorem lineAt_restoreItems {c : Nat} (h : Unnamed its .lines c) (l : Nat) :
    lineAt (restoreItems its bytes s) c l = lineAt s c l :=
  restoreItems_induct (P := fun t => lineAt t c l = lineAt s c l) its bytes s rfl fun it hit bs t ht => by
    rw [← ht]
    obtain ⟨cls, id⟩ := it
    cases cls
    case lines =>
      rw [lineAt, restoreItem, getD_set_ne (h _ hit rfl)]
      rfl
    all_goals rfl

/-- A field that only the items of one class write stays where the list holds none. -/
theorem field_restoreItems {α : Type} {cls : SaveClass} (h : NoneOf its cls) (f : State → α)
    (hf : ∀ it bs t, it.cls ≠ cls → f (restoreItem it bs t) = f t) : f (restoreItems its bytes s) = f s :=
  restoreItems_induct (P := fun t => f t = f s) its bytes s rfl fun it hit bs t ht => (hf it bs t (h it hit)).trans ht

theorem flip_restoreItems (h : NoneOf its .flip) : (restoreItems its bytes s).flip = s.flip :=
  field_restoreItems h State.flip fun ⟨cls, _⟩ _ _ hne => by
    cases cls
    case flip => exact absurd rfl hne
    all_goals rfl

theorem latch_restoreItems (h : NoneOf its .latches) : (restoreItems its bytes s).latch = s.latch :=
  field_restoreItems h State.latch fun ⟨cls, _⟩ _ _ hne => by
    cases cls
    case latches => exact absurd rfl hne
    all_goals rfl

theorem palette_restoreItems (h : NoneOf its .palette) : (restoreItems its bytes s).palette = s.palette :=
  field_restoreItems h State.palette fun ⟨cls, _⟩ _ _ hne => by
    cases cls
    case palette => exact absurd rfl hne
    all_goals rfl

theorem lookup_restoreItems (h : NoneOf its .lookup) : (restoreItems its bytes s).lookup = s.lookup :=
  field_restoreItems h State.lookup fun ⟨cls, _⟩ _ _ hne => by
    cases cls
    case lookup => exact absurd rfl hne
    all_goals rfl

end Unwritten

theorem eq_of_unsavedView {s t : State} (h : unsavedView t = unsavedView s) :
    t = { s with
      mem := t.mem
      banks := t.banks
      scroll := t.scroll
      flip := t.flip
      latch := t.latch
      lines := t.lines
      palette := t.palette
      lookup := t.lookup } :=
  congrArg (fun v : State => { v with
    mem := t.mem, banks := t.banks, scroll := t.scroll, flip := t.flip, latch := t.latch, lines := t.lines,
    palette := t.palette, lookup := t.lookup }) h

/-! ## The snapshot of what was restored (R336) -/

section Restored

variable {env : Env} {s : State} {its : List SaveItem} {bytes : List Byte} {it : SaveItem}

/-- The identifier is the one SAVEREG keeps for the class (R332). -/
def Canonical (it : SaveItem) : Prop := it.id = saveId it.cls it.id

/-- Items as SAVEREG appends them name different things when they differ. -/
theorem unnamed_of_not_mem (hit : it ∉ its) : Unnamed its it.cls it.id.toNat := by
  obtain ⟨cls, id⟩ := it
  rintro ⟨cls', id'⟩ hmem rfl hid
  obtain rfl : id' = id := BitVec.eq_of_toNat_eq hid
  exact hit hmem

theorem noneOf_of_not_mem (hits : ∀ it' ∈ its, Canonical it') (hcanonical : Canonical it)
    (hsingle : ∀ id, saveId it.cls id = 0) (hit : it ∉ its) : NoneOf its it.cls := by
  obtain ⟨cls, id⟩ := it
  rintro ⟨cls', id'⟩ hmem rfl
  obtain rfl : id' = 0 := (hits _ hmem).trans (hsingle _)
  obtain rfl : id = 0 := hcanonical.trans (hsingle _)
  exact hit hmem

/-- Restoring other items leaves an item's bytes. -/
theorem itemBytes_restoreItems_of_not_mem (hits : ∀ it' ∈ its, Canonical it') (hcanonical : Canonical it)
    (hit : it ∉ its) : itemBytes env (restoreItems its bytes s) it = itemBytes env s it := by
  have hunnamed := unnamed_of_not_mem hit
  have hnone := noneOf_of_not_mem hits hcanonical (hit := hit)
  rw [itemBytes, itemBytes, itemCount_of_configView configView_restoreItems]
  refine List.flatMap_congr fun n hn => ?_
  have hn : n < itemCount s it := List.mem_range.1 hn
  obtain ⟨cls, id⟩ := it
  cases cls <;> simp only [elementBytes]
  case region => rw [readRegion_restoreItems hunnamed (lt_trans hn (regionSize_lt s _))]
  case bank => rw [bankAt_restoreItems hunnamed]
  case scroll => rw [scrollAt_restoreItems hunnamed]
  case flip => rw [flip_restoreItems (hnone fun _ => rfl)]
  case latches => rw [latch_restoreItems (hnone fun _ => rfl)]
  case lines => rw [lineAt_restoreItems hunnamed]
  case palette => rw [palette_restoreItems (hnone fun _ => rfl)]
  case lookup => rw [lookup_restoreItems (hnone fun _ => rfl)]

/-- Different items restored from bytes in range have these bytes afterwards. -/
theorem flatMap_itemBytes_restoreItems (hs : Shaped s) (hnodup : its.Nodup)
    (hits : ∀ it ∈ its, saveTargetOk s it.cls it.id = true ∧ Canonical it)
    (hlen : bytes.length = (its.map (itemLength s)).sum) (hok : itemsOk s its bytes = true) :
    its.flatMap (itemBytes env (restoreItems its bytes s)) = bytes := by
  induction its generalizing s bytes with
  | nil => exact (List.length_eq_zero_iff.1 hlen).symm
  | cons it its ih =>
    obtain ⟨hit, hnodup⟩ := List.nodup_cons.1 hnodup
    obtain ⟨⟨htarget, hcanonical⟩, hits⟩ := List.forall_mem_cons.1 hits
    obtain ⟨hfirst, hrest⟩ := Bool.and_eq_true_iff.1 hok
    rw [List.map_cons, List.sum_cons] at hlen
    have htake : (bytes.take (itemLength s it)).length = itemLength s it := by
      rw [List.length_take]
      omega
    have hsizes := tableSizes_restoreItem hs htarget htake
    have hbytes : itemBytes env (restoreItems (it :: its) bytes s) it = bytes.take (itemLength s it) :=
      (itemBytes_restoreItems_of_not_mem (fun it' hi => (hits it' hi).2) hcanonical hit).trans
        (itemBytes_restoreItem hs htarget htake hfirst)
    have hothers := ih (hs.of_update hsizes (restoreItem_screen _ _ _)) hnodup
      (fun it' hi => by
        rw [saveTargetOk_of_sizes hsizes]
        exact hits it' hi)
      (by rw [funext (itemLength_of_sizes hsizes), List.length_drop, hlen, Nat.add_sub_cancel_left])
      ((itemsOk_of_configView (configView_restoreItem _ _ _) its _).trans hrest)
    rw [List.flatMap_cons, hbytes]
    exact (congrArg _ hothers).trans (List.take_append_drop _ _)

end Restored

/-! ## The notifications (R207, R334) -/

/-- The events are added, the oldest first, and the CPUs' records are these. -/
def notified (added : List Event) (obs : List (List CpuObs)) (s : State) : State :=
  { s with events := added.reverse ++ s.events, cpuObs := obs }

theorem notified_notified (added added' : List Event) (obs obs' : List (List CpuObs)) (s : State) :
    notified added' obs' (notified added obs s) = notified (added ++ added') obs' s := by
  simp only [notified, List.reverse_append, List.append_assoc]

/-- Steps that each add events, and which ones does not depend on those added before. -/
theorem foldl_eq_notified {α : Type} {f : State → α → State} {added : State → α → List Event}
    (hstep : ∀ u a, ∃ obs, f u a = notified (added u a) obs u)
    (hsame : ∀ u es obs, added (notified es obs u) = added u) (as : List α) (u : State) :
    ∃ obs, as.foldl f u = notified (as.flatMap (added u)) obs u := by
  induction as generalizing u with
  | nil => exact ⟨u.cpuObs, rfl⟩
  | cons a as ih =>
    obtain ⟨obs, hfirst⟩ := hstep u a
    obtain ⟨obs', hrest⟩ := ih (f u a)
    refine ⟨obs', hrest.trans ?_⟩
    rw [hfirst, hsame, notified_notified, List.flatMap_cons]

/-- The notification of a line whose activity is not the one it had. -/
def changeNotice (before u : State) (c l : Nat) : List Event :=
  if lineActive before c l = lineActive u c l then [] else [.irqLine c l (lineActive u c l)]

/-- The notifications of one restored item. -/
def itemNotices (before u : State) (it : SaveItem) : List Event :=
  if it.cls = .lines then (List.range (u.params.nlineOf it.id.toNat)).flatMap (changeNotice before u it.id.toNat)
  else []

theorem notifyChange_eq_notified (before u : State) (c l : Nat) :
    ∃ obs, notifyChange before c u l = notified (changeNotice before u c l) obs u := by
  unfold notifyChange changeNotice
  split_ifs
  · exact ⟨u.cpuObs, rfl⟩
  · exact ⟨_, rfl⟩

theorem notifyItem_eq_notified (before u : State) (it : SaveItem) :
    ∃ obs, notifyItem before u it = notified (itemNotices before u it) obs u := by
  obtain ⟨cls, id⟩ := it
  cases cls
  case lines => exact foldl_eq_notified (fun u l => notifyChange_eq_notified before u id.toNat l) (fun _ _ _ => rfl) _ u
  all_goals exact ⟨u.cpuObs, rfl⟩

theorem notifyItems_eq_notified (before u : State) (its : List SaveItem) :
    ∃ obs, its.foldl (notifyItem before) u = notified (its.flatMap (itemNotices before u)) obs u :=
  foldl_eq_notified (notifyItem_eq_notified before) (fun _ _ _ => rfl) its u

/-- The notices are those of the lines whose activity changed, in ascending number. -/
theorem itemNotices_eq (before u : State) (it : SaveItem) :
    itemNotices before u it =
      if it.cls = .lines then
        ((List.range (u.params.nlineOf it.id.toNat)).filter fun l =>
          lineActive u it.id.toNat l != lineActive before it.id.toNat l).map fun l =>
            .irqLine it.id.toNat l (lineActive u it.id.toNat l)
      else [] := by
  unfold itemNotices
  split_ifs
  · induction List.range (u.params.nlineOf it.id.toNat) with
    | nil => rfl
    | cons l ls ih =>
      rw [List.flatMap_cons, ih, changeNotice, List.filter_cons]
      by_cases h : lineActive before it.id.toNat l = lineActive u it.id.toNat l
      · simp [h]
      · simp [h, Ne.symm h]
  · rfl

/-! ## The command (R334) -/

/-- All of a bank but its offset is what BANKDEF defined. -/
theorem bank_eq_of_definition {bk bk' : Bank} (hvalid : bk'.valid = bk.valid) (hregion : bk'.region = bk.region)
    (hsize : bk'.size = bk.size) : bk' = { bk with offset := bk'.offset } := by
  obtain ⟨_, _, _, _⟩ := bk'
  subst hvalid hregion hsize
  rfl

section Command

variable {s : State}

/-- What RESTORE makes of the state, but for what it adds to the restored items. -/
theorem completed_restored_eq (s : State) :
    ∃ obs, completed (restored s) = { restoreItems s.save s.payloadIn s with
      status := codeOk
      dirty := s.dirty.map fun row => row.map fun _ => true
      events := (restoreNotices s (restoreItems s.save s.payloadIn s)).reverse ++ s.events
      cpuObs := obs } := by
  have hparams : (restoreItems s.save s.payloadIn s).params = s.params := read_restoreItems State.params fun _ => rfl
  have hdirty : (restoreItems s.save s.payloadIn s).dirty = s.dirty := read_restoreItems State.dirty fun _ => rfl
  have hevents : (restoreItems s.save s.payloadIn s).events = s.events := read_restoreItems State.events fun _ => rfl
  obtain ⟨obs, hnotified⟩ := notifyItems_eq_notified s (restoreItems s.save s.payloadIn s) s.save
  have hnotices : s.save.flatMap (itemNotices s (restoreItems s.save s.payloadIn s)) =
      restoreNotices s (restoreItems s.save s.payloadIn s) :=
    List.flatMap_congr fun it _ => by rw [itemNotices_eq, hparams]
  refine ⟨obs, ?_⟩
  rw [restored, hnotified, hnotices, completed, allDirty, notified, hdirty, hevents]

/-- Settles O58: each item is written from its own bytes, and no later item writes it again. -/
theorem snapshotOfRestore : Obligations.SnapshotOfRestore := by
  intro s hs hshaped hlen hok
  have hslots := congrArg ConfigView.slots (configView_restoreItems (its := s.save) (bytes := s.payloadIn) (s := s))
  obtain ⟨obs, hrestored⟩ := completed_restored_eq s
  refine ⟨_, exec_restore_accepted hs hlen hok, rfl, ?snapshot, ?frame, fun r o ho hr => ?region, fun b => ?slots,
    fun b hb => ?bank, fun L e hL => ?scroll, fun c l hc => ?line, fun hnone => ?flip, fun hnone => ?latches,
    fun hnone => ?palette, fun hnone => ?lookup⟩ <;> rw [hrestored]
  case snapshot =>
    have hsave : (restoreItems s.save s.payloadIn s).save = s.save := read_restoreItems State.save fun _ => rfl
    have hbytes := flatMap_itemBytes_restoreItems (env := Config.env) hshaped hshaped.savedOnce hshaped.saved hlen hok
    exact (congrArg (List.flatMap _) hsave).trans hbytes
  case frame =>
    exact congrArg (fun v : State => { v with
      status := codeOk
      dirty := s.dirty.map fun row : List Bool => row.map fun _ => true
      events := (restoreNotices s (restoreItems s.save s.payloadIn s)).reverse ++ s.events
      cpuObs := obs }) (eq_of_unsavedView restoreItems_unsavedView)
  case region => exact readRegion_restoreItems (unnamed_of_saved hr) ho
  case slots =>
    obtain ⟨hvalid, hregion, hsize⟩ := bankAt_of_slots hslots b
    exact bank_eq_of_definition hvalid hregion hsize
  case bank => exact bankAt_restoreItems (unnamed_of_saved hb)
  case scroll => exact scrollAt_restoreItems (unnamed_of_saved hL) e
  case line => exact lineAt_restoreItems (unnamed_of_saved hc) l
  case flip => exact flip_restoreItems (noneOf_of_savedAny hnone)
  case latches => exact latch_restoreItems (noneOf_of_savedAny hnone)
  case palette => exact palette_restoreItems (noneOf_of_savedAny hnone)
  case lookup => exact lookup_restoreItems (noneOf_of_savedAny hnone)

end Command

end Sys2Proof.Machine
end

/-! PROOFS of the host family, fifth part: RESTORE of a payload just taken (spec/47_host.md R334, R335). Every item is
written with what it holds, so that nothing changes that can be read, and no line changes its activity. -/
section

namespace Sys2Proof.Machine

/-! ## What a legal state's own snapshot passes (R334) -/

section OwnSnapshot

variable {env : Env} {s t : State} {its : List SaveItem} {it : SaveItem}

theorem lineByte_inRange {ln : Line} (hln : ln.st ≠ .acknowledged) :
    numberAt (lineBytes ln) 0 1 < 8 ∧ numberAt (lineBytes ln) 0 1 % 4 ≠ 2 := by
  obtain ⟨st, hasvec, vec⟩ := ln
  rw [numberAt_one]
  cases st
  case acknowledged => exact absurd rfl hln
  all_goals cases hasvec <;> simp [lineBytes, lineStateCode]

/-- The bytes of an item pass the check of RESTORE. -/
theorem itemOk_itemBytes (hs : Shaped s) (hlines : linesOk s) (hlookup : lookupOk s) :
    itemOk s it (itemBytes env s it) = true := by
  refine List.all_eq_true.2 fun n hn => ?_
  have hn : n < itemCount s it := List.mem_range.1 hn
  have hchunk := chunk_itemBytes env s hn
  have hnumber := numberAt_itemBytes (env := env) hn
  obtain ⟨cls, id⟩ := it
  cases cls <;> simp only [elementOk]
  case flip =>
    have hn0 : n = 0 := Nat.lt_one_iff.1 hn
    subst hn0
    rw [decide_eq_true_eq, show numberAt _ 0 1 = leNat [if s.flip then 1 else 0] from hnumber]
    cases s.flip <;> decide
  case lines =>
    have hbyte : numberAt (itemBytes env s ⟨.lines, id⟩) (2 * n) 1 = numberAt (lineBytes (lineAt s id.toNat n)) 0 1 :=
      (numberAt_chunk (w := 2) _ (by decide)).symm.trans (congrArg (numberAt · 0 1) hchunk)
    obtain ⟨hbits, hstate⟩ := lineByte_inRange (lineAt_ne_acknowledged hlines id.toNat n)
    rw [hbyte, Bool.and_eq_true, decide_eq_true_eq, decide_eq_true_eq]
    exact ⟨hbits, hstate⟩
  case lookup =>
    have hin : n < s.lookup.length := hs.lookup.symm ▸ hn
    have hvalue : numberAt (itemBytes env s ⟨.lookup, id⟩) (2 * n) 2 = (s.lookup.getD n 0).toNat :=
      hnumber.trans ((leNat_natToLe _ _).trans (Nat.mod_eq_of_lt (s.lookup.getD n 0).isLt))
    rw [decide_eq_true_eq, hvalue, List.getD_eq_getElem _ _ hin]
    exact hlookup _ (List.getElem_mem hin)

theorem itemsOk_flatMap_itemBytes (hs : Shaped s) (hlines : linesOk s) (hlookup : lookupOk s) (its : List SaveItem) :
    itemsOk s its (its.flatMap (itemBytes env s)) = true := by
  induction its with
  | nil => rfl
  | cons it its ih =>
    have hlen := itemBytes_length env s it
    rw [itemsOk, List.flatMap_cons, List.take_left' hlen, List.drop_left' hlen, itemOk_itemBytes hs hlines hlookup, ih]
    rfl

/-! ## What it restores (R334, R335) -/

theorem Shaped.of_sameBytes (hs : Shaped s) (h : SameBytes env s t) : Shaped t := by
  rw [h.frame]
  exact hs.of_update rfl rfl

/-- Items restored from their own bytes, of this state or of one with the same bytes. -/
theorem SameBytes.restoreItems (hs : Shaped s) (htargets : ∀ it ∈ its, saveTargetOk s it.cls it.id = true)
    (h : SameBytes env s t) : SameBytes env s (Machine.restoreItems its (its.flatMap (itemBytes env s)) t) := by
  induction its generalizing t with
  | nil => exact h
  | cons it its ih =>
    obtain ⟨htarget, htargets⟩ := List.forall_mem_cons.1 htargets
    have hlen : (itemBytes env s it).length = itemLength t it := by
      rw [itemBytes_length]
      exact (h.reads (fun v => itemLength v it) fun _ _ => rfl).symm
    have htarget' : saveTargetOk t it.cls it.id = true :=
      (h.reads (fun v => saveTargetOk v it.cls it.id) fun _ _ => rfl).trans htarget
    have hfirst := sameBytes_restoreItem (env := env) (hs.of_sameBytes h) htarget'
    rw [h.itemBytes_eq] at hfirst
    rw [List.flatMap_cons, Machine.restoreItems, List.take_left' hlen, List.drop_left' hlen]
    exact ih htargets (h.trans hfirst)

/-- Where no line changed its activity nobody is notified. -/
theorem notifyItems_of_unchanged (h : lineActive t = lineActive s) (its : List SaveItem) :
    its.foldl (notifyItem s) t = t := by
  have hchange (c l : Nat) : notifyChange s c t l = t := by rw [notifyChange, h, if_pos rfl]
  refine List.foldl_fixed' (fun it => ?_) its
  obtain ⟨cls, id⟩ := it
  cases cls
  case lines => exact List.foldl_fixed' (hchange id.toNat) _
  all_goals rfl

/-- RESTORE of the state's own snapshot. -/
theorem exec_restore_own (hs : s.phase = .run) (hshaped : Shaped s) (hlines : linesOk s) (hlookup : lookupOk s)
    (hpayload : s.payloadIn = snapshotBytes Config.env s) :
    ∃ t, exec .restore s = .next (completed (allDirty t)) ∧ SameBytes Config.env s t := by
  have hsame := (SameBytes.refl (env := Config.env) s).restoreItems hshaped fun it hit => (hshaped.saved it hit).1
  refine ⟨_, ?_, hsame⟩
  have hlen : s.payloadIn.length = snapshotLength s := hpayload ▸ snapshotBytes_length Config.env s
  have hok : itemsOk s s.save s.payloadIn = true := hpayload ▸ itemsOk_flatMap_itemBytes hshaped hlines hlookup s.save
  have hactive : lineActive (restoreItems s.save s.payloadIn s) = lineActive s := by
    rw [hpayload]
    exact hsame.reads lineActive fun _ _ => rfl
  rw [exec_restore_accepted hs hlen hok, restored, notifyItems_of_unchanged hactive, hpayload]
  rfl

end OwnSnapshot

end Sys2Proof.Machine
end

/-! PROOFS of the host family, sixth part: the picture after a RESTORE (spec/47_host.md R335, property P7). Two states
with the same source of a picture, each with a coherent cache, are drawn alike, step by step: Resolve leaves the same
cache entries in both, whichever of the cells were dirty. -/
section

namespace Sys2Proof.Machine

/-! ## What a picture is drawn from (spec/46_frame.md R310) -/

/-- A state without what RENDER writes and without what no picture reads, or only as the bytes of a region. -/
def unpictured (s : State) : State := { renderView s with r0 := 0, mem := [], payloadIn := [], payloadOut := [] }

/-- The two states give a picture the same source: all but the frame buffer and the cells. -/
structure SameSource (env : Env) (p r : State) : Prop where
  state : unpictured r = unpictured p
  regions : regionView env r = regionView env p
  sprites : p.spr.valid = true → ∀ n, spriteBytes env r n = spriteBytes env p n

/-- A state in Run whose tables have their sizes and whose clean cells hold what Resolve would give (R41). -/
structure Drawable (env : Env) (s : State) : Prop where
  run : s.phase = .run
  shaped : Shaped s
  coherent : ∀ L, layerOk s L = true → cacheCoherent env s L

/-- Two states that a picture is drawn from alike, over the same frame buffer. -/
structure Alike (env : Env) (p r : State) : Prop where
  source : SameSource env p r
  fb : r.fb = p.fb
  left : Drawable env p
  right : Drawable env r

section Sources

variable {env : Env} {p q r t : State}

namespace SameSource

theorem refl (p : State) : SameSource env p p := ⟨rfl, rfl, fun _ _ => rfl⟩

/-- What reads only the source reads the same. -/
theorem reads {α : Type} (h : SameSource env p r) (f : State → α) (hf : ∀ v, f (unpictured v) = f v) : f r = f p :=
  (hf r).symm.trans ((congrArg f h.state).trans (hf p))

/-- Drawing leaves the source as it is. -/
theorem drawn (h : SameSource env p r) (hp : DrawnOn p q) (hr : DrawnOn r t) : SameSource env q t where
  state := (hr.reads unpictured fun _ => rfl).trans (h.state.trans (hp.reads unpictured fun _ => rfl).symm)
  regions := (hr.reads (regionView env) fun _ => rfl).trans
    (h.regions.trans (hp.reads (regionView env) fun _ => rfl).symm)
  sprites hspr n := by
    have hvalid : q.spr.valid = p.spr.valid := hp.reads (fun v => v.spr.valid) fun _ => rfl
    have hp' : spriteBytes env q n = spriteBytes env p n := hp.reads (fun v => spriteBytes env v n) fun _ => rfl
    have hr' : spriteBytes env t n = spriteBytes env r n := hr.reads (fun v => spriteBytes env v n) fun _ => rfl
    rw [hr', h.sprites (hvalid ▸ hspr), hp']

theorem resolvedTile_eq (h : SameSource env p r) (L c : Nat) : resolvedTile env r L c = resolvedTile env p L c := by
  have hlayer : layerAt r L = layerAt p L := h.reads (layerAt · L) fun _ => rfl
  rw [resolvedTile, resolvedTile, hlayer, h.regions]

theorem spriteRecord_eq (h : SameSource env p r) (hspr : p.spr.valid = true) (n : Nat) :
    spriteRecord env r n = spriteRecord env p n := by
  have hconfig : r.spr = p.spr := h.reads State.spr fun _ => rfl
  rw [spriteRecord, spriteRecord, hconfig, h.sprites hspr]

/-- What reads the frame buffer besides reads the same where that is the same. -/
theorem reads_screen {α : Type} (h : SameSource env p r) (hfb : r.fb = p.fb) (f : State → α)
    (hf : ∀ v fb, f { unpictured v with fb := fb } = f { v with fb := fb }) : f r = f p := by
  have hread := congrArg (fun v : State => f { v with fb := p.fb }) h.state
  have hscreen : ({ r with fb := p.fb } : State) = r := by rw [← hfb]
  calc f r = f { r with fb := p.fb } := congrArg f hscreen.symm
    _ = f { unpictured r with fb := p.fb } := (hf r p.fb).symm
    _ = f { unpictured p with fb := p.fb } := hread
    _ = f p := hf p p.fb

end SameSource

/-! ## What drawing keeps (R41) -/

/-- STATUS, the pixels of the frame buffer and the event stream are not looked at. -/
theorem Drawable.screen (h : Drawable env p) {fb : List Pixel} (hfb : fb.length = p.fb.length) (v : Byte)
    (es : List Event) : Drawable env { p with status := v, fb := fb, events := es } where
  run := h.run
  shaped := h.shaped.of_update rfl (by simp [hfb])
  coherent := h.coherent

/-- Resolve that completed met no colour group that does not exist. -/
theorem coloursExist_of_resolveCells {L b : Nat} (h : resolveCells env L (List.range b) p = .ok () q) :
    ColoursExist env L b p := by
  refine (coloursExist_or_first env L b p).resolve_right ?_
  rintro ⟨c, hc, hcolours, hdirty, hcolour⟩
  obtain ⟨w, hw, -⟩ := resolveCells_of_noColour hcolours hdirty hcolour hc
  rw [h] at hw
  cases hw

/-- In a coherent layer every cell of the grid has a colour group that exists, if every dirty one does. -/
theorem colour_lt_of_coloursExist {L c : Nat} (h : cacheCoherent env p L)
    (hcolours : ColoursExist env L (cellCount (layerAt p L)) p) (hc : c < cellCount (layerAt p L)) :
    (resolvedTile env p L c).color.toNat < p.params.ngroup := by
  cases hdirty : dirtyAt p L c with
  | true => exact hcolours c hc hdirty
  | false => exact (h c hc hdirty).2

/-- A cell has an entry exactly when it is in the grid; so after Resolve of a coherent layer its entries are these. -/
theorem cacheAt_resolved {L : Nat} (h : CellsResolved env L (cellCount (layerAt p L)) p q) (hL : LayerShaped p L)
    (hcoherent : cacheCoherent env p L) (c : Nat) :
    cacheAt q L c =
      if c < cellCount (layerAt p L) then cachedTile p L (resolvedTile env p L c) else ⟨0, 0, false, false, 0⟩ := by
  rw [h.cacheAt_of_coherent hcoherent, hL.cache]
  by_cases hc : c < cellCount (layerAt p L)
  · rw [if_pos ⟨hc, hc⟩, if_pos hc]
  · rw [if_neg fun h => hc h.1, if_neg hc, cacheAt, List.getD_eq_default _ _ (hL.cache ▸ Nat.not_lt.1 hc)]

/-- Resolve keeps what a picture needs. -/
theorem Drawable.resolve (h : Drawable env p) {L : Nat} (hresolve : resolveLayer env L p = .ok () q) :
    Drawable env q := by
  have hcells := cellsResolved_of_ok hresolve
  have hkeeps := (shaped_kept env).resolveCells L (List.range (cellCount (layerAt p L))) p h.run
  rw [show resolveCells env L _ p = .ok () q from hresolve] at hkeeps
  obtain ⟨hshaped, hphase⟩ := hkeeps
  refine ⟨hphase.trans h.run, hshaped h.shaped, fun M hM c hc hdirty => ?_⟩
  have hM : layerOk p M = true := by rwa [layerOk, hcells.params_eq, hcells.layerAt_eq] at hM
  rw [hcells.layerAt_eq] at hc
  rw [hcells.cachedTile_eq, hcells.resolvedTile_eq, hcells.params_eq]
  rcases eq_or_ne M L with rfl | hne
  · have hcolours := coloursExist_of_resolveCells hresolve
    rw [cacheAt_resolved hcells (h.shaped.layerRows M hM) (h.coherent M hM), if_pos hc]
    exact ⟨rfl, colour_lt_of_coloursExist (h.coherent M hM) hcolours hc⟩
  · rw [hcells.cacheAt_other hne]
    refine h.coherent M hM c hc ?_
    simpa [hcells.dirty, hne] using hdirty

/-! ## Drawing alike (R310, P7) -/

theorem nestedDraw_tmcomposite {x0 y0 x1 y1 : Word16} {L : Word32} {mode : Bool} {pen : Word16}
    (hL : layerOk p L.toNat = true) :
    nestedDraw p (tmcompositeBody env x0 y0 x1 y1 L mode pen p) =
      andThen (resolveLayer env L.toNat p) fun _ w =>
        .ok () (paint (clipOf w x0.toNat y0.toNat x1.toNat y1.toNat) (layerPicture env w L.toNat mode pen) w) := by
  rw [tmcompositeBody_of_layer hL]
  exact nestedDraw_of_draws (Res.Draws.resolveCells _ _ p) _

namespace Alike

/-- The same pixels on both frame buffers. -/
theorem screen (h : Alike env p r) {fb : List Pixel} (hfb : fb.length = p.fb.length) (es es' : List Event) :
    Alike env { p with fb := fb, events := es } { r with fb := fb, events := es' } where
  source := h.source.drawn (.of_screen p.status fb es) (.of_screen r.status fb es')
  fb := rfl
  left := h.left.screen hfb p.status es
  right := h.right.screen (hfb.trans (congrArg List.length h.fb).symm) r.status es'

/-- Resolve goes through in both, and leaves the same cache entries. -/
theorem resolve (h : Alike env p r) {L : Nat} (hL : layerOk p L = true) (hresolve : resolveLayer env L p = .ok () q) :
    ∃ t, resolveLayer env L r = .ok () t ∧ Alike env q t ∧ ∀ c, cacheAt t L c = cacheAt q L c := by
  have hlayer : layerAt r L = layerAt p L := h.source.reads (layerAt · L) fun _ => rfl
  have hparams : r.params = p.params := h.source.reads State.params fun _ => rfl
  have hL' : layerOk r L = true := (h.source.reads (layerOk · L) fun _ => rfl).trans hL
  have hcached (tl : Tile) : cachedTile r L tl = cachedTile p L tl := h.source.reads (cachedTile · L tl) fun _ => rfl
  have hcells := cellsResolved_of_ok hresolve
  have hcolours : ColoursExist env L (cellCount (layerAt r L)) r := fun c hc _ => by
    rw [h.source.resolvedTile_eq, hparams]
    exact colour_lt_of_coloursExist (h.left.coherent L hL) (coloursExist_of_resolveCells hresolve) (hlayer ▸ hc)
  obtain ⟨t, hresolve', hcells'⟩ := resolveCells_of_coloursExist hcolours
  refine ⟨t, hresolve', ⟨h.source.drawn hcells.drawnOn hcells'.drawnOn, ?_, h.left.resolve hresolve,
    h.right.resolve hresolve'⟩, fun c => ?_⟩
  · rw [hcells.frame, hcells'.frame]
    exact h.fb
  · rw [cacheAt_resolved hcells (h.left.shaped.layerRows L hL) (h.left.coherent L hL),
      cacheAt_resolved hcells' (h.right.shaped.layerRows L hL') (h.right.coherent L hL'), hlayer, hcached,
      h.source.resolvedTile_eq]

/-- The same picture painted through the same rectangle. -/
theorem paint (h : Alike env p r) (x0 y0 x1 y1 : Nat) {picture picture' : Nat → Nat → Option Pixel}
    (hpicture : picture' = picture) :
    Alike env (Machine.paint (clipOf p x0 y0 x1 y1) picture p) (Machine.paint (clipOf r x0 y0 x1 y1) picture' r) := by
  have hclip : clipOf r x0 y0 x1 y1 = clipOf p x0 y0 x1 y1 := h.source.reads (clipOf · x0 y0 x1 y1) fun _ => rfl
  have hplace : clipped r = clipped p := h.source.reads clipped fun _ => rfl
  rw [hclip, hpicture, paint_eq_overlay, paint_eq_overlay, hplace, h.fb]
  exact h.screen List.length_mapIdx p.events r.events

/-! ## The steps of the render list (R310) -/

/-- TMCOMPOSITE as a step: Resolve leaves the same cells in both, so they show the same picture. -/
theorem tmcomposite (h : Alike env p r) {x0 y0 x1 y1 : Word16} {L : Word32} {mode : Bool} {pen : Word16}
    (hp : nestedDraw p (tmcompositeBody env x0 y0 x1 y1 L mode pen p) = .ok () q) :
    ∃ t, nestedDraw r (tmcompositeBody env x0 y0 x1 y1 L mode pen r) = .ok () t ∧ Alike env q t := by
  have hlayer : layerOk r L.toNat = layerOk p L.toNat := h.source.reads (layerOk · L.toNat) fun _ => rfl
  cases hL : layerOk p L.toNat with
  | false =>
    rw [tmcompositeBody_of_noLayer hL] at hp
    cases hp
    exact ⟨r, by rw [tmcompositeBody_of_noLayer (hlayer.trans hL), nestedDraw], h⟩
  | true =>
    rw [nestedDraw_tmcomposite hL] at hp
    obtain ⟨_, w, hresolve, hpaint⟩ := andThen_eq_ok.1 hp
    cases hpaint
    obtain ⟨w', hresolve', hw, hcache⟩ := h.resolve hL hresolve
    have hinputs : drawInputs w' = drawInputs w := hw.source.reads_screen hw.fb drawInputs fun _ _ => rfl
    have hpicture : layerPicture env w' L.toNat mode pen = layerPicture env w L.toNat mode pen := by
      funext x y
      rw [layerPicture, layerPicture, tilePixel_congr hinputs hcache]
    rw [nestedDraw_tmcomposite (hlayer.trans hL), hresolve', andThen_ok]
    exact ⟨_, rfl, hw.paint _ _ _ _ hpicture⟩

/-- A record of the sprite table. -/
theorem drawSprite (h : Alike env p r) (hspr : p.spr.valid = true) {clip : Clip} {only : Bool} {pri : Byte} {n : Nat}
    (hp : Machine.drawSprite env clip only pri n p = .ok () q) :
    ∃ t, Machine.drawSprite env clip only pri n r = .ok () t ∧ Alike env q t := by
  have hparams : r.params = p.params := h.source.reads State.params fun _ => rfl
  have hrecord := h.source.spriteRecord_eq hspr n
  have hshown : spriteDrawn env r only pri n ↔ spriteDrawn env p only pri n := by
    rw [spriteDrawn, spriteDrawn, hrecord]
  by_cases hd : spriteDrawn env p only pri n
  · rcases Nat.lt_or_ge (spriteRecord env p n).color.toNat p.params.ngroup with hcolour | hcolour
    · rw [drawSprite_eq_overlay hd hcolour] at hp
      cases hp
      have hpicture : recordOverlay env clip n r = recordOverlay env clip n p := by
        rw [recordOverlay, recordOverlay, hrecord]
        exact h.source.reads (fun v => clipped v clip (spritePicture env v (spriteRecord env p n)
          (reduceIndex v.params.oorPolicy (spriteRecord env p n).code.toNat (gfxDim v v.spr.gfx.toNat).ncodes)
          (reduceIndex v.params.oorPolicy (spriteRecord env p n).bank.toNat (gfxDim v v.spr.gfx.toNat).ngbank)))
          fun _ => rfl
      have hcolour' : (spriteRecord env r n).color.toNat < r.params.ngroup := by rwa [hrecord, hparams]
      refine ⟨_, drawSprite_eq_overlay (hshown.2 hd) hcolour', ?_⟩
      rw [hpicture, h.fb]
      exact h.screen List.length_mapIdx _ _
    · rw [drawSprite_of_noColour hd hcolour] at hp
      cases hp
  · rw [drawSprite_hidden hd] at hp
    cases hp
    exact ⟨r, drawSprite_hidden (mt hshown.1 hd), h⟩

theorem drawSprites {ns : List Nat} (h : Alike env p r) (hspr : p.spr.valid = true) {clip : Clip} {only : Bool}
    {pri : Byte} (hp : Machine.drawSprites env clip only pri ns p = .ok () q) :
    ∃ t, Machine.drawSprites env clip only pri ns r = .ok () t ∧ Alike env q t := by
  induction ns generalizing p r with
  | nil =>
    cases hp
    exact ⟨r, rfl, h⟩
  | cons n ns ih =>
    obtain ⟨_, w, hfirst, hrest⟩ := andThen_eq_ok.1 hp
    obtain ⟨w', hfirst', hw⟩ := h.drawSprite hspr hfirst
    have hdrawn : w.spr = p.spr := (repeats_drawSprite hfirst).drawnOn.reads State.spr fun _ => rfl
    obtain ⟨t, hrest', ht⟩ := ih hw (hdrawn ▸ hspr) hrest
    exact ⟨t, andThen_eq_ok.2 ⟨(), w', hfirst', hrest'⟩, ht⟩

/-- SPCOMPOSITE as a step. -/
theorem spcomposite (h : Alike env p r) {x0 y0 x1 y1 : Word16} {only : Bool} {pri : Byte}
    (hp : nestedDraw p (spcompositeBody env x0 y0 x1 y1 only pri p) = .ok () q) :
    ∃ t, nestedDraw r (spcompositeBody env x0 y0 x1 y1 only pri r) = .ok () t ∧ Alike env q t := by
  have hconfig : r.spr = p.spr := h.source.reads State.spr fun _ => rfl
  cases hspr : p.spr.valid with
  | false =>
    rw [spcompositeBody_of_invalid hspr] at hp
    cases hp
    exact ⟨r, by rw [spcompositeBody_of_invalid (hconfig ▸ hspr), nestedDraw], h⟩
  | true =>
    have hclip : clipOf r x0.toNat y0.toNat x1.toNat y1.toNat = clipOf p x0.toNat y0.toNat x1.toNat y1.toNat :=
      h.source.reads (clipOf · x0.toNat y0.toNat x1.toNat y1.toNat) fun _ => rfl
    rw [nestedDraw_spcomposite hspr] at hp
    rw [nestedDraw_spcomposite (hconfig ▸ hspr), hclip, hconfig]
    exact h.drawSprites hspr hp

theorem renderStep (h : Alike env p r) {st : RStep} (hp : Machine.renderStep env st p = .ok () q) :
    ∃ t, Machine.renderStep env st r = .ok () t ∧ Alike env q t := by
  have hsw : r.sw = p.sw := h.source.reads State.sw fun _ => rfl
  have hsh : r.sh = p.sh := h.source.reads State.sh fun _ => rfl
  unfold Machine.renderStep at hp ⊢
  cases hk : st.rk with
  | fill =>
    rw [hk] at hp
    cases hp
    refine ⟨_, rfl, ?_⟩
    rw [h.fb]
    exact h.screen (List.length_map _) p.events r.events
  | layer =>
    rw [hk] at hp
    rw [hsw, hsh]
    exact h.tmcomposite hp
  | sprites =>
    rw [hk] at hp
    rw [hsw, hsh]
    exact h.spcomposite hp

theorem renderSteps {sts : List RStep} (h : Alike env p r) (hp : Machine.renderSteps env sts p = .ok () q) :
    ∃ t, Machine.renderSteps env sts r = .ok () t ∧ Alike env q t := by
  induction sts generalizing p r with
  | nil =>
    cases hp
    exact ⟨r, rfl, h⟩
  | cons st sts ih =>
    obtain ⟨_, w, hfirst, hrest⟩ := andThen_eq_ok.1 hp
    obtain ⟨w', hfirst', hw⟩ := h.renderStep hfirst
    obtain ⟨t, hrest', ht⟩ := ih hw hrest
    exact ⟨t, andThen_eq_ok.2 ⟨(), w', hfirst', hrest'⟩, ht⟩

end Alike

end Sources

/-! ## RENDER, SNAPSHOT, RESTORE, RENDER (R335, property P7) -/

section Again

variable {env : Env} {s t : State}

/-- The bytes of the regions are a picture's source, those of the sprite table where its region is not empty. -/
theorem SameBytes.sameSource (h : SameBytes env s t)
    (hspr : s.spr.valid = true → 0 < regionSize s s.spr.region.toNat) : SameSource env s t where
  state := h.reads unpictured fun _ _ => rfl
  regions := by
    funext r o
    have hregion : regionOk t r = regionOk s r := h.reads (regionOk · r) fun _ _ => rfl
    rw [regionView, regionView, hregion, h.regionSize_eq]
    by_cases ho : o < regionSize s r
    · rw [h.byte r o ho]
    · simp [ho]
  sprites hvalid n := by
    have hconfig : t.spr = s.spr := h.reads State.spr fun _ _ => rfl
    rw [spriteBytes, spriteBytes, hconfig, h.regionSize_eq]
    exact List.map_congr_left fun b _ => h.byte _ _ (Nat.mod_lt _ (hspr hvalid))

theorem dirtyAt_allDirty_of_lt {L c : Nat} (hc : c < (s.dirty.getD L []).length) : dirtyAt (allDirty s) L c = true := by
  have hrow : (allDirty s).dirty.getD L [] = (s.dirty.getD L []).map fun _ => true :=
    List.getD_map (l := s.dirty) (d := []) fun row => row.map fun _ => true
  rw [dirtyAt, hrow, List.getD_eq_getElem _ _ (by simpa using hc), List.getElem_map]

/-- Where every cell is dirty nothing is asked of the cache. -/
theorem drawable_allDirty (hs : s.phase = .run) (hshaped : Shaped s) : Drawable env (allDirty s) where
  run := hs
  shaped := shaped_allDirty hshaped
  coherent L hL c hc hclean := by
    rw [dirtyAt_allDirty_of_lt ((hshaped.layerRows L hL).dirty.symm ▸ hc)] at hclean
    cases hclean

/-- A state after SNAPSHOT, its answer at hand as the payload of the next command. -/
def reloaded (s : State) : State :=
  let bytes := snapshotBytes Config.env s
  { completedR0 (BitVec.ofNat 32 bytes.length) { s with payloadOut := bytes } with payloadIn := bytes }

/-- SNAPSHOT and RESTORE of its payload leave the source of a picture and the frame buffer, and every cell dirty. -/
theorem drawable_after_restore {s t u : State} (hs : s.phase = .run) (hshaped : Shaped s) (hlines : linesOk s)
    (hlookup : lookupOk s) (hspr : s.spr.valid = true → 0 < regionSize s s.spr.region.toNat)
    (hsnapshot : exec .snapshot s = .next t) (hrestore : exec .restore { t with payloadIn := t.payloadOut } = .next u) :
    SameSource Config.env s u ∧ u.fb = s.fb ∧ Drawable Config.env u := by
  rw [exec_snapshot_run hs] at hsnapshot
  cases hsnapshot
  have hreloaded : Shaped (reloaded s) := hshaped.of_update rfl rfl
  obtain ⟨v, hexec, hsame⟩ := exec_restore_own (s := reloaded s) hs hreloaded hlines hlookup rfl
  have hu : Host.Outcome.next (completed (allDirty v)) = .next u := hexec.symm.trans hrestore
  cases hu
  obtain ⟨hstate, hregions, hsprites⟩ := hsame.sameSource hspr
  have hrun : v.phase = .run := (hsame.reads State.phase fun _ _ => rfl).trans hs
  exact ⟨⟨hstate, hregions, hsprites⟩, hsame.reads State.fb fun _ _ => rfl,
    (drawable_allDirty hrun (hreloaded.of_sameBytes hsame)).screen rfl codeOk _⟩

end Again

/-- Settles O57: what RESTORE writes is what is there; and the RENDER after it is drawn alike with a RENDER right after
the first one, which paints nothing new. -/
theorem restoreOfSnapshot : Obligations.RestoreOfSnapshot := by
  refine ⟨fun s a b c hs hshaped hlines hlookup hcoherent hspr hrender hok hsnapshot hrestore => ?picture,
    fun s hs hshaped hlines hlookup hpayload => ?frame⟩
  case frame =>
    obtain ⟨t, hexec, hsame⟩ := exec_restore_own hs hshaped hlines hlookup hpayload
    exact ⟨_, hexec, congrArg (fun v => completed (allDirty v)) hsame.frame, hsame.byte⟩
  case picture =>
    obtain ⟨w, hsteps, rfl⟩ := steps_of_exec_render hs hrender hok
    have hrepeats := repeats_renderSteps hsteps
    have hdrawn : DrawnOn s (rendered w) := hrepeats.drawnOn.trans (drawnOn_rendered w)
    have hdrawable : Drawable Config.env s := ⟨hs, hshaped, hcoherent⟩
    obtain ⟨_, -, hw⟩ := Alike.renderSteps ⟨.refl s, rfl, hdrawable, hdrawable⟩ hsteps
    have ha : Drawable Config.env (rendered w) := hw.left.screen rfl codeOk _
    have hspr' : (rendered w).spr.valid = true → 0 < regionSize (rendered w) (rendered w).spr.region.toNat :=
      (hdrawn.reads (fun v => v.spr.valid = true → 0 < regionSize v v.spr.region.toNat) fun _ => rfl).mpr hspr
    have hlines' : linesOk (rendered w) := linesOk_of_eq (hdrawn.reads State.lines fun _ => rfl) hlines
    have hlookup' : lookupOk (rendered w) :=
      lookupOk_of_eq (hdrawn.reads State.lookup fun _ => rfl) (hdrawn.reads State.params fun _ => rfl) hlookup
    obtain ⟨hsource, hfb, hc⟩ := drawable_after_restore ha.run ha.shaped hlines' hlookup' hspr' hsnapshot hrestore
    have hlist : c.rsteps = s.rsteps :=
      (hsource.reads State.rsteps fun _ => rfl).trans (hdrawn.reads State.rsteps fun _ => rfl)
    obtain ⟨es, hagain⟩ := hrepeats.again (drawnOn_rendered w) rfl
    obtain ⟨v, hredrawn, hv⟩ := Alike.renderSteps ⟨hsource, hfb, ha, hc⟩ hagain
    have hbitmap : bitmapOf v = bitmapOf w := hv.source.reads_screen hv.fb bitmapOf fun _ _ => rfl
    rw [← hlist] at hredrawn
    exact ⟨_, bitmapOf w, exec_render_of_steps hc.run hredrawn, rfl, rfl,
      congrArg (fun bitmap => some (Event.frame bitmap)) hbitmap⟩

end Sys2Proof.Machine
end
